-- ==== Sys2Proof/Word.lean ====
section
/-! DEFINITION. The word types of the engine: bytes, 32-bit registers, 64-bit addresses, 16-byte
blocks and byte strings (spec 00_scope.md R8, R12). Only types stand here; arithmetic and byte order
are in Machine/Bytes.lean. -/

namespace Sys2Proof

/-- A byte is 8 bits; bit 0 is its least significant bit (R12). -/
abbrev Byte := BitVec 8

/-- A register of the window is 32 bits wide (R8, R20). -/
abbrev Word := BitVec 32

/-- A host memory address is 64 bits wide (R8, R60). -/
abbrev Addr := BitVec 64

/-- A byte string; the head is `s[0]`, the byte at the lowest address (R12). -/
abbrev Bytes := List Byte

/-- A block: a byte string of length 16 that the spec also reads as a number and as four registers
(R12, R21). Byte `i` of the block is bits `[8i+7 : 8i]`, so that block word `j` is register `V_j` of R21
(log entry 17). -/
abbrev Block := BitVec 128

/-- The 64-byte key staging buffer KEY0–KEY15, under the same byte mapping (R21, R37). -/
abbrev KeyBuffer := BitVec 512

end Sys2Proof
end

