-- ==== Sys2Proof/Config.lean ====
section
/-! DEFINITION. What the spec leaves to the implementation or leaves free, as constants without a body:
the raw AES permutation, the 256-bit digest, the draw of the ESSIV hash failure and the draws of races
(spec 00_scope.md R9, R10; 41_setkey.md R135; 20_memory.md R81). The platform parameters of R11 are data of State
(log entry 4). -/

namespace Sys2Proof.Config

/-- FREE. One permutation of the blocks for each key. R9 (b) makes `AES_E k` a bijection of a finite set
with inverse `AES_D k`, which is what this type says; R9 (c) is added in Machine/Primitives.lean, where
`AES_E` and `AES_D` are defined from it (log entry 1). -/
opaque aesPerm : Bytes → Equiv.Perm Block

/-- FREE. `DIGEST256 : Bytes → Bytes 32`, a total deterministic function (R10); the result's byte `i` is
bits `[8i+7 : 8i]` (log entry 2). -/
opaque digest256 : Bytes → BitVec 256

/-- FREE. The draw `HashFail` of R135, one for each SETKEY.ESSIV: the argument is the number of draws made
before it (the field `draws` of State; log entry 2). -/
opaque hashFail : Nat → Bool

/-- FREE. The draw of a racing byte (20_memory.md R81): which of the admitted values it is. The argument is the
number of draws made before it (the field `draws` of State; log entry 8). -/
opaque raceDraw : Nat → Nat

end Sys2Proof.Config
end

