-- ==== Sys2Proof/Machine/Bytes.lean ====
section
/-! DEFINITION. Byte strings and byte order: 00_scope.md R12 and R13, and the word mapping of
10_state.md R21. -/

namespace Sys2Proof.Machine

/-- `le(s) = Σ s[i]·256^i` (R13). -/
def le : Bytes → Nat
  | [] => 0
  | b :: s => b.toNat + 256 * le s

/-- `to_le(n, w)`: the `w` bytes of `n`, least significant first (R13). -/
def toLe : Nat → Nat → Bytes
  | _, 0 => []
  | n, w + 1 => BitVec.ofNat 8 n :: toLe (n / 256) w

/-- `be(s)`: `s[0]` most significant (R13). -/
def be (s : Bytes) : Nat := le s.reverse

/-- `to_be(n, w)` (R13). -/
def toBe (n w : Nat) : Bytes := (toLe n w).reverse

/-- `rep(v, n)` (R12). -/
def rep (v : Byte) (n : Nat) : Bytes := List.replicate n v

/-- `zeros(n)` (R12). -/
def zeros (n : Nat) : Bytes := rep 0 n

/-- `s[a ..< b]` (R12). -/
def slice (s : Bytes) (a b : Nat) : Bytes := (s.drop a).take (b - a)

/-- `s ⊕ t` for byte strings of equal length (R13). -/
def xorBytes (s t : Bytes) : Bytes := List.zipWith (· ^^^ ·) s t

/-- The 16 bytes of a block (R21: byte `i` is bits `[8i+7 : 8i]`). -/
def blockBytes (b : Block) : Bytes := toLe b.toNat 16

/-- The block with these 16 bytes. -/
def blockOf (s : Bytes) : Block := BitVec.ofNat 128 (le s)

/-- Register `V_j` of a byte string held in consecutive registers (R21). -/
def getWord {n : Nat} (b : BitVec n) (j : Nat) : Word := b.extractLsb' (32 * j) 32

/-- The byte string after `v` is written to register `V_j` (R21). -/
def setWord {n : Nat} (b : BitVec n) (j : Nat) (v : Word) : BitVec n :=
  (b &&& ~~~((0xFFFFFFFF#32).setWidth n <<< (32 * j))) ||| (v.setWidth n <<< (32 * j))

/-- The 64-bit value of a `_LO`/`_HI` pair after its low register is written (R21). -/
def setLo (b : BitVec 64) (v : Word) : BitVec 64 := b.extractLsb' 32 32 ++ v

/-- The 64-bit value of a `_LO`/`_HI` pair after its high register is written (R21). -/
def setHi (b : BitVec 64) (v : Word) : BitVec 64 := v ++ b.extractLsb' 0 32

end Sys2Proof.Machine
end

