-- ==== Sys2Proof/Machine/State.lean ====
section
/-! DEFINITION. The state of the machine as plain data: the engine instances (10_state.md), host memory
(20_memory.md R60), the platform's parameters (00_scope.md R11), the turns of the agents, and the reset
values of R50. -/

namespace Sys2Proof.Machine

/-- The key classes of 41_setkey.md R130; their values 0–5 are `KeyClass.value`. -/
inductive KeyClass where
  /-- 0 NONE: no valid key. -/
  | none
  /-- 1 PLAIN: ECB, CBC, CTS, CTR, XCTR, CBCMAC. -/
  | plain
  /-- 2 ESSIV. -/
  | essiv
  /-- 3 XTS. -/
  | xts
  /-- 4 CMAC. -/
  | cmac
  /-- 5 XCBC. -/
  | xcbc
deriving DecidableEq, Repr

/-- The error kinds of 60_exceptions.md R260; their codes 1–8 are `ErrorKind.code`. -/
inductive ErrorKind where
  | invalidKeyLength
  | invalidRequestLength
  | unsupportedLength
  | bufferIoFailure
  | illegalCommand
  | keyNotSet
  | sequenceError
  | essivHashFailure
deriving DecidableEq, Repr

/-- The sequencing states of R42 and 40_control.md R110. -/
inductive Phase where
  | idle
  | check
  | map
  | seed
  | bulk
  | tail
  | commit
deriving DecidableEq, Repr

/-- The kind of a DMA access, an argument of `MemOk` (00_scope.md R11). -/
inductive Access where
  | read
  | write
deriving DecidableEq, Repr

/-- One pair `(addr, n)` of a segment map (R45). -/
structure Segment where
  /-- The address of the segment's first byte. -/
  addr : Nat
  /-- The number of bytes of the request in the segment. -/
  len : Nat
deriving DecidableEq, Repr

/-- The key slot of R40. An element a class does not use holds the empty string. -/
structure KeySlot where
  /-- `KEY_VALID`. -/
  valid : Bool
  /-- `KEY_CLASS`. -/
  cls : KeyClass
  /-- `K_DATA`, the data key. -/
  data : Bytes
  /-- `K_TWEAK`, XTS key2. -/
  tweak : Bytes
  /-- `K_ESSIV`, the ESSIV secondary key. -/
  essiv : Bytes
  /-- `K_MAC`, the key of MAC chaining. -/
  mac : Bytes
  /-- `SK1`: CMAC K1 or XCBC K2. -/
  sk1 : Bytes
  /-- `SK2`: CMAC K2 or XCBC K3. -/
  sk2 : Bytes
deriving DecidableEq, Repr

/-- The slot with no key: its reset value (R50), and what a failed SETKEY leaves (41_setkey.md R139). -/
def KeySlot.empty : KeySlot := ⟨false, .none, [], [], [], [], [], []⟩

/-- The latched request of R43. -/
structure Latch where
  /-- `L_CMD`, the accepted word. -/
  cmd : Word
  /-- `L_LEN`. -/
  len : BitVec 32
  /-- `L_SRC`. -/
  src : Addr
  /-- `L_DST`. -/
  dst : Addr
  /-- `L_IV`. -/
  iv : Block
  /-- `L_XCTR`. -/
  xctr : BitVec 64
  /-- `L_KEYLEN`. -/
  keylen : BitVec 7
  /-- `L_KEY`. -/
  key : KeyBuffer
deriving DecidableEq, Repr

/-- The latched copies at reset (R50). -/
def Latch.reset : Latch := ⟨0, 0, 0, 0, 0, 0, 0, 0⟩

/-- The working registers of R44, and the new key slot that SETKEY makes in SEED and installs in COMMIT
(41_setkey.md R132–R139; log entry 11). -/
structure Work where
  /-- `W_CHAIN`, the CBC chain. -/
  chain : Block
  /-- `W_TWEAK`, the XTS tweak. -/
  tweak : Block
  /-- `W_CTR`, the CTR counter. -/
  ctr : Block
  /-- `W_BC`, the XCTR byte counter. -/
  bc : BitVec 64
  /-- `W_DG`, the digest. -/
  dg : Block
  /-- `W_RES`, the result count. -/
  res : BitVec 5
  /-- `W_POS`, the stream offset of the next byte to process, 33 bits wide in the spec: a count from 0 to
  `L_LEN`, a bound that is part of the invariant (`Engine.posWf`; log entry 27). -/
  pos : Nat
  /-- The slot a SETKEY will install. -/
  newSlot : KeySlot
deriving DecidableEq, Repr

/-- The working registers at reset (R50). -/
def Work.reset : Work := ⟨0, 0, 0, 0, 0, 0, 0, .empty⟩

/-- One engine instance. -/
structure Engine where
  /-- `CTRL.IRQ_EN` (R24). -/
  irqEn : Bool
  /-- `STATUS.DONE` (R25). -/
  done : Bool
  /-- `STATUS.ERR` (R25). -/
  err : Bool
  /-- `STATUS.WR_IGN` (R25). -/
  wrIgn : Bool
  /-- `STATUS.ERRCODE` (R25, 60_exceptions.md R260). -/
  errCode : BitVec 4
  /-- `LEN` (R28). -/
  len : BitVec 32
  /-- `SRC` (R29). -/
  src : Addr
  /-- `DST` (R30). -/
  dst : Addr
  /-- `KEYLEN` (R31). -/
  keylen : BitVec 7
  /-- `RESULT` (R32). -/
  result : BitVec 5
  /-- `ERR_ADDR` (R33). -/
  errAddr : Addr
  /-- `XCTR` (R34). -/
  xctr : BitVec 64
  /-- `IV` (R35). -/
  iv : Block
  /-- `KEY` (R37). -/
  key : KeyBuffer
  /-- The key slot (R40). -/
  slot : KeySlot
  /-- `MAC_ACTIVE` (R41). -/
  macActive : Bool
  /-- `MAC_MODE` (R41). -/
  macMode : BitVec 4
  /-- `DG` (R41). -/
  dg : Block
  /-- `phase` (R42). -/
  phase : Phase
  /-- The latched request (R43). -/
  latch : Latch
  /-- The working registers (R44). -/
  work : Work
  /-- `SRC_MAP` (R45). -/
  srcMap : List Segment
  /-- `DST_MAP` (R45). -/
  dstMap : List Segment
  /-- `k` of 20_memory.md R65: the descriptors read so far of the list being walked (log entry 10). -/
  descIndex : Nat
  /-- The bytes read so far of the unit in progress (20_memory.md R68; log entry 10). -/
  unitIn : Bytes
  /-- The output bytes of the unit still to be written, once it is computed (R68; log entry 10). -/
  unitOut : Option Bytes
deriving DecidableEq, Repr

/-- The engine after a hard or soft reset: the values of R50. -/
def Engine.reset : Engine where
  irqEn := false
  done := false
  err := false
  wrIgn := false
  errCode := 0
  len := 0
  src := 0
  dst := 0
  keylen := 0
  result := 0
  errAddr := 0
  xctr := 0
  iv := 0
  key := 0
  slot := .empty
  macActive := false
  macMode := 0
  dg := 0
  phase := .idle
  latch := .reset
  work := .reset
  srcMap := []
  dstMap := []
  descIndex := 0
  unitIn := []
  unitOut := none

/-- Host memory: the bytes that differ from what an unlisted address reads as, by rising address. -/
abbrev Memory := List Host.Cell

/-- What an unlisted address of host memory reads as. DESIGN CHOICE: the spec gives no power-on contents;
0 is what every program of 95_test_vectors.md §4 starts from (log entry 3). -/
def Memory.blank : Byte := 0

/-- One reason of the platform to refuse a DMA access: the data behind `MemOk` (00_scope.md R11;
log entry 4). -/
inductive Denial where
  /-- Refuse every access of this kind that touches a byte of `[base, base + size)`. -/
  | region (base size : Nat) (kind : Access)
  /-- Refuse the one access of `n` bytes at `addr`. -/
  | exact (addr n : Nat) (kind : Access)
deriving DecidableEq, Repr

/-- The platform parameters of 00_scope.md R11 as data that no step changes (log entry 4). -/
structure Platform where
  /-- `MAX_SEGMENTS`. -/
  maxSegments : Nat
  /-- `ENGINE_BASE(i)` for `i = 0, 1, …`. -/
  bases : List Nat
  /-- What `MemOk` refuses. -/
  denials : List Denial
deriving DecidableEq, Repr

/-- The platform of `State.reset`: no access refused, 16 segments, one window. DESIGN CHOICE
(log entry 4). -/
def Platform.reset : Platform := ⟨16, [0xA0000000], []⟩

/-- One turn of one agent (00_scope.md R7; 40_control.md R121; log entry 5). -/
inductive Turn where
  /-- Engine instance `k` takes one engine step of R121. -/
  | engine (k : Nat)
  /-- The host writes `v` to the window register at bus address `addr`, `width` bytes wide. -/
  | write (addr width : Nat) (v : Word)
  /-- The host reads the window register at bus address `addr`, `width` bytes wide. -/
  | read (addr width : Nat)
  /-- The host, or another agent, stores bytes in host memory. -/
  | store (addr : Nat) (bytes : Bytes)
  /-- The host loads `n` bytes of host memory. -/
  | load (addr n : Nat)
  /-- The platform's reset input of instance `k` (70_reset_and_hazards.md R290). -/
  | hardReset (k : Nat)
  /-- The WAIT loop of 30_encoding.md R104 on instance `k`: STATUS is read until BUSY reads 0. -/
  | wait (k : Nat)
deriving DecidableEq, Repr

/-- What a host read returned. -/
inductive Seen where
  | word (v : Word)
  | bytes (b : Bytes)
deriving DecidableEq, Repr

/-- Who reads and writes host memory (00_scope.md R7). -/
inductive Agent where
  /-- The host. -/
  | host
  /-- The command in progress of engine instance `k`. -/
  | engine (k : Nat)
deriving DecidableEq, Repr

/-- A value that a racing byte had or got (the model's own; log entry 8). -/
structure RaceWrite where
  value : Byte
  /-- The agents whose coming accesses are ordered after this write: its writer (20_memory.md R80), and those
  who learned of it at a CMD write or a completion (R78, R79). -/
  known : List Agent
  /-- The agents who know a write that is ordered after this one: they read this value no more. -/
  stale : List Agent
deriving DecidableEq, Repr

/-- A byte of host memory that was written while a command was in progress (20_memory.md R81; the model's
own; log entry 8): the value before, and every value written since. -/
structure Race where
  addr : Addr
  writes : List RaceWrite
deriving DecidableEq, Repr

/-- The machine. The engine instances are `before ++ eng :: after`, in the order of their numbers; `eng`
is the one in focus, on which the meanings of commands act. -/
structure State where
  /-- The instances numbered below the one in focus. -/
  before : List Engine
  /-- The instance in focus. -/
  eng : Engine
  /-- The instances numbered above the one in focus. -/
  after : List Engine
  /-- Host memory (20_memory.md R60). -/
  mem : Memory
  /-- The platform parameters (00_scope.md R11). -/
  platform : Platform
  /-- The turns to come (the model's own; log entry 5). -/
  turns : List Turn
  /-- How many free draws were made (the model's own; log entries 2, 8). -/
  draws : Nat
  /-- The bytes written while commands are in progress (20_memory.md R81; the model's own; log entry 8). -/
  races : List Race
  /-- What the last host read returned (the model's own; log entry 13). -/
  seen : Option Seen
deriving DecidableEq, Repr

/-- The machine right after reset (R50, R290): one idle instance at its reset values, nothing listed in
memory, the platform of `Platform.reset`, no turn to come, no race. -/
def State.reset : State where
  before := []
  eng := .reset
  after := []
  mem := []
  platform := .reset
  turns := []
  draws := 0
  races := []
  seen := none

/-- The machine right after reset on any platform: `n` further instances, all at their reset values
(60_exceptions.md R276). -/
def State.resetOn (p : Platform) (n : Nat) : State :=
  { State.reset with platform := p, after := List.replicate n .reset }

/-- Why the machine stops with a fault. No command of the engine faults: its errors are next states
(60_exceptions.md R262). -/
inductive Fault where
  /-- Raised by a host turn that stores to or loads from an address at or above 2^64, which host memory
  does not have (20_memory.md R60). Safe: the machine stops. -/
  | outsideHostMemory
deriving DecidableEq, Repr

/-- Why a step has no meaning. -/
inductive Refusal where
  /-- Raised by exec for a command that has no meaning yet. Safe. -/
  | notModelled (mnemonic : String)
  /-- Raised by a host turn whose window access is not an aligned 32-bit access: "not admitted and the
  model has no step for it" (10_state.md R20). Safe. -/
  | accessNotAdmitted
  /-- Raised by a host turn at an address in no window (10_state.md R20 gives only the windows). Safe. -/
  | noWindow
  /-- Raised by a turn for an instance the platform does not have (60_exceptions.md R276). Safe. -/
  | noSuchEngine
deriving DecidableEq, Repr

end Sys2Proof.Machine
end

