-- ==== Sys2Proof/Machine/Flags.lean ====
section
/-! DEFINITION. The status flags: error codes (60_exceptions.md R260), class values (41_setkey.md R130),
the STATUS word and its write-1-to-clear bits (10_state.md R25, R26), the interrupt output
(60_exceptions.md R268). The engine has no other flags (10_state.md R48). -/

namespace Sys2Proof.Machine

/-- The code of an error kind in `STATUS.ERRCODE` (60_exceptions.md R260). -/
def ErrorKind.code : ErrorKind → BitVec 4
  | .invalidKeyLength => 1
  | .invalidRequestLength => 2
  | .unsupportedLength => 3
  | .bufferIoFailure => 4
  | .illegalCommand => 5
  | .keyNotSet => 6
  | .sequenceError => 7
  | .essivHashFailure => 8

/-- The value of a key class in `STATUS.KEY_CLASS` (41_setkey.md R130). -/
def KeyClass.value : KeyClass → BitVec 4
  | .none => 0
  | .plain => 1
  | .essiv => 2
  | .xts => 3
  | .cmac => 4
  | .xcbc => 5

/-- `STATUS.BUSY`: 1 exactly when the phase is not IDLE (10_state.md R25, R42). -/
def Engine.busy (e : Engine) : Bool := e.phase != .idle

/-- The KEY_CLASS field of STATUS: 0 unless KEY_VALID (10_state.md R25). -/
def Engine.statusKeyClass (e : Engine) : BitVec 4 := if e.slot.valid then e.slot.cls.value else 0

/-- The MAC_MODE field of STATUS: 0 unless MAC_ACTIVE (10_state.md R25). -/
def Engine.statusMacMode (e : Engine) : BitVec 4 := if e.macActive then e.macMode else 0

/-- The value a host reads from STATUS (10_state.md R25). -/
def Engine.statusWord (e : Engine) : Word :=
  0#12 ++ e.statusMacMode ++ e.statusKeyClass ++ e.errCode ++ 0#2 ++ BitVec.ofBool e.macActive ++
    BitVec.ofBool e.slot.valid ++ BitVec.ofBool e.wrIgn ++ BitVec.ofBool e.err ++
    BitVec.ofBool e.done ++ BitVec.ofBool e.busy

/-- A host write of STATUS: DONE, ERR and WR_IGN are cleared where the written bit is 1
(10_state.md R26). -/
def Engine.clearStatus (e : Engine) (v : Word) : Engine :=
  { e with
    done := e.done && !v.getLsbD 1
    err := e.err && !v.getLsbD 2
    wrIgn := e.wrIgn && !v.getLsbD 3 }

/-- The interrupt output, a level (60_exceptions.md R268). -/
def Engine.irq (e : Engine) : Bool := e.irqEn && (e.done || e.err)

end Sys2Proof.Machine
end

