-- ==== Sys2Proof/Machine/Ops.lean ====
section
/-! DEFINITION. The named operations over memory and the engine: host memory byte by byte, DMA accesses
(00_scope.md R15), acceptance of a command (40_control.md R111), and completion, successful or with an
error (R117; 60_exceptions.md R262–R266). An error completion is what this engine has in place of taking
an exception: it saves the code and the address, changes no mode, and there is no return from it
(60_exceptions.md R270, R271); what ends its report is the host's write of STATUS (`Engine.clearStatus`). -/

namespace Sys2Proof.Machine

/-! ### Host memory -/

/-- The byte at an address. -/
def Memory.read : Memory → Nat → Byte
  | [], _ => Memory.blank
  | (b, v) :: m, a => if a = b then v else Memory.read m a

/-- Memory with nothing listed at an address. -/
def Memory.erase (m : Memory) (a : Nat) : Memory := m.filter (·.1 != a)

/-- A cell put in its place by rising address. -/
def Memory.insert : Memory → Nat → Byte → Memory
  | [], a, v => [(a, v)]
  | (b, w) :: m, a, v => if a < b then (a, v) :: (b, w) :: m else (b, w) :: Memory.insert m a v

/-- Memory after one byte is written; an entry equal to what an unlisted address reads as is not kept. -/
def Memory.set (m : Memory) (a : Nat) (v : Byte) : Memory :=
  if v = Memory.blank then m.erase a else (m.erase a).insert a v

/-- The addresses from `lo` on rise strictly, no entry is blank, and every address is below 2^64. -/
def Memory.wfFrom : Nat → Memory → Bool
  | _, [] => true
  | lo, (b, v) :: m => lo ≤ b && b < 2 ^ 64 && v != Memory.blank && Memory.wfFrom (b + 1) m

/-- The canonical form of host memory. -/
def Memory.wf (m : Memory) : Bool := Memory.wfFrom 0 m

/-- `n` bytes from address `a` on; byte `i` is the byte at `a + i` (20_memory.md R61). -/
def Memory.readBytes (m : Memory) : Nat → Nat → Bytes
  | _, 0 => []
  | a, n + 1 => m.read a :: m.readBytes (a + 1) n

/-- The bytes of `s` stored from address `a` on, in increasing address order (20_memory.md R72). -/
def Memory.writeBytes (m : Memory) : Nat → Bytes → Memory
  | _, [] => m
  | a, v :: s => Memory.writeBytes (m.set a v) (a + 1) s

/-! ### DMA accesses -/

/-- Whether a denial of the platform refuses an access of `n` bytes at `addr`. -/
def Denial.refuses : Denial → Nat → Nat → Access → Bool
  | .region base size kind, addr, n, k => k == kind && addr < base + size && base < addr + n
  | .exact a len kind, addr, n, k => k == kind && addr == a && n == len

/-- `MemOk(addr, n, kind)` (00_scope.md R11). -/
def State.memOk (s : State) (addr n : Nat) (k : Access) : Bool :=
  !s.platform.denials.any (·.refuses addr n k)

/-- A DMA access is performed: `MemOk` holds and it does not pass 2^64 − 1 (00_scope.md R15). -/
def State.accessOk (s : State) (addr n : Nat) (k : Access) : Bool :=
  s.memOk addr n k && addr + n ≤ 2 ^ 64

/-- The address recorded for a refused access: its first address in 64 bits; an address at or above 2^64 is
taken mod 2^64 (40_control.md R123; for descriptor addresses DEDUCED, log entry 12). -/
def refusedAddr (addr : Nat) : Addr := BitVec.ofNat 64 addr

/-- `MemRead(addr, n)` (00_scope.md R15). -/
def State.memRead (s : State) (addr n : Nat) : Except Addr Bytes :=
  if s.accessOk addr n .read then .ok (s.mem.readBytes addr n) else .error (refusedAddr addr)

/-- `MemWrite(addr, len(v), v)` (00_scope.md R15). -/
def State.memWrite (s : State) (addr : Nat) (v : Bytes) : Except Addr State :=
  if s.accessOk addr v.length .write then .ok { s with mem := s.mem.writeBytes addr v }
  else .error (refusedAddr addr)

/-! ### A command under way -/

/-- What part of a command answers: it goes on, or it raised an error with the recorded value (00_scope.md
R16). Both carry the state, since accesses already performed stay performed (60_exceptions.md R263). -/
inductive Run where
  | going (s : State)
  | raised (k : ErrorKind) (info : Addr) (s : State)
deriving DecidableEq, Repr

/-- One part of a command, then the next unless an error was raised. -/
def Run.andThen (r : Run) (f : State → Run) : Run :=
  match r with
  | .going s => f s
  | .raised k info s => .raised k info s

/-- The state with another working-register content of the engine in focus. -/
def State.setWork (s : State) (w : Work) : State := { s with eng := { s.eng with work := w } }

/-- The state with another engine in focus's place. -/
def State.setEng (s : State) (e : Engine) : State := { s with eng := e }

/-! ### Acceptance and completion -/

/-- Acceptance of a word written to CMD while idle: the request is latched, the position is 0, the maps are
empty, and the phase is CHECK (40_control.md R111; 10_state.md R43). -/
def Engine.accept (e : Engine) (w : Word) : Engine :=
  { e with
    latch := ⟨w, e.len, e.src, e.dst, e.iv, e.xctr, e.keylen, e.key⟩
    work := { e.work with pos := 0 }
    srcMap := []
    dstMap := []
    descIndex := 0
    unitIn := []
    unitOut := none
    phase := .check }

/-- What every completion does: idle, DONE, the maps emptied and no transfer left (40_control.md R117). -/
def Engine.finish (e : Engine) : Engine :=
  { e with
    phase := .idle
    done := true
    srcMap := []
    dstMap := []
    descIndex := 0
    unitIn := []
    unitOut := none }

/-- Successful completion: ERRCODE 0; ERR and ERR_ADDR stay (60_exceptions.md R266). -/
def Engine.succeed (e : Engine) : Engine := { e.finish with errCode := 0 }

/-- Error completion: ERR, ERRCODE and ERR_ADDR (60_exceptions.md R262, R265). -/
def Engine.fail (e : Engine) (k : ErrorKind) (info : Addr) : Engine :=
  { e.finish with err := true, errCode := k.code, errAddr := info }

/-- What an error of a legal MAC command adds (60_exceptions.md R264). -/
def Engine.abortMac (e : Engine) : Engine := { e with macActive := false, dg := 0 }

/-- What an error of a SETKEY adds (41_setkey.md R139). -/
def Engine.dropKey (e : Engine) : Engine := { e with slot := .empty, macActive := false, dg := 0 }

/-- An engine that has just accepted a command (40_control.md R111). -/
def Engine.accepted (e : Engine) : Bool :=
  e.phase == .check && e.work.pos == 0 && e.srcMap == [] && e.dstMap == [] && e.descIndex == 0 &&
    e.unitIn == [] && e.unitOut == none

/-! ### The engine instances -/

/-- All instances, in the order of their numbers (60_exceptions.md R276). -/
def State.engines (s : State) : List Engine := s.before ++ s.eng :: s.after

/-- The state with instance `k` in focus; none where the platform has no such instance. -/
def State.focus (s : State) (k : Nat) : Option State :=
  match s.engines.drop k with
  | [] => none
  | e :: rest => some { s with before := s.engines.take k, eng := e, after := rest }

end Sys2Proof.Machine
end

