-- ==== Sys2Proof/Machine/Operands.lean ====
section
/-! DEFINITION. Where a command's operands come from: the register window as the host reads and writes it
(10_state.md R20–R39), the latched operands of a command (30_encoding.md R100), and the logical streams of
memory operands: descriptors, segment maps, pieces (20_memory.md R62–R67). -/

namespace Sys2Proof.Machine

/-! ### The register window -/

/-- The registers of the window (10_state.md R20). -/
inductive Reg where
  | id
  | caps
  | ctrl
  | status
  | cmd
  | len
  | srcLo
  | srcHi
  | dstLo
  | dstHi
  | keylen
  | result
  | errAddrLo
  | errAddrHi
  | xctrLo
  | xctrHi
  | iv (j : Fin 4)
  | digest (j : Fin 4)
  | key (j : Fin 16)
  | reserved
deriving DecidableEq, Repr

/-- The register at word index `n = offset / 4` (10_state.md R20). -/
def Reg.ofIndex (n : Nat) : Reg :=
  match n with
  | 0 => .id
  | 1 => .caps
  | 2 => .ctrl
  | 3 => .status
  | 4 => .cmd
  | 5 => .len
  | 6 => .srcLo
  | 7 => .srcHi
  | 8 => .dstLo
  | 9 => .dstHi
  | 10 => .keylen
  | 11 => .result
  | 12 => .errAddrLo
  | 13 => .errAddrHi
  | 14 => .xctrLo
  | 15 => .xctrHi
  | n =>
    if n < 20 then .iv (Fin.ofNat 4 (n - 16))
    else if n < 24 then .digest (Fin.ofNat 4 (n - 20))
    else if 32 ≤ n ∧ n < 48 then .key (Fin.ofNat 16 (n - 32))
    else .reserved

/-- The register an access of `width` bytes at this offset of the window reaches; none where the access is
not an aligned 32-bit one inside the window (10_state.md R20). -/
def Reg.ofOffset (off width : Nat) : Option Reg :=
  if width = 4 ∧ off % 4 = 0 ∧ off < 0x100 then some (Reg.ofIndex (off / 4)) else none

/-- The offset of a register (10_state.md R20); for the reserved space its first offset. -/
def Reg.offset : Reg → Nat
  | .id => 0x000
  | .caps => 0x004
  | .ctrl => 0x008
  | .status => 0x00C
  | .cmd => 0x010
  | .len => 0x014
  | .srcLo => 0x018
  | .srcHi => 0x01C
  | .dstLo => 0x020
  | .dstHi => 0x024
  | .keylen => 0x028
  | .result => 0x02C
  | .errAddrLo => 0x030
  | .errAddrHi => 0x034
  | .xctrLo => 0x038
  | .xctrHi => 0x03C
  | .iv j => 0x040 + 4 * j.val
  | .digest j => 0x050 + 4 * j.val
  | .key j => 0x080 + 4 * j.val
  | .reserved => 0x060

/-- The ID constant (10_state.md R22). -/
def idValue : Word := 0x41455337

/-- The CAPS constant: MODE values 0–6 and 8–10 (10_state.md R23). -/
def capsValue : Word := 0x0000077F

/-- The DIGEST registers' 16 bytes: DG, hidden while a MAC computation is active (10_state.md R36). -/
def Engine.digestView (e : Engine) : Block := if e.macActive then 0 else e.dg

/-- A host read of a register (10_state.md R22–R38). No read changes the engine. -/
def Engine.hostRead (e : Engine) : Reg → Word
  | .id => idValue
  | .caps => capsValue
  | .ctrl => (BitVec.ofBool e.irqEn).setWidth 32 <<< 1
  | .status => e.statusWord
  | .cmd => 0
  | .len => e.len
  | .srcLo => getWord e.src 0
  | .srcHi => getWord e.src 1
  | .dstLo => getWord e.dst 0
  | .dstHi => getWord e.dst 1
  | .keylen => e.keylen.setWidth 32
  | .result => e.result.setWidth 32
  | .errAddrLo => getWord e.errAddr 0
  | .errAddrHi => getWord e.errAddr 1
  | .xctrLo => getWord e.xctr 0
  | .xctrHi => getWord e.xctr 1
  | .iv j => getWord e.iv j.val
  | .digest j => getWord e.digestView j.val
  | .key _ => 0
  | .reserved => 0

/-- A write of an operand register: while busy it is ignored and flagged (10_state.md R39). -/
def Engine.operandWrite (e : Engine) (written : Engine) : Engine :=
  if e.busy then { e with wrIgn := true } else written

/-- A host write of a register (10_state.md R22–R39; 70_reset_and_hazards.md R291). -/
def Engine.hostWrite (e : Engine) (r : Reg) (v : Word) : Engine :=
  match r with
  | .ctrl => if v.getLsbD 0 then .reset else { e with irqEn := v.getLsbD 1 }
  | .status => e.clearStatus v
  | .cmd => e.operandWrite (e.accept v)
  | .len => e.operandWrite { e with len := v }
  | .srcLo => e.operandWrite { e with src := setLo e.src v }
  | .srcHi => e.operandWrite { e with src := setHi e.src v }
  | .dstLo => e.operandWrite { e with dst := setLo e.dst v }
  | .dstHi => e.operandWrite { e with dst := setHi e.dst v }
  | .keylen => e.operandWrite { e with keylen := v.setWidth 7 }
  | .xctrLo => e.operandWrite { e with xctr := setLo e.xctr v }
  | .xctrHi => e.operandWrite { e with xctr := setHi e.xctr v }
  | .iv j => e.operandWrite { e with iv := setWord e.iv j.val v }
  | .key j => e.operandWrite { e with key := setWord e.key j.val v }
  | .id | .caps | .result | .errAddrLo | .errAddrHi | .digest _ | .reserved => e

/-- The instance and offset of a bus address, over the windows numbered from `k` on (10_state.md R20). -/
def findWindow : List Nat → Nat → Nat → Option (Nat × Nat)
  | [], _, _ => none
  | base :: bases, k, addr =>
    if base ≤ addr ∧ addr < base + 0x100 then some (k, addr - base) else findWindow bases (k + 1) addr

/-- The instance and window offset a host access at a bus address reaches. -/
def Platform.window (p : Platform) (addr : Nat) : Option (Nat × Nat) := findWindow p.bases 0 addr

/-- The windows start at multiples of 0x100 and are disjoint, there is one for each of the `n` instances,
and `MAX_SEGMENTS ≥ 1` (00_scope.md R11). -/
def Platform.wf (p : Platform) (n : Nat) : Bool :=
  p.bases.length == n && p.bases.all (fun b => b % 0x100 == 0) && decide p.bases.Nodup && 1 ≤ p.maxSegments

/-! ### Latched operands -/

/-- `L_LEN` as a byte count. -/
def Engine.reqLen (e : Engine) : Nat := e.latch.len.toNat

/-- The raw key bytes `L_KEY[0 ..< L_KEYLEN]` (41_setkey.md R131). -/
def Latch.rawKey (l : Latch) : Bytes := slice (toLe l.key.toNat 64) 0 l.keylen.toNat

/-! ### Segment maps -/

/-- The number of bytes a map covers. -/
def mapLen : List Segment → Nat
  | [] => 0
  | seg :: m => seg.len + mapLen m

/-- The address of logical offset `off` (20_memory.md R64); offsets at or above the map's length have none. -/
def addrAt : List Segment → Nat → Option Nat
  | [], _ => none
  | seg :: m, off => if off < seg.len then some (seg.addr + off) else addrAt m (off - seg.len)

/-- The pieces of a range of a stream: each inside one segment, in increasing offset order, as
`(address, length)` (20_memory.md R66). -/
def pieces : List Segment → Nat → Nat → List (Nat × Nat)
  | [], _, _ => []
  | seg :: m, off, n =>
    if n = 0 then []
    else if seg.len ≤ off then pieces m (off - seg.len) n
    else (seg.addr + off, min n (seg.len - off)) :: pieces m 0 (n - min n (seg.len - off))

/-- One descriptor read: the map with the descriptor's bytes added, or the error it raises
(20_memory.md R63, R65). `k` descriptors were read before it. -/
def State.descriptorStep (s : State) (base n k : Nat) (map : List Segment) : Except Addr (List Segment) :=
  match s.memRead (base + 16 * k) 16 with
  | .error a => .error a
  | .ok d =>
    let segLen := le (slice d 8 12)
    let last := (d.getD 12 0).getLsbD 0
    let map := if segLen > 0 then map ++ [⟨le (slice d 0 8), min segLen (n - mapLen map)⟩] else map
    if mapLen map = n then .ok map
    else if last then .error (refusedAddr (base + 16 * k))
    else .ok map

/-- The loop of `BuildMap_SG`, with `fuel` the descriptors that may still be read (20_memory.md R65). -/
def State.walkList (s : State) (base n : Nat) : Nat → Nat → List Segment → Except Addr (List Segment)
  | 0, k, _ => .error (refusedAddr (base + 16 * k))
  | fuel + 1, k, map =>
    match s.descriptorStep base n k map with
    | .error a => .error a
    | .ok map => if mapLen map = n then .ok map else s.walkList base n fuel (k + 1) map

/-- `BuildMap(A, N)`: flat (20_memory.md R62) or from a descriptor list (R65). -/
def State.buildMap (s : State) (sg : Bool) (a : Addr) (n : Nat) : Except Addr (List Segment) :=
  if n = 0 then .ok []
  else if sg then
    if a.toNat % 16 ≠ 0 then .error a else s.walkList a.toNat n s.platform.maxSegments 0 []
  else .ok [⟨a.toNat, n⟩]

/-! ### Streams -/

/-- One `MemRead` per piece, in order; the concatenation (20_memory.md R66). -/
def State.readPieces (s : State) : List (Nat × Nat) → Except Addr Bytes
  | [] => .ok []
  | (a, n) :: ps =>
    match s.memRead a n with
    | .error e => .error e
    | .ok b =>
      match s.readPieces ps with
      | .error e => .error e
      | .ok bs => .ok (b ++ bs)

/-- `StreamRead(off, n)` over a map (20_memory.md R66). -/
def State.streamRead (s : State) (map : List Segment) (off n : Nat) : Except Addr Bytes :=
  s.readPieces (pieces map off n)

/-- One `MemWrite` per piece, in order; what was written before a refused piece stays
(20_memory.md R67; 60_exceptions.md R263). -/
def State.writePieces (s : State) : List (Nat × Nat) → Bytes → Run
  | [], _ => .going s
  | (a, n) :: ps, v =>
    match s.memWrite a (v.take n) with
    | .error e => .raised .bufferIoFailure e s
    | .ok s' => s'.writePieces ps (v.drop n)

/-- `StreamWrite(off, len(v), v)` over a map (20_memory.md R67). -/
def State.streamWrite (s : State) (map : List Segment) (off : Nat) (v : Bytes) : Run :=
  s.writePieces (pieces map off v.length) v

end Sys2Proof.Machine
end

