-- ==== Sys2Proof/Machine/Phases.lean ====
section
/-! DEFINITION. The command sequencing state machine of 40_control.md R110–R120, shared by all commands. A
command is a `Plan`: its checks and what R120 says it does in SEED, BULK, TAIL and COMMIT. `runCommand`
runs a plan from CHECK to completion with nothing in between; `engineStep` takes one engine step of R121
(log entries 6, 9). -/

namespace Sys2Proof.Machine

/-- What one command does in the phases: its row of 40_control.md R113, R114, R115 and R120. -/
structure Plan where
  /-- The key class the command needs; none for NOP and SETKEY (R113). -/
  needs : Option KeyClass
  /-- The mode of the MAC computation that must be active (R113). -/
  needsMac : Option (BitVec 4)
  /-- The length check (R114, 41_setkey.md R131). -/
  lengthError : Latch → Option ErrorKind
  /-- The command has a source stream: CRYPT, MAC_UPDATE, MAC_FINUP (R110, R115). -/
  moves : Bool
  /-- The command has a destination stream: CRYPT (R115). -/
  stores : Bool
  /-- The SG bit: descriptor lists instead of flat buffers (30_encoding.md R96). -/
  sg : Bool
  /-- `N`, the bytes the command reads, from `L_LEN` (R115). -/
  span : Nat → Nat
  /-- The bulk end, from `L_LEN` (R120). -/
  bulkEnd : Nat → Nat
  /-- SEED makes the draw `HashFail` (41_setkey.md R135). -/
  draws : Bool
  /-- SEED: the working registers it leaves, or the error it raises; the Bool is the draw. -/
  seed : Bool → Engine → Except ErrorKind Work
  /-- The computation of a BULK unit: the output block and the working registers after it. -/
  block : Engine → Block → Block × Work
  /-- The computation of the TAIL unit. -/
  tail : Engine → Bytes → Bytes × Work
  /-- COMMIT: the results (R116). -/
  commit : Engine → Engine
  /-- What an error of this command changes beside the error completion (60_exceptions.md R262). -/
  onError : Engine → Engine

/-! ### CHECK -/

/-- Check 2: the key class, then the MAC state (40_control.md R113). -/
def Plan.stateError (p : Plan) (e : Engine) : Option ErrorKind :=
  if p.needs.any (fun c => !e.slot.valid || e.slot.cls != c) then some .keyNotSet
  else if p.needsMac.any (fun m => !e.macActive || e.macMode != m) then some .sequenceError
  else none

/-- Checks 2 and 3, in their order (40_control.md R113, R114; 60_exceptions.md R267). Check 1 is decoding:
an illegal word has no plan (R112). -/
def Plan.checkError (p : Plan) (e : Engine) : Option ErrorKind :=
  match p.stateError e with
  | some k => some k
  | none => p.lengthError e.latch

/-! ### The units -/

/-- `N` of the command in the engine (40_control.md R115). -/
def Plan.total (p : Plan) (e : Engine) : Nat := p.span e.reqLen

/-- The bulk end of the command in the engine (40_control.md R120). -/
def Plan.bulk (p : Plan) (e : Engine) : Nat := p.bulkEnd e.reqLen

/-- The computation of one unit on the bytes read: a 16-byte block in BULK, all the bytes in TAIL. -/
def Plan.compute (p : Plan) (e : Engine) (inTail : Bool) (b : Bytes) : Bytes × Work :=
  if inTail then p.tail e b
  else (blockBytes (p.block e (blockOf b)).1, (p.block e (blockOf b)).2)

/-- `W_POS ← W_POS + u`, and no transfer in progress (20_memory.md R68). -/
def Engine.advance (e : Engine) (u : Nat) : Engine :=
  { e with work := { e.work with pos := e.work.pos + u }, unitIn := [], unitOut := none }

/-- One unit of `u` bytes: read whole, computed, written whole where the command stores, and the position
advanced (20_memory.md R68). -/
def Plan.runUnit (p : Plan) (inTail : Bool) (u : Nat) (s : State) : Run :=
  match s.streamRead s.eng.srcMap s.eng.work.pos u with
  | .error a => .raised .bufferIoFailure a s
  | .ok b =>
    let s' := s.setWork (p.compute s.eng inTail b).2
    let written :=
      if p.stores then s'.streamWrite s.eng.dstMap s.eng.work.pos (p.compute s.eng inTail b).1 else .going s'
    written.andThen fun t => .going (t.setEng (t.eng.advance u))

/-! ### A whole command -/

/-- Phase MAP: the source map, then the destination map (40_control.md R115). -/
def Plan.runMap (p : Plan) (s : State) : Run :=
  if p.moves then
    match s.buildMap p.sg s.eng.latch.src (p.total s.eng) with
    | .error a => .raised .bufferIoFailure a s
    | .ok sm =>
      if p.stores then
        match s.buildMap p.sg s.eng.latch.dst (p.total s.eng) with
        | .error a => .raised .bufferIoFailure a s
        | .ok dm => .going (s.setEng { s.eng with srcMap := sm, dstMap := dm })
      else .going (s.setEng { s.eng with srcMap := sm })
  else .going s

/-- Phase SEED, with the draw made where the command has one. -/
def Plan.runSeed (p : Plan) (s : State) : Run :=
  let t := if p.draws then { s with draws := s.draws + 1 } else s
  match p.seed (Config.hashFail s.draws) s.eng with
  | .error k => .raised k 0 t
  | .ok w => .going (t.setWork w)

/-- `n` units of BULK. -/
def Plan.runBlocks (p : Plan) : Nat → State → Run
  | 0, s => .going s
  | n + 1, s => (p.runUnit false 16 s).andThen (p.runBlocks n)

/-- Phase BULK: the 16-byte units up to the bulk end. -/
def Plan.runBulk (p : Plan) (s : State) : Run := p.runBlocks (p.bulk s.eng / 16) s

/-- Phase TAIL: the unit that remains, where one does. -/
def Plan.runTail (p : Plan) (s : State) : Run :=
  if s.eng.work.pos < p.total s.eng then p.runUnit true (p.total s.eng - s.eng.work.pos) s else .going s

/-- The work of the phases MAP to TAIL, in their order. -/
def Plan.runWork (p : Plan) (s : State) : Run :=
  (((p.runMap s).andThen p.runSeed).andThen p.runBulk).andThen p.runTail

/-- COMMIT and completion (40_control.md R116, R117). -/
def Plan.commitStep (p : Plan) (s : State) : State := s.setEng (p.commit s.eng).succeed

/-- Error completion of a legal command (60_exceptions.md R262). -/
def Plan.failStep (p : Plan) (k : ErrorKind) (info : Addr) (s : State) : State :=
  s.setEng ((p.onError s.eng).fail k info)

/-- A command from CHECK to its completion, with no other agent's turn in between. -/
def runCommand (p : Plan) (s : State) : State :=
  match p.checkError s.eng with
  | some k => p.failStep k 0 s
  | none =>
    match p.runWork s with
    | .going t => p.commitStep t
    | .raised k info t => p.failStep k info t

/-- A word that is not legal: IllegalCommand, and nothing else changes (30_encoding.md R99;
40_control.md R112; 60_exceptions.md R262). -/
def illegalCommand (s : State) : State := s.setEng (s.eng.fail .illegalCommand 0)

/-! ### One engine step -/

/-- Out of MAP where both maps are built; the flat form needs no step of its own (40_control.md R110 "A
phase whose work is empty for the command passes straight on"; log entry 9). -/
def Plan.settleMap (p : Plan) (e : Engine) : Engine :=
  if e.phase != .map then e
  else if !p.sg then
    { e with
      srcMap := if p.total e = 0 then [] else [⟨e.latch.src.toNat, p.total e⟩]
      dstMap := if p.stores && p.total e != 0 then [⟨e.latch.dst.toNat, p.total e⟩] else []
      phase := .seed }
  else if mapLen e.srcMap = p.total e ∧ (p.stores = true → mapLen e.dstMap = p.total e) then
    { e with phase := .seed }
  else e

/-- Out of BULK at the bulk end. -/
def Plan.settleBulk (p : Plan) (e : Engine) : Engine :=
  if e.phase == .bulk && p.bulk e ≤ e.work.pos then { e with phase := .tail } else e

/-- Out of TAIL when nothing remains. -/
def Plan.settleTail (p : Plan) (e : Engine) : Engine :=
  if e.phase == .tail && p.total e ≤ e.work.pos then { e with phase := .commit } else e

/-- Straight on through the phases with no work left (40_control.md R110). -/
def Plan.settle (p : Plan) (e : Engine) : Engine := p.settleTail (p.settleBulk (p.settleMap e))

/-- The whole of CHECK. -/
def Plan.checkStep (p : Plan) (s : State) : State :=
  match p.checkError s.eng with
  | some k => p.failStep k 0 s
  | none => s.setEng (p.settle { s.eng with phase := if p.moves then .map else .seed })

/-- One step of MAP in the scatter/gather form: one descriptor, or the error the list raises
(20_memory.md R65). The source list is walked first. -/
def Plan.mapStep (p : Plan) (s : State) : State :=
  let e := s.eng
  let n := p.total e
  let inSrc := decide (mapLen e.srcMap < n)
  let base := if inSrc then e.latch.src else e.latch.dst
  let map := if inSrc then e.srcMap else e.dstMap
  if e.descIndex = 0 ∧ base.toNat % 16 ≠ 0 then p.failStep .bufferIoFailure base s
  else if e.descIndex = s.platform.maxSegments then
    p.failStep .bufferIoFailure (refusedAddr (base.toNat + 16 * e.descIndex)) s
  else
    match s.descriptorStep base.toNat n e.descIndex map with
    | .error a => p.failStep .bufferIoFailure a s
    | .ok map =>
      let k := if mapLen map = n then 0 else e.descIndex + 1
      s.setEng (p.settle
        (if inSrc then { e with srcMap := map, descIndex := k } else { e with dstMap := map, descIndex := k }))

/-- The step of SEED. -/
def Plan.seedStep (p : Plan) (s : State) : State :=
  match p.runSeed s with
  | .going t => t.setEng (p.settle { t.eng with phase := .bulk })
  | .raised k info t => p.failStep k info t

/-- The length of the unit at the position: 16 in BULK, what remains in TAIL (40_control.md R120). -/
def Plan.unitLen (p : Plan) (e : Engine) : Nat :=
  if e.phase == .tail then p.total e - e.work.pos else 16

/-- After the last access of a unit: the position advanced, and on to the next phase where it ends. -/
def Plan.endUnit (p : Plan) (s : State) : State :=
  s.setEng (p.settle (s.eng.advance (p.unitLen s.eng)))

/-- The unit's computation, kept until it is written; a command that stores nothing ends the unit here. -/
def Plan.computeUnit (p : Plan) (s : State) (b : Bytes) : State :=
  let r := p.compute s.eng (s.eng.phase == .tail) b
  if p.stores then s.setEng { s.eng with work := r.2, unitIn := b, unitOut := some r.1 }
  else p.endUnit (s.setWork r.2)

/-- One read piece of the unit (40_control.md R121); the last one computes where nothing is written. -/
def Plan.readStep (p : Plan) (s : State) : State :=
  let e := s.eng
  match pieces e.srcMap (e.work.pos + e.unitIn.length) (p.unitLen e - e.unitIn.length) with
  | [] => s
  | (a, n) :: _ =>
    match s.memRead a n with
    | .error x => p.failStep .bufferIoFailure x s
    | .ok b =>
      if e.unitIn.length + n = p.unitLen e ∧ p.stores = false then p.computeUnit s (e.unitIn ++ b)
      else s.setEng { e with unitIn := e.unitIn ++ b }

/-- One write piece of the unit. -/
def Plan.writeStep (p : Plan) (s : State) (out : Bytes) : State :=
  let e := s.eng
  match pieces e.dstMap (e.work.pos + (p.unitLen e - out.length)) out.length with
  | [] => s
  | (a, n) :: _ =>
    match s.memWrite a (out.take n) with
    | .error x => p.failStep .bufferIoFailure x s
    | .ok t => if out.drop n = [] then p.endUnit t else t.setEng { t.eng with unitOut := some (out.drop n) }

/-- The bytes of the unit that are still to be written, where it has come to writing: before its first write
piece they are the unit's computation. -/
def Plan.pendingOut (p : Plan) (e : Engine) : Option Bytes :=
  if e.phase == .bulk || e.phase == .tail then
    match e.unitOut with
    | some out => some out
    | none =>
      if e.unitIn.length < p.unitLen e ∨ p.stores = false then none
      else some (p.compute e (e.phase == .tail) e.unitIn).1
  else none

/-- What the coming engine step writes to host memory, where it performs a write: the address and the bytes
of the write piece. -/
def Plan.nextWrite (p : Plan) (s : State) : Option (Nat × Bytes) :=
  match p.pendingOut s.eng with
  | none => none
  | some out =>
    match pieces s.eng.dstMap (s.eng.work.pos + (p.unitLen s.eng - out.length)) out.length with
    | [] => none
    | (a, n) :: _ => if s.accessOk a (out.take n).length .write then some (a, out.take n) else none

/-- One step of BULK or TAIL: a read piece while bytes of the unit are missing; then the write pieces, the
first of them with the unit's computation (40_control.md R121). -/
def Plan.transferStep (p : Plan) (s : State) : State :=
  match s.eng.unitOut with
  | some out => p.writeStep s out
  | none =>
    if s.eng.unitIn.length < p.unitLen s.eng then p.readStep s
    else
      let t := p.computeUnit s s.eng.unitIn
      match t.eng.unitOut with
      | some out => p.writeStep t out
      | none => t

/-- One engine step of the command (40_control.md R121); an idle engine waits (60_exceptions.md R278). -/
def engineStep (p : Plan) (s : State) : State :=
  match s.eng.phase with
  | .idle => s
  | .check => p.checkStep s
  | .map => p.mapStep s
  | .seed => p.seedStep s
  | .bulk => p.transferStep s
  | .tail => p.transferStep s
  | .commit => p.commitStep s

end Sys2Proof.Machine
end

