-- ==== Sys2Proof/Machine/Builders.lean ====
section
/-! DEFINITION. The parts of a plan that commands share: commands without data, CRYPT commands, MAC
commands, and the length checks of 40_control.md R114. -/

namespace Sys2Proof.Machine

/-! ### Length checks -/

/-- No length check fails. -/
def noLengthError (_ : Latch) : Option ErrorKind := none

/-- ECB, CBC, ESSIV: `L mod 16 ≠ 0` is InvalidRequestLength (R114). -/
def wholeBlocks (l : Latch) : Option ErrorKind :=
  if l.len.toNat % 16 ≠ 0 then some .invalidRequestLength else none

/-- CTS, XTS: `L < 16` is InvalidRequestLength (R114). -/
def atLeastOneBlock (l : Latch) : Option ErrorKind :=
  if l.len.toNat < 16 then some .invalidRequestLength else none

/-- XCTR: `L_XCTR + L > 2^64` is UnsupportedLength (R114). -/
def xctrInRange (l : Latch) : Option ErrorKind :=
  if l.xctr.toNat + l.len.toNat > 2 ^ 64 then some .unsupportedLength else none

/-- MAC_FINUP: `L > 16` is UnsupportedLength (R114). -/
def atMostOneBlock (l : Latch) : Option ErrorKind :=
  if l.len.toNat > 16 then some .unsupportedLength else none

/-- SETKEY of a class other than XTS: 16, 24 or 32 bytes (41_setkey.md R131). -/
def aesKeyLength (l : Latch) : Option ErrorKind :=
  if l.keylen = 16 ∨ l.keylen = 24 ∨ l.keylen = 32 then none else some .invalidKeyLength

/-- SETKEY of class XTS: 32, 48 or 64 bytes (41_setkey.md R131). -/
def xtsKeyLength (l : Latch) : Option ErrorKind :=
  if l.keylen = 32 ∨ l.keylen = 48 ∨ l.keylen = 64 then none else some .invalidKeyLength

/-! ### Shapes of plans -/

/-- A command with no data: SEED and COMMIT only (40_control.md R120 rows NOP, SETKEY, MAC_INIT). -/
def Plan.noData (seed : Engine → Except ErrorKind Work) (commit : Engine → Engine) : Plan where
  needs := none
  needsMac := none
  lengthError := noLengthError
  moves := false
  stores := false
  sg := false
  span := fun _ => 0
  bulkEnd := fun _ => 0
  draws := false
  seed := fun _ => seed
  block := fun e b => (b, e.work)
  tail := fun e b => (b, e.work)
  commit := commit
  onError := id

/-- A CRYPT command: reads and writes `L` bytes, needs a key of its class; an error changes nothing beside
the error completion (40_control.md R115, R120; 60_exceptions.md R262). -/
def Plan.crypt (cls : KeyClass) (sg : Bool) (lengthError : Latch → Option ErrorKind) (bulkEnd : Nat → Nat)
    (seed : Engine → Work) (block : Engine → Block → Block × Work) (tail : Engine → Bytes → Bytes × Work)
    (commit : Engine → Engine) : Plan where
  needs := some cls
  needsMac := none
  lengthError := lengthError
  moves := true
  stores := true
  sg := sg
  span := fun l => l
  bulkEnd := bulkEnd
  draws := false
  seed := fun _ e => .ok (seed e)
  block := block
  tail := tail
  commit := commit
  onError := id

/-- The modes with no TAIL unit: their bulk end is `L`. -/
def noTail (e : Engine) (b : Bytes) : Bytes × Work := (b, e.work)

/-- A MAC command that reads the source stream and stores nothing; an error ends the MAC computation
(46_mac.md R230; 60_exceptions.md R264). -/
def Plan.macData (cls : KeyClass) (mode : BitVec 4) (sg : Bool) (lengthError : Latch → Option ErrorKind)
    (span bulkEnd : Nat → Nat) (block : Engine → Block → Work) (tail : Engine → Bytes → Work)
    (commit : Engine → Engine) : Plan where
  needs := some cls
  needsMac := some mode
  lengthError := lengthError
  moves := true
  stores := false
  sg := sg
  span := span
  bulkEnd := bulkEnd
  draws := false
  seed := fun _ e => .ok { e.work with dg := e.dg }
  block := fun e b => (b, block e b)
  tail := fun e b => (b, tail e b)
  commit := commit
  onError := Engine.abortMac

end Sys2Proof.Machine
end

