-- ==== Sys2Proof/Machine/Primitives.lean ====
section
/-! DEFINITION. The cipher and digest parameters (00_scope.md R9, R10) and the fixed arithmetic of the
engine on blocks: the GF(2^128) multiplications (41_setkey.md R136, 45_xts.md R210), the counters
(44_ctr_xctr.md R190, R193) and the stealing rearrangements (43_cts.md R173, R174; 45_xts.md R212–R216). -/

namespace Sys2Proof.Machine

/-- The source's concrete vector, `AES_E(zeros(16), zeros(16))` (R9 (c)). -/
def zeroVector : Block := blockOf
  [0x66, 0xe9, 0x4b, 0xd4, 0xef, 0x8a, 0x2c, 0x3b, 0x88, 0x4c, 0xfa, 0x59, 0xca, 0x34, 0x2b, 0x2e]

/-- The cipher under a key: any permutation of the blocks, but that the zero block under the zero key goes
to the concrete vector (R9). Every family of permutations that meets R9 (c) is this one for some
`Config.aesPerm` (log entry 1). -/
def aes (k : Bytes) : Equiv.Perm Block :=
  if k = zeros 16 then (Config.aesPerm k).trans (Equiv.swap (Config.aesPerm k 0) zeroVector)
  else Config.aesPerm k

/-- `AES_E` (R9). -/
def aesE (k : Bytes) (b : Block) : Block := aes k b

/-- `AES_D` (R9). -/
def aesD (k : Bytes) (b : Block) : Block := (aes k).symm b

/-- `DIGEST256` (R10). -/
def digest256 (s : Bytes) : Bytes := toLe (Config.digest256 s).toNat 32

/-- `GF_DOUBLE`: multiply by x in GF(2^128), the block read as a big-endian number (41_setkey.md R136). -/
def gfDouble (x : Block) : Block :=
  let v := be (blockBytes x)
  let s := (2 * v) % 2 ^ 128
  blockOf (toBe (if v ≥ 2 ^ 127 then s ^^^ 0x87 else s) 16)

/-- `MULX_LE`: multiply by x in GF(2^128), the block read as a little-endian number (45_xts.md R210). -/
def mulxLe (t : Block) : Block :=
  let v := le (blockBytes t)
  let s := (2 * v) % 2 ^ 128
  blockOf (toLe (if v ≥ 2 ^ 127 then s ^^^ 0x87 else s) 16)

/-- `CTR_INC`: the whole block as one big-endian counter (44_ctr_xctr.md R190). -/
def ctrInc (c : Block) : Block := blockOf (toBe ((be (blockBytes c) + 1) % 2 ^ 128) 16)

/-- `XKS(p)`: the XCTR keystream byte at absolute byte offset `p` (44_ctr_xctr.md R193, R195). -/
def xctrKeystream (k : Bytes) (iv : Block) (p : Nat) : Byte :=
  (blockBytes (aesE k (iv ^^^ blockOf (toLe (p / 16 + 1) 16)))).getD (p % 16) 0

/-- `CTS_ENC_TAIL(K, chain, a, b, r)`: the output bytes and the chain out (43_cts.md R173). -/
def ctsEncTail (k : Bytes) (chain a : Block) (b : Bytes) (r : Nat) : Bytes × Block :=
  let c := aesE k (a ^^^ chain)
  let d := aesE k (blockOf (b ++ zeros (16 - r)) ^^^ c)
  (blockBytes d ++ slice (blockBytes c) 0 r, d)

/-- `CTS_DEC_TAIL(K, chain, a, b, r)` (43_cts.md R174). -/
def ctsDecTail (k : Bytes) (chain a : Block) (b : Bytes) (r : Nat) : Bytes × Block :=
  let z := aesD k a
  let cfull := blockOf (b ++ slice (blockBytes z) r 16)
  let plast := xorBytes (slice (blockBytes z) 0 r) b
  let p := aesD k cfull ^^^ chain
  (blockBytes p ++ plast, a)

/-- `XE(b, t)` (45_xts.md R212). -/
def xtsE (k : Bytes) (b t : Block) : Block := aesE k (b ^^^ t) ^^^ t

/-- `XD(b, t)` (45_xts.md R212). -/
def xtsD (k : Bytes) (b t : Block) : Block := aesD k (b ^^^ t) ^^^ t

/-- `XTS_ENC_TAIL(a, b, r, T)` (45_xts.md R215). -/
def xtsEncTail (k : Bytes) (a : Block) (b : Bytes) (r : Nat) (t : Block) : Bytes :=
  let cc := xtsE k a t
  let pp := blockOf (b ++ slice (blockBytes cc) r 16)
  blockBytes (xtsE k pp (mulxLe t)) ++ slice (blockBytes cc) 0 r

/-- `XTS_DEC_TAIL(a, b, r, T)` (45_xts.md R216). -/
def xtsDecTail (k : Bytes) (a : Block) (b : Bytes) (r : Nat) (t : Block) : Bytes :=
  let pp := xtsD k a (mulxLe t)
  let cc := blockOf (b ++ slice (blockBytes pp) r 16)
  blockBytes (xtsD k cc t) ++ slice (blockBytes pp) 0 r

/-- `FINAL_CBCMAC(dg, m)` (46_mac.md R234). -/
def finalCbcmac (k : Bytes) (dg : Block) (m : Bytes) : Block :=
  if m.length = 0 then dg
  else aesE k (dg ^^^ blockOf (m ++ zeros (16 - m.length)))

/-- `FINAL_CMAC(dg, m)`, and `FINAL_XCBC(dg, m)` under XCBC's key elements (46_mac.md R235, R236). -/
def finalCmac (k : Bytes) (sk1 sk2 : Block) (dg : Block) (m : Bytes) : Block :=
  if m.length = 16 then aesE k (dg ^^^ blockOf m ^^^ sk1)
  else aesE k (dg ^^^ blockOf (m ++ [0x80] ++ zeros (15 - m.length)) ^^^ sk2)

end Sys2Proof.Machine
end

