-- ==== Sys2Proof/Machine/Cbc.lean ====
section
/-! DEFINITION. ECB, CBC, ESSIV-CBC and CBC with ciphertext stealing (42_ecb_cbc_essiv.md R150–R157,
43_cts.md R170–R176). -/

namespace Sys2Proof.Machine

/-! ### The units -/

/-- An ECB block under `f` = `AES_E` or `AES_D` (R150, R151). -/
def ecbBlock (f : Bytes → Block → Block) (e : Engine) (b : Block) : Block × Work :=
  (f e.slot.data b, e.work)

/-- A CBC encryption block: the chain becomes the ciphertext (R152). -/
def cbcEncBlock (e : Engine) (b : Block) : Block × Work :=
  let c := aesE e.slot.data (b ^^^ e.work.chain)
  (c, { e.work with chain := c })

/-- A CBC decryption block: the chain becomes the ciphertext as read (R153). -/
def cbcDecBlock (e : Engine) (c : Block) : Block × Work :=
  (aesD e.slot.data c ^^^ e.work.chain, { e.work with chain := c })

/-- SEED of CBC and CTS: `W_CHAIN ← L_IV` (R152, R171). -/
def cbcSeed (e : Engine) : Work := { e.work with chain := e.latch.iv }

/-- SEED of ESSIV: the raw IV encrypted once under the secondary key, when `L > 0` (R154). -/
def essivSeed (e : Engine) : Work :=
  if e.reqLen = 0 then e.work else { e.work with chain := aesE e.slot.essiv e.latch.iv }

/-- COMMIT of a mode that leaves IV unchanged: RESULT ← 0 (R150). -/
def commitNoIv (e : Engine) : Engine := { e with result := 0 }

/-- COMMIT of CBC and CTS: IV ← W_CHAIN, RESULT ← 0 (R152, R175). -/
def commitChain (e : Engine) : Engine := { e with iv := e.work.chain, result := 0 }

/-- COMMIT of ESSIV: with `L = 0` the IV is unchanged (R154). -/
def commitEssiv (e : Engine) : Engine := if e.reqLen = 0 then commitNoIv e else commitChain e

/-! ### CTS -/

/-- The CTS bulk end: block 0 alone for `L = 16`, else blocks 0 … n−3 with `n = ceil_div(L, 16)` (R170). -/
def ctsBulkEnd (l : Nat) : Nat := if l = 16 then 16 else 16 * ((l + 15) / 16 - 2)

/-- The CTS encryption tail: the final `16 + r` bytes as one unit (R171, R173). -/
def ctsEncUnit (e : Engine) (t : Bytes) : Bytes × Work :=
  let r := t.length - 16
  let y := ctsEncTail e.slot.data e.work.chain (blockOf (slice t 0 16)) (slice t 16 (16 + r)) r
  (y.1, { e.work with chain := y.2 })

/-- The CTS decryption tail (R172, R174). -/
def ctsDecUnit (e : Engine) (t : Bytes) : Bytes × Work :=
  let r := t.length - 16
  let y := ctsDecTail e.slot.data e.work.chain (blockOf (slice t 0 16)) (slice t 16 (16 + r)) r
  (y.1, { e.work with chain := y.2 })

/-! ### The commands -/

/-- CRYPT.ECB.ENC (R150). -/
def planCryptEcbEnc (sg : Bool) : Plan :=
  .crypt .plain sg wholeBlocks (fun l => l) (·.work) (ecbBlock aesE) noTail commitNoIv
/-- CRYPT.ECB.DEC (R151). -/
def planCryptEcbDec (sg : Bool) : Plan :=
  .crypt .plain sg wholeBlocks (fun l => l) (·.work) (ecbBlock aesD) noTail commitNoIv
/-- CRYPT.CBC.ENC (R152). -/
def planCryptCbcEnc (sg : Bool) : Plan :=
  .crypt .plain sg wholeBlocks (fun l => l) cbcSeed cbcEncBlock noTail commitChain
/-- CRYPT.CBC.DEC (R153). -/
def planCryptCbcDec (sg : Bool) : Plan :=
  .crypt .plain sg wholeBlocks (fun l => l) cbcSeed cbcDecBlock noTail commitChain
/-- CRYPT.ESSIV.ENC (R154). -/
def planCryptEssivEnc (sg : Bool) : Plan :=
  .crypt .essiv sg wholeBlocks (fun l => l) essivSeed cbcEncBlock noTail commitEssiv
/-- CRYPT.ESSIV.DEC (R155). -/
def planCryptEssivDec (sg : Bool) : Plan :=
  .crypt .essiv sg wholeBlocks (fun l => l) essivSeed cbcDecBlock noTail commitEssiv
/-- CRYPT.CTS.ENC (R171). -/
def planCryptCtsEnc (sg : Bool) : Plan :=
  .crypt .plain sg atLeastOneBlock ctsBulkEnd cbcSeed cbcEncBlock ctsEncUnit commitChain
/-- CRYPT.CTS.DEC (R172). -/
def planCryptCtsDec (sg : Bool) : Plan :=
  .crypt .plain sg atLeastOneBlock ctsBulkEnd cbcSeed cbcDecBlock ctsDecUnit commitChain

/-- `CRYPT.ECB.ENC` (R150). -/
def execCryptEcbEnc (sg : Bool) (s : State) : Host.Outcome State Fault Refusal :=
  .next (runCommand (planCryptEcbEnc sg) s)
/-- `CRYPT.ECB.DEC` (R151). -/
def execCryptEcbDec (sg : Bool) (s : State) : Host.Outcome State Fault Refusal :=
  .next (runCommand (planCryptEcbDec sg) s)
/-- `CRYPT.CBC.ENC` (R152). -/
def execCryptCbcEnc (sg : Bool) (s : State) : Host.Outcome State Fault Refusal :=
  .next (runCommand (planCryptCbcEnc sg) s)
/-- `CRYPT.CBC.DEC` (R153). -/
def execCryptCbcDec (sg : Bool) (s : State) : Host.Outcome State Fault Refusal :=
  .next (runCommand (planCryptCbcDec sg) s)
/-- `CRYPT.ESSIV.ENC` (R154). -/
def execCryptEssivEnc (sg : Bool) (s : State) : Host.Outcome State Fault Refusal :=
  .next (runCommand (planCryptEssivEnc sg) s)
/-- `CRYPT.ESSIV.DEC` (R155). -/
def execCryptEssivDec (sg : Bool) (s : State) : Host.Outcome State Fault Refusal :=
  .next (runCommand (planCryptEssivDec sg) s)
/-- `CRYPT.CTS.ENC` (R171). -/
def execCryptCtsEnc (sg : Bool) (s : State) : Host.Outcome State Fault Refusal :=
  .next (runCommand (planCryptCtsEnc sg) s)
/-- `CRYPT.CTS.DEC` (R172). -/
def execCryptCtsDec (sg : Bool) (s : State) : Host.Outcome State Fault Refusal :=
  .next (runCommand (planCryptCtsDec sg) s)

end Sys2Proof.Machine
end

