-- ==== Sys2Proof/Machine/Control.lean ====
section
/-! DEFINITION. NOP (40_control.md R118). -/

namespace Sys2Proof.Machine

/-- NOP: every phase is empty; COMMIT writes RESULT ← 0 (R118). -/
def planNop : Plan := .noData (fun e => .ok e.work) (fun e => { e with result := 0 })

/-- `NOP` (R118). -/
def execNop (s : State) : Host.Outcome State Fault Refusal := .next (runCommand planNop s)

end Sys2Proof.Machine
end

