-- ==== Sys2Proof/Machine/Ctr.lean ====
section
/-! DEFINITION. CTR and XCTR (44_ctr_xctr.md R190–R196). -/

namespace Sys2Proof.Machine

/-- The bulk end of CTR, XCTR and MAC_UPDATE: the full blocks (40_control.md R120). -/
def fullBlocks (l : Nat) : Nat := 16 * (l / 16)

/-! ### CTR -/

/-- SEED of CTR: `W_CTR ← L_IV` (R191). -/
def ctrSeed (e : Engine) : Work := { e.work with ctr := e.latch.iv }

/-- A full CTR block (R191). -/
def ctrBlock (e : Engine) (b : Block) : Block × Work :=
  (b ^^^ aesE e.slot.data e.work.ctr, { e.work with ctr := ctrInc e.work.ctr })

/-- The final partial block: the first `r` keystream bytes, one whole counter value (R191, R192). -/
def ctrTail (e : Engine) (b : Bytes) : Bytes × Work :=
  (xorBytes b (slice (blockBytes (aesE e.slot.data e.work.ctr)) 0 b.length),
    { e.work with ctr := ctrInc e.work.ctr })

/-- COMMIT of CTR: IV ← W_CTR, RESULT ← 0 (R191). -/
def commitCtr (e : Engine) : Engine := { e with iv := e.work.ctr, result := 0 }

/-- CRYPT.CTR in either direction: one operation (R191). -/
def ctrPlan (sg : Bool) : Plan :=
  .crypt .plain sg noLengthError fullBlocks ctrSeed ctrBlock ctrTail commitCtr

/-! ### XCTR -/

/-- SEED of XCTR: `W_BC ← L_XCTR` (R193). -/
def xctrSeed (e : Engine) : Work := { e.work with bc := e.latch.xctr }

/-- A unit of XCTR: each byte with the keystream byte of its absolute offset (R193). -/
def xctrUnit (e : Engine) (b : Bytes) : Bytes × Work :=
  (xorBytes b ((List.range b.length).map fun j =>
      xctrKeystream e.slot.data e.latch.iv (e.work.bc.toNat + j)),
    { e.work with bc := e.work.bc + BitVec.ofNat 64 b.length })

/-- A full XCTR unit. -/
def xctrBlock (e : Engine) (b : Block) : Block × Work :=
  (blockOf (xctrUnit e (blockBytes b)).1, (xctrUnit e (blockBytes b)).2)

/-- COMMIT of XCTR: XCTR ← W_BC, RESULT ← 0, IV unchanged (R193). -/
def commitXctr (e : Engine) : Engine := { e with xctr := e.work.bc, result := 0 }

/-- CRYPT.XCTR in either direction: one operation (R193). -/
def xctrPlan (sg : Bool) : Plan :=
  .crypt .plain sg xctrInRange fullBlocks xctrSeed xctrBlock xctrUnit commitXctr

/-! ### The commands -/

/-- CRYPT.CTR.ENC (R191). -/
def planCryptCtrEnc (sg : Bool) : Plan := ctrPlan sg
/-- CRYPT.CTR.DEC (R191). -/
def planCryptCtrDec (sg : Bool) : Plan := ctrPlan sg
/-- CRYPT.XCTR.ENC (R193). -/
def planCryptXctrEnc (sg : Bool) : Plan := xctrPlan sg
/-- CRYPT.XCTR.DEC (R193). -/
def planCryptXctrDec (sg : Bool) : Plan := xctrPlan sg

/-- `CRYPT.CTR.ENC` (R191). -/
def execCryptCtrEnc (sg : Bool) (s : State) : Host.Outcome State Fault Refusal :=
  .next (runCommand (planCryptCtrEnc sg) s)
/-- `CRYPT.CTR.DEC` (R191). -/
def execCryptCtrDec (sg : Bool) (s : State) : Host.Outcome State Fault Refusal :=
  .next (runCommand (planCryptCtrDec sg) s)
/-- `CRYPT.XCTR.ENC` (R193). -/
def execCryptXctrEnc (sg : Bool) (s : State) : Host.Outcome State Fault Refusal :=
  .next (runCommand (planCryptXctrEnc sg) s)
/-- `CRYPT.XCTR.DEC` (R193). -/
def execCryptXctrDec (sg : Bool) (s : State) : Host.Outcome State Fault Refusal :=
  .next (runCommand (planCryptXctrDec sg) s)

end Sys2Proof.Machine
end

