-- ==== Sys2Proof/Machine/Mac.lean ====
section
/-! DEFINITION. CBC-MAC, CMAC and XCBC (46_mac.md R230–R237). The MODE values 8, 9 and 10 are
30_encoding.md R93's. -/

namespace Sys2Proof.Machine

/-- MAC_INIT of a mode: `W_DG ← zeros(16)`; COMMIT starts the computation (R231). Its errors end any
computation in progress (R230). -/
def macInitPlan (cls : KeyClass) (mode : BitVec 4) : Plan :=
  { Plan.noData (fun e => .ok { e.work with dg := 0 })
      (fun e => { e with dg := e.work.dg, macActive := true, macMode := mode, result := 0 }) with
    needs := some cls
    onError := Engine.abortMac }

/-- A MAC_UPDATE block (R232). -/
def macBlock (e : Engine) (b : Block) : Work :=
  { e.work with dg := aesE e.slot.mac (e.work.dg ^^^ b) }

/-- COMMIT of MAC_UPDATE: `W_RES ← L mod 16`, `DG ← W_DG`, `RESULT ← W_RES`; MAC_ACTIVE stays (R232). -/
def commitUpdate (e : Engine) : Engine :=
  { e with
    work := { e.work with res := BitVec.ofNat 5 (e.reqLen % 16) }
    dg := e.work.dg
    result := BitVec.ofNat 5 (e.reqLen % 16) }

/-- MAC_UPDATE of a mode: the full blocks are chained, the remainder is not read (R232). -/
def macUpdatePlan (cls : KeyClass) (mode : BitVec 4) (sg : Bool) : Plan :=
  .macData cls mode sg noLengthError fullBlocks fullBlocks macBlock (fun e _ => e.work) commitUpdate

/-- `W_DG ← FINAL_MODE(W_DG, m)` (R233). -/
def finalWork (final : KeySlot → Block → Bytes → Block) (e : Engine) (m : Bytes) : Work :=
  { e.work with dg := final e.slot e.work.dg m }

/-- COMMIT of MAC_FINUP: `DG ← W_DG`, MAC_ACTIVE ← 0, RESULT ← 0 (R233). A FINUP of no bytes has no
access and computes here (40_control.md R121). -/
def commitFinup (final : KeySlot → Block → Bytes → Block) (e : Engine) : Engine :=
  let w := if e.reqLen = 0 then finalWork final e [] else e.work
  { e with work := w, dg := w.dg, macActive := false, result := 0 }

/-- MAC_FINUP of a mode: the whole input is one TAIL unit (R233, 40_control.md R120). -/
def macFinupPlan (cls : KeyClass) (mode : BitVec 4) (final : KeySlot → Block → Bytes → Block) (sg : Bool) :
    Plan :=
  .macData cls mode sg atMostOneBlock (fun l => l) (fun _ => 0) (fun e _ => e.work) (finalWork final)
    (commitFinup final)

/-- `FINAL_CBCMAC` under the slot's key (R234). -/
def finalOfCbcmac (k : KeySlot) (dg : Block) (m : Bytes) : Block := finalCbcmac k.mac dg m
/-- `FINAL_CMAC` under the slot's key and subkeys K1, K2 (R235). -/
def finalOfCmac (k : KeySlot) (dg : Block) (m : Bytes) : Block :=
  finalCmac k.mac (blockOf k.sk1) (blockOf k.sk2) dg m
/-- `FINAL_XCBC` under the slot's replacement key and K2, K3 (R236). -/
def finalOfXcbc (k : KeySlot) (dg : Block) (m : Bytes) : Block :=
  finalCmac k.mac (blockOf k.sk1) (blockOf k.sk2) dg m

/-- MAC_INIT.CBCMAC (R231). -/
def planMacInitCbcmac : Plan := macInitPlan .plain 8
/-- MAC_INIT.CMAC (R231). -/
def planMacInitCmac : Plan := macInitPlan .cmac 9
/-- MAC_INIT.XCBC (R231). -/
def planMacInitXcbc : Plan := macInitPlan .xcbc 10
/-- MAC_UPDATE.CBCMAC (R232). -/
def planMacUpdateCbcmac (sg : Bool) : Plan := macUpdatePlan .plain 8 sg
/-- MAC_UPDATE.CMAC (R232). -/
def planMacUpdateCmac (sg : Bool) : Plan := macUpdatePlan .cmac 9 sg
/-- MAC_UPDATE.XCBC (R232). -/
def planMacUpdateXcbc (sg : Bool) : Plan := macUpdatePlan .xcbc 10 sg
/-- MAC_FINUP.CBCMAC (R233, R234). -/
def planMacFinupCbcmac (sg : Bool) : Plan := macFinupPlan .plain 8 finalOfCbcmac sg
/-- MAC_FINUP.CMAC (R233, R235). -/
def planMacFinupCmac (sg : Bool) : Plan := macFinupPlan .cmac 9 finalOfCmac sg
/-- MAC_FINUP.XCBC (R233, R236). -/
def planMacFinupXcbc (sg : Bool) : Plan := macFinupPlan .xcbc 10 finalOfXcbc sg

/-- `MAC_INIT.CBCMAC` (R231). -/
def execMacInitCbcmac (s : State) : Host.Outcome State Fault Refusal := .next (runCommand planMacInitCbcmac s)
/-- `MAC_INIT.CMAC` (R231). -/
def execMacInitCmac (s : State) : Host.Outcome State Fault Refusal := .next (runCommand planMacInitCmac s)
/-- `MAC_INIT.XCBC` (R231). -/
def execMacInitXcbc (s : State) : Host.Outcome State Fault Refusal := .next (runCommand planMacInitXcbc s)
/-- `MAC_UPDATE.CBCMAC` (R232). -/
def execMacUpdateCbcmac (sg : Bool) (s : State) : Host.Outcome State Fault Refusal :=
  .next (runCommand (planMacUpdateCbcmac sg) s)
/-- `MAC_UPDATE.CMAC` (R232). -/
def execMacUpdateCmac (sg : Bool) (s : State) : Host.Outcome State Fault Refusal :=
  .next (runCommand (planMacUpdateCmac sg) s)
/-- `MAC_UPDATE.XCBC` (R232). -/
def execMacUpdateXcbc (sg : Bool) (s : State) : Host.Outcome State Fault Refusal :=
  .next (runCommand (planMacUpdateXcbc sg) s)
/-- `MAC_FINUP.CBCMAC` (R233, R234). -/
def execMacFinupCbcmac (sg : Bool) (s : State) : Host.Outcome State Fault Refusal :=
  .next (runCommand (planMacFinupCbcmac sg) s)
/-- `MAC_FINUP.CMAC` (R233, R235). -/
def execMacFinupCmac (sg : Bool) (s : State) : Host.Outcome State Fault Refusal :=
  .next (runCommand (planMacFinupCmac sg) s)
/-- `MAC_FINUP.XCBC` (R233, R236). -/
def execMacFinupXcbc (sg : Bool) (s : State) : Host.Outcome State Fault Refusal :=
  .next (runCommand (planMacFinupXcbc sg) s)

end Sys2Proof.Machine
end

