-- ==== Sys2Proof/Machine/SetKey.lean ====
section
/-! DEFINITION. SETKEY (41_setkey.md R130–R139): SEED derives the new slot from the latched key bytes,
COMMIT installs it and ends any MAC computation. -/

namespace Sys2Proof.Machine

/-- The slot of class PLAIN: `K_DATA = K_MAC = raw` (R132). -/
def slotPlain (raw : Bytes) : KeySlot :=
  { KeySlot.empty with valid := true, cls := .plain, data := raw, mac := raw }

/-- The slot of class XTS: the first half is key1, the second half key2 (R133). -/
def slotXts (raw : Bytes) (keylen : Nat) : KeySlot :=
  { KeySlot.empty with
    valid := true
    cls := .xts
    data := slice raw 0 (keylen / 2)
    tweak := slice raw (keylen / 2) (2 * (keylen / 2)) }

/-- The slot of class ESSIV: the raw key and its digest (R134). -/
def slotEssiv (raw : Bytes) : KeySlot :=
  { KeySlot.empty with valid := true, cls := .essiv, data := raw, essiv := digest256 raw }

/-- The slot of class CMAC: K1 and K2 by doubling (R137). -/
def slotCmac (raw : Bytes) : KeySlot :=
  let k1 := gfDouble (aesE raw (blockOf (zeros 16)))
  { KeySlot.empty with
    valid := true
    cls := .cmac
    mac := raw
    sk1 := blockBytes k1
    sk2 := blockBytes (gfDouble k1) }

/-- The slot of class XCBC: the replacement key, K2 and K3 (R138). -/
def slotXcbc (raw : Bytes) : KeySlot :=
  { KeySlot.empty with
    valid := true
    cls := .xcbc
    mac := blockBytes (aesE raw (blockOf (rep 0x01 16)))
    sk1 := blockBytes (aesE raw (blockOf (rep 0x02 16)))
    sk2 := blockBytes (aesE raw (blockOf (rep 0x03 16))) }

/-- COMMIT of a SETKEY: the slot is installed, any MAC computation ends (R139), RESULT ← 0
(40_control.md R116). -/
def installSlot (e : Engine) : Engine :=
  { e with slot := e.work.newSlot, macActive := false, dg := 0, result := 0 }

/-- A SETKEY with this length check and new slot; its errors empty the slot (R131, R139). -/
def setkeyPlan (lengthError : Latch → Option ErrorKind) (newSlot : Latch → KeySlot) : Plan :=
  { Plan.noData (fun e => .ok { e.work with newSlot := newSlot e.latch }) installSlot with
    lengthError := lengthError
    onError := Engine.dropKey }

/-- SETKEY.ECB (R132). -/
def planSetkeyEcb : Plan := setkeyPlan aesKeyLength (fun l => slotPlain l.rawKey)
/-- SETKEY.CBC (R132). -/
def planSetkeyCbc : Plan := setkeyPlan aesKeyLength (fun l => slotPlain l.rawKey)
/-- SETKEY.CTS (R132). -/
def planSetkeyCts : Plan := setkeyPlan aesKeyLength (fun l => slotPlain l.rawKey)
/-- SETKEY.CTR (R132). -/
def planSetkeyCtr : Plan := setkeyPlan aesKeyLength (fun l => slotPlain l.rawKey)
/-- SETKEY.XCTR (R132). -/
def planSetkeyXctr : Plan := setkeyPlan aesKeyLength (fun l => slotPlain l.rawKey)
/-- SETKEY.CBCMAC (R132). -/
def planSetkeyCbcmac : Plan := setkeyPlan aesKeyLength (fun l => slotPlain l.rawKey)
/-- SETKEY.XTS (R133). -/
def planSetkeyXts : Plan := setkeyPlan xtsKeyLength (fun l => slotXts l.rawKey l.keylen.toNat)
/-- SETKEY.CMAC (R137). -/
def planSetkeyCmac : Plan := setkeyPlan aesKeyLength (fun l => slotCmac l.rawKey)
/-- SETKEY.XCBC (R138). -/
def planSetkeyXcbc : Plan := setkeyPlan aesKeyLength (fun l => slotXcbc l.rawKey)
/-- SETKEY.ESSIV: SEED draws `HashFail` first (R134, R135). -/
def planSetkeyEssiv : Plan :=
  { setkeyPlan aesKeyLength (fun l => slotEssiv l.rawKey) with
    draws := true
    seed := fun hashFail e =>
      if hashFail then .error .essivHashFailure
      else .ok { e.work with newSlot := slotEssiv e.latch.rawKey } }

/-- `SETKEY.ECB` (R132). -/
def execSetkeyEcb (s : State) : Host.Outcome State Fault Refusal := .next (runCommand planSetkeyEcb s)
/-- `SETKEY.CBC` (R132). -/
def execSetkeyCbc (s : State) : Host.Outcome State Fault Refusal := .next (runCommand planSetkeyCbc s)
/-- `SETKEY.CTS` (R132). -/
def execSetkeyCts (s : State) : Host.Outcome State Fault Refusal := .next (runCommand planSetkeyCts s)
/-- `SETKEY.ESSIV` (R134, R135). -/
def execSetkeyEssiv (s : State) : Host.Outcome State Fault Refusal := .next (runCommand planSetkeyEssiv s)
/-- `SETKEY.CTR` (R132). -/
def execSetkeyCtr (s : State) : Host.Outcome State Fault Refusal := .next (runCommand planSetkeyCtr s)
/-- `SETKEY.XCTR` (R132). -/
def execSetkeyXctr (s : State) : Host.Outcome State Fault Refusal := .next (runCommand planSetkeyXctr s)
/-- `SETKEY.XTS` (R133). -/
def execSetkeyXts (s : State) : Host.Outcome State Fault Refusal := .next (runCommand planSetkeyXts s)
/-- `SETKEY.CBCMAC` (R132). -/
def execSetkeyCbcmac (s : State) : Host.Outcome State Fault Refusal := .next (runCommand planSetkeyCbcmac s)
/-- `SETKEY.CMAC` (R137). -/
def execSetkeyCmac (s : State) : Host.Outcome State Fault Refusal := .next (runCommand planSetkeyCmac s)
/-- `SETKEY.XCBC` (R138). -/
def execSetkeyXcbc (s : State) : Host.Outcome State Fault Refusal := .next (runCommand planSetkeyXcbc s)

end Sys2Proof.Machine
end

