-- ==== Sys2Proof/Machine/Xts.lean ====
section
/-! DEFINITION. XTS (45_xts.md R210–R219). -/

namespace Sys2Proof.Machine

/-- SEED of XTS by the FIRST bit (R211). -/
def xtsSeed (first : Bool) (e : Engine) : Work :=
  { e.work with tweak := if first then aesE e.slot.tweak e.latch.iv else e.latch.iv }

/-- The XTS bulk end: all `q` blocks when `r = 0`, else `q − 1` (R213, 40_control.md R120). -/
def xtsBulkEnd (l : Nat) : Nat := if l % 16 = 0 then 16 * (l / 16) else 16 * (l / 16 - 1)

/-- An XTS block under `f` = `XE` or `XD`, and the next tweak (R213, R214). -/
def xtsBlock (f : Bytes → Block → Block → Block) (e : Engine) (b : Block) : Block × Work :=
  (f e.slot.data b e.work.tweak, { e.work with tweak := mulxLe e.work.tweak })

/-- The XTS encryption tail of `16 + r` bytes (R213, R215). -/
def xtsEncUnit (e : Engine) (t : Bytes) : Bytes × Work :=
  let r := t.length - 16
  (xtsEncTail e.slot.data (blockOf (slice t 0 16)) (slice t 16 (16 + r)) r e.work.tweak,
    { e.work with tweak := mulxLe (mulxLe e.work.tweak) })

/-- The XTS decryption tail (R214, R216). -/
def xtsDecUnit (e : Engine) (t : Bytes) : Bytes × Work :=
  let r := t.length - 16
  (xtsDecTail e.slot.data (blockOf (slice t 0 16)) (slice t 16 (16 + r)) r e.work.tweak,
    { e.work with tweak := mulxLe (mulxLe e.work.tweak) })

/-- COMMIT of XTS: IV ← W_TWEAK, RESULT ← 0 (R213, R217). -/
def commitTweak (e : Engine) : Engine := { e with iv := e.work.tweak, result := 0 }

/-- CRYPT.XTS.ENC (R213). -/
def planCryptXtsEnc (first sg : Bool) : Plan :=
  .crypt .xts sg atLeastOneBlock xtsBulkEnd (xtsSeed first) (xtsBlock xtsE) xtsEncUnit commitTweak
/-- CRYPT.XTS.DEC (R214). -/
def planCryptXtsDec (first sg : Bool) : Plan :=
  .crypt .xts sg atLeastOneBlock xtsBulkEnd (xtsSeed first) (xtsBlock xtsD) xtsDecUnit commitTweak

/-- `CRYPT.XTS.ENC` (R213). -/
def execCryptXtsEnc (first sg : Bool) (s : State) : Host.Outcome State Fault Refusal :=
  .next (runCommand (planCryptXtsEnc first sg) s)
/-- `CRYPT.XTS.DEC` (R214). -/
def execCryptXtsDec (first sg : Bool) (s : State) : Host.Outcome State Fault Refusal :=
  .next (runCommand (planCryptXtsDec first sg) s)

end Sys2Proof.Machine
end

