-- ==== Sys2Proof/Syntax.lean ====
section
/-! DEFINITION. The commands as syntax: one constructor of Instr for each row of spec/opcode_table.json
(30_encoding.md R102), with the row's free bits SG and FIRST as its arguments, and the fields of a command
word (R91). -/

namespace Sys2Proof

/-- A command. Each constructor is one row of the opcode map R102; `sg` is bit 10 (R96) and `first` is
bit 9 (R95), where the row leaves them free. -/
inductive Instr where
  /-- `NOP`, word 0x00000000: 40_control.md R118. -/
  | nop
  /-- `SETKEY.ECB`, word 0x00000001: 41_setkey.md R132. -/
  | setkeyEcb
  /-- `SETKEY.CBC`, word 0x00000011: 41_setkey.md R132. -/
  | setkeyCbc
  /-- `SETKEY.CTS`, word 0x00000021: 41_setkey.md R132. -/
  | setkeyCts
  /-- `SETKEY.ESSIV`, word 0x00000031: 41_setkey.md R134. -/
  | setkeyEssiv
  /-- `SETKEY.CTR`, word 0x00000041: 41_setkey.md R132. -/
  | setkeyCtr
  /-- `SETKEY.XCTR`, word 0x00000051: 41_setkey.md R132. -/
  | setkeyXctr
  /-- `SETKEY.XTS`, word 0x00000061: 41_setkey.md R133. -/
  | setkeyXts
  /-- `SETKEY.CBCMAC`, word 0x00000081: 41_setkey.md R132. -/
  | setkeyCbcmac
  /-- `SETKEY.CMAC`, word 0x00000091: 41_setkey.md R137. -/
  | setkeyCmac
  /-- `SETKEY.XCBC`, word 0x000000A1: 41_setkey.md R138. -/
  | setkeyXcbc
  /-- `CRYPT.ECB.ENC`, word 0x00000002: 42_ecb_cbc_essiv.md R150. -/
  | cryptEcbEnc (sg : Bool)
  /-- `CRYPT.ECB.DEC`, word 0x00000102: 42_ecb_cbc_essiv.md R151. -/
  | cryptEcbDec (sg : Bool)
  /-- `CRYPT.CBC.ENC`, word 0x00000012: 42_ecb_cbc_essiv.md R152. -/
  | cryptCbcEnc (sg : Bool)
  /-- `CRYPT.CBC.DEC`, word 0x00000112: 42_ecb_cbc_essiv.md R153. -/
  | cryptCbcDec (sg : Bool)
  /-- `CRYPT.CTS.ENC`, word 0x00000022: 43_cts.md R171. -/
  | cryptCtsEnc (sg : Bool)
  /-- `CRYPT.CTS.DEC`, word 0x00000122: 43_cts.md R172. -/
  | cryptCtsDec (sg : Bool)
  /-- `CRYPT.ESSIV.ENC`, word 0x00000032: 42_ecb_cbc_essiv.md R154. -/
  | cryptEssivEnc (sg : Bool)
  /-- `CRYPT.ESSIV.DEC`, word 0x00000132: 42_ecb_cbc_essiv.md R155. -/
  | cryptEssivDec (sg : Bool)
  /-- `CRYPT.CTR.ENC`, word 0x00000042: 44_ctr_xctr.md R191. -/
  | cryptCtrEnc (sg : Bool)
  /-- `CRYPT.CTR.DEC`, word 0x00000142: 44_ctr_xctr.md R191. -/
  | cryptCtrDec (sg : Bool)
  /-- `CRYPT.XCTR.ENC`, word 0x00000052: 44_ctr_xctr.md R193. -/
  | cryptXctrEnc (sg : Bool)
  /-- `CRYPT.XCTR.DEC`, word 0x00000152: 44_ctr_xctr.md R193. -/
  | cryptXctrDec (sg : Bool)
  /-- `CRYPT.XTS.ENC`, word 0x00000062: 45_xts.md R213. -/
  | cryptXtsEnc (first sg : Bool)
  /-- `CRYPT.XTS.DEC`, word 0x00000162: 45_xts.md R214. -/
  | cryptXtsDec (first sg : Bool)
  /-- `MAC_INIT.CBCMAC`, word 0x00000083: 46_mac.md R231. -/
  | macInitCbcmac
  /-- `MAC_INIT.CMAC`, word 0x00000093: 46_mac.md R231. -/
  | macInitCmac
  /-- `MAC_INIT.XCBC`, word 0x000000A3: 46_mac.md R231. -/
  | macInitXcbc
  /-- `MAC_UPDATE.CBCMAC`, word 0x00000084: 46_mac.md R232. -/
  | macUpdateCbcmac (sg : Bool)
  /-- `MAC_UPDATE.CMAC`, word 0x00000094: 46_mac.md R232. -/
  | macUpdateCmac (sg : Bool)
  /-- `MAC_UPDATE.XCBC`, word 0x000000A4: 46_mac.md R232. -/
  | macUpdateXcbc (sg : Bool)
  /-- `MAC_FINUP.CBCMAC`, word 0x00000085: 46_mac.md R234. -/
  | macFinupCbcmac (sg : Bool)
  /-- `MAC_FINUP.CMAC`, word 0x00000095: 46_mac.md R235. -/
  | macFinupCmac (sg : Bool)
  /-- `MAC_FINUP.XCBC`, word 0x000000A5: 46_mac.md R236. -/
  | macFinupXcbc (sg : Bool)
deriving DecidableEq, Repr

/-- The fields of a command word, in the order of R91 from the least significant bit. -/
structure Fields where
  /-- OP, bits 3:0 (R92). -/
  op : BitVec 4
  /-- MODE, bits 7:4 (R93). -/
  mode : BitVec 4
  /-- DIR, bit 8 (R94). -/
  dir : Bool
  /-- FIRST, bit 9 (R95). -/
  first : Bool
  /-- SG, bit 10 (R96). -/
  sg : Bool
  /-- RSVD, bits 31:11 (R97). -/
  rsvd : BitVec 21
deriving DecidableEq, Repr

end Sys2Proof
end

