-- ==== Sys2Proof/Machine/Dispatch.lean ====
section
/-! DEFINITION. The dispatch of a command to its meaning, one arm per row of spec/opcode_table.json. Every
meaning runs the command from CHECK to its completion (log entry 6). -/

namespace Sys2Proof.Machine

def exec (i : Instr) (s : State) : Host.Outcome State Fault Refusal :=
  match i with
  | .nop => Sys2Proof.Machine.execNop s
  | .setkeyEcb => Sys2Proof.Machine.execSetkeyEcb s
  | .setkeyCbc => Sys2Proof.Machine.execSetkeyCbc s
  | .setkeyCts => Sys2Proof.Machine.execSetkeyCts s
  | .setkeyEssiv => Sys2Proof.Machine.execSetkeyEssiv s
  | .setkeyCtr => Sys2Proof.Machine.execSetkeyCtr s
  | .setkeyXctr => Sys2Proof.Machine.execSetkeyXctr s
  | .setkeyXts => Sys2Proof.Machine.execSetkeyXts s
  | .setkeyCbcmac => Sys2Proof.Machine.execSetkeyCbcmac s
  | .setkeyCmac => Sys2Proof.Machine.execSetkeyCmac s
  | .setkeyXcbc => Sys2Proof.Machine.execSetkeyXcbc s
  | .cryptEcbEnc sg => Sys2Proof.Machine.execCryptEcbEnc sg s
  | .cryptEcbDec sg => Sys2Proof.Machine.execCryptEcbDec sg s
  | .cryptCbcEnc sg => Sys2Proof.Machine.execCryptCbcEnc sg s
  | .cryptCbcDec sg => Sys2Proof.Machine.execCryptCbcDec sg s
  | .cryptCtsEnc sg => Sys2Proof.Machine.execCryptCtsEnc sg s
  | .cryptCtsDec sg => Sys2Proof.Machine.execCryptCtsDec sg s
  | .cryptEssivEnc sg => Sys2Proof.Machine.execCryptEssivEnc sg s
  | .cryptEssivDec sg => Sys2Proof.Machine.execCryptEssivDec sg s
  | .cryptCtrEnc sg => Sys2Proof.Machine.execCryptCtrEnc sg s
  | .cryptCtrDec sg => Sys2Proof.Machine.execCryptCtrDec sg s
  | .cryptXctrEnc sg => Sys2Proof.Machine.execCryptXctrEnc sg s
  | .cryptXctrDec sg => Sys2Proof.Machine.execCryptXctrDec sg s
  | .cryptXtsEnc first sg => Sys2Proof.Machine.execCryptXtsEnc first sg s
  | .cryptXtsDec first sg => Sys2Proof.Machine.execCryptXtsDec first sg s
  | .macInitCbcmac => Sys2Proof.Machine.execMacInitCbcmac s
  | .macInitCmac => Sys2Proof.Machine.execMacInitCmac s
  | .macInitXcbc => Sys2Proof.Machine.execMacInitXcbc s
  | .macUpdateCbcmac sg => Sys2Proof.Machine.execMacUpdateCbcmac sg s
  | .macUpdateCmac sg => Sys2Proof.Machine.execMacUpdateCmac sg s
  | .macUpdateXcbc sg => Sys2Proof.Machine.execMacUpdateXcbc sg s
  | .macFinupCbcmac sg => Sys2Proof.Machine.execMacFinupCbcmac sg s
  | .macFinupCmac sg => Sys2Proof.Machine.execMacFinupCmac sg s
  | .macFinupXcbc sg => Sys2Proof.Machine.execMacFinupXcbc sg s

end Sys2Proof.Machine
end

