-- ==== Sys2Proof/WellFormed.lean ====
section
/-! DEFINITION. Which field values make a legal command word: the table of 30_encoding.md R98, written
column by column, apart from the decoder (which follows R101 and the opcode map R102). An `Instr` cannot
be ill formed by its type (its arguments are the row's free bits); what can be ill formed is the tuple of
fields of a word, so the checks stand on `Fields`. -/

namespace Sys2Proof

/-- MODE is the value of a cipher mode: 0–6 (R93). -/
def Fields.cipherMode (f : Fields) : Bool := f.mode.toNat ≤ 6

/-- MODE is the value of a MAC mode: 8–10 (R93). -/
def Fields.macModeValue (f : Fields) : Bool := 8 ≤ f.mode.toNat && f.mode.toNat ≤ 10

/-- R97: the reserved bits are 0. -/
def Fields.reservedOk (f : Fields) : Bool := f.rsvd == 0

/-- R92: OP is one of 0–5. -/
def Fields.opOk (f : Fields) : Bool := f.op.toNat ≤ 5

/-- R98: MODE is in the row of OP. -/
def Fields.modeOk (f : Fields) : Bool :=
  match f.op.toNat with
  | 0 => f.mode == 0
  | 1 => f.cipherMode || f.macModeValue
  | 2 => f.cipherMode
  | _ => f.macModeValue

/-- R94: DIR may be 1 with CRYPT only. -/
def Fields.dirOk (f : Fields) : Bool := !f.dir || f.op == 2

/-- R95: FIRST may be 1 with CRYPT and MODE = XTS only. -/
def Fields.firstOk (f : Fields) : Bool := !f.first || (f.op == 2 && f.mode == 6)

/-- R96: SG may be 1 with CRYPT, MAC_UPDATE and MAC_FINUP only. -/
def Fields.sgOk (f : Fields) : Bool := !f.sg || f.op == 2 || f.op == 4 || f.op == 5

/-- R98: a word with these fields is legal. -/
def Fields.legal (f : Fields) : Bool :=
  f.reservedOk && f.opOk && f.modeOk && f.dirOk && f.firstOk && f.sgOk

end Sys2Proof
end

