-- ==== Sys2Proof/Decode.lean ====
section
/-! DEFINITION. Decoding a command word, in the order of 30_encoding.md R101 (OP, then MODE, then DIR, FIRST
and SG; the reserved bits first of all), total, rejecting by name; after it the encoder, written from the
fields of R91 and the values of R92 and R93; and the opcode map R102 as rows of match and mask. -/

namespace Sys2Proof

/-- Why a word is illegal: the parts of the illegal space R99. -/
inductive Reject where
  /-- A reserved bit (31:11) is set. -/
  | reservedBits
  /-- OP is 6–15. -/
  | reservedOp
  /-- MODE is 7 or 11–15, or not 0 with NOP. -/
  | reservedMode
  /-- MODE is a mode of another OP: 8–10 with CRYPT, 0–6 with a MAC operation. -/
  | modeOfAnotherOp
  /-- DIR is 1 outside CRYPT. -/
  | dirSet
  /-- FIRST is 1 outside CRYPT.XTS. -/
  | firstSet
  /-- SG is 1 with NOP, SETKEY or MAC_INIT. -/
  | sgSet
deriving DecidableEq, Repr

/-- The fields of a word (R91). -/
def Fields.ofWord (w : Word) : Fields where
  op := w.extractLsb' 0 4
  mode := w.extractLsb' 4 4
  dir := w.getLsbD 8
  first := w.getLsbD 9
  sg := w.getLsbD 10
  rsvd := w.extractLsb' 11 21

/-- The word with these fields (R91). -/
def Fields.toWord (f : Fields) : Word :=
  f.rsvd ++ BitVec.ofBool f.sg ++ BitVec.ofBool f.first ++ BitVec.ofBool f.dir ++ f.mode ++ f.op

/-- An operation that leaves no flag bit free: DIR, FIRST and SG are 0 (R94–R96). -/
def Fields.plain (f : Fields) (i : Instr) : Except Reject Instr :=
  if f.dir then .error .dirSet
  else if f.first then .error .firstSet
  else if f.sg then .error .sgSet
  else .ok i

/-- A MAC operation that reads memory: DIR and FIRST are 0, SG is free. -/
def Fields.macWithSg (f : Fields) (i : Bool → Instr) : Except Reject Instr :=
  if f.dir then .error .dirSet
  else if f.first then .error .firstSet
  else .ok (i f.sg)

/-- A CRYPT of a mode other than XTS: DIR selects, FIRST is 0, SG is free. -/
def Fields.crypt (f : Fields) (enc dec : Bool → Instr) : Except Reject Instr :=
  if f.first then .error .firstSet
  else .ok (if f.dir then dec f.sg else enc f.sg)

/-- The MODE value has no row for this OP: named by whether R93 reserves it. -/
def Fields.badMode (f : Fields) : Reject :=
  match f.mode.toNat with
  | 7 | 11 | 12 | 13 | 14 | 15 => .reservedMode
  | _ => .modeOfAnotherOp

/-- OP = 1 (R93, R102). -/
def Fields.decodeSetkey (f : Fields) : Except Reject Instr :=
  match f.mode.toNat with
  | 0 => f.plain .setkeyEcb
  | 1 => f.plain .setkeyCbc
  | 2 => f.plain .setkeyCts
  | 3 => f.plain .setkeyEssiv
  | 4 => f.plain .setkeyCtr
  | 5 => f.plain .setkeyXctr
  | 6 => f.plain .setkeyXts
  | 8 => f.plain .setkeyCbcmac
  | 9 => f.plain .setkeyCmac
  | 10 => f.plain .setkeyXcbc
  | _ => .error f.badMode

/-- OP = 2 (R93, R94, R95, R102). -/
def Fields.decodeCrypt (f : Fields) : Except Reject Instr :=
  match f.mode.toNat with
  | 0 => f.crypt .cryptEcbEnc .cryptEcbDec
  | 1 => f.crypt .cryptCbcEnc .cryptCbcDec
  | 2 => f.crypt .cryptCtsEnc .cryptCtsDec
  | 3 => f.crypt .cryptEssivEnc .cryptEssivDec
  | 4 => f.crypt .cryptCtrEnc .cryptCtrDec
  | 5 => f.crypt .cryptXctrEnc .cryptXctrDec
  | 6 => .ok (if f.dir then .cryptXtsDec f.first f.sg else .cryptXtsEnc f.first f.sg)
  | _ => .error f.badMode

/-- OP = 3 (R93, R102). -/
def Fields.decodeMacInit (f : Fields) : Except Reject Instr :=
  match f.mode.toNat with
  | 8 => f.plain .macInitCbcmac
  | 9 => f.plain .macInitCmac
  | 10 => f.plain .macInitXcbc
  | _ => .error f.badMode

/-- OP = 4 (R93, R102). -/
def Fields.decodeMacUpdate (f : Fields) : Except Reject Instr :=
  match f.mode.toNat with
  | 8 => f.macWithSg .macUpdateCbcmac
  | 9 => f.macWithSg .macUpdateCmac
  | 10 => f.macWithSg .macUpdateXcbc
  | _ => .error f.badMode

/-- OP = 5 (R93, R102). -/
def Fields.decodeMacFinup (f : Fields) : Except Reject Instr :=
  match f.mode.toNat with
  | 8 => f.macWithSg .macFinupCbcmac
  | 9 => f.macWithSg .macFinupCmac
  | 10 => f.macWithSg .macFinupXcbc
  | _ => .error f.badMode

/-- The fields of a word as a command, or why there is none. -/
def Fields.decode (f : Fields) : Except Reject Instr :=
  if f.rsvd != 0 then .error .reservedBits else
  match f.op.toNat with
  | 0 => if f.mode == 0 then f.plain .nop else .error .reservedMode
  | 1 => f.decodeSetkey
  | 2 => f.decodeCrypt
  | 3 => f.decodeMacInit
  | 4 => f.decodeMacUpdate
  | 5 => f.decodeMacFinup
  | _ => .error .reservedOp

/-- The command a word written to CMD stands for, or why it is illegal (R99). -/
def decode (w : Word) : Except Reject Instr := (Fields.ofWord w).decode

/-- Fields of a command with no free bit. -/
def Fields.fixed (op mode : BitVec 4) : Fields := ⟨op, mode, false, false, false, 0⟩

/-- Fields of a command whose FIRST and SG bits are given. -/
def Fields.withBits (op mode : BitVec 4) (dir first sg : Bool) : Fields := ⟨op, mode, dir, first, sg, 0⟩

/-- The fields of each command: OP by R92, MODE by R93, DIR by R94, the free bits as R102 lists them. -/
def Instr.fields : Instr → Fields
  | .nop => .fixed 0 0
  | .setkeyEcb => .fixed 1 0
  | .setkeyCbc => .fixed 1 1
  | .setkeyCts => .fixed 1 2
  | .setkeyEssiv => .fixed 1 3
  | .setkeyCtr => .fixed 1 4
  | .setkeyXctr => .fixed 1 5
  | .setkeyXts => .fixed 1 6
  | .setkeyCbcmac => .fixed 1 8
  | .setkeyCmac => .fixed 1 9
  | .setkeyXcbc => .fixed 1 10
  | .cryptEcbEnc sg => .withBits 2 0 false false sg
  | .cryptEcbDec sg => .withBits 2 0 true false sg
  | .cryptCbcEnc sg => .withBits 2 1 false false sg
  | .cryptCbcDec sg => .withBits 2 1 true false sg
  | .cryptCtsEnc sg => .withBits 2 2 false false sg
  | .cryptCtsDec sg => .withBits 2 2 true false sg
  | .cryptEssivEnc sg => .withBits 2 3 false false sg
  | .cryptEssivDec sg => .withBits 2 3 true false sg
  | .cryptCtrEnc sg => .withBits 2 4 false false sg
  | .cryptCtrDec sg => .withBits 2 4 true false sg
  | .cryptXctrEnc sg => .withBits 2 5 false false sg
  | .cryptXctrDec sg => .withBits 2 5 true false sg
  | .cryptXtsEnc first sg => .withBits 2 6 false first sg
  | .cryptXtsDec first sg => .withBits 2 6 true first sg
  | .macInitCbcmac => .fixed 3 8
  | .macInitCmac => .fixed 3 9
  | .macInitXcbc => .fixed 3 10
  | .macUpdateCbcmac sg => .withBits 4 8 false false sg
  | .macUpdateCmac sg => .withBits 4 9 false false sg
  | .macUpdateXcbc sg => .withBits 4 10 false false sg
  | .macFinupCbcmac sg => .withBits 5 8 false false sg
  | .macFinupCmac sg => .withBits 5 9 false false sg
  | .macFinupXcbc sg => .withBits 5 10 false false sg

/-- The word of a command. -/
def encode (i : Instr) : Word := i.fields.toWord

/-- Every command is well formed when its fields are a row of R98 (they are, by its type). -/
def Instr.wellFormed (i : Instr) : Bool := i.fields.legal

/-- A row of the opcode map R102: a word matches when `(word & mask) = value`. -/
structure TableRow where
  /-- The row's mnemonic (R103). -/
  mnemonic : String
  /-- The word with SG = 0 and FIRST = 0. -/
  value : Word
  /-- 1 where the row fixes the bit. -/
  mask : Word
deriving DecidableEq, Repr

/-- Whether a word matches a row. -/
def TableRow.matches (r : TableRow) (w : Word) : Bool := w &&& r.mask == r.value

/-- The row of each command, as R102 prints it. -/
def Instr.row : Instr → TableRow
  | .nop => ⟨"NOP", 0x00000000, 0xFFFFFFFF⟩
  | .setkeyEcb => ⟨"SETKEY.ECB", 0x00000001, 0xFFFFFFFF⟩
  | .setkeyCbc => ⟨"SETKEY.CBC", 0x00000011, 0xFFFFFFFF⟩
  | .setkeyCts => ⟨"SETKEY.CTS", 0x00000021, 0xFFFFFFFF⟩
  | .setkeyEssiv => ⟨"SETKEY.ESSIV", 0x00000031, 0xFFFFFFFF⟩
  | .setkeyCtr => ⟨"SETKEY.CTR", 0x00000041, 0xFFFFFFFF⟩
  | .setkeyXctr => ⟨"SETKEY.XCTR", 0x00000051, 0xFFFFFFFF⟩
  | .setkeyXts => ⟨"SETKEY.XTS", 0x00000061, 0xFFFFFFFF⟩
  | .setkeyCbcmac => ⟨"SETKEY.CBCMAC", 0x00000081, 0xFFFFFFFF⟩
  | .setkeyCmac => ⟨"SETKEY.CMAC", 0x00000091, 0xFFFFFFFF⟩
  | .setkeyXcbc => ⟨"SETKEY.XCBC", 0x000000A1, 0xFFFFFFFF⟩
  | .cryptEcbEnc _ => ⟨"CRYPT.ECB.ENC", 0x00000002, 0xFFFFFBFF⟩
  | .cryptEcbDec _ => ⟨"CRYPT.ECB.DEC", 0x00000102, 0xFFFFFBFF⟩
  | .cryptCbcEnc _ => ⟨"CRYPT.CBC.ENC", 0x00000012, 0xFFFFFBFF⟩
  | .cryptCbcDec _ => ⟨"CRYPT.CBC.DEC", 0x00000112, 0xFFFFFBFF⟩
  | .cryptCtsEnc _ => ⟨"CRYPT.CTS.ENC", 0x00000022, 0xFFFFFBFF⟩
  | .cryptCtsDec _ => ⟨"CRYPT.CTS.DEC", 0x00000122, 0xFFFFFBFF⟩
  | .cryptEssivEnc _ => ⟨"CRYPT.ESSIV.ENC", 0x00000032, 0xFFFFFBFF⟩
  | .cryptEssivDec _ => ⟨"CRYPT.ESSIV.DEC", 0x00000132, 0xFFFFFBFF⟩
  | .cryptCtrEnc _ => ⟨"CRYPT.CTR.ENC", 0x00000042, 0xFFFFFBFF⟩
  | .cryptCtrDec _ => ⟨"CRYPT.CTR.DEC", 0x00000142, 0xFFFFFBFF⟩
  | .cryptXctrEnc _ => ⟨"CRYPT.XCTR.ENC", 0x00000052, 0xFFFFFBFF⟩
  | .cryptXctrDec _ => ⟨"CRYPT.XCTR.DEC", 0x00000152, 0xFFFFFBFF⟩
  | .cryptXtsEnc _ _ => ⟨"CRYPT.XTS.ENC", 0x00000062, 0xFFFFF9FF⟩
  | .cryptXtsDec _ _ => ⟨"CRYPT.XTS.DEC", 0x00000162, 0xFFFFF9FF⟩
  | .macInitCbcmac => ⟨"MAC_INIT.CBCMAC", 0x00000083, 0xFFFFFFFF⟩
  | .macInitCmac => ⟨"MAC_INIT.CMAC", 0x00000093, 0xFFFFFFFF⟩
  | .macInitXcbc => ⟨"MAC_INIT.XCBC", 0x000000A3, 0xFFFFFFFF⟩
  | .macUpdateCbcmac _ => ⟨"MAC_UPDATE.CBCMAC", 0x00000084, 0xFFFFFBFF⟩
  | .macUpdateCmac _ => ⟨"MAC_UPDATE.CMAC", 0x00000094, 0xFFFFFBFF⟩
  | .macUpdateXcbc _ => ⟨"MAC_UPDATE.XCBC", 0x000000A4, 0xFFFFFBFF⟩
  | .macFinupCbcmac _ => ⟨"MAC_FINUP.CBCMAC", 0x00000085, 0xFFFFFBFF⟩
  | .macFinupCmac _ => ⟨"MAC_FINUP.CMAC", 0x00000095, 0xFFFFFBFF⟩
  | .macFinupXcbc _ => ⟨"MAC_FINUP.XCBC", 0x000000A5, 0xFFFFFBFF⟩

/-- Every command, the free bits at each of their values: the 58 legal words of R98. -/
def Instr.all : List Instr :=
  List.flatten
    [ [.nop],
      [.setkeyEcb],
      [.setkeyCbc],
      [.setkeyCts],
      [.setkeyEssiv],
      [.setkeyCtr],
      [.setkeyXctr],
      [.setkeyXts],
      [.setkeyCbcmac],
      [.setkeyCmac],
      [.setkeyXcbc],
      [.cryptEcbEnc false, .cryptEcbEnc true],
      [.cryptEcbDec false, .cryptEcbDec true],
      [.cryptCbcEnc false, .cryptCbcEnc true],
      [.cryptCbcDec false, .cryptCbcDec true],
      [.cryptCtsEnc false, .cryptCtsEnc true],
      [.cryptCtsDec false, .cryptCtsDec true],
      [.cryptEssivEnc false, .cryptEssivEnc true],
      [.cryptEssivDec false, .cryptEssivDec true],
      [.cryptCtrEnc false, .cryptCtrEnc true],
      [.cryptCtrDec false, .cryptCtrDec true],
      [.cryptXctrEnc false, .cryptXctrEnc true],
      [.cryptXctrDec false, .cryptXctrDec true],
      [.cryptXtsEnc false false, .cryptXtsEnc false true, .cryptXtsEnc true false, .cryptXtsEnc true true],
      [.cryptXtsDec false false, .cryptXtsDec false true, .cryptXtsDec true false, .cryptXtsDec true true],
      [.macInitCbcmac],
      [.macInitCmac],
      [.macInitXcbc],
      [.macUpdateCbcmac false, .macUpdateCbcmac true],
      [.macUpdateCmac false, .macUpdateCmac true],
      [.macUpdateXcbc false, .macUpdateXcbc true],
      [.macFinupCbcmac false, .macFinupCbcmac true],
      [.macFinupCmac false, .macFinupCmac true],
      [.macFinupXcbc false, .macFinupXcbc true] ]

/-- The FIRST and SG words of the assembler syntax (R103). -/
def Instr.suffix (i : Instr) : String :=
  (if i.fields.first then " FIRST" else "") ++ (if i.fields.sg then " SG" else "")

/-- A command as R103 writes it: `OP.MODE[.DIR] [FIRST] [SG]`. -/
def Instr.asm (i : Instr) : String := i.row.mnemonic ++ i.suffix

/-- The command of a table word: `nbits` bits numbered as spec/opcode_table.json numbers them, bit 0 least
significant, the bits above them 0. Every row has 32 bits (R90). -/
def decodeTableWord (nbits w : Nat) : Option Instr :=
  if nbits ≤ 32 then (decode (BitVec.ofNat 32 (w % 2 ^ nbits))).toOption else none

end Sys2Proof
end

