-- ==== Sys2Proof/Machine/Plans.lean ====
section
/-! DEFINITION. The plan of each command, and one engine step of the command an engine has latched
(40_control.md R121). -/

namespace Sys2Proof.Machine

/-- The plan of a command: the same one its meaning runs. -/
def planOf : Instr → Plan
  | .nop => planNop
  | .setkeyEcb => planSetkeyEcb
  | .setkeyCbc => planSetkeyCbc
  | .setkeyCts => planSetkeyCts
  | .setkeyEssiv => planSetkeyEssiv
  | .setkeyCtr => planSetkeyCtr
  | .setkeyXctr => planSetkeyXctr
  | .setkeyXts => planSetkeyXts
  | .setkeyCbcmac => planSetkeyCbcmac
  | .setkeyCmac => planSetkeyCmac
  | .setkeyXcbc => planSetkeyXcbc
  | .cryptEcbEnc sg => planCryptEcbEnc sg
  | .cryptEcbDec sg => planCryptEcbDec sg
  | .cryptCbcEnc sg => planCryptCbcEnc sg
  | .cryptCbcDec sg => planCryptCbcDec sg
  | .cryptCtsEnc sg => planCryptCtsEnc sg
  | .cryptCtsDec sg => planCryptCtsDec sg
  | .cryptEssivEnc sg => planCryptEssivEnc sg
  | .cryptEssivDec sg => planCryptEssivDec sg
  | .cryptCtrEnc sg => planCryptCtrEnc sg
  | .cryptCtrDec sg => planCryptCtrDec sg
  | .cryptXctrEnc sg => planCryptXctrEnc sg
  | .cryptXctrDec sg => planCryptXctrDec sg
  | .cryptXtsEnc first sg => planCryptXtsEnc first sg
  | .cryptXtsDec first sg => planCryptXtsDec first sg
  | .macInitCbcmac => planMacInitCbcmac
  | .macInitCmac => planMacInitCmac
  | .macInitXcbc => planMacInitXcbc
  | .macUpdateCbcmac sg => planMacUpdateCbcmac sg
  | .macUpdateCmac sg => planMacUpdateCmac sg
  | .macUpdateXcbc sg => planMacUpdateXcbc sg
  | .macFinupCbcmac sg => planMacFinupCbcmac sg
  | .macFinupCmac sg => planMacFinupCmac sg
  | .macFinupXcbc sg => planMacFinupXcbc sg

/-- The instance in focus takes one engine step of R121: of its latched command, or the error completion of
an illegal word (R112); an idle engine waits (60_exceptions.md R278). -/
def microStep (s : State) : State :=
  if s.eng.busy then
    match decode s.eng.latch.cmd with
    | .ok i => engineStep (planOf i) s
    | .error _ => illegalCommand s
  else s

/-- What the instance in focus writes to host memory in its coming engine step. -/
def State.nextWrite (s : State) : Option (Nat × Bytes) :=
  if s.eng.busy then
    match decode s.eng.latch.cmd with
    | .ok i => (planOf i).nextWrite s
    | .error _ => none
  else none

end Sys2Proof.Machine
end

