-- ==== Sys2Proof/Machine/Races.lean ====
section
/-! DEFINITION. Host memory shared by agents that do not wait for each other (20_memory.md R77 to R81, R85;
93_implementation_defined.md I11). A byte that is written while a command is in progress goes on record, with
the value before and every value written since. Accesses are ordered by an agent's own order (R80), from a CMD
write to its command (R78) and from a completion or reset to the host (R79), and by nothing else: a reader
finds any value but those it knows to be overwritten, by a draw for each byte (R72, R81; log entry 8). -/

namespace Sys2Proof.Machine

/-! ### Who is in progress -/

/-- Whether instance `k` has a command in progress. -/
def State.busyAt (s : State) (k : Nat) : Bool := s.engines[k]?.any (·.busy)

/-- The instances with a command in progress. -/
def State.busyInstances (s : State) : List Nat := (List.range s.engines.length).filter s.busyAt

/-- The agents whose accesses may race. -/
def State.agents (s : State) : List Agent := .host :: s.busyInstances.map .engine

/-! ### One record -/

/-- The writes a reader may find: all but those it knows to be overwritten. -/
def Race.found (r : Race) (x : Agent) : List RaceWrite := r.writes.filter fun w => !w.stale.contains x

/-- The values a read may return (20_memory.md R81). -/
def Race.values (r : Race) (x : Agent) : List Byte := (r.found x).map (·.value)

/-- `x` writes the byte: every write `x` knows is overwritten, as far as `x` and who learns from it can tell. -/
def Race.write (r : Race) (x : Agent) (v : Byte) : Race :=
  { r with
    writes := r.writes.map (fun w => if w.known.contains x then { w with stale := w.stale.insert x } else w) ++
      [⟨v, [x], []⟩] }

/-- `y` comes to know what `x` knows. -/
def RaceWrite.tell (w : RaceWrite) (x y : Agent) : RaceWrite :=
  { w with
    known := if w.known.contains x then w.known.insert y else w.known
    stale := if w.stale.contains x then w.stale.insert y else w.stale }

/-- `x` is no longer an agent of the race. -/
def RaceWrite.forget (w : RaceWrite) (x : Agent) : RaceWrite :=
  { w with known := w.known.filter (· != x), stale := w.stale.filter (· != x) }

/-- A command of instance `k` starts: what the host knows is ordered before it (20_memory.md R78). -/
def Race.start (r : Race) (k : Nat) : Race :=
  { r with writes := r.writes.map fun w => (w.forget (.engine k)).tell .host (.engine k) }

/-- The command of instance `k` is over: what it did is ordered before what the host does next
(20_memory.md R79; 70_reset_and_hazards.md R292). -/
def Race.finish (r : Race) (k : Nat) : Race :=
  { r with writes := r.writes.map fun w => (w.tell (.engine k) .host).forget (.engine k) }

/-- The writes of which one is the byte's content for the host: those it knows and does not know to be
overwritten. -/
def Race.candidates (r : Race) : List RaceWrite := (r.found .host).filter (·.known.contains .host)

/-- What the byte may hold once the command of instance `k` is over: the last value of each agent that wrote it
unordered (20_memory.md R81). -/
def Race.finalValues (r : Race) (k : Nat) : List Byte := (r.finish k).candidates.map (·.value)

/-- Every other write the host knows is before `w`, also for every agent that knows `w`. -/
def Race.settleOn (r : Race) (w : RaceWrite) : Race :=
  { r with
    writes := (r.writes.erase w).map
      (fun x => if x.known.contains .host then { x with stale := x.stale ∪ w.known } else x) ++ [w] }

/-- The records with one more write; `fresh` is what a byte without a record starts from. -/
def noteWrite (x : Agent) (v : Byte) (fresh : Race) : List Race → List Race
  | [] => [fresh.write x v]
  | r :: rs => if r.addr = fresh.addr then r.write x v :: rs else r :: noteWrite x v fresh rs

/-! ### Draws -/

/-- One of the values `v :: vs`, and the number of draws made by then: a single value takes no draw. -/
def draw {α : Type} (v : α) (vs : List α) (d : Nat) : α × Nat :=
  match vs with
  | [] => (v, d)
  | _ => ((v :: vs).getD (Config.raceDraw d % (vs.length + 1)) v, d + 1)

/-- Memory holds `v` at `a`. -/
def State.putByte (s : State) (a : Addr) (v : Byte) : State :=
  { s with mem := if s.mem.read a.toNat = v then s.mem else s.mem.set a.toNat v }

/-- A byte set to a draw among these values; no value, no change. -/
def State.drawByte (s : State) (a : Addr) : List Byte → State
  | [] => s
  | v :: vs => ({ s with draws := (draw v vs s.draws).2 } : State).putByte a (draw v vs s.draws).1

/-- Every value this reader may find at this address; none where no record says so. -/
def State.raceValues (s : State) (x : Agent) (a : Addr) : List Byte :=
  (s.races.filter (·.addr == a)).flatMap (·.values x)

/-- Memory as this reader finds it at this moment: each racing byte is drawn anew (20_memory.md R81). -/
def State.seenBy (s : State) (x : Agent) : State :=
  (s.races.map (·.addr)).dedup.foldl (fun t a => t.drawByte a (t.raceValues x a)) s

/-! ### Writes -/

/-- Bytes are stored from `addr` on, and go on record while a command is in progress. -/
def State.sharedWrite (s : State) (x : Agent) : Nat → Bytes → State
  | _, [] => s
  | addr, v :: vs =>
    State.sharedWrite
      { s with
        races :=
          if s.busyInstances = [] then s.races
          else noteWrite x v ⟨BitVec.ofNat 64 addr, [⟨s.mem.read addr, s.agents, []⟩]⟩ s.races
        mem := s.mem.set addr v }
      x (addr + 1) vs

/-- What an engine step writes, if anything. -/
def State.sharedWrites (s : State) (x : Agent) : Option (Nat × Bytes) → State
  | none => s
  | some (a, b) => s.sharedWrite x a b

/-! ### The ordering points -/

/-- A command of the instance in focus has started (20_memory.md R78). Alone, it races with nothing yet. -/
def State.startRaces (s : State) : State :=
  { s with
    races := if (s.before ++ s.after).all (!·.busy) then [] else s.races.map (·.start s.before.length) }

/-- The content of the byte is settled for the host: a draw where several writes are unordered. -/
def State.settleRace (s : State) (r : Race) : State :=
  match r.candidates with
  | [] => { s with races := s.races ++ [r] }
  | w :: ws =>
    let p := draw w ws s.draws
    ({ s with races := s.races ++ [r.settleOn p.1], draws := p.2 } : State).putByte r.addr p.1.value

/-- The records are dropped where no command is in progress. -/
def State.dropRaces (s : State) : State := if s.busyInstances = [] then { s with races := [] } else s

/-- The command of the instance in focus is over, by completion or reset (20_memory.md R79, R81;
70_reset_and_hazards.md R292). -/
def State.finishRaces (s : State) : State :=
  ((s.races.map (·.finish s.before.length)).foldl State.settleRace { s with races := [] }).dropRaces

/-- The ordering point the instance in focus has reached, if any; `was` says whether it was busy before. -/
def State.ordered (s : State) (was : Bool) : State :=
  match was, s.eng.busy with
  | true, false => s.finishRaces
  | false, true => s.startRaces
  | _, _ => s

/-! ### An engine step among other agents -/

/-- One engine step of the instance in focus: it reads memory as it finds it, its write goes on record, and
where it ends the command the races are settled. -/
def racedStep (s : State) : State :=
  let x : Agent := .engine s.before.length
  let v := s.seenBy x
  let t : State := { microStep v with mem := s.mem }
  (t.sharedWrites x v.nextWrite).ordered s.eng.busy

end Sys2Proof.Machine
end

