-- ==== Sys2Proof/Machine/Turns.lean ====
section
/-! DEFINITION. The turns of the host, the platform and the engines (00_scope.md R7; 10_state.md R20;
30_encoding.md R104; 70_reset_and_hazards.md R290, R291), and the host programs of R104 as lists of turns. -/

namespace Sys2Proof.Machine

/-- What a turn answers. -/
abbrev TurnOutcome := Host.Outcome State Fault Refusal

/-- A turn on instance `k`: `f` acts on the state with that instance in focus. -/
def State.onEngine (s : State) (k : Nat) (f : State → TurnOutcome) : TurnOutcome :=
  match s.focus k with
  | none => .refused .noSuchEngine
  | some t => f t

/-- A host access of the window at a bus address: the instance is brought into focus and `f` gets the
register; an access in no window or not an aligned 32-bit one has no step (10_state.md R20). -/
def State.onRegister (s : State) (addr width : Nat) (f : State → Reg → TurnOutcome) : TurnOutcome :=
  match s.platform.window addr with
  | none => .refused .noWindow
  | some (k, off) =>
    match Reg.ofOffset off width with
    | none => .refused .accessNotAdmitted
    | some r => s.onEngine k fun t => f t r

/-- The instance in focus after a host or platform access of it, with the ordering point where the access
starts or ends a command (20_memory.md R78, R79). -/
def State.hostTurn (s : State) (e : Engine) : State := (s.setEng e).ordered s.eng.busy

/-- One turn, the list of turns already without it. A store or load of the host is performed as plain memory at
every address below 2^64, also where `MemOk` refuses DMA: DESIGN CHOICE, R60 and R11 give `MemOk` for DMA
accesses only (log entry 26). -/
def takeTurn (t : Turn) (s : State) : TurnOutcome :=
  match t with
  | .engine k => s.onEngine k fun u => .next (racedStep u)
  | .write addr width v => s.onRegister addr width fun u r => .next (u.hostTurn (u.eng.hostWrite r v))
  | .read addr width => s.onRegister addr width fun u r => .next { u with seen := some (.word (u.eng.hostRead r)) }
  | .store addr b =>
    if addr + b.length ≤ 2 ^ 64 then .next (s.sharedWrite .host addr b) else .fault .outsideHostMemory
  | .load addr n =>
    if addr + n ≤ 2 ^ 64 then
      .next { s with
        draws := (s.seenBy .host).draws
        seen := some (.bytes ((s.seenBy .host).mem.readBytes addr n)) }
    else .fault .outsideHostMemory
  | .hardReset k => s.onEngine k fun u => .next (u.hostTurn .reset)
  | .wait k => s.onEngine k fun u =>
      if u.eng.busy then .next { racedStep u with turns := .wait k :: u.turns }
      else .next { u with seen := some (.word (u.eng.hostRead .status)) }

/-- The number of the first busy instance. -/
def State.firstBusy (s : State) : Option Nat :=
  s.engines.findIdx? (·.busy)

/-! ### Host programs (30_encoding.md R104) -/

/-- The bus address of a register of instance `k`. -/
def Platform.regAddr (p : Platform) (k : Nat) (r : Reg) : Nat := p.bases.getD k 0 + r.offset

/-- `WR REG, v`. -/
def Platform.wr (p : Platform) (k : Nat) (r : Reg) (v : Word) : List Turn := [.write (p.regAddr k r) 4 v]

/-- `RD REG`. -/
def Platform.rd (p : Platform) (k : Nat) (r : Reg) : List Turn := [.read (p.regAddr k r) 4]

/-- `KEY hex`: the key words, the missing high bytes of the last word 0, then KEYLEN. -/
def Platform.keySeq (p : Platform) (k : Nat) (b : Bytes) : List Turn :=
  (List.range ((b.length + 3) / 4)).flatMap (fun j =>
    p.wr k (.key (Fin.ofNat 16 j)) (BitVec.ofNat 32 (le (slice b (4 * j) (4 * j + 4))))) ++
  p.wr k .keylen (BitVec.ofNat 32 b.length)

/-- `IV hex`. -/
def Platform.ivSeq (p : Platform) (k : Nat) (iv : Block) : List Turn :=
  (List.range 4).flatMap fun j => p.wr k (.iv (Fin.ofNat 4 j)) (getWord iv j)

/-- `BUF src, dst, len`. -/
def Platform.bufSeq (p : Platform) (k : Nat) (src dst : Addr) (len : Word) : List Turn :=
  p.wr k .srcLo (getWord src 0) ++ p.wr k .srcHi (getWord src 1) ++
  p.wr k .dstLo (getWord dst 0) ++ p.wr k .dstHi (getWord dst 1) ++ p.wr k .len len

/-- `XCTR n`. -/
def Platform.xctrSeq (p : Platform) (k : Nat) (n : BitVec 64) : List Turn :=
  p.wr k .xctrLo (getWord n 0) ++ p.wr k .xctrHi (getWord n 1)

/-- `RUN cmd`, with `cmd` any word: the CMD write, then WAIT. -/
def Platform.runSeq (p : Platform) (k : Nat) (w : Word) : List Turn := p.wr k .cmd w ++ [.wait k]

end Sys2Proof.Machine
end

