-- ==== Sys2Proof/Machine/Scheduler.lean ====
section
/-! DEFINITION. What happens where no turn is listed: the instance in focus moves alone. A command just
accepted runs to its completion where nothing can race with it (log entry 6), any other command takes an
engine step, and an idle instance gives way to the first busy one or, where none is busy, waits
(60_exceptions.md R278; log entry 15). And the placing of a command for the next step (log entry 7). -/

namespace Sys2Proof.Machine

/-- Nothing races with the instance in focus: no other instance has a command in progress, and no byte
was written since its command was accepted. -/
def State.quiet (s : State) : Bool := (s.before ++ s.after).all (!·.busy) && s.races.isEmpty

/-- The busy instance in focus moves with no turn listed. -/
def engineTurn (s : State) : TurnOutcome :=
  match s.eng.phase with
  | .check =>
    match decode s.eng.latch.cmd with
    | .ok i => if s.quiet then exec i s else .next (racedStep s)
    | .error _ => .next ((illegalCommand s).ordered true)
  | _ => .next (racedStep s)

/-- No turn is listed: a busy instance moves, or the machine waits. -/
def unscheduled (s : State) : TurnOutcome :=
  if s.eng.busy then engineTurn s
  else
    match s.firstBusy with
    | some k => s.onEngine k engineTurn
    | none => .next s

/-- The instance in focus has just accepted the word, as a host write of CMD while idle leaves it
(40_control.md R111; 20_memory.md R78), and no turn is listed. -/
def State.placeCommand (s : State) (w : Word) : State :=
  ({ s with eng := s.eng.accept w, turns := [] } : State).startRaces

end Sys2Proof.Machine
end

