-- ==== Sys2Proof/Safety.lean ====
section
/-! DEFINITION. The terms claims use: the bytes of a logical stream (20_memory.md R64), what makes a
request's accesses succeed, what a successful completion leaves (60_exceptions.md R266), and the invariant of
the machine. A run is safe when no step faults or is refused; a command never does either, so this is a
condition on the host's turns. -/

namespace Sys2Proof.Machine

/-! ### Streams -/

/-- The address of logical offset `i` of a map that covers it (20_memory.md R64). -/
def mapAddr (m : List Segment) (i : Nat) : Nat := (addrAt m i).getD 0

/-- The stream bytes at offsets `off … off + n − 1`. -/
def streamBytes (mem : Memory) (m : List Segment) (off n : Nat) : Bytes :=
  (List.range n).map fun j => mem.read (mapAddr m (off + j))

/-- The stream's block `i`: the bytes at offsets `16·i … 16·i + 15`. -/
def streamBlock (mem : Memory) (m : List Segment) (i : Nat) : Block := blockOf (streamBytes mem m (16 * i) 16)

/-- Memory after bytes are stored at consecutive stream offsets from `off` on, in increasing order. -/
def streamStore (mem : Memory) (m : List Segment) : Nat → Bytes → Memory
  | _, [] => mem
  | off, v :: vs => streamStore (mem.set (mapAddr m off) v) m (off + 1) vs

/-! ### Descriptor lists -/

/-- SEG_ADDR of descriptor `k` of the list at `a` (20_memory.md R63). -/
def segAddr (mem : Memory) (a k : Nat) : Nat := le (mem.readBytes (a + 16 * k) 8)

/-- SEG_LEN of descriptor `k` of the list at `a` (20_memory.md R63). -/
def segLen (mem : Memory) (a k : Nat) : Nat := le (mem.readBytes (a + 16 * k + 8) 4)

/-- END of descriptor `k` of the list at `a` (20_memory.md R63). -/
def segEnd (mem : Memory) (a k : Nat) : Bool := (mem.read (a + 16 * k + 12)).getLsbD 0

/-- The bytes the first `k` descriptors of the list at `a` cover. -/
def listLen (mem : Memory) (a k : Nat) : Nat := ((List.range k).map (segLen mem a)).sum

/-- The segments the first `k` descriptors of the list at `a` give a request of `n` bytes: an empty one is
skipped, and each is cut to what the request still lacks (20_memory.md R65). -/
def listMap (mem : Memory) (a n k : Nat) : List Segment :=
  (List.range k).filterMap fun j =>
    if segLen mem a j = 0 then none
    else some ⟨segAddr mem a j, min (segLen mem a j) (n - listLen mem a j)⟩

/-- The walk of the list at `a` for `n` bytes goes on past its first `k` descriptors: each is read, none of
them completes the request, and none carries END (20_memory.md R65). -/
def State.walksPast (s : State) (a n k : Nat) : Prop :=
  k ≤ s.platform.maxSegments ∧ ∀ j, j < k →
    s.accessOk (a + 16 * j) 16 .read = true ∧ segEnd s.mem a j = false ∧ listLen s.mem a (j + 1) < n

/-! ### Access and readiness -/

/-- Every access inside a segment of the map is performed: the platform refuses none and none passes
2^64 − 1 (00_scope.md R15). -/
def State.admits (s : State) (m : List Segment) (k : Access) : Prop :=
  ∀ seg ∈ m, ∀ o n, 0 < n → o + n ≤ seg.len → s.accessOk (seg.addr + o) n k = true

/-- The source and destination maps of a CRYPT of `L` bytes are built, every access of theirs is performed,
no address is used for two destination offsets, and where a destination address is a source address it is
the one of the same offset: disjoint buffers, or in-place operation (20_memory.md R65, R74). -/
def State.cryptStreams (s : State) (sg : Bool) (sm dm : List Segment) : Prop :=
  s.buildMap sg s.eng.latch.src s.eng.reqLen = .ok sm ∧
  s.buildMap sg s.eng.latch.dst s.eng.reqLen = .ok dm ∧
  s.admits sm .read ∧ s.admits dm .write ∧
  (∀ i j, i < s.eng.reqLen → j < s.eng.reqLen → mapAddr dm i = mapAddr dm j → i = j) ∧
  (∀ i j, i < s.eng.reqLen → j < s.eng.reqLen → mapAddr sm i = mapAddr dm j → i = j)

/-- The source map of a MAC command that reads `n` bytes is built and every access of it is performed. -/
def State.macStream (s : State) (sg : Bool) (n : Nat) (sm : List Segment) : Prop :=
  s.buildMap sg s.eng.latch.src n = .ok sm ∧ s.admits sm .read

/-- `class(MODE)`: the key class a mode needs (30_encoding.md R93). -/
def modeClass (mode : BitVec 4) : KeyClass :=
  match mode.toNat with
  | 0 | 1 | 2 | 4 | 5 | 8 => .plain
  | 3 => .essiv
  | 6 => .xts
  | 9 => .cmac
  | 10 => .xcbc
  | _ => .none

/-- The key slot serves class `c` (40_control.md R113). -/
def Engine.keyFor (e : Engine) (c : KeyClass) : Prop := e.slot.valid = true ∧ e.slot.cls = c

/-- A CRYPT has just been accepted, its key is set, and its streams `sm` and `dm` are as `cryptStreams`
says. -/
def State.cryptReady (s : State) (c : KeyClass) (sg : Bool) (sm dm : List Segment) : Prop :=
  s.eng.accepted = true ∧ s.eng.keyFor c ∧ s.cryptStreams sg sm dm

/-- A MAC computation of `mode` is active and its key is set (40_control.md R113). -/
def Engine.macFor (e : Engine) (mode : BitVec 4) : Prop :=
  e.keyFor (modeClass mode) ∧ e.macActive = true ∧ e.macMode = mode

/-- A MAC_UPDATE or MAC_FINUP of `mode` has just been accepted in an active computation, its key is set, and
the `n` bytes it reads are the stream `sm`. -/
def State.macReady (s : State) (mode : BitVec 4) (sg : Bool) (n : Nat) (sm : List Segment) : Prop :=
  s.eng.accepted = true ∧ s.eng.macFor mode ∧ s.macStream sg n sm

/-! ### Outcomes -/

/-- What every successful completion leaves: idle, DONE, ERRCODE 0, ERR and ERR_ADDR as they were, the maps
emptied (40_control.md R117; 60_exceptions.md R266). -/
def Engine.succeededFrom (t e : Engine) : Prop :=
  t.phase = .idle ∧ t.done = true ∧ t.errCode = 0 ∧ t.err = e.err ∧ t.errAddr = e.errAddr ∧
  t.srcMap = [] ∧ t.dstMap = []

/-- What every error completion leaves: idle, DONE, ERR, ERRCODE and ERR_ADDR, the maps emptied
(40_control.md R117; 60_exceptions.md R262, R265). -/
def Engine.failedWith (t : Engine) (k : ErrorKind) (info : Addr) : Prop :=
  t.phase = .idle ∧ t.done = true ∧ t.err = true ∧ t.errCode = k.code ∧ t.errAddr = info ∧
  t.srcMap = [] ∧ t.dstMap = []

/-- Every address that is not the address of one of the `n` offsets of the map reads as before. -/
def sameOutside (mem mem' : Memory) (m : List Segment) (n : Nat) : Prop :=
  ∀ a, (∀ j, j < n → mapAddr m j ≠ a) → mem'.read a = mem.read a

/-- A CRYPT completed with success: RESULT 0 (40_control.md R116), and memory outside the destination as it
was (20_memory.md R69). -/
def State.cryptDone (s t : State) (dm : List Segment) : Prop :=
  t.eng.succeededFrom s.eng ∧ t.eng.result = 0 ∧ sameOutside s.mem t.mem dm s.eng.reqLen

/-- What no command changes: the enables, the operand registers but IV and XCTR, and the latched request
(40_control.md R116; 10_state.md R43). -/
def Engine.sameOperands (t e : Engine) : Prop :=
  t.irqEn = e.irqEn ∧ t.wrIgn = e.wrIgn ∧ t.len = e.len ∧ t.src = e.src ∧ t.dst = e.dst ∧
  t.keylen = e.keylen ∧ t.key = e.key ∧ t.latch = e.latch

/-- The MAC state is as it was. -/
def Engine.sameMac (t e : Engine) : Prop :=
  t.macActive = e.macActive ∧ t.macMode = e.macMode ∧ t.dg = e.dg

/-- The other instances, the platform, the turns to come and what the host saw are as they were
(60_exceptions.md R276). -/
def State.sameSurroundings (t s : State) : Prop :=
  t.before = s.before ∧ t.after = s.after ∧ t.platform = s.platform ∧ t.turns = s.turns ∧ t.seen = s.seen

/-- The error kinds a command can complete with (60_exceptions.md R261). -/
def errorKinds (i : Instr) : List ErrorKind :=
  match i.fields.op.toNat, i.fields.mode.toNat with
  | 1, 3 => [.invalidKeyLength, .essivHashFailure]
  | 1, _ => [.invalidKeyLength]
  | 2, 4 => [.keyNotSet, .bufferIoFailure]
  | 2, 5 => [.keyNotSet, .unsupportedLength, .bufferIoFailure]
  | 2, _ => [.keyNotSet, .invalidRequestLength, .bufferIoFailure]
  | 3, _ => [.keyNotSet]
  | 4, _ => [.keyNotSet, .sequenceError, .bufferIoFailure]
  | 5, _ => [.keyNotSet, .sequenceError, .unsupportedLength, .bufferIoFailure]
  | _, _ => []

/-- The length error of a command (the table of 40_control.md R114, with 41_setkey.md R131). -/
def lengthRule (i : Instr) (l : Latch) : Option ErrorKind :=
  match i.fields.op.toNat, i.fields.mode.toNat with
  | 1, 6 => if l.keylen.toNat ∈ [32, 48, 64] then none else some .invalidKeyLength
  | 1, _ => if l.keylen.toNat ∈ [16, 24, 32] then none else some .invalidKeyLength
  | 2, 0 | 2, 1 | 2, 3 => if l.len.toNat % 16 = 0 then none else some .invalidRequestLength
  | 2, 2 | 2, 6 => if 16 ≤ l.len.toNat then none else some .invalidRequestLength
  | 2, 5 => if l.xctr.toNat + l.len.toNat ≤ 2 ^ 64 then none else some .unsupportedLength
  | 5, _ => if l.len.toNat ≤ 16 then none else some .unsupportedLength
  | _, _ => none

/-- How many bytes of its source a command reads (40_control.md R115). -/
def bytesRead (i : Instr) (l : Latch) : Nat :=
  match i.fields.op.toNat with
  | 2 | 5 => l.len.toNat
  | 4 => 16 * (l.len.toNat / 16)
  | _ => 0

/-- The bulk end of a command of `l` bytes (the table of 40_control.md R120). -/
def bulkBytes (i : Instr) (l : Nat) : Nat :=
  match i.fields.op.toNat, i.fields.mode.toNat with
  | 2, 0 | 2, 1 | 2, 3 => l
  | 2, 2 => if l = 16 then 16 else 16 * ((l + 15) / 16 - 2)
  | 2, 6 => if l % 16 = 0 then l else 16 * (l / 16 - 1)
  | 2, _ | 4, _ => 16 * (l / 16)
  | _, _ => 0

/-- The units of a command, in their order, as `(first offset, length)`: the blocks up to the bulk end, and
what remains (20_memory.md R68; 40_control.md R120). -/
def unitsOf (i : Instr) (l : Latch) : List (Nat × Nat) :=
  (List.range (bulkBytes i l.len.toNat / 16)).map (fun k => (16 * k, 16)) ++
  (if bulkBytes i l.len.toNat < bytesRead i l then
    [(bulkBytes i l.len.toNat, bytesRead i l - bulkBytes i l.len.toNat)] else [])

/-- Every access to these pieces is performed. -/
def State.performs (s : State) (ps : List (Nat × Nat)) (k : Access) : Prop :=
  ∀ q ∈ ps, s.accessOk q.1 q.2 k = true

/-- The same machine on a platform that refuses no access. -/
def State.noRefusals (s : State) : State := { s with platform := { s.platform with denials := [] } }

/-- Of the destination stream the first `n` bytes are as in `full`, and every address that holds none of
them is as in `mem` (60_exceptions.md R263). -/
def storedPrefix (mem full mem' : Memory) (m : List Segment) (n : Nat) : Prop :=
  (∀ j, j < n → mem'.read (mapAddr m j) = full.read (mapAddr m j)) ∧ sameOutside mem mem' m n

/-- Check 2 passes (40_control.md R113): the key's class serves the mode, and MAC_UPDATE and MAC_FINUP find
the computation of their mode active. -/
def keyAndMacOk (i : Instr) (e : Engine) : Prop :=
  (i.fields.op.toNat ∈ [2, 3, 4, 5] → e.keyFor (modeClass i.fields.mode)) ∧
  (i.fields.op.toNat ∈ [4, 5] → e.macActive = true ∧ e.macMode = i.fields.mode)

/-! ### The register window -/

/-- Where each register of the window is (10_state.md R20). -/
def registerMap : List (Nat × Reg) :=
  [(0x000, .id), (0x004, .caps), (0x008, .ctrl), (0x00C, .status), (0x010, .cmd), (0x014, .len),
   (0x018, .srcLo), (0x01C, .srcHi), (0x020, .dstLo), (0x024, .dstHi), (0x028, .keylen), (0x02C, .result),
   (0x030, .errAddrLo), (0x034, .errAddrHi), (0x038, .xctrLo), (0x03C, .xctrHi)]

/-! ### The invariant -/

/-- A legal AES key length (00_scope.md R8). -/
def aesKeyBytes (k : Bytes) : Bool := k.length == 16 || k.length == 24 || k.length == 32

/-- The slot holds what its class fills, and the empty string elsewhere (10_state.md R40; 41_setkey.md R130). -/
def KeySlot.wf (k : KeySlot) : Bool :=
  match k.cls with
  | .none => k == .empty
  | .plain => k.valid && aesKeyBytes k.data && k.mac == k.data &&
      k.tweak == [] && k.essiv == [] && k.sk1 == [] && k.sk2 == []
  | .essiv => k.valid && aesKeyBytes k.data && k.essiv.length == 32 &&
      k.tweak == [] && k.mac == [] && k.sk1 == [] && k.sk2 == []
  | .xts => k.valid && aesKeyBytes k.data && k.tweak.length == k.data.length &&
      k.essiv == [] && k.mac == [] && k.sk1 == [] && k.sk2 == []
  | .cmac => k.valid && aesKeyBytes k.mac && k.sk1.length == 16 &&
      k.sk2 == blockBytes (gfDouble (blockOf k.sk1)) && k.data == [] && k.tweak == [] && k.essiv == []
  | .xcbc => k.valid && k.mac.length == 16 && k.sk1.length == 16 && k.sk2.length == 16 &&
      k.data == [] && k.tweak == [] && k.essiv == []

/-- An active MAC computation is of a MAC mode whose key is set (46_mac.md R230: a SETKEY ends it). -/
def Engine.macWf (e : Engine) : Bool :=
  !e.macActive || ((e.macMode == 8 || e.macMode == 9 || e.macMode == 10) && e.slot.valid &&
    e.slot.cls == modeClass e.macMode)

/-- An idle engine has no map and no transfer (40_control.md R117). -/
def Engine.idleWf (e : Engine) : Bool :=
  e.busy || (e.srcMap == [] && e.dstMap == [] && e.descIndex == 0 && e.unitIn == [] && e.unitOut == none)

/-- While busy the operand registers and the latched copies agree (10_state.md R43). -/
def Engine.latchWf (e : Engine) : Bool :=
  !e.busy || (e.latch.len == e.len && e.latch.src == e.src && e.latch.dst == e.dst && e.latch.iv == e.iv &&
    e.latch.xctr == e.xctr && e.latch.keylen == e.keylen && e.latch.key == e.key)

/-- A command past CHECK is legal and passed its checks, which stay passed while it runs; where it is about
to install a slot, the slot is well formed (40_control.md R112–R114). -/
def Engine.commandWf (e : Engine) : Bool :=
  match e.phase with
  | .idle => true
  | .check => true
  | _ =>
    match decode e.latch.cmd with
    | .error _ => false
    | .ok i => (planOf i).checkError e == none && e.work.newSlot.wf

/-- `W_POS` is a count from 0 to `L_LEN`, so that 33 bits hold it (10_state.md R44; log entry 27): 0 up to
SEED, a multiple of 16 below the bulk end in BULK, and at most the bytes the command reads after that. -/
def Engine.posWf (e : Engine) : Bool :=
  match e.phase with
  | .idle => decide (e.work.pos ≤ e.reqLen)
  | .check | .map | .seed => e.work.pos == 0
  | .bulk | .tail | .commit =>
    match decode e.latch.cmd with
    | .error _ => false
    | .ok i => decide (e.work.pos ≤ bytesRead i e.latch) &&
        (e.phase != .bulk || (e.work.pos % 16 == 0 && decide (e.work.pos < bulkBytes i e.reqLen)))

/-- One engine instance in a state a run can reach, as far as the rules say. Codes 9–15 are never produced
(60_exceptions.md R260). -/
def Engine.wf (e : Engine) : Bool :=
  e.errCode.toNat ≤ 8 && e.slot.wf && e.work.newSlot.wf && e.macWf && e.idleWf && e.latchWf && e.commandWf &&
    e.posWf

/-- Every instance is well formed. -/
def State.enginesWf (s : State) : Bool := s.engines.all (·.wf)

/-- `x` knows no more of this write than `y` does. -/
def RaceWrite.within (w : RaceWrite) (x y : Agent) : Bool :=
  (!w.known.contains x || w.known.contains y) && (!w.stale.contains x || w.stale.contains y)

/-- Records of races, one for each byte, exist only while a command is in progress, and speak of agents that may
race only. Of each byte the host knows at most one content, and a command in CHECK, which has written nothing,
knows no more than the host (log entry 8). -/
def State.racesWf (s : State) : Bool :=
  decide (s.races.map (·.addr)).Nodup && (s.races.isEmpty || !s.busyInstances.isEmpty) &&
    s.races.all fun r => decide (r.candidates.length ≤ 1) &&
      r.writes.all fun w => (w.known ++ w.stale).all s.agents.contains &&
        (List.range s.engines.length).all fun k =>
          !s.engines[k]?.any (·.phase == .check) || w.within (.engine k) .host

/-- A run of `n` steps with no fault and no refusal. -/
def State.safeFor (s : State) (n : Nat) : Prop := ∃ t, Sys2Proof.core.run n s = .next t

end Sys2Proof.Machine
end

