-- ==== Sys2Proof/Certificates/Slice0/Obligations.lean ====
section
/-! DEFINITION. The statements for the provers. In the statements of results, `s` is the state in which a
command has just been accepted, `t` the state after it, `sm` and `dm` the maps of its source and destination
streams, and a `let` names what the rule's pseudocode names. -/

open Sys2Proof Sys2Proof.Machine

/-! ### Encoding -/

/-- Decoding reads exactly the encoded words: no bit of a word is dropped, and no other word decodes
(30_encoding.md R90, R91, R97). -/
def Obligations.DecodeInvertsEncodeExactly : Prop :=
  ∀ (w : Word) (i : Instr), decode w = .ok i ↔ encode i = w

/-- The legal words are those of the table of R98, and there are 34 mnemonics and 58 words
(30_encoding.md R97, R98). -/
def Obligations.LegalWordsAreTheTable : Prop :=
  (∀ w : Word,
    let op := (w.extractLsb' 0 4).toNat
    let mode := (w.extractLsb' 4 4).toNat
    let dir := w.getLsbD 8
    let first := w.getLsbD 9
    let sg := w.getLsbD 10
    (∃ i, decode w = .ok i) ↔
      w.extractLsb' 11 21 = 0 ∧
      ((op = 0 ∧ mode = 0 ∧ dir = false ∧ first = false ∧ sg = false) ∨
       (op = 1 ∧ (mode ≤ 6 ∨ 8 ≤ mode ∧ mode ≤ 10) ∧ dir = false ∧ first = false ∧ sg = false) ∨
       (op = 2 ∧ mode ≤ 5 ∧ first = false) ∨
       (op = 2 ∧ mode = 6) ∨
       (op = 3 ∧ 8 ≤ mode ∧ mode ≤ 10 ∧ dir = false ∧ first = false ∧ sg = false) ∨
       (op = 4 ∧ 8 ≤ mode ∧ mode ≤ 10 ∧ dir = false ∧ first = false) ∨
       (op = 5 ∧ 8 ≤ mode ∧ mode ≤ 10 ∧ dir = false ∧ first = false))) ∧
  (∀ i, i ∈ Instr.all) ∧ Instr.all.Nodup ∧ Instr.all.length = 58 ∧
  (Instr.all.map fun i => i.row.mnemonic).dedup.length = 34

/-- A word matches a row of the opcode map exactly when it decodes to a command of that row
(30_encoding.md R102). -/
def Obligations.WordsMatchTheirRow : Prop :=
  ∀ (w : Word) (i : Instr), i.row.matches w = true ↔ ∃ j, decode w = .ok j ∧ j.row = i.row

/-- Words written out from the fields of R91 and the examples of R103, one of each operation and kind
(30_encoding.md R91, R92, R93, R103). -/
def Obligations.SpecWordsDecode : Prop :=
  decode 0b000000000000000000000_0_0_0_0000_0000#32 = .ok .nop ∧
  decode 0b000000000000000000000_0_0_0_1010_0001#32 = .ok .setkeyXcbc ∧
  decode 0b000000000000000000000_0_0_1_0001_0010#32 = .ok (.cryptCbcDec false) ∧
  decode 0b000000000000000000000_1_1_0_0110_0010#32 = .ok (.cryptXtsEnc true true) ∧
  decode 0b000000000000000000000_0_0_0_1000_0011#32 = .ok .macInitCbcmac ∧
  decode 0b000000000000000000000_1_0_0_1001_0100#32 = .ok (.macUpdateCmac true) ∧
  decode 0b000000000000000000000_0_0_0_1010_0101#32 = .ok (.macFinupXcbc false) ∧
  decode 0x00000112#32 = .ok (.cryptCbcDec false) ∧
  decode 0x00000662#32 = .ok (.cryptXtsEnc true true) ∧
  decode 0x00000494#32 = .ok (.macUpdateCmac true)

/-! ### Reset and invariants -/

/-- Every element of the engine after a reset, and what the host reads from the window (10_state.md R50). -/
def Obligations.ResetState : Prop :=
  let e := State.reset.eng
  (e.irqEn = false ∧ e.done = false ∧ e.err = false ∧ e.wrIgn = false ∧ e.errCode = 0 ∧ e.busy = false) ∧
  (e.len = 0 ∧ e.src = 0 ∧ e.dst = 0 ∧ e.keylen = 0 ∧ e.result = 0 ∧ e.errAddr = 0 ∧ e.xctr = 0) ∧
  (blockBytes e.iv = zeros 16 ∧ toLe e.key.toNat 64 = zeros 64) ∧
  (e.slot.valid = false ∧ e.slot.cls.value = 0 ∧ e.slot.data = [] ∧ e.slot.tweak = [] ∧ e.slot.essiv = [] ∧
    e.slot.mac = [] ∧ e.slot.sk1 = [] ∧ e.slot.sk2 = []) ∧
  (e.macActive = false ∧ e.macMode = 0 ∧ blockBytes e.dg = zeros 16 ∧ e.phase = .idle) ∧
  (e.latch = ⟨0, 0, 0, 0, 0, 0, 0, 0⟩ ∧ e.work.chain = 0 ∧ e.work.tweak = 0 ∧ e.work.ctr = 0 ∧ e.work.bc = 0 ∧
    e.work.dg = 0 ∧ e.work.res = 0 ∧ e.work.pos = 0 ∧ e.srcMap = [] ∧ e.dstMap = [] ∧ e.irq = false) ∧
  e.hostRead .id = 0x41455337 ∧ e.hostRead .caps = 0x0000077F ∧ e.hostRead .ctrl = 0 ∧ e.hostRead .status = 0

/-- The machine after reset, on any platform, meets the invariant (10_state.md R50). -/
def Obligations.ResetMeetsTheInvariant : Prop :=
  ∀ (p : Platform) (n : Nat),
    (State.resetOn p n).mem.wf = true ∧ (State.resetOn p n).enginesWf = true ∧
    (State.resetOn p n).racesWf = true ∧
    State.resetOn Platform.reset 0 = State.reset

/-- Host memory stays in canonical form: strictly rising addresses below 2^64, no blank entry
(20_memory.md R60; log entry 3). -/
def Obligations.StepKeepsMemoryCanonical : Prop :=
  ∀ s t : State, s.mem.wf = true → step s = .next t → t.mem.wf = true

/-- Every instance stays well formed: an error code that exists, a key slot that holds what its class fills, a
MAC computation only of a mode whose key is set, latched copies that agree with the registers while busy, no
map left when idle, a command past CHECK that passed its checks, and `W_POS` between 0 and `L_LEN`; and records of
races stay with commands in progress and leave the host at most one content of a byte (10_state.md R40, R41, R43, R44; 40_control.md R112 to R117;
60_exceptions.md R260; log entries 8, 27). -/
def Obligations.StepKeepsEnginesWellFormed : Prop :=
  ∀ s t : State, s.enginesWf = true → step s = .next t →
    t.enginesWf = true ∧ (∀ e ∈ t.engines, e.work.pos ≤ e.reqLen) ∧ (s.racesWf = true → t.racesWf = true)

/-- A hard reset, and a host write to CTRL with bit 0 set, put every element of the instance at its reset
value whether it is busy or not, and leave the other instances as they are, and memory but for bytes whose final
content a race leaves open (70_reset_and_hazards.md R290, R291; 10_state.md R50; 60_exceptions.md R276). That
the reset input acts on one instance is the model's reading (log entry 20). -/
def Obligations.ResetTurns : Prop :=
  (∀ (e : Engine) (v : Word), v.getLsbD 0 = true → e.hostWrite .ctrl v = State.reset.eng) ∧
  (∀ (s : State) (k : Nat) (ts : List Turn), s.turns = .hardReset k :: ts → k < s.engines.length →
    ∃ t, step s = .next t ∧ t.engines = s.engines.set k State.reset.eng ∧ t.turns = ts ∧
      ((s.busyAt k = true → ∀ q ∈ s.races, ∀ v ∈ q.finalValues k, s.mem.read q.addr.toNat = v) → t.mem = s.mem))

/-! ### The register window -/

/-- A host access of the window: where the registers are, what a write and a read do, and that an access
of another width or alignment has no step (10_state.md R20). -/
def Obligations.HostRegisterTurns : Prop :=
  (∀ p ∈ registerMap, Reg.ofOffset p.1 4 = some p.2) ∧
  (∀ j : Fin 4, Reg.ofOffset (0x040 + 4 * j.val) 4 = some (.iv j) ∧
    Reg.ofOffset (0x050 + 4 * j.val) 4 = some (.digest j)) ∧
  (∀ j : Fin 16, Reg.ofOffset (0x080 + 4 * j.val) 4 = some (.key j) ∧
    Reg.ofOffset (0x0C0 + 4 * j.val) 4 = some .reserved) ∧
  (∀ j : Fin 8, Reg.ofOffset (0x060 + 4 * j.val) 4 = some .reserved) ∧
  (∀ (p : Platform) (n k b off : Nat), p.wf n = true → p.bases[k]? = some b → off < 0x100 →
    p.window (b + off) = some (k, off)) ∧
  (∀ (s : State) (addr : Nat) (v : Word) (ts : List Turn) (k off : Nat) (r : Reg) (e : Engine),
    s.turns = .write addr 4 v :: ts → s.platform.window addr = some (k, off) → Reg.ofOffset off 4 = some r →
    s.engines[k]? = some e →
    ∃ t, step s = .next t ∧ t.engines = s.engines.set k (e.hostWrite r v) ∧ t.turns = ts ∧
      ((e.busy = true → (e.hostWrite r v).busy = false →
        ∀ q ∈ s.races, ∀ v ∈ q.finalValues k, s.mem.read q.addr.toNat = v) → t.mem = s.mem)) ∧
  (∀ (s : State) (addr : Nat) (ts : List Turn) (k off : Nat) (r : Reg) (e : Engine),
    s.turns = .read addr 4 :: ts → s.platform.window addr = some (k, off) → Reg.ofOffset off 4 = some r →
    s.engines[k]? = some e →
    ∃ t, step s = .next t ∧ t.seen = some (.word (e.hostRead r)) ∧ t.engines = s.engines ∧ t.mem = s.mem ∧
      t.turns = ts) ∧
  (∀ (s : State) (addr width : Nat) (v : Word) (ts : List Turn) (k off : Nat),
    (s.turns = .write addr width v :: ts ∨ s.turns = .read addr width :: ts) →
    s.platform.window addr = some (k, off) → (width ≠ 4 ∨ off % 4 ≠ 0) →
    step s = .refused .accessNotAdmitted)

/-- The constant and the hidden registers: what a read answers, and that a write changes nothing
(10_state.md R22, R23, R27, R32, R33, R36, R37, R38). -/
def Obligations.ConstantAndHiddenRegisters : Prop :=
  ∀ (e : Engine) (v : Word),
    (e.hostRead .id = 0x41455337 ∧ e.hostWrite .id v = e) ∧
    (e.hostRead .caps = 0x0000077F ∧ e.hostWrite .caps v = e) ∧
    e.hostRead .cmd = 0 ∧
    (e.hostRead .result = e.result.setWidth 32 ∧ e.hostWrite .result v = e) ∧
    (e.hostRead .errAddrLo = e.errAddr.setWidth 32 ∧ e.hostRead .errAddrHi = (e.errAddr >>> 32).setWidth 32 ∧
      e.hostWrite .errAddrLo v = e ∧ e.hostWrite .errAddrHi v = e) ∧
    (∀ j : Fin 4, e.hostRead (.digest j) =
        (if e.macActive then 0 else (e.dg >>> (32 * j.val)).setWidth 32) ∧ e.hostWrite (.digest j) v = e) ∧
    (∀ j : Fin 16, e.hostRead (.key j) = 0) ∧
    (e.hostRead .reserved = 0 ∧ e.hostWrite .reserved v = e) ∧
    (e.hostRead .ctrl = if e.irqEn then 2 else 0)

/-- While idle, an operand register reads back what was written to it, with its own width, and a write of one
leaves everything else as it was: every other register, the key slot, the MAC state, the latched request, the
working registers (10_state.md R28 to R31, R34, R35, R37; 70_reset_and_hazards.md R299). -/
def Obligations.OperandsReadBack : Prop :=
  ∀ (e : Engine) (v : Word), e.busy = false →
    (e.hostWrite .len v).hostRead .len = v ∧
    (e.hostWrite .keylen v).hostRead .keylen = v &&& 0x7F ∧
    (∀ p ∈ [(Reg.srcLo, Reg.srcHi), (.srcHi, .srcLo), (.dstLo, .dstHi), (.dstHi, .dstLo),
        (.xctrLo, .xctrHi), (.xctrHi, .xctrLo)],
      (e.hostWrite p.1 v).hostRead p.1 = v ∧ (e.hostWrite p.1 v).hostRead p.2 = e.hostRead p.2) ∧
    (∀ j k : Fin 4, (e.hostWrite (.iv j) v).hostRead (.iv k) = if k = j then v else e.hostRead (.iv k)) ∧
    (v.getLsbD 0 = false → (e.hostWrite .ctrl v).irqEn = v.getLsbD 1) ∧
    (∀ r, r ∈ [Reg.len, .srcLo, .srcHi, .dstLo, .dstHi, .keylen, .xctrLo, .xctrHi] ∨
        (∃ j, r = .iv j) ∨ (∃ j, r = .key j) →
      let f := e.hostWrite r v
      (∀ q, q ≠ r → f.hostRead q = e.hostRead q) ∧ ((∀ j, r ≠ .key j) → f.key = e.key) ∧
      f.slot = e.slot ∧ f.sameMac e ∧ f.latch = e.latch ∧ f.work = e.work ∧ f.phase = e.phase ∧
      f.srcMap = e.srcMap ∧ f.dstMap = e.dstMap ∧ f.irq = e.irq)

/-- Byte `4j + i` of the IV and KEY byte strings is bits `[8i+7 : 8i]` of register `j`, and the digest reads
under the same mapping; a `_LO`/`_HI` pair is `_HI · 2^32 + _LO` (10_state.md R21). -/
def Obligations.BytesOfRegisters : Prop :=
  ∀ (e : Engine) (v : Word), e.busy = false →
    (∀ (j : Fin 4) (b : Fin 16), (blockBytes (e.hostWrite (.iv j) v).iv)[b.val]? =
      if b.val / 4 = j.val then some (v.extractLsb' (8 * (b.val % 4)) 8) else (blockBytes e.iv)[b.val]?) ∧
    (∀ (j : Fin 16) (b : Fin 64), (toLe (e.hostWrite (.key j) v).key.toNat 64)[b.val]? =
      if b.val / 4 = j.val then some (v.extractLsb' (8 * (b.val % 4)) 8)
      else (toLe e.key.toNat 64)[b.val]?) ∧
    (∀ (j i : Fin 4), e.macActive = false →
      (blockBytes e.dg)[4 * j.val + i.val]? = some ((e.hostRead (.digest j)).extractLsb' (8 * i.val) 8)) ∧
    (∀ (j i : Fin 4),
      (blockBytes e.iv)[4 * j.val + i.val]? = some ((e.hostRead (.iv j)).extractLsb' (8 * i.val) 8)) ∧
    (e.src.toNat = (e.hostRead .srcHi).toNat * 2 ^ 32 + (e.hostRead .srcLo).toNat ∧
     e.dst.toNat = (e.hostRead .dstHi).toNat * 2 ^ 32 + (e.hostRead .dstLo).toNat ∧
     e.xctr.toNat = (e.hostRead .xctrHi).toNat * 2 ^ 32 + (e.hostRead .xctrLo).toNat ∧
     e.errAddr.toNat = (e.hostRead .errAddrHi).toNat * 2 ^ 32 + (e.hostRead .errAddrLo).toNat)

/-- While busy, a write of CMD or an operand register changes nothing but WR_IGN; a write of a read-only
register changes nothing; writes of CTRL and STATUS act; and an ignored write asserts no interrupt
(10_state.md R39; 60_exceptions.md R279). -/
def Obligations.WritesWhileBusyAreIgnored : Prop :=
  ∀ (e : Engine) (v : Word), e.busy = true →
    (∀ r ∈ [Reg.cmd, .len, .srcLo, .srcHi, .dstLo, .dstHi, .keylen, .xctrLo, .xctrHi],
      e.hostWrite r v = { e with wrIgn := true }) ∧
    (∀ j : Fin 4, e.hostWrite (.iv j) v = { e with wrIgn := true }) ∧
    (∀ j : Fin 16, e.hostWrite (.key j) v = { e with wrIgn := true }) ∧
    (∀ r ∈ [Reg.id, .caps, .result, .errAddrLo, .errAddrHi], e.hostWrite r v = e) ∧
    (∀ j : Fin 4, e.hostWrite (.digest j) v = e) ∧
    (v.getLsbD 0 = false → (e.hostWrite .ctrl v) = { e with irqEn := v.getLsbD 1 }) ∧
    ((e.hostWrite .status v).done = (e.done && !v.getLsbD 1)) ∧
    ({ e with wrIgn := true } : Engine).irq = e.irq

/-- The fields of STATUS, and what a write of STATUS does: it clears DONE, ERR and WR_IGN where the written
bit is 1, and changes nothing else (10_state.md R25, R26). -/
def Obligations.StatusFields : Prop :=
  ∀ (e : Engine) (v : Word),
    let w := e.hostRead .status
    (w.getLsbD 0 = decide (e.phase ≠ .idle) ∧ w.getLsbD 1 = e.done ∧ w.getLsbD 2 = e.err ∧
      w.getLsbD 3 = e.wrIgn ∧ w.getLsbD 4 = e.slot.valid ∧ w.getLsbD 5 = e.macActive) ∧
    (w.extractLsb' 6 2 = 0 ∧ w.extractLsb' 8 4 = e.errCode ∧
      w.extractLsb' 12 4 = (if e.slot.valid then e.slot.cls.value else 0) ∧
      w.extractLsb' 16 4 = (if e.macActive then e.macMode else 0) ∧ w.extractLsb' 20 12 = 0) ∧
    (e.hostWrite .status v =
      { e with
        done := e.done && !v.getLsbD 1
        err := e.err && !v.getLsbD 2
        wrIgn := e.wrIgn && !v.getLsbD 3 })

/-- The interrupt output is the level `IRQ_EN ∧ (DONE ∨ ERR)`: it is asserted from the completion of every
command while IRQ_EN is 1, and deasserted by clearing DONE and ERR, by clearing IRQ_EN and by a reset
(60_exceptions.md R268, R269). -/
def Obligations.InterruptLevel : Prop :=
  (∀ (i : Instr) (s t : State), exec i s = .next t → t.eng.irq = s.eng.irqEn) ∧
  (∀ (e : Engine) (v : Word),
    e.irq = (e.irqEn && (e.done || e.err)) ∧
    (v.getLsbD 1 = true → v.getLsbD 2 = true → (e.hostWrite .status v).irq = false) ∧
    (v.getLsbD 1 = false → (e.hostWrite .ctrl v).irq = false) ∧
    (v.getLsbD 0 = true → (e.hostWrite .ctrl v).irq = false) ∧
    (v.getLsbD 0 = false → v.getLsbD 1 = true → (e.hostWrite .ctrl v).irq = (e.done || e.err)))

/-- A write of CMD while idle is accepted, whatever the word: the request is latched, the position is 0, the
maps are empty, the phase is CHECK, BUSY reads 1, and nothing else changes; a write while busy is ignored
(40_control.md R111; 10_state.md R43). -/
def Obligations.AcceptanceLatches : Prop :=
  ∀ (e : Engine) (w : Word),
    let f := e.hostWrite .cmd w
    (e.busy = true → f = { e with wrIgn := true }) ∧
    (e.busy = false →
      f.latch = ⟨w, e.len, e.src, e.dst, e.iv, e.xctr, e.keylen, e.key⟩ ∧
      f.work.pos = 0 ∧ f.srcMap = [] ∧ f.dstMap = [] ∧ f.phase = .check ∧
      (f.hostRead .status).getLsbD 0 = true ∧ f.accepted = true ∧
      (∀ r, r ≠ .status → f.hostRead r = e.hostRead r) ∧
      f.slot = e.slot ∧ f.sameMac e ∧ f.key = e.key ∧ f.done = e.done ∧ f.err = e.err ∧ f.wrIgn = e.wrIgn ∧
      f.errCode = e.errCode)

/-! ### Stepping -/

/-- With no turn listed and nothing that races with it, a step from the state an acceptance leaves runs the
decoded command, whole (the model's choice: log entry 6); placing a word makes the next step run it (log
entry 7); and a turn of an instance, where no byte is racing, takes one engine step of it. -/
def Obligations.StepRunsTheAcceptedCommand : Prop :=
  (∀ (s : State) (i : Instr), s.turns = [] → s.eng.phase = .check → decode s.eng.latch.cmd = .ok i →
    s.quiet = true → step s = exec i s) ∧
  (∀ (s : State) (i : Instr), (∀ e ∈ s.before ++ s.after, e.busy = false) →
    step (s.placeCommand (encode i)) = exec i (s.placeCommand (encode i))) ∧
  (∀ (s : State) (k : Nat) (e : Engine) (ts : List Turn), s.turns = .engine k :: ts → s.engines[k]? = some e →
    s.races = [] →
    ∃ t u, ({ s with turns := ts } : State).focus k = some t ∧ t.eng = e ∧ t.engines = s.engines ∧
      step s = .next u ∧ u.eng = (microStep t).eng ∧ u.mem = (microStep t).mem ∧
      u.draws = (microStep t).draws ∧ u.before = t.before ∧ u.after = t.after)

/-- A word that is not legal is accepted, completes with IllegalCommand, and changes nothing but the
completion state (30_encoding.md R99; 40_control.md R112; 60_exceptions.md R262). Its completion ends the races
of the command (log entry 8): memory stays as it was where it holds what each byte on record settles on, and no
draw is made where each settles on one write, as it does for a command in CHECK in every run
(`State.racesWf`). That the latched copies stay after a completion is the model's reading (log entry 18). -/
def Obligations.IllegalWordCompletes : Prop :=
  (∀ (e : Engine) (w : Word), e.busy = false → (e.hostWrite .cmd w).busy = true) ∧
  (∀ s : State, s.turns = [] → s.eng.phase = .check → (Fields.ofWord s.eng.latch.cmd).legal = false →
    ∃ t, step s = .next t ∧ t.eng.failedWith .illegalCommand 0 ∧
      t.sameSurroundings s ∧ t.eng.sameOperands s.eng ∧ t.eng.sameMac s.eng ∧ t.eng.slot = s.eng.slot ∧
      t.eng.iv = s.eng.iv ∧ t.eng.xctr = s.eng.xctr ∧ t.eng.result = s.eng.result ∧ t.eng.work = s.eng.work ∧
      ((∀ q ∈ s.races, ∀ v ∈ q.finalValues s.before.length, s.mem.read q.addr.toNat = v) → t.mem = s.mem) ∧
      ((∀ q ∈ s.races, (q.finish s.before.length).candidates.length ≤ 1) → t.draws = s.draws))

/-- An idle engine waits and keeps all its state: with no turn listed and no instance busy, a step changes
nothing, and an engine step of an idle instance changes nothing (60_exceptions.md R278). -/
def Obligations.IdleEngineWaits : Prop :=
  (∀ s : State, s.turns = [] → (∀ e ∈ s.engines, e.busy = false) → step s = .next s) ∧
  (∀ s : State, s.eng.busy = false → microStep s = s)

/-- Instances share host memory and nothing else, and what they share races by draws. An engine step of one
instance leaves every other instance, the platform and what the host saw as they were. It reads memory in
which each racing byte has one of the values the records admit, and any other byte has its own; and after its
write of a byte it finds there that value or one of a write it does not know, and none older (R80). A host store
while a command is in progress makes the command read each byte as it was before or as it was stored, and the
host as it was stored; a host load returns for a racing byte one of the values the records admit. A command
that starts finds what the host finds (R78). Where a turn ends the instance's command, each byte on record
holds one of the values its unordered writers last gave it, nothing else changed in memory, and the host finds
there that value or one of a write that neither it nor the command knew, and none older (R79). The values and
their order are the model's: log entry 8 (60_exceptions.md R276; 20_memory.md R78 to R81, R85;
93_implementation_defined.md I11). -/
def Obligations.EngineTurnStaysOnItsInstance : Prop :=
  (∀ (s : State) (k : Nat) (ts : List Turn), s.turns = .engine k :: ts → k < s.engines.length →
    ∃ t, step s = .next t ∧ t.engines.length = s.engines.length ∧ t.platform = s.platform ∧ t.seen = s.seen ∧
      t.turns = ts ∧ (∀ j, j ≠ k → t.engines[j]? = s.engines[j]?) ∧
      ∃ (u : State) (view : Memory) (d : Nat), ({ s with turns := ts } : State).focus k = some u ∧
        (∀ a : Addr, if s.raceValues (.engine k) a = [] then view.read a.toNat = s.mem.read a.toNat
          else view.read a.toNat ∈ s.raceValues (.engine k) a) ∧
        t.engines[k]? = some (microStep { u with mem := view, draws := d }).eng ∧
        (∀ x b, s.racesWf = true → ({ u with mem := view, draws := d } : State).nextWrite = some (x, b) →
          t.busyAt k = true → ∀ (a : Addr) (j : Nat) (v : Byte), a.toNat = x + j → b[j]? = some v →
            v ∈ t.raceValues (.engine k) a ∧
            ∀ o ∈ t.raceValues (.engine k) a, o = v ∨
              ∃ q ∈ s.races, q.addr = a ∧ ∃ w ∈ q.writes, w.value = o ∧ Agent.engine k ∉ w.known)) ∧
  (∀ (s : State) (addr : Nat) (b : Bytes) (ts : List Turn), s.turns = .store addr b :: ts →
    addr + b.length ≤ 2 ^ 64 →
    ∃ t, step s = .next t ∧ t.mem = s.mem.writeBytes addr b ∧ t.engines = s.engines ∧ t.draws = s.draws ∧
      t.turns = ts ∧
      (s.races = [] → ∀ k v j, s.busyAt k = true → b[j]? = some v →
        t.raceValues (.engine k) (BitVec.ofNat 64 (addr + j)) = [s.mem.read (addr + j), v] ∧
        t.raceValues .host (BitVec.ofNat 64 (addr + j)) = [v])) ∧
  (∀ (s : State) (addr n : Nat) (ts : List Turn), s.turns = .load addr n :: ts → addr + n ≤ 2 ^ 64 →
    ∃ t b, step s = .next t ∧ t.mem = s.mem ∧ t.engines = s.engines ∧ t.races = s.races ∧ t.turns = ts ∧
      t.seen = some (.bytes b) ∧ b.length = n ∧
      ∀ j, j < n →
        let vs := s.raceValues .host (BitVec.ofNat 64 (addr + j))
        if vs = [] then b[j]? = some (s.mem.read (addr + j)) else ∃ v ∈ vs, b[j]? = some v) ∧
  (∀ (s t : State) (addr k : Nat) (v : Word) (ts : List Turn), s.turns = .write addr 4 v :: ts →
    step s = .next t → s.busyAt k = false → t.busyAt k = true →
    ∀ a, t.raceValues (.engine k) a = t.raceValues .host a) ∧
  (∀ (s t : State) (k : Nat) (ts : List Turn), (s.turns = .engine k :: ts ∨ s.turns = .hardReset k :: ts) →
    step s = .next t → s.busyAt k = true → t.busyAt k = false →
    ∀ a : Addr,
      (if ∃ q ∈ s.races, q.addr = a ∧ q.finalValues k ≠ [] then
        ∃ q ∈ s.races, q.addr = a ∧ t.mem.read a.toNat ∈ q.finalValues k
      else t.mem.read a.toNat = s.mem.read a.toNat) ∧
      (s.racesWf = true → ∀ v ∈ t.raceValues .host a, v = t.mem.read a.toNat ∨
        ∃ q ∈ s.races, q.addr = a ∧
          ∃ w ∈ q.writes, w.value = v ∧ Agent.host ∉ w.known ∧ Agent.engine k ∉ w.known))

/-- While a command is under way, its engine steps change no register the host can read and no key slot: the
results are written in the completion step only (40_control.md R116). -/
def Obligations.BusyStepsKeepRegisters : Prop :=
  ∀ s : State, (microStep s).eng.busy = true →
    (∀ r, (microStep s).eng.hostRead r = s.eng.hostRead r) ∧ (microStep s).eng.slot = s.eng.slot ∧
    (microStep s).eng.sameMac s.eng ∧ (microStep s).eng.sameOperands s.eng

/-- The engine steps of R121 with nothing in between give what the whole command gives, after at most
`3 + 2·MAX_SEGMENTS + 2·N` of them, and then the engine stays as it is (40_control.md R121). The two grains and
what counts as a step are the model's (log entries 6, 9). -/
def Obligations.EngineStepsRunTheCommand : Prop :=
  ∀ (i : Instr) (s : State) (n : Nat), s.eng.accepted = true →
    3 + 2 * s.platform.maxSegments + 2 * bytesRead i s.eng.latch ≤ n →
    exec i s = .next ((engineStep (planOf i))^[n] s)

/-- Every command completes: with success, or with one of the error kinds of its row of R261, recording an
address for BufferIoFailure only (40_control.md R117; 60_exceptions.md R261, R265, R266). -/
def Obligations.CommandsCompleteWithTheirKinds : Prop :=
  ∀ (i : Instr) (s : State), ∃ t, exec i s = .next t ∧
    (t.eng.succeededFrom s.eng ∨
      ∃ k ∈ errorKinds i, ∃ a, t.eng.failedWith k a ∧ (k ≠ .bufferIoFailure → a = 0))

/-! ### Checks and errors -/

/-- Check 2: KeyNotSet, then SequenceError, in this order and in no other case; neither touches memory
(40_control.md R113). -/
def Obligations.KeyAndSequenceChecks : Prop :=
  ∀ (i : Instr) (s : State),
    (i.fields.op.toNat ∈ [2, 3, 4, 5] → ¬ s.eng.keyFor (modeClass i.fields.mode) →
      ∃ t, exec i s = .next t ∧ t.eng.failedWith .keyNotSet 0 ∧ t.mem = s.mem) ∧
    (i.fields.op.toNat ∈ [4, 5] → s.eng.keyFor (modeClass i.fields.mode) →
      (s.eng.macActive = false ∨ s.eng.macMode ≠ i.fields.mode) →
      ∃ t, exec i s = .next t ∧ t.eng.failedWith .sequenceError 0 ∧ t.mem = s.mem) ∧
    (keyAndMacOk i s.eng → ∀ t, exec i s = .next t → t.eng.errCode ≠ 6 ∧ t.eng.errCode ≠ 7)

/-- Check 3: the length error of the command's row, once check 2 has passed, and in no other case; it
touches no memory (40_control.md R114; 41_setkey.md R131). -/
def Obligations.LengthChecks : Prop :=
  ∀ (i : Instr) (s : State), keyAndMacOk i s.eng →
    (∀ k, lengthRule i s.eng.latch = some k →
      ∃ t, exec i s = .next t ∧ t.eng.failedWith k 0 ∧ t.mem = s.mem) ∧
    (lengthRule i s.eng.latch = none → ∀ t, exec i s = .next t →
      t.eng.errCode ≠ 1 ∧ t.eng.errCode ≠ 2 ∧ t.eng.errCode ≠ 3)

/-- What a SETKEY does to the key slot and the MAC state: with success a slot of the mode's class, with an
error an empty slot; either way the MAC computation ends (41_setkey.md R139). -/
def Obligations.SetkeyReplacesTheSlot : Prop :=
  ∀ (i : Instr) (s t : State), i.fields.op = 1 → exec i s = .next t →
    (t.eng.errCode = 0 → t.eng.keyFor (modeClass i.fields.mode)) ∧
    (t.eng.errCode ≠ 0 → t.eng.slot = ⟨false, .none, [], [], [], [], [], []⟩) ∧
    t.eng.macActive = false ∧ t.eng.dg = 0

/-- A command that completes with an error leaves IV, XCTR and RESULT as they were; the key slot too, unless
it is a SETKEY; an error of a legal MAC command ends the MAC computation, and one of a CRYPT leaves it alone
(60_exceptions.md R262, R264). -/
def Obligations.ErrorsLeaveResults : Prop :=
  ∀ (i : Instr) (s t : State), exec i s = .next t → t.eng.errCode ≠ 0 →
    (t.eng.iv = s.eng.iv ∧ t.eng.xctr = s.eng.xctr ∧ t.eng.result = s.eng.result ∧
      t.eng.sameOperands s.eng) ∧
    (i.fields.op ≠ 1 → t.eng.slot = s.eng.slot) ∧
    (i.fields.op.toNat ∈ [3, 4, 5] → t.eng.macActive = false ∧ t.eng.dg = 0 ∧ t.eng.macMode = s.eng.macMode) ∧
    (i.fields.op = 2 → t.eng.sameMac s.eng)

/-- A segment map that cannot be built ends the command with BufferIoFailure at the address the walk names,
the source list before the destination list, and no memory is written (20_memory.md R65; 40_control.md
R115; 60_exceptions.md R263, R267). -/
def Obligations.MapErrorsLeaveMemory : Prop :=
  ∀ (i : Instr) (s : State) (a : Addr), i.fields.op.toNat ∈ [2, 4, 5] →
    keyAndMacOk i s.eng → lengthRule i s.eng.latch = none →
    (s.buildMap i.fields.sg s.eng.latch.src (bytesRead i s.eng.latch) = .error a →
      ∃ t, exec i s = .next t ∧ t.eng.failedWith .bufferIoFailure a ∧ t.mem = s.mem) ∧
    (i.fields.op = 2 → ∀ sm, s.buildMap i.fields.sg s.eng.latch.src (bytesRead i s.eng.latch) = .ok sm →
      s.buildMap i.fields.sg s.eng.latch.dst (bytesRead i s.eng.latch) = .error a →
      ∃ t, exec i s = .next t ∧ t.eng.failedWith .bufferIoFailure a ∧ t.mem = s.mem)

/-- A map that is built covers the request exactly, in non-empty segments, no more of them than descriptors
may be read; the flat map is one segment; a request of no bytes reads no descriptor. A descriptor list gives
the segments of its descriptors in order, empty ones skipped, the last one cut to what the request lacks,
up to the first that completes the request. A walk that fails names the list itself where it is misaligned,
the first descriptor not read where the list is too long, a refused descriptor, or the descriptor that
carries END before the request is complete (20_memory.md R62, R63, R65, R70; 10_state.md R45). A named
address at or above 2^64 is taken mod 2^64: the model's reading, log entry 12. -/
def Obligations.BuildMapCovers : Prop :=
  ∀ (s : State) (sg : Bool) (a : Addr) (n : Nat),
    s.buildMap sg a 0 = .ok [] ∧
    (n ≠ 0 → s.buildMap false a n = .ok [⟨a.toNat, n⟩]) ∧
    (∀ m, s.buildMap sg a n = .ok m → mapLen m = n ∧ (∀ seg ∈ m, 1 ≤ seg.len) ∧
      (sg = true → m.length ≤ s.platform.maxSegments)) ∧
    (n ≠ 0 → a.toNat % 16 ≠ 0 → s.buildMap true a n = .error a) ∧
    (n ≠ 0 → a.toNat % 16 = 0 → ∀ k, s.walksPast a.toNat n k →
      let here : Addr := BitVec.ofNat 64 (a.toNat + 16 * k)
      let read := s.accessOk (a.toNat + 16 * k) 16 .read
      (k = s.platform.maxSegments → s.buildMap true a n = .error here) ∧
      (k < s.platform.maxSegments → read = false → s.buildMap true a n = .error here) ∧
      (k < s.platform.maxSegments → read = true → n ≤ listLen s.mem a.toNat (k + 1) →
        s.buildMap true a n = .ok (listMap s.mem a.toNat n (k + 1))) ∧
      (k < s.platform.maxSegments → read = true → listLen s.mem a.toNat (k + 1) < n →
        segEnd s.mem a.toNat k = true → s.buildMap true a n = .error here)) ∧
    (∀ x, a.toNat % 16 = 0 → s.buildMap true a n = .error x →
      ∃ k, s.walksPast a.toNat n k ∧ x = BitVec.ofNat 64 (a.toNat + 16 * k))

/-- What a refused access of BULK or TAIL leaves in memory, for every CRYPT and MAC command in either form. The
command ends with BufferIoFailure at the refused piece's address. Where a read piece of a unit is refused,
nothing of that unit is written; where a write piece is refused, the pieces of its unit before it are written;
every byte before that holds what the command stores on a platform that refuses nothing, and nothing else
changed (a MAC command stores nothing). And for CRYPT.ECB.ENC with the first piece of block `k` refused, the
blocks before it hold their output (20_memory.md R66, R67; 60_exceptions.md R263, R265). -/
def Obligations.RefusedWriteKeepsEarlierBlocks : Prop :=
  (∀ (i : Instr) (s full : State) (sm dm : List Segment) (done later : List (Nat × Nat)) (pos u : Nat)
      (before after : List (Nat × Nat)) (a n : Nat),
    i.fields.op.toNat ∈ [2, 4, 5] → s.eng.accepted = true → keyAndMacOk i s.eng →
    lengthRule i s.eng.latch = none →
    s.buildMap i.fields.sg s.eng.latch.src (bytesRead i s.eng.latch) = .ok sm →
    (if i.fields.op = 2 then s.buildMap i.fields.sg s.eng.latch.dst (bytesRead i s.eng.latch) = .ok dm
      else dm = []) →
    (∀ j k, j < mapLen dm → k < mapLen dm → mapAddr dm j = mapAddr dm k → j = k) →
    unitsOf i s.eng.latch = done ++ (pos, u) :: later →
    (∀ q ∈ done, s.performs (pieces sm q.1 q.2) .read ∧ s.performs (pieces dm q.1 q.2) .write) →
    exec i s.noRefusals = .next full →
    (pieces sm pos u = before ++ (a, n) :: after → s.performs before .read → s.accessOk a n .read = false →
      ∃ t, exec i s = .next t ∧ t.eng.failedWith .bufferIoFailure (BitVec.ofNat 64 a) ∧
        storedPrefix s.mem full.mem t.mem dm (if i.fields.op = 2 then pos else 0)) ∧
    (pieces dm pos u = before ++ (a, n) :: after → s.performs (pieces sm pos u) .read →
      s.performs before .write → s.accessOk a n .write = false →
      ∃ t, exec i s = .next t ∧ t.eng.failedWith .bufferIoFailure (BitVec.ofNat 64 a) ∧
        storedPrefix s.mem full.mem t.mem dm (pos + (before.map (·.2)).sum))) ∧
  (∀ (sg : Bool) (s : State) (sm dm : List Segment) (k a n : Nat) (rest : List (Nat × Nat)),
    let L := s.eng.reqLen
    s.eng.accepted = true → s.eng.keyFor .plain → L % 16 = 0 → k < L / 16 →
    s.buildMap sg s.eng.latch.src L = .ok sm → s.buildMap sg s.eng.latch.dst L = .ok dm →
    s.admits sm .read →
    (∀ i j, i < L → j < L → mapAddr dm i = mapAddr dm j → i = j) →
    (∀ i j, i < L → j < L → mapAddr sm i = mapAddr dm j → i = j) →
    (∀ off m x l, off + m ≤ 16 * k → (x, l) ∈ pieces dm off m → s.accessOk x l .write = true) →
    pieces dm (16 * k) 16 = (a, n) :: rest → s.accessOk a n .write = false →
    ∃ t, exec (.cryptEcbEnc sg) s = .next t ∧
      t.eng.failedWith .bufferIoFailure (BitVec.ofNat 64 a) ∧
      (∀ i, i < k → streamBlock t.mem dm i = aesE s.eng.slot.data (streamBlock s.mem sm i)) ∧
      sameOutside s.mem t.mem dm (16 * k))

/-! ### NOP and SETKEY -/

/-- NOP completes with RESULT 0 and touches nothing else; after reset it leaves STATUS = 0x00000002
(40_control.md R118). That the latched copies stay after a completion is the model's reading (log entry 18). -/
def Obligations.NopCompletes : Prop :=
  (∀ s : State, ∃ t, exec .nop s = .next t ∧ t.eng.succeededFrom s.eng ∧ t.eng.result = 0 ∧
    t.eng.sameOperands s.eng ∧ t.eng.sameMac s.eng ∧ t.eng.slot = s.eng.slot ∧ t.eng.iv = s.eng.iv ∧
    t.eng.xctr = s.eng.xctr ∧ t.mem = s.mem ∧ t.draws = s.draws ∧ t.sameSurroundings s) ∧
  (∃ t, step (State.reset.withFetchWord 32 0) = .next t ∧ t.eng.hostRead .status = 0x00000002)

/-- A SETKEY of class PLAIN with a legal key length: the slot is the raw key bytes as data key and as MAC
key (41_setkey.md R132, R139). -/
def Obligations.SetkeyPlain : Prop :=
  ∀ (i : Instr) (s : State),
    i ∈ [Instr.setkeyEcb, .setkeyCbc, .setkeyCts, .setkeyCtr, .setkeyXctr, .setkeyCbcmac] →
    s.eng.latch.keylen.toNat ∈ [16, 24, 32] →
    let raw := (toLe s.eng.latch.key.toNat 64).take s.eng.latch.keylen.toNat
    ∃ t, exec i s = .next t ∧ t.eng.succeededFrom s.eng ∧
      t.eng.slot = ⟨true, .plain, raw, [], [], raw, [], []⟩ ∧
      t.eng.macActive = false ∧ t.eng.dg = 0 ∧ t.eng.result = 0 ∧ t.mem = s.mem ∧
      t.eng.statusKeyClass = 1

/-- SETKEY.XTS with a legal combined length: the first half is the data key, the second the tweak key
(41_setkey.md R133, R139). -/
def Obligations.SetkeyXts : Prop :=
  ∀ s : State, s.eng.latch.keylen.toNat ∈ [32, 48, 64] →
    let key := toLe s.eng.latch.key.toNat 64
    let h := s.eng.latch.keylen.toNat / 2
    ∃ t, exec .setkeyXts s = .next t ∧ t.eng.succeededFrom s.eng ∧
      t.eng.slot = ⟨true, .xts, key.take h, (key.drop h).take h, [], [], [], []⟩ ∧
      t.eng.macActive = false ∧ t.eng.dg = 0 ∧ t.eng.result = 0 ∧ t.mem = s.mem ∧
      t.eng.statusKeyClass = 3

/-- SETKEY.ESSIV with a legal key length makes one draw. Where it is false the slot is the raw key and its
digest; where it is true the command ends with EssivHashFailure and an empty slot
(41_setkey.md R134, R135, R139; log entry 2). -/
def Obligations.SetkeyEssiv : Prop :=
  ∀ s : State, s.eng.latch.keylen.toNat ∈ [16, 24, 32] →
    let raw := (toLe s.eng.latch.key.toNat 64).take s.eng.latch.keylen.toNat
    ∃ t, exec .setkeyEssiv s = .next t ∧ t.draws = s.draws + 1 ∧ t.mem = s.mem ∧
      t.eng.macActive = false ∧ t.eng.dg = 0 ∧
      (Config.hashFail s.draws = false → t.eng.succeededFrom s.eng ∧ t.eng.result = 0 ∧
        t.eng.slot = ⟨true, .essiv, raw, [], digest256 raw, [], [], []⟩ ∧ t.eng.statusKeyClass = 2) ∧
      (Config.hashFail s.draws = true → t.eng.failedWith .essivHashFailure 0 ∧
        t.eng.slot = ⟨false, .none, [], [], [], [], [], []⟩)

/-- SETKEY.CMAC and SETKEY.XCBC with a legal key length: the CMAC subkeys by doubling `AES_E(raw, 0)`, the
XCBC keys by encrypting the constant blocks (41_setkey.md R137, R138, R139). -/
def Obligations.SetkeyMacSubkeys : Prop :=
  ∀ s : State, s.eng.latch.keylen.toNat ∈ [16, 24, 32] →
    let raw := (toLe s.eng.latch.key.toNat 64).take s.eng.latch.keylen.toNat
    let k1 := gfDouble (aesE raw 0)
    let enc := fun v : Byte => blockBytes (aesE raw (blockOf (List.replicate 16 v)))
    (∃ t, exec .setkeyCmac s = .next t ∧ t.eng.succeededFrom s.eng ∧
      t.eng.slot = ⟨true, .cmac, [], [], [], raw, blockBytes k1, blockBytes (gfDouble k1)⟩ ∧
      t.eng.macActive = false ∧ t.eng.dg = 0 ∧ t.eng.result = 0 ∧ t.mem = s.mem ∧
      t.eng.statusKeyClass = 4) ∧
    (∃ t, exec .setkeyXcbc s = .next t ∧ t.eng.succeededFrom s.eng ∧
      t.eng.slot = ⟨true, .xcbc, [], [], [], enc 1, enc 2, enc 3⟩ ∧
      t.eng.macActive = false ∧ t.eng.dg = 0 ∧ t.eng.result = 0 ∧ t.mem = s.mem ∧
      t.eng.statusKeyClass = 5)

/-! ### CRYPT -/

/-- CRYPT.ECB: each block on its own, IV unchanged (42_ecb_cbc_essiv.md R150, R151). -/
def Obligations.EcbTransforms : Prop :=
  ∀ (sg : Bool) (s : State) (sm dm : List Segment), s.cryptReady .plain sg sm dm → s.eng.reqLen % 16 = 0 →
    (∃ t, exec (.cryptEcbEnc sg) s = .next t ∧ s.cryptDone t dm ∧ t.eng.iv = s.eng.iv ∧
      ∀ i, i < s.eng.reqLen / 16 → streamBlock t.mem dm i = aesE s.eng.slot.data (streamBlock s.mem sm i)) ∧
    (∃ t, exec (.cryptEcbDec sg) s = .next t ∧ s.cryptDone t dm ∧ t.eng.iv = s.eng.iv ∧
      ∀ i, i < s.eng.reqLen / 16 → streamBlock t.mem dm i = aesD s.eng.slot.data (streamBlock s.mem sm i))

/-- CRYPT.CBC.ENC: each block is chained to the ciphertext block before it, the first to L_IV; IV gets the
last ciphertext block (42_ecb_cbc_essiv.md R152). -/
def Obligations.CbcEncrypts : Prop :=
  ∀ (sg : Bool) (s : State) (sm dm : List Segment), s.cryptReady .plain sg sm dm → s.eng.reqLen % 16 = 0 →
    let n := s.eng.reqLen / 16
    ∃ t, exec (.cryptCbcEnc sg) s = .next t ∧ s.cryptDone t dm ∧
      let c := streamBlock t.mem dm
      let chain := fun i => if i = 0 then s.eng.latch.iv else c (i - 1)
      (∀ i, i < n → c i = aesE s.eng.slot.data (streamBlock s.mem sm i ^^^ chain i)) ∧ t.eng.iv = chain n

/-- CRYPT.CBC.DEC: the chain is the ciphertext block before it, as read (42_ecb_cbc_essiv.md R153). -/
def Obligations.CbcDecrypts : Prop :=
  ∀ (sg : Bool) (s : State) (sm dm : List Segment), s.cryptReady .plain sg sm dm → s.eng.reqLen % 16 = 0 →
    let n := s.eng.reqLen / 16
    let c := streamBlock s.mem sm
    let chain := fun i => if i = 0 then s.eng.latch.iv else c (i - 1)
    ∃ t, exec (.cryptCbcDec sg) s = .next t ∧ s.cryptDone t dm ∧
      (∀ i, i < n → streamBlock t.mem dm i = aesD s.eng.slot.data (c i) ^^^ chain i) ∧ t.eng.iv = chain n

/-- CRYPT.ESSIV.ENC: CBC from `AES_E(K_ESSIV, L_IV)`; IV gets the last ciphertext block, and is unchanged
where `L = 0` (42_ecb_cbc_essiv.md R154). -/
def Obligations.EssivEncrypts : Prop :=
  ∀ (sg : Bool) (s : State) (sm dm : List Segment), s.cryptReady .essiv sg sm dm → s.eng.reqLen % 16 = 0 →
    let n := s.eng.reqLen / 16
    ∃ t, exec (.cryptEssivEnc sg) s = .next t ∧ s.cryptDone t dm ∧
      let c := streamBlock t.mem dm
      let chain := fun i => if i = 0 then aesE s.eng.slot.essiv s.eng.latch.iv else c (i - 1)
      (∀ i, i < n → c i = aesE s.eng.slot.data (streamBlock s.mem sm i ^^^ chain i)) ∧
      t.eng.iv = if n = 0 then s.eng.iv else chain n

/-- CRYPT.ESSIV.DEC: CBC decryption from the same chain, seeded with `AES_E` (42_ecb_cbc_essiv.md R155). -/
def Obligations.EssivDecrypts : Prop :=
  ∀ (sg : Bool) (s : State) (sm dm : List Segment), s.cryptReady .essiv sg sm dm → s.eng.reqLen % 16 = 0 →
    let n := s.eng.reqLen / 16
    let c := streamBlock s.mem sm
    let chain := fun i => if i = 0 then aesE s.eng.slot.essiv s.eng.latch.iv else c (i - 1)
    ∃ t, exec (.cryptEssivDec sg) s = .next t ∧ s.cryptDone t dm ∧
      (∀ i, i < n → streamBlock t.mem dm i = aesD s.eng.slot.data (c i) ^^^ chain i) ∧
      t.eng.iv = if n = 0 then s.eng.iv else chain n

/-- CRYPT.CTS.ENC: one CBC block for `L = 16`; else CBC over the first `n − 2` blocks and the stealing tail,
full block first, which is the IV written (43_cts.md R170, R171, R173, R175). -/
def Obligations.CtsEncrypts : Prop :=
  ∀ (sg : Bool) (s : State) (sm dm : List Segment), s.cryptReady .plain sg sm dm → 16 ≤ s.eng.reqLen →
    let L := s.eng.reqLen
    let K := s.eng.slot.data
    let n := (L + 15) / 16
    let r := L - 16 * (n - 1)
    ∃ t, exec (.cryptCtsEnc sg) s = .next t ∧ s.cryptDone t dm ∧
      let out := streamBlock t.mem dm
      let chain := fun i => if i = 0 then s.eng.latch.iv else out (i - 1)
      (L = 16 → out 0 = aesE K (streamBlock s.mem sm 0 ^^^ s.eng.latch.iv) ∧ t.eng.iv = out 0) ∧
      (16 < L →
        let b := streamBytes s.mem sm (16 * (n - 1)) r
        let c := aesE K (streamBlock s.mem sm (n - 2) ^^^ chain (n - 2))
        let D := aesE K (blockOf (b ++ zeros (16 - r)) ^^^ c)
        (∀ i, i < n - 2 → out i = aesE K (streamBlock s.mem sm i ^^^ chain i)) ∧
        streamBytes t.mem dm (16 * (n - 2)) (16 + r) = blockBytes D ++ (blockBytes c).take r ∧
        t.eng.iv = D)

/-- CRYPT.CTS.DEC: the reverse, with the second-to-last ciphertext block rebuilt from the stolen bytes
(43_cts.md R170, R172, R174, R175). -/
def Obligations.CtsDecrypts : Prop :=
  ∀ (sg : Bool) (s : State) (sm dm : List Segment), s.cryptReady .plain sg sm dm → 16 ≤ s.eng.reqLen →
    let L := s.eng.reqLen
    let K := s.eng.slot.data
    let n := (L + 15) / 16
    let r := L - 16 * (n - 1)
    let inp := streamBlock s.mem sm
    let chain := fun i => if i = 0 then s.eng.latch.iv else inp (i - 1)
    ∃ t, exec (.cryptCtsDec sg) s = .next t ∧ s.cryptDone t dm ∧
      (L = 16 → streamBlock t.mem dm 0 = aesD K (inp 0) ^^^ s.eng.latch.iv ∧ t.eng.iv = inp 0) ∧
      (16 < L →
        let b := streamBytes s.mem sm (16 * (n - 1)) r
        let z := blockBytes (aesD K (inp (n - 2)))
        let c := blockOf (b ++ z.drop r)
        (∀ i, i < n - 2 → streamBlock t.mem dm i = aesD K (inp i) ^^^ chain i) ∧
        streamBytes t.mem dm (16 * (n - 2)) (16 + r) =
          blockBytes (aesD K c ^^^ chain (n - 2)) ++ xorBytes (z.take r) b ∧
        t.eng.iv = inp (n - 2))

/-- CRYPT.CTR, both directions: block `i` with the keystream of the counter `L_IV + i`, big-endian; the final
`r` bytes with the first `r` keystream bytes; IV gets the counter advanced by `⌈L/16⌉`
(44_ctr_xctr.md R190, R191, R192). -/
def Obligations.CtrTransforms : Prop :=
  ∀ (i : Instr) (sg : Bool) (s : State) (sm dm : List Segment), i ∈ [Instr.cryptCtrEnc sg, .cryptCtrDec sg] →
    s.cryptReady .plain sg sm dm →
    let L := s.eng.reqLen
    let q := L / 16
    let r := L % 16
    let ctr := fun j => blockOf (toBe ((be (blockBytes s.eng.latch.iv) + j) % 2 ^ 128) 16)
    let ks := fun j => aesE s.eng.slot.data (ctr j)
    ∃ t, exec i s = .next t ∧ s.cryptDone t dm ∧
      (∀ j, j < q → streamBlock t.mem dm j = streamBlock s.mem sm j ^^^ ks j) ∧
      streamBytes t.mem dm (16 * q) r =
        xorBytes (streamBytes s.mem sm (16 * q) r) ((blockBytes (ks q)).take r) ∧
      t.eng.iv = ctr ((L + 15) / 16)

/-- CRYPT.XCTR, both directions: every byte with the keystream byte of its absolute offset; XCTR gets
`L_XCTR + L` mod 2^64 and IV is unchanged (44_ctr_xctr.md R193, R194, R195). -/
def Obligations.XctrTransforms : Prop :=
  ∀ (i : Instr) (sg : Bool) (s : State) (sm dm : List Segment), i ∈ [Instr.cryptXctrEnc sg, .cryptXctrDec sg] →
    s.cryptReady .plain sg sm dm → s.eng.latch.xctr.toNat + s.eng.reqLen ≤ 2 ^ 64 →
    let ks := fun p => (blockBytes (aesE s.eng.slot.data
      (s.eng.latch.iv ^^^ blockOf (toLe (p / 16 + 1) 16)))).getD (p % 16) 0
    ∃ t, exec i s = .next t ∧ s.cryptDone t dm ∧
      (∀ j, j < s.eng.reqLen → t.mem.read (mapAddr dm j) =
        s.mem.read (mapAddr sm j) ^^^ ks (s.eng.latch.xctr.toNat + j)) ∧
      t.eng.xctr.toNat = (s.eng.latch.xctr.toNat + s.eng.reqLen) % 2 ^ 64 ∧ t.eng.iv = s.eng.iv

/-- CRYPT.XTS.ENC: block `i` under the tweak `T_i`, the tail with stealing under `T_(q−1)` and `T_q`; IV gets
the tweak after the last one used (45_xts.md R211, R212, R213, R215, R217). -/
def Obligations.XtsEncrypts : Prop :=
  ∀ (first sg : Bool) (s : State) (sm dm : List Segment), s.cryptReady .xts sg sm dm → 16 ≤ s.eng.reqLen →
    let q := s.eng.reqLen / 16
    let r := s.eng.reqLen % 16
    let T := fun i => mulxLe^[i] (if first then aesE s.eng.slot.tweak s.eng.latch.iv else s.eng.latch.iv)
    let XE := fun b i => aesE s.eng.slot.data (b ^^^ T i) ^^^ T i
    ∃ t, exec (.cryptXtsEnc first sg) s = .next t ∧ s.cryptDone t dm ∧
      (∀ i, i < (if r = 0 then q else q - 1) → streamBlock t.mem dm i = XE (streamBlock s.mem sm i) i) ∧
      (r ≠ 0 →
        let cc := blockBytes (XE (streamBlock s.mem sm (q - 1)) (q - 1))
        let pp := blockOf (streamBytes s.mem sm (16 * q) r ++ cc.drop r)
        streamBytes t.mem dm (16 * (q - 1)) (16 + r) = blockBytes (XE pp q) ++ cc.take r) ∧
      t.eng.iv = T (if r = 0 then q else q + 1)

/-- CRYPT.XTS.DEC: as the encryption with `AES_D`, and the two tweaks of the tail in the opposite order
(45_xts.md R211, R212, R214, R216, R217). -/
def Obligations.XtsDecrypts : Prop :=
  ∀ (first sg : Bool) (s : State) (sm dm : List Segment), s.cryptReady .xts sg sm dm → 16 ≤ s.eng.reqLen →
    let q := s.eng.reqLen / 16
    let r := s.eng.reqLen % 16
    let T := fun i => mulxLe^[i] (if first then aesE s.eng.slot.tweak s.eng.latch.iv else s.eng.latch.iv)
    let XD := fun b i => aesD s.eng.slot.data (b ^^^ T i) ^^^ T i
    ∃ t, exec (.cryptXtsDec first sg) s = .next t ∧ s.cryptDone t dm ∧
      (∀ i, i < (if r = 0 then q else q - 1) → streamBlock t.mem dm i = XD (streamBlock s.mem sm i) i) ∧
      (r ≠ 0 →
        let pp := blockBytes (XD (streamBlock s.mem sm (q - 1)) q)
        let cc := blockOf (streamBytes s.mem sm (16 * q) r ++ pp.drop r)
        streamBytes t.mem dm (16 * (q - 1)) (16 + r) = blockBytes (XD cc (q - 1)) ++ pp.take r) ∧
      t.eng.iv = T (if r = 0 then q else q + 1)

/-- A request of no bytes, in a mode that admits one, completes with code 0, no memory access, and IV and
XCTR unchanged (42_ecb_cbc_essiv.md R156; 44_ctr_xctr.md R191, R193). -/
def Obligations.EmptyRequests : Prop :=
  ∀ (i : Instr) (s : State), i.fields.op = 2 → i.fields.mode.toNat ∈ [0, 1, 3, 4, 5] →
    s.eng.keyFor (modeClass i.fields.mode) → s.eng.accepted = true → s.eng.latchWf = true →
    s.eng.reqLen = 0 →
    ∃ t, exec i s = .next t ∧ t.eng.succeededFrom s.eng ∧ t.mem = s.mem ∧ t.eng.iv = s.eng.iv ∧
      t.eng.xctr = s.eng.xctr ∧ t.eng.result = 0

/-! ### MAC -/

/-- MAC_INIT: the computation of the mode is active with a digest of zeros, whatever was in progress
(46_mac.md R231). -/
def Obligations.MacInitStarts : Prop :=
  ∀ (i : Instr) (s : State), i.fields.op = 3 → s.eng.keyFor (modeClass i.fields.mode) →
    ∃ t, exec i s = .next t ∧ t.eng.succeededFrom s.eng ∧ t.eng.macActive = true ∧
      t.eng.macMode = i.fields.mode ∧ t.eng.dg = 0 ∧ t.eng.result = 0 ∧ t.eng.digestView = 0 ∧
      t.eng.slot = s.eng.slot ∧ t.mem = s.mem

/-- MAC_UPDATE: the full blocks are chained into the digest, the remainder is not read and its length is
RESULT, and the computation stays active (46_mac.md R232). -/
def Obligations.MacUpdateChains : Prop :=
  ∀ (i : Instr) (s : State) (sm : List Segment), i.fields.op = 4 →
    s.macReady i.fields.mode i.fields.sg (16 * (s.eng.reqLen / 16)) sm →
    ∃ t, exec i s = .next t ∧ t.eng.succeededFrom s.eng ∧
      t.eng.dg = (List.range (s.eng.reqLen / 16)).foldl
        (fun d j => aesE s.eng.slot.mac (d ^^^ streamBlock s.mem sm j)) s.eng.dg ∧
      t.eng.result.toNat = s.eng.reqLen % 16 ∧ t.eng.macActive = true ∧ t.eng.macMode = s.eng.macMode ∧
      t.mem = s.mem

/-- MAC_FINUP.CBCMAC: no encryption for no bytes; else the bytes, padded with zeros, are chained once more;
the tag is readable and the computation ends (46_mac.md R233, R234). -/
def Obligations.FinupCbcmac : Prop :=
  ∀ (sg : Bool) (s : State) (sm : List Segment), s.macReady 8 sg s.eng.reqLen sm → s.eng.reqLen ≤ 16 →
    let m := streamBytes s.mem sm 0 s.eng.reqLen
    let tag := if s.eng.reqLen = 0 then s.eng.dg
      else aesE s.eng.slot.mac (s.eng.dg ^^^ blockOf (m ++ zeros (16 - s.eng.reqLen)))
    ∃ t, exec (.macFinupCbcmac sg) s = .next t ∧ t.eng.succeededFrom s.eng ∧ t.eng.dg = tag ∧
      t.eng.digestView = tag ∧ t.eng.macActive = false ∧ t.eng.result = 0 ∧ t.mem = s.mem

/-- MAC_FINUP.CMAC and MAC_FINUP.XCBC: a whole block with SK1, a shorter or empty one padded with 0x80 and
zeros and with SK2 (46_mac.md R233, R235, R236). -/
def Obligations.FinupCmacAndXcbc : Prop :=
  ∀ (i : Instr) (sg : Bool) (s : State) (sm : List Segment),
    i ∈ [Instr.macFinupCmac sg, .macFinupXcbc sg] → s.macReady i.fields.mode sg s.eng.reqLen sm →
    s.eng.reqLen ≤ 16 →
    let m := streamBytes s.mem sm 0 s.eng.reqLen
    let tag := aesE s.eng.slot.mac (s.eng.dg ^^^
      (if s.eng.reqLen = 16 then blockOf m ^^^ blockOf s.eng.slot.sk1
       else blockOf (m ++ 0x80#8 :: zeros (15 - s.eng.reqLen)) ^^^ blockOf s.eng.slot.sk2))
    ∃ t, exec i s = .next t ∧ t.eng.succeededFrom s.eng ∧ t.eng.dg = tag ∧
      t.eng.digestView = tag ∧ t.eng.macActive = false ∧ t.eng.result = 0 ∧ t.mem = s.mem

/-! ### Frames -/

/-- What every CRYPT leaves as it was, completed or not: the key slot, the MAC state, the operand registers
but IV and XCTR, IV under ECB and XCTR, XCTR under every mode but XCTR, the other instances, and every
address of memory that is not the address of an offset of the destination map built from L_DST
(40_control.md R116, R119; 20_memory.md R69; 46_mac.md R230). That the latched copies stay after a completion
is the model's reading (log entry 18). -/
def Obligations.CryptFrame : Prop :=
  ∀ (i : Instr) (s t : State), i.fields.op = 2 → exec i s = .next t →
    t.eng.sameOperands s.eng ∧ t.eng.sameMac s.eng ∧ t.eng.slot = s.eng.slot ∧
    (i.fields.mode.toNat ∈ [0, 5] → t.eng.iv = s.eng.iv) ∧
    (i.fields.mode ≠ 5 → t.eng.xctr = s.eng.xctr) ∧
    t.sameSurroundings s ∧ t.draws = s.draws ∧ t.races = s.races ∧
    (∀ a, (∀ dm, s.buildMap i.fields.sg s.eng.latch.dst s.eng.reqLen = .ok dm →
        ∀ j, j < s.eng.reqLen → mapAddr dm j ≠ a) → t.mem.read a = s.mem.read a)

/-- What every MAC command leaves as it was, completed or not: every byte of memory, the key slot, IV, XCTR
and the other operand registers, and the other instances (40_control.md R122; 46_mac.md R230). That the
latched copies stay after a completion is the model's reading (log entry 18). -/
def Obligations.MacFrame : Prop :=
  ∀ (i : Instr) (s t : State), i.fields.op.toNat ∈ [3, 4, 5] → exec i s = .next t →
    t.mem = s.mem ∧ t.eng.slot = s.eng.slot ∧ t.eng.iv = s.eng.iv ∧ t.eng.xctr = s.eng.xctr ∧
    t.eng.sameOperands s.eng ∧ t.sameSurroundings s ∧ t.draws = s.draws ∧ t.races = s.races ∧
    (i.fields.op ≠ 3 → t.eng.macMode = s.eng.macMode)

/-- What NOP and every SETKEY leave as it was, completed or not: every byte of memory, IV, XCTR, the operand
registers with the staged key, MAC_MODE, and the other instances (40_control.md R118, R122; 10_state.md
R37). That the latched copies stay after a completion is the model's reading (log entry 18). -/
def Obligations.SetkeyAndNopFrame : Prop :=
  ∀ (i : Instr) (s t : State), i.fields.op.toNat ∈ [0, 1] → exec i s = .next t →
    t.mem = s.mem ∧ t.eng.iv = s.eng.iv ∧ t.eng.xctr = s.eng.xctr ∧ t.eng.sameOperands s.eng ∧
    t.eng.macMode = s.eng.macMode ∧ t.sameSurroundings s ∧ t.races = s.races ∧
    (i.fields.op = 0 → t.eng.slot = s.eng.slot ∧ t.eng.sameMac s.eng)

/-- A command in flat form takes nothing from memory but the bytes of its source buffer: two memories that
agree there give the same engine, the same bytes wherever the command stores, and so the same bytes in the
whole destination buffer of a CRYPT that succeeds (20_memory.md R62, R69). -/
def Obligations.FlatCommandsReadOnlyTheirSource : Prop :=
  ∀ (i : Instr) (s t : State) (mem : Memory), i.fields.sg = false → s.eng.accepted = true →
    (∀ j, j < bytesRead i s.eng.latch →
      mem.read (s.eng.latch.src.toNat + j) = s.mem.read (s.eng.latch.src.toNat + j)) →
    exec i s = .next t →
    ∃ u, exec i { s with mem := mem } = .next u ∧ u.eng = t.eng ∧ u.draws = t.draws ∧
      (∀ a, u.mem.read a = t.mem.read a ∨ (u.mem.read a = mem.read a ∧ t.mem.read a = s.mem.read a)) ∧
      (i.fields.op = 2 → t.eng.errCode = 0 → ∀ j, j < s.eng.reqLen →
        u.mem.read (s.eng.latch.dst.toNat + j) = t.mem.read (s.eng.latch.dst.toNat + j))

/-! ### Arithmetic and round trips -/

/-- `GF_DOUBLE`, `MULX_LE` and `CTR_INC` byte by byte, and their corner values (41_setkey.md R136;
45_xts.md R210; 44_ctr_xctr.md R190). -/
def Obligations.FieldArithmeticBytewise : Prop :=
  ∀ x : Block,
    let b := fun i => (blockBytes x).getD i 0
    (∀ i : Fin 16, (blockBytes (gfDouble x)).getD i.val 0 =
      if i.val < 15 then (b i.val <<< 1) ||| (b (i.val + 1) >>> 7)
      else (b 15 <<< 1) ^^^ (if 0x80#8 ≤ b 0 then 0x87#8 else 0)) ∧
    (∀ i : Fin 16, (blockBytes (mulxLe x)).getD i.val 0 =
      if i.val = 0 then (b 0 <<< 1) ^^^ (if 0x80#8 ≤ b 15 then 0x87#8 else 0)
      else (b i.val <<< 1) ||| (b (i.val - 1) >>> 7)) ∧
    be (blockBytes (ctrInc x)) = (be (blockBytes x) + 1) % 2 ^ 128

/-- The stealing tails: decryption undoes encryption for every key, block, final bytes and length, and the
CTS chain out is the same in both directions (43_cts.md R174; 45_xts.md R212, R216). -/
def Obligations.StealingTailsRoundTrip : Prop :=
  (∀ (k : Bytes) (chain a : Block) (b : Bytes) (r : Nat), 1 ≤ r → r ≤ 16 → b.length = r →
    let y := ctsEncTail k chain a b r
    ctsDecTail k chain (blockOf (y.1.take 16)) (y.1.drop 16) r = (blockBytes a ++ b, y.2)) ∧
  (∀ (k : Bytes) (a T : Block) (b : Bytes) (r : Nat), 1 ≤ r → r ≤ 15 → b.length = r →
    let y := xtsEncTail k a b r T
    xtsDecTail k (blockOf (y.take 16)) (y.drop 16) r T = blockBytes a ++ b) ∧
  (∀ (k : Bytes) (b T : Block), xtsD k (xtsE k b T) T = b)

/-- CRYPT.m.DEC on the output of CRYPT.m.ENC, with the same key slot and starting IV, gives the original
bytes, for ECB, CBC and ESSIV, whatever the buffers of the two commands (42_ecb_cbc_essiv.md R157). -/
def Obligations.BlockModesRoundTrip : Prop :=
  ∀ (enc dec : Instr) (c : KeyClass) (sg sg' : Bool) (s s' t : State) (sm dm sm' dm' : List Segment),
    (enc, dec, c) ∈ [(Instr.cryptEcbEnc sg, Instr.cryptEcbDec sg', KeyClass.plain),
      (.cryptCbcEnc sg, .cryptCbcDec sg', .plain), (.cryptEssivEnc sg, .cryptEssivDec sg', .essiv)] →
    s.cryptReady c sg sm dm → s'.cryptReady c sg' sm' dm' → s.eng.reqLen % 16 = 0 →
    s'.eng.slot = s.eng.slot → s'.eng.latch.iv = s.eng.latch.iv → s'.eng.reqLen = s.eng.reqLen →
    exec enc s = .next t →
    (∀ j, j < s.eng.reqLen → s'.mem.read (mapAddr sm' j) = t.mem.read (mapAddr dm j)) →
    ∃ t', exec dec s' = .next t' ∧ t'.eng.succeededFrom s'.eng ∧
      ∀ j, j < s.eng.reqLen → t'.mem.read (mapAddr dm' j) = s.mem.read (mapAddr sm j)

/-- CTR and XCTR, in either direction, undo themselves with the same key slot and starting IV and XCTR, and
the ENC and DEC words give the same result (44_ctr_xctr.md R196). -/
def Obligations.StreamModesSelfInverse : Prop :=
  (∀ (sg : Bool) (s : State), exec (.cryptCtrEnc sg) s = exec (.cryptCtrDec sg) s ∧
    exec (.cryptXctrEnc sg) s = exec (.cryptXctrDec sg) s) ∧
  ∀ (i j : Instr) (sg sg' : Bool) (s s' t : State) (sm dm sm' dm' : List Segment),
    (i, j) ∈ [(Instr.cryptCtrEnc sg, Instr.cryptCtrDec sg'), (.cryptCtrDec sg, .cryptCtrEnc sg'),
      (.cryptCtrEnc sg, .cryptCtrEnc sg'), (.cryptCtrDec sg, .cryptCtrDec sg'),
      (.cryptXctrEnc sg, .cryptXctrDec sg'), (.cryptXctrDec sg, .cryptXctrEnc sg'),
      (.cryptXctrEnc sg, .cryptXctrEnc sg'), (.cryptXctrDec sg, .cryptXctrDec sg')] →
    s.cryptReady .plain sg sm dm → s'.cryptReady .plain sg' sm' dm' →
    (i.fields.mode = 5 → s.eng.latch.xctr.toNat + s.eng.reqLen ≤ 2 ^ 64) →
    s'.eng.slot = s.eng.slot → s'.eng.latch.iv = s.eng.latch.iv → s'.eng.latch.xctr = s.eng.latch.xctr →
    s'.eng.reqLen = s.eng.reqLen → exec i s = .next t →
    (∀ p, p < s.eng.reqLen → s'.mem.read (mapAddr sm' p) = t.mem.read (mapAddr dm p)) →
    ∃ t', exec j s' = .next t' ∧ t'.eng.succeededFrom s'.eng ∧
      ∀ p, p < s.eng.reqLen → t'.mem.read (mapAddr dm' p) = s.mem.read (mapAddr sm p)
end

