-- ==== Sys2Proof/Laws/Bytes.lean ====
section
/-! SUPPORT. Laws of byte strings and blocks (00_scope.md R12, R13), and the laws of the cipher parameters
(R9). -/

namespace Sys2Proof.Machine

/-! ### Little-endian numbers -/

@[simp] theorem length_toLe (n w : Nat) : (toLe n w).length = w := by
  induction w generalizing n with
  | zero => rfl
  | succ w ih => simp [toLe, ih]

theorem le_lt (s : Bytes) : le s < 256 ^ s.length := by
  induction s with
  | nil => simp [le]
  | cons b s ih =>
    have := b.isLt
    simp only [le, List.length_cons, pow_succ]
    omega

/-- `to_le` is the inverse of `le` on byte strings of its width. -/
theorem toLe_le (s : Bytes) : toLe (le s) s.length = s := by
  induction s with
  | nil => rfl
  | cons b s ih =>
    have h := b.isLt
    simp only [le, List.length_cons, toLe, List.cons.injEq]
    constructor
    · apply BitVec.eq_of_toNat_eq
      simp only [BitVec.toNat_ofNat]
      omega
    · rw [show (b.toNat + 256 * le s) / 256 = le s by omega, ih]

/-- `le` is the inverse of `to_le` on numbers below `256^w`. -/
theorem le_toLe (n w : Nat) (h : n < 256 ^ w) : le (toLe n w) = n := by
  induction w generalizing n with
  | zero => simp only [pow_zero] at h; simp only [toLe, le]; omega
  | succ w ih =>
    simp only [toLe, le, BitVec.toNat_ofNat]
    rw [ih (n / 256) (by rw [pow_succ] at h; omega)]
    omega

/-- `to_be` is the inverse of `be`. -/
theorem toBe_be (s : Bytes) : toBe (be s) s.length = s := by
  have := toLe_le s.reverse
  rw [List.length_reverse] at this
  simp [toBe, be, this]

theorem be_toBe (n w : Nat) (h : n < 256 ^ w) : be (toBe n w) = n := by
  simp [toBe, be, le_toLe n w h]

/-! ### Blocks -/

@[simp] theorem length_blockBytes (b : Block) : (blockBytes b).length = 16 := by simp [blockBytes]

@[simp] theorem le_blockBytes (b : Block) : le (blockBytes b) = b.toNat :=
  le_toLe _ _ (by have := b.isLt; omega)

/-- The bytes of a block make the block. -/
@[simp] theorem blockOf_blockBytes (b : Block) : blockOf (blockBytes b) = b := by
  simp [blockOf]

/-- The block of 16 bytes has these bytes. -/
theorem blockBytes_blockOf {s : Bytes} (h : s.length = 16) : blockBytes (blockOf s) = s := by
  have hlt := le_lt s
  rw [h] at hlt
  have hm : (blockOf s).toNat = le s := by
    simp only [blockOf, BitVec.toNat_ofNat]
    exact Nat.mod_eq_of_lt (by omega)
  have := toLe_le s
  rw [h] at this
  rw [blockBytes, hm, this]

/-! ### Exclusive or -/

theorem toLe_xor (m n w : Nat) : toLe (m ^^^ n) w = xorBytes (toLe m w) (toLe n w) := by
  induction w generalizing m n with
  | zero => rfl
  | succ w ih =>
    have h := Nat.shiftRight_xor_distrib (a := m) (b := n) (i := 8)
    simp only [Nat.shiftRight_eq_div_pow] at h
    have h : (m ^^^ n) / 256 = m / 256 ^^^ n / 256 := h
    simp only [toLe, xorBytes, List.zipWith_cons_cons, List.cons.injEq]
    refine ⟨?_, by rw [h, ih]; rfl⟩
    apply BitVec.eq_of_toNat_eq
    simp only [BitVec.toNat_ofNat, BitVec.toNat_xor]
    exact Nat.xor_mod_two_pow (n := 8)

/-- The exclusive or of blocks is bytewise (R13). -/
theorem blockBytes_xor (a b : Block) : blockBytes (a ^^^ b) = xorBytes (blockBytes a) (blockBytes b) := by
  simp only [blockBytes, BitVec.toNat_xor, toLe_xor]

@[simp] theorem length_xorBytes (s t : Bytes) : (xorBytes s t).length = min s.length t.length := by
  simp [xorBytes]

/-! ### The cipher (R9) -/

/-- R9 (b): decryption undoes encryption. -/
@[simp] theorem aesD_aesE (k : Bytes) (b : Block) : aesD k (aesE k b) = b := by simp [aesD, aesE]

/-- The other direction, since a bijection of a finite set has a two-sided inverse. -/
@[simp] theorem aesE_aesD (k : Bytes) (b : Block) : aesE k (aesD k b) = b := by simp [aesD, aesE]

/-- R9 (c): the concrete vector. -/
theorem aesE_zero : aesE (zeros 16) (blockOf (zeros 16)) = zeroVector := by
  have h : blockOf (zeros 16) = 0 := by decide
  simp [aesE, aes, h]

end Sys2Proof.Machine
end

