-- ==== Sys2Proof/Laws/State.lean ====
section
/-! SUPPORT. One lemma per field per named update of the state, true by rfl. -/

namespace Sys2Proof.Machine

/-! ### State -/


/-! `setEng` -/

@[simp] theorem State.setEng_before (s : State) (e : Engine) : (s.setEng e).before = s.before := rfl
@[simp] theorem State.setEng_eng (s : State) (e : Engine) : (s.setEng e).eng = e := rfl
@[simp] theorem State.setEng_after (s : State) (e : Engine) : (s.setEng e).after = s.after := rfl
@[simp] theorem State.setEng_mem (s : State) (e : Engine) : (s.setEng e).mem = s.mem := rfl
@[simp] theorem State.setEng_platform (s : State) (e : Engine) : (s.setEng e).platform = s.platform := rfl
@[simp] theorem State.setEng_turns (s : State) (e : Engine) : (s.setEng e).turns = s.turns := rfl
@[simp] theorem State.setEng_draws (s : State) (e : Engine) : (s.setEng e).draws = s.draws := rfl
@[simp] theorem State.setEng_races (s : State) (e : Engine) : (s.setEng e).races = s.races := rfl
@[simp] theorem State.setEng_seen (s : State) (e : Engine) : (s.setEng e).seen = s.seen := rfl

/-! `setWork` -/

@[simp] theorem State.setWork_before (s : State) (w : Work) : (s.setWork w).before = s.before := rfl
@[simp] theorem State.setWork_eng (s : State) (w : Work) : (s.setWork w).eng = { s.eng with work := w } := rfl
@[simp] theorem State.setWork_after (s : State) (w : Work) : (s.setWork w).after = s.after := rfl
@[simp] theorem State.setWork_mem (s : State) (w : Work) : (s.setWork w).mem = s.mem := rfl
@[simp] theorem State.setWork_platform (s : State) (w : Work) : (s.setWork w).platform = s.platform := rfl
@[simp] theorem State.setWork_turns (s : State) (w : Work) : (s.setWork w).turns = s.turns := rfl
@[simp] theorem State.setWork_draws (s : State) (w : Work) : (s.setWork w).draws = s.draws := rfl
@[simp] theorem State.setWork_races (s : State) (w : Work) : (s.setWork w).races = s.races := rfl
@[simp] theorem State.setWork_seen (s : State) (w : Work) : (s.setWork w).seen = s.seen := rfl

/-! `placeCommand` -/

@[simp] theorem State.placeCommand_before (s : State) (w : Word) : (s.placeCommand w).before = s.before := rfl
@[simp] theorem State.placeCommand_eng (s : State) (w : Word) : (s.placeCommand w).eng = s.eng.accept w := rfl
@[simp] theorem State.placeCommand_after (s : State) (w : Word) : (s.placeCommand w).after = s.after := rfl
@[simp] theorem State.placeCommand_mem (s : State) (w : Word) : (s.placeCommand w).mem = s.mem := rfl
@[simp] theorem State.placeCommand_platform (s : State) (w : Word) : (s.placeCommand w).platform = s.platform := rfl
@[simp] theorem State.placeCommand_turns (s : State) (w : Word) : (s.placeCommand w).turns = [] := rfl
@[simp] theorem State.placeCommand_draws (s : State) (w : Word) : (s.placeCommand w).draws = s.draws := rfl
@[simp] theorem State.placeCommand_races (s : State) (w : Word) :
    (s.placeCommand w).races =
      if (s.before ++ s.after).all (!·.busy) then [] else s.races.map (·.start s.before.length) := rfl
@[simp] theorem State.placeCommand_seen (s : State) (w : Word) : (s.placeCommand w).seen = s.seen := rfl

/-! ### Engine -/

/-! `accept` -/

@[simp] theorem Engine.accept_irqEn (e : Engine) (w : Word) : (e.accept w).irqEn = e.irqEn := rfl
@[simp] theorem Engine.accept_done (e : Engine) (w : Word) : (e.accept w).done = e.done := rfl
@[simp] theorem Engine.accept_err (e : Engine) (w : Word) : (e.accept w).err = e.err := rfl
@[simp] theorem Engine.accept_wrIgn (e : Engine) (w : Word) : (e.accept w).wrIgn = e.wrIgn := rfl
@[simp] theorem Engine.accept_errCode (e : Engine) (w : Word) : (e.accept w).errCode = e.errCode := rfl
@[simp] theorem Engine.accept_len (e : Engine) (w : Word) : (e.accept w).len = e.len := rfl
@[simp] theorem Engine.accept_src (e : Engine) (w : Word) : (e.accept w).src = e.src := rfl
@[simp] theorem Engine.accept_dst (e : Engine) (w : Word) : (e.accept w).dst = e.dst := rfl
@[simp] theorem Engine.accept_keylen (e : Engine) (w : Word) : (e.accept w).keylen = e.keylen := rfl
@[simp] theorem Engine.accept_result (e : Engine) (w : Word) : (e.accept w).result = e.result := rfl
@[simp] theorem Engine.accept_errAddr (e : Engine) (w : Word) : (e.accept w).errAddr = e.errAddr := rfl
@[simp] theorem Engine.accept_xctr (e : Engine) (w : Word) : (e.accept w).xctr = e.xctr := rfl
@[simp] theorem Engine.accept_iv (e : Engine) (w : Word) : (e.accept w).iv = e.iv := rfl
@[simp] theorem Engine.accept_key (e : Engine) (w : Word) : (e.accept w).key = e.key := rfl
@[simp] theorem Engine.accept_slot (e : Engine) (w : Word) : (e.accept w).slot = e.slot := rfl
@[simp] theorem Engine.accept_macActive (e : Engine) (w : Word) : (e.accept w).macActive = e.macActive := rfl
@[simp] theorem Engine.accept_macMode (e : Engine) (w : Word) : (e.accept w).macMode = e.macMode := rfl
@[simp] theorem Engine.accept_dg (e : Engine) (w : Word) : (e.accept w).dg = e.dg := rfl
@[simp] theorem Engine.accept_phase (e : Engine) (w : Word) : (e.accept w).phase = .check := rfl
@[simp] theorem Engine.accept_latch (e : Engine) (w : Word) : (e.accept w).latch = ⟨w, e.len, e.src, e.dst, e.iv, e.xctr, e.keylen, e.key⟩ := rfl
@[simp] theorem Engine.accept_work (e : Engine) (w : Word) : (e.accept w).work = { e.work with pos := 0 } := rfl
@[simp] theorem Engine.accept_srcMap (e : Engine) (w : Word) : (e.accept w).srcMap = [] := rfl
@[simp] theorem Engine.accept_dstMap (e : Engine) (w : Word) : (e.accept w).dstMap = [] := rfl
@[simp] theorem Engine.accept_descIndex (e : Engine) (w : Word) : (e.accept w).descIndex = 0 := rfl
@[simp] theorem Engine.accept_unitIn (e : Engine) (w : Word) : (e.accept w).unitIn = [] := rfl
@[simp] theorem Engine.accept_unitOut (e : Engine) (w : Word) : (e.accept w).unitOut = none := rfl

/-! `finish` -/

@[simp] theorem Engine.finish_irqEn (e : Engine) : (e.finish).irqEn = e.irqEn := rfl
@[simp] theorem Engine.finish_done (e : Engine) : (e.finish).done = true := rfl
@[simp] theorem Engine.finish_err (e : Engine) : (e.finish).err = e.err := rfl
@[simp] theorem Engine.finish_wrIgn (e : Engine) : (e.finish).wrIgn = e.wrIgn := rfl
@[simp] theorem Engine.finish_errCode (e : Engine) : (e.finish).errCode = e.errCode := rfl
@[simp] theorem Engine.finish_len (e : Engine) : (e.finish).len = e.len := rfl
@[simp] theorem Engine.finish_src (e : Engine) : (e.finish).src = e.src := rfl
@[simp] theorem Engine.finish_dst (e : Engine) : (e.finish).dst = e.dst := rfl
@[simp] theorem Engine.finish_keylen (e : Engine) : (e.finish).keylen = e.keylen := rfl
@[simp] theorem Engine.finish_result (e : Engine) : (e.finish).result = e.result := rfl
@[simp] theorem Engine.finish_errAddr (e : Engine) : (e.finish).errAddr = e.errAddr := rfl
@[simp] theorem Engine.finish_xctr (e : Engine) : (e.finish).xctr = e.xctr := rfl
@[simp] theorem Engine.finish_iv (e : Engine) : (e.finish).iv = e.iv := rfl
@[simp] theorem Engine.finish_key (e : Engine) : (e.finish).key = e.key := rfl
@[simp] theorem Engine.finish_slot (e : Engine) : (e.finish).slot = e.slot := rfl
@[simp] theorem Engine.finish_macActive (e : Engine) : (e.finish).macActive = e.macActive := rfl
@[simp] theorem Engine.finish_macMode (e : Engine) : (e.finish).macMode = e.macMode := rfl
@[simp] theorem Engine.finish_dg (e : Engine) : (e.finish).dg = e.dg := rfl
@[simp] theorem Engine.finish_phase (e : Engine) : (e.finish).phase = .idle := rfl
@[simp] theorem Engine.finish_latch (e : Engine) : (e.finish).latch = e.latch := rfl
@[simp] theorem Engine.finish_work (e : Engine) : (e.finish).work = e.work := rfl
@[simp] theorem Engine.finish_srcMap (e : Engine) : (e.finish).srcMap = [] := rfl
@[simp] theorem Engine.finish_dstMap (e : Engine) : (e.finish).dstMap = [] := rfl
@[simp] theorem Engine.finish_descIndex (e : Engine) : (e.finish).descIndex = 0 := rfl
@[simp] theorem Engine.finish_unitIn (e : Engine) : (e.finish).unitIn = [] := rfl
@[simp] theorem Engine.finish_unitOut (e : Engine) : (e.finish).unitOut = none := rfl

/-! `succeed` -/

@[simp] theorem Engine.succeed_irqEn (e : Engine) : (e.succeed).irqEn = e.irqEn := rfl
@[simp] theorem Engine.succeed_done (e : Engine) : (e.succeed).done = true := rfl
@[simp] theorem Engine.succeed_err (e : Engine) : (e.succeed).err = e.err := rfl
@[simp] theorem Engine.succeed_wrIgn (e : Engine) : (e.succeed).wrIgn = e.wrIgn := rfl
@[simp] theorem Engine.succeed_errCode (e : Engine) : (e.succeed).errCode = 0 := rfl
@[simp] theorem Engine.succeed_len (e : Engine) : (e.succeed).len = e.len := rfl
@[simp] theorem Engine.succeed_src (e : Engine) : (e.succeed).src = e.src := rfl
@[simp] theorem Engine.succeed_dst (e : Engine) : (e.succeed).dst = e.dst := rfl
@[simp] theorem Engine.succeed_keylen (e : Engine) : (e.succeed).keylen = e.keylen := rfl
@[simp] theorem Engine.succeed_result (e : Engine) : (e.succeed).result = e.result := rfl
@[simp] theorem Engine.succeed_errAddr (e : Engine) : (e.succeed).errAddr = e.errAddr := rfl
@[simp] theorem Engine.succeed_xctr (e : Engine) : (e.succeed).xctr = e.xctr := rfl
@[simp] theorem Engine.succeed_iv (e : Engine) : (e.succeed).iv = e.iv := rfl
@[simp] theorem Engine.succeed_key (e : Engine) : (e.succeed).key = e.key := rfl
@[simp] theorem Engine.succeed_slot (e : Engine) : (e.succeed).slot = e.slot := rfl
@[simp] theorem Engine.succeed_macActive (e : Engine) : (e.succeed).macActive = e.macActive := rfl
@[simp] theorem Engine.succeed_macMode (e : Engine) : (e.succeed).macMode = e.macMode := rfl
@[simp] theorem Engine.succeed_dg (e : Engine) : (e.succeed).dg = e.dg := rfl
@[simp] theorem Engine.succeed_phase (e : Engine) : (e.succeed).phase = .idle := rfl
@[simp] theorem Engine.succeed_latch (e : Engine) : (e.succeed).latch = e.latch := rfl
@[simp] theorem Engine.succeed_work (e : Engine) : (e.succeed).work = e.work := rfl
@[simp] theorem Engine.succeed_srcMap (e : Engine) : (e.succeed).srcMap = [] := rfl
@[simp] theorem Engine.succeed_dstMap (e : Engine) : (e.succeed).dstMap = [] := rfl
@[simp] theorem Engine.succeed_descIndex (e : Engine) : (e.succeed).descIndex = 0 := rfl
@[simp] theorem Engine.succeed_unitIn (e : Engine) : (e.succeed).unitIn = [] := rfl
@[simp] theorem Engine.succeed_unitOut (e : Engine) : (e.succeed).unitOut = none := rfl

/-! `fail` -/

@[simp] theorem Engine.fail_irqEn (e : Engine) (k : ErrorKind) (a : Addr) : (e.fail k a).irqEn = e.irqEn := rfl
@[simp] theorem Engine.fail_done (e : Engine) (k : ErrorKind) (a : Addr) : (e.fail k a).done = true := rfl
@[simp] theorem Engine.fail_err (e : Engine) (k : ErrorKind) (a : Addr) : (e.fail k a).err = true := rfl
@[simp] theorem Engine.fail_wrIgn (e : Engine) (k : ErrorKind) (a : Addr) : (e.fail k a).wrIgn = e.wrIgn := rfl
@[simp] theorem Engine.fail_errCode (e : Engine) (k : ErrorKind) (a : Addr) : (e.fail k a).errCode = k.code := rfl
@[simp] theorem Engine.fail_len (e : Engine) (k : ErrorKind) (a : Addr) : (e.fail k a).len = e.len := rfl
@[simp] theorem Engine.fail_src (e : Engine) (k : ErrorKind) (a : Addr) : (e.fail k a).src = e.src := rfl
@[simp] theorem Engine.fail_dst (e : Engine) (k : ErrorKind) (a : Addr) : (e.fail k a).dst = e.dst := rfl
@[simp] theorem Engine.fail_keylen (e : Engine) (k : ErrorKind) (a : Addr) : (e.fail k a).keylen = e.keylen := rfl
@[simp] theorem Engine.fail_result (e : Engine) (k : ErrorKind) (a : Addr) : (e.fail k a).result = e.result := rfl
@[simp] theorem Engine.fail_errAddr (e : Engine) (k : ErrorKind) (a : Addr) : (e.fail k a).errAddr = a := rfl
@[simp] theorem Engine.fail_xctr (e : Engine) (k : ErrorKind) (a : Addr) : (e.fail k a).xctr = e.xctr := rfl
@[simp] theorem Engine.fail_iv (e : Engine) (k : ErrorKind) (a : Addr) : (e.fail k a).iv = e.iv := rfl
@[simp] theorem Engine.fail_key (e : Engine) (k : ErrorKind) (a : Addr) : (e.fail k a).key = e.key := rfl
@[simp] theorem Engine.fail_slot (e : Engine) (k : ErrorKind) (a : Addr) : (e.fail k a).slot = e.slot := rfl
@[simp] theorem Engine.fail_macActive (e : Engine) (k : ErrorKind) (a : Addr) : (e.fail k a).macActive = e.macActive := rfl
@[simp] theorem Engine.fail_macMode (e : Engine) (k : ErrorKind) (a : Addr) : (e.fail k a).macMode = e.macMode := rfl
@[simp] theorem Engine.fail_dg (e : Engine) (k : ErrorKind) (a : Addr) : (e.fail k a).dg = e.dg := rfl
@[simp] theorem Engine.fail_phase (e : Engine) (k : ErrorKind) (a : Addr) : (e.fail k a).phase = .idle := rfl
@[simp] theorem Engine.fail_latch (e : Engine) (k : ErrorKind) (a : Addr) : (e.fail k a).latch = e.latch := rfl
@[simp] theorem Engine.fail_work (e : Engine) (k : ErrorKind) (a : Addr) : (e.fail k a).work = e.work := rfl
@[simp] theorem Engine.fail_srcMap (e : Engine) (k : ErrorKind) (a : Addr) : (e.fail k a).srcMap = [] := rfl
@[simp] theorem Engine.fail_dstMap (e : Engine) (k : ErrorKind) (a : Addr) : (e.fail k a).dstMap = [] := rfl
@[simp] theorem Engine.fail_descIndex (e : Engine) (k : ErrorKind) (a : Addr) : (e.fail k a).descIndex = 0 := rfl
@[simp] theorem Engine.fail_unitIn (e : Engine) (k : ErrorKind) (a : Addr) : (e.fail k a).unitIn = [] := rfl
@[simp] theorem Engine.fail_unitOut (e : Engine) (k : ErrorKind) (a : Addr) : (e.fail k a).unitOut = none := rfl

/-! `abortMac` -/

@[simp] theorem Engine.abortMac_irqEn (e : Engine) : (e.abortMac).irqEn = e.irqEn := rfl
@[simp] theorem Engine.abortMac_done (e : Engine) : (e.abortMac).done = e.done := rfl
@[simp] theorem Engine.abortMac_err (e : Engine) : (e.abortMac).err = e.err := rfl
@[simp] theorem Engine.abortMac_wrIgn (e : Engine) : (e.abortMac).wrIgn = e.wrIgn := rfl
@[simp] theorem Engine.abortMac_errCode (e : Engine) : (e.abortMac).errCode = e.errCode := rfl
@[simp] theorem Engine.abortMac_len (e : Engine) : (e.abortMac).len = e.len := rfl
@[simp] theorem Engine.abortMac_src (e : Engine) : (e.abortMac).src = e.src := rfl
@[simp] theorem Engine.abortMac_dst (e : Engine) : (e.abortMac).dst = e.dst := rfl
@[simp] theorem Engine.abortMac_keylen (e : Engine) : (e.abortMac).keylen = e.keylen := rfl
@[simp] theorem Engine.abortMac_result (e : Engine) : (e.abortMac).result = e.result := rfl
@[simp] theorem Engine.abortMac_errAddr (e : Engine) : (e.abortMac).errAddr = e.errAddr := rfl
@[simp] theorem Engine.abortMac_xctr (e : Engine) : (e.abortMac).xctr = e.xctr := rfl
@[simp] theorem Engine.abortMac_iv (e : Engine) : (e.abortMac).iv = e.iv := rfl
@[simp] theorem Engine.abortMac_key (e : Engine) : (e.abortMac).key = e.key := rfl
@[simp] theorem Engine.abortMac_slot (e : Engine) : (e.abortMac).slot = e.slot := rfl
@[simp] theorem Engine.abortMac_macActive (e : Engine) : (e.abortMac).macActive = false := rfl
@[simp] theorem Engine.abortMac_macMode (e : Engine) : (e.abortMac).macMode = e.macMode := rfl
@[simp] theorem Engine.abortMac_dg (e : Engine) : (e.abortMac).dg = 0 := rfl
@[simp] theorem Engine.abortMac_phase (e : Engine) : (e.abortMac).phase = e.phase := rfl
@[simp] theorem Engine.abortMac_latch (e : Engine) : (e.abortMac).latch = e.latch := rfl
@[simp] theorem Engine.abortMac_work (e : Engine) : (e.abortMac).work = e.work := rfl
@[simp] theorem Engine.abortMac_srcMap (e : Engine) : (e.abortMac).srcMap = e.srcMap := rfl
@[simp] theorem Engine.abortMac_dstMap (e : Engine) : (e.abortMac).dstMap = e.dstMap := rfl
@[simp] theorem Engine.abortMac_descIndex (e : Engine) : (e.abortMac).descIndex = e.descIndex := rfl
@[simp] theorem Engine.abortMac_unitIn (e : Engine) : (e.abortMac).unitIn = e.unitIn := rfl
@[simp] theorem Engine.abortMac_unitOut (e : Engine) : (e.abortMac).unitOut = e.unitOut := rfl

/-! `dropKey` -/

@[simp] theorem Engine.dropKey_irqEn (e : Engine) : (e.dropKey).irqEn = e.irqEn := rfl
@[simp] theorem Engine.dropKey_done (e : Engine) : (e.dropKey).done = e.done := rfl
@[simp] theorem Engine.dropKey_err (e : Engine) : (e.dropKey).err = e.err := rfl
@[simp] theorem Engine.dropKey_wrIgn (e : Engine) : (e.dropKey).wrIgn = e.wrIgn := rfl
@[simp] theorem Engine.dropKey_errCode (e : Engine) : (e.dropKey).errCode = e.errCode := rfl
@[simp] theorem Engine.dropKey_len (e : Engine) : (e.dropKey).len = e.len := rfl
@[simp] theorem Engine.dropKey_src (e : Engine) : (e.dropKey).src = e.src := rfl
@[simp] theorem Engine.dropKey_dst (e : Engine) : (e.dropKey).dst = e.dst := rfl
@[simp] theorem Engine.dropKey_keylen (e : Engine) : (e.dropKey).keylen = e.keylen := rfl
@[simp] theorem Engine.dropKey_result (e : Engine) : (e.dropKey).result = e.result := rfl
@[simp] theorem Engine.dropKey_errAddr (e : Engine) : (e.dropKey).errAddr = e.errAddr := rfl
@[simp] theorem Engine.dropKey_xctr (e : Engine) : (e.dropKey).xctr = e.xctr := rfl
@[simp] theorem Engine.dropKey_iv (e : Engine) : (e.dropKey).iv = e.iv := rfl
@[simp] theorem Engine.dropKey_key (e : Engine) : (e.dropKey).key = e.key := rfl
@[simp] theorem Engine.dropKey_slot (e : Engine) : (e.dropKey).slot = .empty := rfl
@[simp] theorem Engine.dropKey_macActive (e : Engine) : (e.dropKey).macActive = false := rfl
@[simp] theorem Engine.dropKey_macMode (e : Engine) : (e.dropKey).macMode = e.macMode := rfl
@[simp] theorem Engine.dropKey_dg (e : Engine) : (e.dropKey).dg = 0 := rfl
@[simp] theorem Engine.dropKey_phase (e : Engine) : (e.dropKey).phase = e.phase := rfl
@[simp] theorem Engine.dropKey_latch (e : Engine) : (e.dropKey).latch = e.latch := rfl
@[simp] theorem Engine.dropKey_work (e : Engine) : (e.dropKey).work = e.work := rfl
@[simp] theorem Engine.dropKey_srcMap (e : Engine) : (e.dropKey).srcMap = e.srcMap := rfl
@[simp] theorem Engine.dropKey_dstMap (e : Engine) : (e.dropKey).dstMap = e.dstMap := rfl
@[simp] theorem Engine.dropKey_descIndex (e : Engine) : (e.dropKey).descIndex = e.descIndex := rfl
@[simp] theorem Engine.dropKey_unitIn (e : Engine) : (e.dropKey).unitIn = e.unitIn := rfl
@[simp] theorem Engine.dropKey_unitOut (e : Engine) : (e.dropKey).unitOut = e.unitOut := rfl

/-! `advance` -/

@[simp] theorem Engine.advance_irqEn (e : Engine) (u : Nat) : (e.advance u).irqEn = e.irqEn := rfl
@[simp] theorem Engine.advance_done (e : Engine) (u : Nat) : (e.advance u).done = e.done := rfl
@[simp] theorem Engine.advance_err (e : Engine) (u : Nat) : (e.advance u).err = e.err := rfl
@[simp] theorem Engine.advance_wrIgn (e : Engine) (u : Nat) : (e.advance u).wrIgn = e.wrIgn := rfl
@[simp] theorem Engine.advance_errCode (e : Engine) (u : Nat) : (e.advance u).errCode = e.errCode := rfl
@[simp] theorem Engine.advance_len (e : Engine) (u : Nat) : (e.advance u).len = e.len := rfl
@[simp] theorem Engine.advance_src (e : Engine) (u : Nat) : (e.advance u).src = e.src := rfl
@[simp] theorem Engine.advance_dst (e : Engine) (u : Nat) : (e.advance u).dst = e.dst := rfl
@[simp] theorem Engine.advance_keylen (e : Engine) (u : Nat) : (e.advance u).keylen = e.keylen := rfl
@[simp] theorem Engine.advance_result (e : Engine) (u : Nat) : (e.advance u).result = e.result := rfl
@[simp] theorem Engine.advance_errAddr (e : Engine) (u : Nat) : (e.advance u).errAddr = e.errAddr := rfl
@[simp] theorem Engine.advance_xctr (e : Engine) (u : Nat) : (e.advance u).xctr = e.xctr := rfl
@[simp] theorem Engine.advance_iv (e : Engine) (u : Nat) : (e.advance u).iv = e.iv := rfl
@[simp] theorem Engine.advance_key (e : Engine) (u : Nat) : (e.advance u).key = e.key := rfl
@[simp] theorem Engine.advance_slot (e : Engine) (u : Nat) : (e.advance u).slot = e.slot := rfl
@[simp] theorem Engine.advance_macActive (e : Engine) (u : Nat) : (e.advance u).macActive = e.macActive := rfl
@[simp] theorem Engine.advance_macMode (e : Engine) (u : Nat) : (e.advance u).macMode = e.macMode := rfl
@[simp] theorem Engine.advance_dg (e : Engine) (u : Nat) : (e.advance u).dg = e.dg := rfl
@[simp] theorem Engine.advance_phase (e : Engine) (u : Nat) : (e.advance u).phase = e.phase := rfl
@[simp] theorem Engine.advance_latch (e : Engine) (u : Nat) : (e.advance u).latch = e.latch := rfl
@[simp] theorem Engine.advance_work (e : Engine) (u : Nat) : (e.advance u).work = { e.work with pos := e.work.pos + u } := rfl
@[simp] theorem Engine.advance_srcMap (e : Engine) (u : Nat) : (e.advance u).srcMap = e.srcMap := rfl
@[simp] theorem Engine.advance_dstMap (e : Engine) (u : Nat) : (e.advance u).dstMap = e.dstMap := rfl
@[simp] theorem Engine.advance_descIndex (e : Engine) (u : Nat) : (e.advance u).descIndex = e.descIndex := rfl
@[simp] theorem Engine.advance_unitIn (e : Engine) (u : Nat) : (e.advance u).unitIn = [] := rfl
@[simp] theorem Engine.advance_unitOut (e : Engine) (u : Nat) : (e.advance u).unitOut = none := rfl

/-! `clearStatus` -/

@[simp] theorem Engine.clearStatus_irqEn (e : Engine) (v : Word) : (e.clearStatus v).irqEn = e.irqEn := rfl
@[simp] theorem Engine.clearStatus_done (e : Engine) (v : Word) : (e.clearStatus v).done = (e.done && !v.getLsbD 1) := rfl
@[simp] theorem Engine.clearStatus_err (e : Engine) (v : Word) : (e.clearStatus v).err = (e.err && !v.getLsbD 2) := rfl
@[simp] theorem Engine.clearStatus_wrIgn (e : Engine) (v : Word) : (e.clearStatus v).wrIgn = (e.wrIgn && !v.getLsbD 3) := rfl
@[simp] theorem Engine.clearStatus_errCode (e : Engine) (v : Word) : (e.clearStatus v).errCode = e.errCode := rfl
@[simp] theorem Engine.clearStatus_len (e : Engine) (v : Word) : (e.clearStatus v).len = e.len := rfl
@[simp] theorem Engine.clearStatus_src (e : Engine) (v : Word) : (e.clearStatus v).src = e.src := rfl
@[simp] theorem Engine.clearStatus_dst (e : Engine) (v : Word) : (e.clearStatus v).dst = e.dst := rfl
@[simp] theorem Engine.clearStatus_keylen (e : Engine) (v : Word) : (e.clearStatus v).keylen = e.keylen := rfl
@[simp] theorem Engine.clearStatus_result (e : Engine) (v : Word) : (e.clearStatus v).result = e.result := rfl
@[simp] theorem Engine.clearStatus_errAddr (e : Engine) (v : Word) : (e.clearStatus v).errAddr = e.errAddr := rfl
@[simp] theorem Engine.clearStatus_xctr (e : Engine) (v : Word) : (e.clearStatus v).xctr = e.xctr := rfl
@[simp] theorem Engine.clearStatus_iv (e : Engine) (v : Word) : (e.clearStatus v).iv = e.iv := rfl
@[simp] theorem Engine.clearStatus_key (e : Engine) (v : Word) : (e.clearStatus v).key = e.key := rfl
@[simp] theorem Engine.clearStatus_slot (e : Engine) (v : Word) : (e.clearStatus v).slot = e.slot := rfl
@[simp] theorem Engine.clearStatus_macActive (e : Engine) (v : Word) : (e.clearStatus v).macActive = e.macActive := rfl
@[simp] theorem Engine.clearStatus_macMode (e : Engine) (v : Word) : (e.clearStatus v).macMode = e.macMode := rfl
@[simp] theorem Engine.clearStatus_dg (e : Engine) (v : Word) : (e.clearStatus v).dg = e.dg := rfl
@[simp] theorem Engine.clearStatus_phase (e : Engine) (v : Word) : (e.clearStatus v).phase = e.phase := rfl
@[simp] theorem Engine.clearStatus_latch (e : Engine) (v : Word) : (e.clearStatus v).latch = e.latch := rfl
@[simp] theorem Engine.clearStatus_work (e : Engine) (v : Word) : (e.clearStatus v).work = e.work := rfl
@[simp] theorem Engine.clearStatus_srcMap (e : Engine) (v : Word) : (e.clearStatus v).srcMap = e.srcMap := rfl
@[simp] theorem Engine.clearStatus_dstMap (e : Engine) (v : Word) : (e.clearStatus v).dstMap = e.dstMap := rfl
@[simp] theorem Engine.clearStatus_descIndex (e : Engine) (v : Word) : (e.clearStatus v).descIndex = e.descIndex := rfl
@[simp] theorem Engine.clearStatus_unitIn (e : Engine) (v : Word) : (e.clearStatus v).unitIn = e.unitIn := rfl
@[simp] theorem Engine.clearStatus_unitOut (e : Engine) (v : Word) : (e.clearStatus v).unitOut = e.unitOut := rfl

/-! ### Runs -/

@[simp] theorem Run.andThen_going (s : State) (f : State → Run) : (Run.going s).andThen f = f s := rfl
@[simp] theorem Run.andThen_raised (k : ErrorKind) (a : Addr) (s : State) (f : State → Run) :
    (Run.raised k a s).andThen f = .raised k a s := rfl

/-- A sequence of two parts goes on exactly when both do. -/
theorem Run.andThen_eq_going {r : Run} {f : State → Run} {t : State} :
    r.andThen f = .going t ↔ ∃ s, r = .going s ∧ f s = .going t := by
  cases r <;> simp

end Sys2Proof.Machine
end

