-- ==== Sys2Proof/Laws/Memory.lean ====
section
/-! SUPPORT. Laws of host memory: a read after a write, the canonical form, byte strings, and what the DMA
accesses answer (00_scope.md R15; 20_memory.md R60, R61, R72). -/

namespace Sys2Proof.Machine

/-! ### One byte -/

theorem Memory.read_erase (m : Memory) (a b : Nat) :
    (m.erase a).read b = if b = a then Memory.blank else m.read b := by
  induction m with
  | nil => simp [Memory.erase, Memory.read]
  | cons c m ih =>
    obtain ⟨x, w⟩ := c
    simp only [Memory.erase] at ih
    by_cases hx : x = a
    · subst hx
      simp only [Memory.erase, List.filter_cons, bne_self_eq_false, Bool.false_eq_true, if_false, ih,
        Memory.read]
      split <;> simp_all
    · simp only [Memory.erase, List.filter_cons, bne_iff_ne, ne_eq, hx, not_false_eq_true, if_true,
        Memory.read, ih]
      split <;> split <;> simp_all

theorem Memory.read_insert (m : Memory) (a b : Nat) (v : Byte) (h : ∀ c ∈ m, c.1 ≠ a) :
    (m.insert a v).read b = if b = a then v else m.read b := by
  induction m with
  | nil => simp [Memory.insert, Memory.read]
  | cons c m ih =>
    obtain ⟨x, w⟩ := c
    have hx : x ≠ a := h (x, w) (by simp)
    have ih := ih fun c hc => h c (by simp [hc])
    simp only [Memory.insert]
    split
    · simp [Memory.read]
    · simp only [Memory.read, ih]
      split <;> split <;> simp_all

/-- A read after a write: the written byte at its address, what was there everywhere else. -/
@[simp] theorem Memory.read_set (m : Memory) (a b : Nat) (v : Byte) :
    (m.set a v).read b = if b = a then v else m.read b := by
  unfold Memory.set
  split
  · rename_i h; subst h; exact m.read_erase a b
  · rw [Memory.read_insert _ _ _ _ (by simp [Memory.erase]), Memory.read_erase]
    split <;> rfl

/-! ### The canonical form -/

theorem Memory.wfFrom_mono {lo hi : Nat} (h : lo ≤ hi) {m : Memory} (w : Memory.wfFrom hi m = true) :
    Memory.wfFrom lo m = true := by
  cases m with
  | nil => rfl
  | cons c m =>
    obtain ⟨x, v⟩ := c
    simp only [Memory.wfFrom, Bool.and_eq_true, decide_eq_true_eq] at *
    exact ⟨⟨⟨by omega, w.1.1.2⟩, w.1.2⟩, w.2⟩

theorem Memory.wfFrom_erase {lo : Nat} {m : Memory} (a : Nat) (w : Memory.wfFrom lo m = true) :
    Memory.wfFrom lo (m.erase a) = true := by
  induction m generalizing lo with
  | nil => rfl
  | cons c m ih =>
    obtain ⟨x, v⟩ := c
    simp only [Memory.wfFrom, Bool.and_eq_true, decide_eq_true_eq] at w
    simp only [Memory.erase, List.filter_cons]
    split
    · simp only [Memory.wfFrom, Bool.and_eq_true, decide_eq_true_eq]
      exact ⟨w.1, ih w.2⟩
    · exact Memory.wfFrom_mono (by omega) (ih w.2)

theorem Memory.wfFrom_insert {lo : Nat} {m : Memory} {a : Nat} {v : Byte} (hlo : lo ≤ a) (ha : a < 2 ^ 64)
    (hv : v ≠ Memory.blank) (hm : ∀ c ∈ m, c.1 ≠ a) (w : Memory.wfFrom lo m = true) :
    Memory.wfFrom lo (m.insert a v) = true := by
  induction m generalizing lo with
  | nil => simp [Memory.insert, Memory.wfFrom, hlo, hv]; omega
  | cons c m ih =>
    obtain ⟨x, y⟩ := c
    have hx : x ≠ a := hm (x, y) (by simp)
    simp only [Memory.wfFrom, Bool.and_eq_true, decide_eq_true_eq, bne_iff_ne, ne_eq] at w
    simp only [Memory.insert]
    split
    · simp only [Memory.wfFrom, Bool.and_eq_true, decide_eq_true_eq, bne_iff_ne, ne_eq]
      exact ⟨⟨⟨hlo, ha⟩, hv⟩, ⟨⟨by omega, w.1.1.2⟩, w.1.2⟩, w.2⟩
    · simp only [Memory.wfFrom, Bool.and_eq_true, decide_eq_true_eq, bne_iff_ne, ne_eq]
      exact ⟨w.1, ih (by omega) (fun c hc => hm c (by simp [hc])) w.2⟩

/-- A write below 2^64 keeps the canonical form. -/
theorem Memory.wf_set {m : Memory} {a : Nat} {v : Byte} (ha : a < 2 ^ 64) (w : m.wf = true) :
    (m.set a v).wf = true := by
  unfold Memory.set
  split
  · exact Memory.wfFrom_erase a w
  · rename_i hv
    exact Memory.wfFrom_insert (Nat.zero_le a) ha hv (by simp [Memory.erase]) (Memory.wfFrom_erase a w)

/-- Memory at reset is in canonical form. -/
theorem Memory.wf_reset : State.reset.mem.wf = true := rfl

/-! ### Byte strings -/

/-- A read after a byte string is written at `a`. -/
theorem Memory.read_writeBytes (m : Memory) (a b : Nat) (s : Bytes) :
    (m.writeBytes a s).read b = if a ≤ b ∧ b < a + s.length then s.getD (b - a) 0 else m.read b := by
  induction s generalizing m a with
  | nil =>
    simp only [Memory.writeBytes, List.length_nil]
    rw [if_neg (by omega)]
  | cons v s ih =>
    simp only [Memory.writeBytes, ih, Memory.read_set, List.length_cons]
    by_cases h1 : a + 1 ≤ b ∧ b < a + 1 + s.length
    · have : b - a = (b - (a + 1)) + 1 := by omega
      rw [if_pos h1, if_pos (by omega), this, List.getD_cons_succ]
    · rw [if_neg h1]
      by_cases h2 : b = a
      · subst h2; simp
      · rw [if_neg h2, if_neg (by omega)]

theorem Memory.wf_writeBytes {m : Memory} {a : Nat} {s : Bytes} (h : a + s.length ≤ 2 ^ 64)
    (w : m.wf = true) : (m.writeBytes a s).wf = true := by
  induction s generalizing m a with
  | nil => exact w
  | cons v s ih =>
    simp only [List.length_cons] at h
    exact ih (by omega) (Memory.wf_set (by omega) w)

@[simp] theorem Memory.length_readBytes (m : Memory) (a n : Nat) : (m.readBytes a n).length = n := by
  induction n generalizing a with
  | zero => rfl
  | succ n ih => simp [Memory.readBytes, ih]

/-- Byte `i` of a string read at `a` is the byte at `a + i`. -/
theorem Memory.getElem_readBytes (m : Memory) (a n i : Nat) (h : i < (m.readBytes a n).length) :
    (m.readBytes a n)[i] = m.read (a + i) := by
  induction n generalizing a i with
  | zero => simp at h
  | succ n ih =>
    cases i with
    | zero => rfl
    | succ i =>
      simp only [Memory.readBytes, List.getElem_cons_succ]
      rw [ih]
      congr 1
      omega

theorem Memory.readBytes_eq_map (m : Memory) (a n : Nat) :
    m.readBytes a n = (List.range n).map fun i => m.read (a + i) := by
  apply List.ext_getElem
  · simp
  · intro i h _
    rw [Memory.getElem_readBytes]
    simp

/-! ### DMA accesses -/

/-- `MemRead` answers the bytes of an access that is performed, and its first address otherwise. -/
theorem State.memRead_eq (s : State) (a n : Nat) :
    s.memRead a n = if s.accessOk a n .read then .ok (s.mem.readBytes a n) else .error (refusedAddr a) := rfl

theorem State.memRead_ok {s : State} {a n : Nat} {b : Bytes} (h : s.memRead a n = .ok b) :
    s.accessOk a n .read = true ∧ b = s.mem.readBytes a n := by
  unfold State.memRead at h
  split at h
  · rename_i hk; exact ⟨hk, by simpa using h.symm⟩
  · cases h

/-- `MemWrite`, performed: only memory changes, by the bytes written. -/
theorem State.memWrite_ok {s t : State} {a : Nat} {v : Bytes} (h : s.memWrite a v = .ok t) :
    s.accessOk a v.length .write = true ∧ t = { s with mem := s.mem.writeBytes a v } := by
  unfold State.memWrite at h
  split at h
  · rename_i hk; exact ⟨hk, by simpa using h.symm⟩
  · cases h

theorem State.accessOk_le {s : State} {a n : Nat} {k : Access} (h : s.accessOk a n k = true) :
    a + n ≤ 2 ^ 64 := by
  simp only [State.accessOk, Bool.and_eq_true, decide_eq_true_eq] at h
  exact h.2

theorem State.memWrite_wf {s t : State} {a : Nat} {v : Bytes} (h : s.memWrite a v = .ok t)
    (w : s.mem.wf = true) : t.mem.wf = true := by
  obtain ⟨hk, rfl⟩ := State.memWrite_ok h
  exact Memory.wf_writeBytes (State.accessOk_le hk) w

end Sys2Proof.Machine
end

