-- ==== Sys2Proof/Laws/Streams.lean ====
section
/-! SUPPORT. Laws of the logical streams: what `StreamRead` and `StreamWrite` answer when every access is
performed, what they can change in any case, and what `BuildMap` answers (20_memory.md R62–R67). -/

namespace Sys2Proof.Machine

/-! ### Accesses depend on the platform only -/

theorem State.accessOk_congr {s t : State} (h : s.platform = t.platform) (a n : Nat) (k : Access) :
    s.accessOk a n k = t.accessOk a n k := by
  simp [State.accessOk, State.memOk, h]

theorem State.admits_congr {s t : State} (h : s.platform = t.platform) {m : List Segment} {k : Access}
    (w : s.admits m k) : t.admits m k := by
  intro seg hs o n hn hl
  rw [← State.accessOk_congr h]
  exact w seg hs o n hn hl

theorem State.admits_tail {s : State} {seg : Segment} {m : List Segment} {k : Access}
    (w : s.admits (seg :: m) k) : s.admits m k :=
  fun x hx => w x (List.mem_cons_of_mem _ hx)

/-! ### Addresses of a stream -/

theorem mapAddr_cons_lt {seg : Segment} {m : List Segment} {i : Nat} (h : i < seg.len) :
    mapAddr (seg :: m) i = seg.addr + i := by
  simp [mapAddr, addrAt, h]

theorem mapAddr_cons_ge {seg : Segment} {m : List Segment} {i : Nat} (h : seg.len ≤ i) :
    mapAddr (seg :: m) i = mapAddr m (i - seg.len) := by
  simp [mapAddr, addrAt, Nat.not_lt.mpr h]

/-- A flat buffer's byte `i` is at its base plus `i` (R62). -/
theorem mapAddr_flat {a n i : Nat} (h : i < n) : mapAddr [⟨a, n⟩] i = a + i := mapAddr_cons_lt h

@[simp] theorem length_streamBytes (mem : Memory) (m : List Segment) (off n : Nat) :
    (streamBytes mem m off n).length = n := by
  simp [streamBytes]

theorem streamBytes_succ (mem : Memory) (m : List Segment) (off n : Nat) :
    streamBytes mem m off (n + 1) = mem.read (mapAddr m off) :: streamBytes mem m (off + 1) n := by
  simp only [streamBytes, List.range_succ_eq_map, List.map_cons, List.map_map, Nat.add_zero, List.cons.injEq,
    true_and]
  apply List.map_congr_left
  intro j _
  simp only [Function.comp_apply]
  congr 2
  omega

theorem streamBytes_add (mem : Memory) (m : List Segment) (off a b : Nat) :
    streamBytes mem m off (a + b) = streamBytes mem m off a ++ streamBytes mem m (off + a) b := by
  induction a generalizing off with
  | zero => simp [streamBytes]
  | succ a ih =>
    rw [show a + 1 + b = (a + b) + 1 by omega, streamBytes_succ, streamBytes_succ, ih]
    simp only [List.cons_append, List.cons.injEq, true_and]
    congr 2
    omega

/-- Byte `j` of a range read is the byte at the address of its offset. -/
theorem getElem_streamBytes (mem : Memory) (m : List Segment) (off n j : Nat)
    (h : j < (streamBytes mem m off n).length) :
    (streamBytes mem m off n)[j] = mem.read (mapAddr m (off + j)) := by
  simp [streamBytes]

/-- Two memories that agree at the addresses of a range agree on its bytes. -/
theorem streamBytes_congr {mem mem' : Memory} {m : List Segment} {off n : Nat}
    (h : ∀ j, j < n → mem.read (mapAddr m (off + j)) = mem'.read (mapAddr m (off + j))) :
    streamBytes mem m off n = streamBytes mem' m off n := by
  apply List.map_congr_left
  intro j hj
  exact h j (List.mem_range.mp hj)

theorem streamBytes_cons_ge (mem : Memory) {seg : Segment} {m : List Segment} {off n : Nat}
    (h : seg.len ≤ off) : streamBytes mem (seg :: m) off n = streamBytes mem m (off - seg.len) n := by
  apply List.map_congr_left
  intro j _
  rw [mapAddr_cons_ge (by omega)]
  congr 2
  omega

theorem streamBytes_cons_lt (mem : Memory) {seg : Segment} {m : List Segment} {off n : Nat}
    (h : off + n ≤ seg.len) : streamBytes mem (seg :: m) off n = mem.readBytes (seg.addr + off) n := by
  rw [Memory.readBytes_eq_map]
  apply List.map_congr_left
  intro j hj
  have := List.mem_range.mp hj
  rw [mapAddr_cons_lt (by omega)]
  congr 1
  omega

/-! ### Stores to a stream -/

theorem streamStore_append (mem : Memory) (m : List Segment) (off : Nat) (v w : Bytes) :
    streamStore mem m off (v ++ w) = streamStore (streamStore mem m off v) m (off + v.length) w := by
  induction v generalizing mem off with
  | nil => rfl
  | cons x v ih =>
    simp only [List.cons_append, streamStore, ih, List.length_cons]
    congr 1
    omega

theorem streamStore_cons_ge (mem : Memory) {seg : Segment} {m : List Segment} {off : Nat} (v : Bytes)
    (h : seg.len ≤ off) : streamStore mem (seg :: m) off v = streamStore mem m (off - seg.len) v := by
  induction v generalizing mem off with
  | nil => rfl
  | cons x v ih =>
    simp only [streamStore]
    rw [ih _ (by omega), mapAddr_cons_ge h]
    congr 1
    omega

theorem streamStore_cons_lt (mem : Memory) {seg : Segment} {m : List Segment} {off : Nat} {v : Bytes}
    (h : off + v.length ≤ seg.len) :
    streamStore mem (seg :: m) off v = mem.writeBytes (seg.addr + off) v := by
  induction v generalizing mem off with
  | nil => rfl
  | cons x v ih =>
    simp only [List.length_cons] at h
    simp only [streamStore, Memory.writeBytes]
    rw [ih _ (by omega), mapAddr_cons_lt (by omega)]
    congr 1

/-- An address no written offset has reads as before. -/
theorem read_streamStore_other {mem : Memory} {m : List Segment} {off : Nat} {v : Bytes} {a : Nat}
    (h : ∀ j, j < v.length → mapAddr m (off + j) ≠ a) : (streamStore mem m off v).read a = mem.read a := by
  induction v generalizing mem off with
  | nil => rfl
  | cons x v ih =>
    simp only [List.length_cons] at h
    rw [streamStore, ih (fun j hj => by have := h (j + 1) (by omega); rwa [← Nat.add_assoc, Nat.add_right_comm] at this),
      Memory.read_set, if_neg]
    exact fun e => h 0 (by omega) e.symm

/-- Where no address is used for two written offsets, offset `off + j` reads as byte `j` written. -/
theorem read_streamStore_at {mem : Memory} {m : List Segment} {off : Nat} {v : Bytes}
    (h : ∀ i j, i < v.length → j < v.length → mapAddr m (off + i) = mapAddr m (off + j) → i = j)
    {j : Nat} (hj : j < v.length) : (streamStore mem m off v).read (mapAddr m (off + j)) = v[j] := by
  induction v generalizing mem off j with
  | nil => simp at hj
  | cons x v ih =>
    simp only [List.length_cons] at h hj
    cases j with
    | zero =>
      rw [streamStore, read_streamStore_other]
      · simp
      · intro i hi e
        have := h (i + 1) 0 (by omega) (by omega) (by rw [← e]; congr 1; omega)
        omega
    | succ j =>
      rw [streamStore, show off + (j + 1) = off + 1 + j by omega]
      rw [ih _ (by omega)]
      · rfl
      · intro i k hi hk e
        have := h (i + 1) (k + 1) (by omega) (by omega)
          (by rw [show off + (i + 1) = off + 1 + i by omega, e]; congr 1; omega)
        omega

/-- Where no address is used for two written offsets, the range reads back as written. -/
theorem streamBytes_streamStore {mem : Memory} {m : List Segment} {off : Nat} {v : Bytes}
    (h : ∀ i j, i < v.length → j < v.length → mapAddr m (off + i) = mapAddr m (off + j) → i = j) :
    streamBytes (streamStore mem m off v) m off v.length = v := by
  apply List.ext_getElem
  · simp
  · intro j hj hj'
    rw [getElem_streamBytes, read_streamStore_at h hj']

/-! ### `StreamRead` and `StreamWrite`, every access performed -/

/-- `StreamRead` answers the bytes of the range. -/
theorem State.streamRead_eq {s : State} {m : List Segment} {off n : Nat} (w : s.admits m .read)
    (h : off + n ≤ mapLen m) : s.streamRead m off n = .ok (streamBytes s.mem m off n) := by
  induction m generalizing off n with
  | nil =>
    simp only [mapLen] at h
    have : n = 0 := by omega
    subst this
    simp [State.streamRead, pieces, State.readPieces, streamBytes]
  | cons seg m ih =>
    simp only [mapLen] at h
    by_cases h0 : n = 0
    · subst h0
      simp [State.streamRead, pieces, State.readPieces, streamBytes]
    by_cases hs : seg.len ≤ off
    · have := @ih (off - seg.len) n (State.admits_tail w) (by omega)
      rw [streamBytes_cons_ge _ hs, ← this]
      simp [State.streamRead, pieces, h0, hs]
    · have hm : min n (seg.len - off) = n ∨ min n (seg.len - off) = seg.len - off := by omega
      set k := min n (seg.len - off) with hk
      have hk0 : 0 < k := by omega
      have hacc : s.accessOk (seg.addr + off) k .read = true := w seg (by simp) off k hk0 (by omega)
      have := @ih 0 (n - k) (State.admits_tail w) (by omega)
      simp only [State.streamRead] at this
      simp only [State.streamRead, pieces, h0, hs, if_false, ← hk, State.readPieces, State.memRead, hacc, if_true,
        this]
      conv_rhs => rw [show n = k + (n - k) by omega, streamBytes_add]
      rw [streamBytes_cons_lt _ (by omega)]
      congr 2
      rcases hm with hm | hm
      · simp [show n - k = 0 by omega, streamBytes]
      · rw [streamBytes_cons_ge _ (by omega)]
        congr 1
        omega

/-- `StreamWrite` stores the bytes at the addresses of their offsets and changes nothing else. -/
theorem State.streamWrite_eq {s : State} {m : List Segment} {off : Nat} {v : Bytes} (w : s.admits m .write)
    (h : off + v.length ≤ mapLen m) :
    s.streamWrite m off v = .going { s with mem := streamStore s.mem m off v } := by
  induction m generalizing s off v with
  | nil =>
    simp only [mapLen] at h
    have : v = [] := List.length_eq_zero_iff.mp (by omega)
    subst this
    simp [State.streamWrite, pieces, State.writePieces, streamStore]
  | cons seg m ih =>
    simp only [mapLen] at h
    by_cases h0 : v.length = 0
    · have := List.length_eq_zero_iff.mp h0
      subst this
      simp [State.streamWrite, pieces, State.writePieces, streamStore]
    by_cases hs : seg.len ≤ off
    · have := @ih s (off - seg.len) v (State.admits_tail w) (by omega)
      rw [streamStore_cons_ge _ _ hs, ← this]
      simp [State.streamWrite, pieces, h0, hs]
    · set k := min v.length (seg.len - off) with hk
      have hk0 : 0 < k := by omega
      have hlen : (v.take k).length = k := by simp; omega
      have hacc : s.accessOk (seg.addr + off) k .write = true := w seg (by simp) off k hk0 (by omega)
      have := @ih { s with mem := s.mem.writeBytes (seg.addr + off) (v.take k) } 0 (v.drop k)
        (State.admits_congr (s := s) rfl (State.admits_tail w)) (by simp; omega)
      simp only [State.streamWrite, List.length_drop] at this
      simp only [State.streamWrite, pieces, h0, hs, if_false, ← hk, State.writePieces, State.memWrite, hlen, hacc,
        if_true, this]
      have hfirst : streamStore s.mem (seg :: m) off (v.take k) = s.mem.writeBytes (seg.addr + off) (v.take k) :=
        streamStore_cons_lt _ (by omega)
      have hall : streamStore s.mem (seg :: m) off v =
          streamStore (streamStore s.mem (seg :: m) off (v.take k)) (seg :: m) (off + k) (v.drop k) := by
        conv_lhs => rw [← List.take_append_drop k v, streamStore_append, hlen]
      rw [hall, hfirst]
      by_cases hd : v.drop k = []
      · simp [hd, streamStore]
      · have : v.length - k ≠ 0 := fun e => hd (List.length_eq_zero_iff.mp (by simpa using e))
        rw [streamStore_cons_ge _ _ (by omega), show off + k - seg.len = 0 by omega]

/-! ### What a stream write can change, whether or not it is performed -/

/-- The state a part of a command answers with. -/
def Run.state : Run → State
  | .going s => s
  | .raised _ _ s => s

@[simp] theorem Run.state_going (s : State) : (Run.going s).state = s := rfl
@[simp] theorem Run.state_raised (k : ErrorKind) (a : Addr) (s : State) : (Run.raised k a s).state = s := rfl

/-- A stream write changes memory only, and keeps its canonical form. -/
theorem State.writePieces_state (s : State) (ps : List (Nat × Nat)) (v : Bytes) :
    ∃ mem, (s.writePieces ps v).state = { s with mem := mem } ∧ (s.mem.wf = true → mem.wf = true) := by
  induction ps generalizing s v with
  | nil => exact ⟨s.mem, rfl, id⟩
  | cons p ps ih =>
    obtain ⟨a, n⟩ := p
    simp only [State.writePieces]
    cases hw : s.memWrite a (v.take n) with
    | error e => exact ⟨s.mem, rfl, id⟩
    | ok t =>
      obtain ⟨mem, h1, h2⟩ := ih t (v.drop n)
      have ht := State.memWrite_wf hw
      obtain ⟨_, rfl⟩ := State.memWrite_ok hw
      exact ⟨mem, h1, fun w => h2 (ht w)⟩

theorem State.streamWrite_state (s : State) (m : List Segment) (off : Nat) (v : Bytes) :
    ∃ mem, (s.streamWrite m off v).state = { s with mem := mem } ∧ (s.mem.wf = true → mem.wf = true) :=
  s.writePieces_state _ _

/-- Every byte of a piece of a range is at an offset of the range and of the map. -/
theorem pieces_mem {m : List Segment} {off n a k : Nat} (h : (a, k) ∈ pieces m off n) :
    ∀ b, a ≤ b → b < a + k → ∃ i, off ≤ i ∧ i < off + n ∧ i < mapLen m ∧ mapAddr m i = b := by
  induction m generalizing off n with
  | nil => simp [pieces] at h
  | cons seg m ih =>
    intro b h1 h2
    simp only [pieces] at h
    simp only [mapLen]
    split at h
    · simp at h
    rename_i hn
    split at h
    · rename_i hs
      obtain ⟨i, hi1, hi2, hi3, hi4⟩ := ih h b h1 h2
      refine ⟨i + seg.len, by omega, by omega, by omega, ?_⟩
      rw [mapAddr_cons_ge (by omega), Nat.add_sub_cancel]
      exact hi4
    · rename_i hs
      rcases List.mem_cons.mp h with he | he
      · obtain ⟨rfl, rfl⟩ := Prod.mk.inj he
        refine ⟨b - seg.addr, by omega, by omega, by omega, ?_⟩
        rw [mapAddr_cons_lt (by omega)]
        omega
      · obtain ⟨i, hi1, hi2, hi3, hi4⟩ := ih he b h1 h2
        refine ⟨i + seg.len, by omega, by omega, by omega, ?_⟩
        rw [mapAddr_cons_ge (by omega), Nat.add_sub_cancel]
        exact hi4

/-- A write of pieces leaves every address outside them as it was. -/
theorem State.writePieces_other (s : State) (ps : List (Nat × Nat)) (v : Bytes) (b : Nat)
    (h : ∀ a k, (a, k) ∈ ps → ¬ (a ≤ b ∧ b < a + k)) :
    (s.writePieces ps v).state.mem.read b = s.mem.read b := by
  induction ps generalizing s v with
  | nil => rfl
  | cons p ps ih =>
    obtain ⟨a, n⟩ := p
    simp only [State.writePieces]
    cases hw : s.memWrite a (v.take n) with
    | error e => rfl
    | ok t =>
      obtain ⟨_, rfl⟩ := State.memWrite_ok hw
      rw [ih _ _ (fun a' k hm => h a' k (List.mem_cons_of_mem _ hm)), Memory.read_writeBytes, if_neg]
      have := h a n (by simp)
      simp only [List.length_take]
      omega

/-- A stream write, performed or not, leaves every address outside the range as it was. -/
theorem State.streamWrite_other (s : State) (m : List Segment) (off : Nat) (v : Bytes) (b : Nat)
    (h : ∀ i, off ≤ i → i < off + v.length → i < mapLen m → mapAddr m i ≠ b) :
    (s.streamWrite m off v).state.mem.read b = s.mem.read b := by
  apply State.writePieces_other
  intro a k hm hb
  obtain ⟨i, h1, h2, h3, h4⟩ := pieces_mem hm b hb.1 hb.2
  exact h i h1 h2 h3 h4

/-! ### `BuildMap` -/

theorem State.walkList_mapLen {s : State} {base n fuel k : Nat} {map m : List Segment}
    (h : s.walkList base n fuel k map = .ok m) : mapLen m = n := by
  induction fuel generalizing k map with
  | zero => simp [State.walkList] at h
  | succ fuel ih =>
    simp only [State.walkList] at h
    split at h
    · cases h
    · split at h
      · rename_i hn
        cases h
        exact hn
      · exact ih h

/-- A map that is built covers the request exactly (R62, R65). -/
theorem State.buildMap_mapLen {s : State} {sg : Bool} {a : Addr} {n : Nat} {m : List Segment}
    (h : s.buildMap sg a n = .ok m) : mapLen m = n := by
  unfold State.buildMap at h
  split at h
  · cases h; simp [mapLen, *]
  · split at h
    · split at h
      · cases h
      · exact State.walkList_mapLen h
    · cases h; simp [mapLen]

/-- The flat map (R62). -/
theorem State.buildMap_flat (s : State) (a : Addr) {n : Nat} (h : n ≠ 0) :
    s.buildMap false a n = .ok [⟨a.toNat, n⟩] := by
  simp [State.buildMap, h]

@[simp] theorem State.buildMap_zero (s : State) (sg : Bool) (a : Addr) : s.buildMap sg a 0 = .ok [] := by
  simp [State.buildMap]

/-- A flat buffer below 2^64 on a platform that refuses nothing is admitted. -/
theorem State.admits_flat {s : State} {a n : Nat} {k : Access} (hd : s.platform.denials = [])
    (h : a + n ≤ 2 ^ 64) : s.admits [⟨a, n⟩] k := by
  intro seg hs o m _ hl
  rw [List.mem_singleton.mp hs] at hl ⊢
  simp only [State.accessOk, State.memOk, hd, List.any_nil, Bool.not_false, Bool.true_and, decide_eq_true_eq]
  simp only at hl
  omega

/-- Flat buffers, disjoint or the same, on a platform that refuses nothing (R62, R74). -/
theorem State.cryptStreams_flat {s : State} (hd : s.platform.denials = []) (h0 : s.eng.reqLen ≠ 0)
    (h1 : s.eng.latch.src.toNat + s.eng.reqLen ≤ 2 ^ 64) (h2 : s.eng.latch.dst.toNat + s.eng.reqLen ≤ 2 ^ 64)
    (h3 : s.eng.latch.src.toNat + s.eng.reqLen ≤ s.eng.latch.dst.toNat ∨
      s.eng.latch.dst.toNat + s.eng.reqLen ≤ s.eng.latch.src.toNat ∨
      s.eng.latch.src.toNat = s.eng.latch.dst.toNat) :
    s.cryptStreams false [⟨s.eng.latch.src.toNat, s.eng.reqLen⟩] [⟨s.eng.latch.dst.toNat, s.eng.reqLen⟩] := by
  refine ⟨s.buildMap_flat _ h0, s.buildMap_flat _ h0, State.admits_flat hd h1, State.admits_flat hd h2, ?_, ?_⟩
  · intro i j hi hj e
    rw [mapAddr_flat hi, mapAddr_flat hj] at e
    omega
  · intro i j hi hj e
    rw [mapAddr_flat hi, mapAddr_flat hj] at e
    omega

/-- A request of no bytes. -/
theorem State.cryptStreams_empty {s : State} (sg : Bool) (h0 : s.eng.reqLen = 0) : s.cryptStreams sg [] [] := by
  refine ⟨by rw [h0]; simp, by rw [h0]; simp, ?_, ?_, ?_, ?_⟩
  · intro _ h; simp at h
  · intro _ h; simp at h
  · intro i j hi; omega
  · intro i j hi; omega

/-- The flat source of a MAC command. -/
theorem State.macStream_flat {s : State} {n : Nat} (hd : s.platform.denials = []) (h0 : n ≠ 0)
    (h1 : s.eng.latch.src.toNat + n ≤ 2 ^ 64) : s.macStream false n [⟨s.eng.latch.src.toNat, n⟩] :=
  ⟨s.buildMap_flat _ h0, State.admits_flat hd h1⟩

/-- A MAC command that reads nothing. -/
theorem State.macStream_empty (s : State) (sg : Bool) : s.macStream sg 0 [] :=
  ⟨s.buildMap_zero sg _, fun _ h => by simp at h⟩

/-- A list not aligned to 16 bytes is refused with its own address (R65, R70). -/
theorem State.buildMap_misaligned (s : State) {a : Addr} {n : Nat} (h : n ≠ 0) (ha : a.toNat % 16 ≠ 0) :
    s.buildMap true a n = .error a := by
  simp [State.buildMap, h, ha]

end Sys2Proof.Machine
end

