-- ==== Sys2Proof/Laws/Runs.lean ====
section
/-! SUPPORT. What the phases of a command can change, whether they complete or raise an error: the inversion
lemmas that later proofs cite in place of unfolding `runCommand` (40_control.md R110, R123; 60_exceptions.md
R262, R263). -/

namespace Sys2Proof.Machine

/-! ### The phases MAP to TAIL -/

/-- `t` differs from `s` in what the phases MAP to TAIL may change: memory (its canonical form kept), the
draw counter, and of the engine in focus the working registers, the maps and the transfer fields. -/
def State.Ran (s t : State) : Prop :=
  ∃ mem d w sm dm ui uo,
    t = { s with
          mem := mem
          draws := d
          eng := { s.eng with work := w, srcMap := sm, dstMap := dm, unitIn := ui, unitOut := uo } } ∧
    (s.mem.wf = true → mem.wf = true)

theorem State.Ran.refl (s : State) : s.Ran s := ⟨_, _, _, _, _, _, _, rfl, id⟩

theorem State.Ran.trans {s t u : State} (h : s.Ran t) (k : t.Ran u) : s.Ran u := by
  obtain ⟨m1, d1, w1, sm1, dm1, ui1, uo1, rfl, f1⟩ := h
  obtain ⟨m2, d2, w2, sm2, dm2, ui2, uo2, rfl, f2⟩ := k
  exact ⟨_, _, _, _, _, _, _, rfl, fun w => f2 (f1 w)⟩

theorem Run.andThen_ran {s : State} {r : Run} {f : State → Run} (h : s.Ran r.state)
    (k : ∀ t, s.Ran t → t.Ran (f t).state) : s.Ran (r.andThen f).state := by
  cases r with
  | going t => exact h.trans (k t h)
  | raised e a t => exact h

theorem Plan.runMap_ran (p : Plan) (s : State) : s.Ran (p.runMap s).state := by
  unfold Plan.runMap
  split
  · split
    · exact .refl s
    · split
      · split
        · exact .refl s
        · exact ⟨_, _, _, _, _, _, _, rfl, id⟩
      · exact ⟨_, _, _, _, _, _, _, rfl, id⟩
  · exact .refl s

theorem Plan.runSeed_ran (p : Plan) (s : State) : s.Ran (p.runSeed s).state := by
  unfold Plan.runSeed
  cases p.draws <;> cases p.seed (Config.hashFail s.draws) s.eng <;> exact ⟨_, _, _, _, _, _, _, rfl, id⟩

theorem Plan.runUnit_ran (p : Plan) (inTail : Bool) (u : Nat) (s : State) :
    s.Ran (p.runUnit inTail u s).state := by
  unfold Plan.runUnit
  split
  · exact .refl s
  · rename_i b _
    apply Run.andThen_ran
    · split
      · obtain ⟨mem, h1, h2⟩ := State.streamWrite_state (s.setWork (p.compute s.eng inTail b).2) s.eng.dstMap
          s.eng.work.pos (p.compute s.eng inTail b).1
        rw [h1]
        exact ⟨_, _, _, _, _, _, _, rfl, h2⟩
      · exact ⟨_, _, _, _, _, _, _, rfl, id⟩
    · intro t _
      exact ⟨_, _, _, _, _, _, _, rfl, id⟩

theorem Plan.runBlocks_ran (p : Plan) (n : Nat) (s : State) : s.Ran (p.runBlocks n s).state := by
  induction n generalizing s with
  | zero => exact .refl s
  | succ n ih => exact Run.andThen_ran (p.runUnit_ran false 16 s) fun t _ => ih t

theorem Plan.runTail_ran (p : Plan) (s : State) : s.Ran (p.runTail s).state := by
  unfold Plan.runTail
  split
  · exact p.runUnit_ran _ _ s
  · exact .refl s

/-- What the phases MAP to TAIL can change. -/
theorem Plan.runWork_ran (p : Plan) (s : State) : s.Ran (p.runWork s).state := by
  refine Run.andThen_ran (Run.andThen_ran (Run.andThen_ran (p.runMap_ran s) ?_) ?_) ?_
  · exact fun t _ => p.runSeed_ran t
  · exact fun t _ => p.runBlocks_ran _ t
  · exact fun t _ => p.runTail_ran t

/-! ### A whole command -/

/-- How a command ends: by an error found in CHECK, which touches no memory; by an error of a later phase; or
by its COMMIT. -/
theorem runCommand_cases (p : Plan) (s : State) :
    (∃ k, p.checkError s.eng = some k ∧ runCommand p s = s.setEng ((p.onError s.eng).fail k 0)) ∨
    (∃ k a t, p.checkError s.eng = none ∧ p.runWork s = .raised k a t ∧ s.Ran t ∧
      runCommand p s = t.setEng ((p.onError t.eng).fail k a)) ∨
    (∃ t, p.checkError s.eng = none ∧ p.runWork s = .going t ∧ s.Ran t ∧
      runCommand p s = t.setEng (p.commit t.eng).succeed) := by
  have hr := p.runWork_ran s
  unfold runCommand
  cases hc : p.checkError s.eng with
  | some k => exact .inl ⟨k, rfl, rfl⟩
  | none =>
    cases hw : p.runWork s with
    | going t => rw [hw] at hr; exact .inr (.inr ⟨t, rfl, rfl, hr, rfl⟩)
    | raised k a t => rw [hw] at hr; exact .inr (.inl ⟨k, a, t, rfl, rfl, hr, rfl⟩)

/-- A command leaves the engine in focus idle with DONE. -/
theorem runCommand_idle (p : Plan) (s : State) :
    (runCommand p s).eng.phase = .idle ∧ (runCommand p s).eng.done = true := by
  rcases runCommand_cases p s with ⟨k, _, h⟩ | ⟨k, a, t, _, _, _, h⟩ | ⟨t, _, _, _, h⟩ <;>
    rw [h] <;> exact ⟨rfl, rfl⟩

/-- A command leaves the other instances, the platform, the turns and what the host saw as they were, and
keeps the canonical form of memory. -/
theorem runCommand_frame (p : Plan) (s : State) :
    (runCommand p s).before = s.before ∧ (runCommand p s).after = s.after ∧
    (runCommand p s).platform = s.platform ∧ (runCommand p s).turns = s.turns ∧
    (runCommand p s).seen = s.seen ∧ (s.mem.wf = true → (runCommand p s).mem.wf = true) := by
  rcases runCommand_cases p s with ⟨k, _, h⟩ | ⟨k, a, t, _, _, hr, h⟩ | ⟨t, _, _, hr, h⟩
  · rw [h]; exact ⟨rfl, rfl, rfl, rfl, rfl, id⟩
  all_goals
    obtain ⟨m, d, w, sm, dm, ui, uo, rfl, f⟩ := hr
    rw [h]
    exact ⟨rfl, rfl, rfl, rfl, rfl, f⟩

/-! ### Memory -/

/-- Memory reads the same at `a` before and after. -/
def SameAt (a : Nat) (s t : State) : Prop := t.mem.read a = s.mem.read a

theorem Plan.runUnit_same {p : Plan} {a : Nat} (inTail : Bool) (u : Nat) {s : State}
    (h : p.stores = true → ∀ i, i < mapLen s.eng.dstMap → mapAddr s.eng.dstMap i ≠ a) :
    SameAt a s (p.runUnit inTail u s).state ∧ (p.runUnit inTail u s).state.eng.dstMap = s.eng.dstMap := by
  unfold Plan.runUnit
  split
  · exact ⟨rfl, rfl⟩
  · rename_i b _
    dsimp only
    split
    · rename_i hst
      have h1 := State.streamWrite_other (s.setWork (p.compute s.eng inTail b).2) s.eng.dstMap
        s.eng.work.pos (p.compute s.eng inTail b).1 a (fun i _ _ hi => h hst i hi)
      obtain ⟨mem, h2, _⟩ := State.streamWrite_state (s.setWork (p.compute s.eng inTail b).2) s.eng.dstMap
        s.eng.work.pos (p.compute s.eng inTail b).1
      generalize (s.setWork (p.compute s.eng inTail b).2).streamWrite s.eng.dstMap
        s.eng.work.pos (p.compute s.eng inTail b).1 = r at h1 h2
      cases r with
      | going t => exact ⟨h1, by simp only [Run.state_going] at h2; subst h2; rfl⟩
      | raised k x t => exact ⟨h1, by simp only [Run.state_raised] at h2; subst h2; rfl⟩
    · exact ⟨rfl, rfl⟩

theorem Plan.runBlocks_same {p : Plan} {a : Nat} (n : Nat) {s : State}
    (h : p.stores = true → ∀ i, i < mapLen s.eng.dstMap → mapAddr s.eng.dstMap i ≠ a) :
    SameAt a s (p.runBlocks n s).state ∧ (p.runBlocks n s).state.eng.dstMap = s.eng.dstMap := by
  induction n generalizing s with
  | zero => exact ⟨rfl, rfl⟩
  | succ n ih =>
    have hu := Plan.runUnit_same (p := p) (a := a) false 16 h
    simp only [Plan.runBlocks]
    cases hr : p.runUnit false 16 s with
    | raised k x t => rw [hr] at hu; exact hu
    | going t =>
      rw [hr] at hu
      simp only [Run.state_going] at hu
      obtain ⟨h1, h2⟩ := ih (s := t) (by rw [hu.2]; exact h)
      exact ⟨h1.trans hu.1, h2.trans hu.2⟩

theorem Plan.runTail_same {p : Plan} {a : Nat} {s : State}
    (h : p.stores = true → ∀ i, i < mapLen s.eng.dstMap → mapAddr s.eng.dstMap i ≠ a) :
    SameAt a s (p.runTail s).state := by
  unfold Plan.runTail
  split
  · exact (Plan.runUnit_same true _ h).1
  · rfl

/-- BULK and TAIL leave every address that is no destination address as it was. -/
theorem Plan.runTransfer_same {p : Plan} {a : Nat} {s : State}
    (h : p.stores = true → ∀ i, i < mapLen s.eng.dstMap → mapAddr s.eng.dstMap i ≠ a) :
    SameAt a s ((p.runBulk s).andThen p.runTail).state := by
  have hb := Plan.runBlocks_same (p := p) (a := a) (p.bulk s.eng / 16) h
  unfold Plan.runBulk
  cases hr : p.runBlocks (p.bulk s.eng / 16) s with
  | raised k x t => rw [hr] at hb; exact hb.1
  | going t =>
    rw [hr] at hb
    simp only [Run.state_going] at hb
    exact (Plan.runTail_same (s := t) (by rw [hb.2]; exact h)).trans hb.1

theorem Plan.runSeed_same (p : Plan) (s : State) :
    (p.runSeed s).state.mem = s.mem ∧ (p.runSeed s).state.eng.dstMap = s.eng.dstMap := by
  unfold Plan.runSeed
  cases p.draws <;> cases p.seed (Config.hashFail s.draws) s.eng <;> exact ⟨rfl, rfl⟩

theorem Run.andThen_assoc (r : Run) (f g : State → Run) :
    (r.andThen f).andThen g = r.andThen fun s => (f s).andThen g := by
  cases r <;> rfl

/-- The phases SEED to TAIL. -/
theorem Plan.runRest_same {p : Plan} {a : Nat} {s : State}
    (h : p.stores = true → ∀ i, i < mapLen s.eng.dstMap → mapAddr s.eng.dstMap i ≠ a) :
    SameAt a s (((p.runSeed s).andThen p.runBulk).andThen p.runTail).state := by
  have hs := p.runSeed_same s
  rw [Run.andThen_assoc]
  cases hr : p.runSeed s with
  | raised k x t => rw [hr] at hs; exact congrArg (·.read a) hs.1
  | going t =>
    rw [hr] at hs
    simp only [Run.state_going] at hs
    have := Plan.runTransfer_same (p := p) (a := a) (s := t) (by rw [hs.2]; exact h)
    exact this.trans (congrArg (·.read a) hs.1)

/-- Every address that is not the address of a destination offset reads as before; a command that stores
nothing leaves every address. -/
theorem Plan.runWork_same {p : Plan} {a : Nat} {s : State}
    (hm : p.stores = true → p.moves = true)
    (h : p.stores = true → ∀ dm, s.buildMap p.sg s.eng.latch.dst (p.total s.eng) = .ok dm →
      ∀ i, i < p.total s.eng → mapAddr dm i ≠ a) :
    SameAt a s (p.runWork s).state := by
  unfold Plan.runWork
  rw [Run.andThen_assoc, Run.andThen_assoc]
  unfold Plan.runMap
  have key : ∀ t : State, t.mem = s.mem →
      (p.stores = true → ∀ i, i < mapLen t.eng.dstMap → mapAddr t.eng.dstMap i ≠ a) →
      SameAt a s ((p.runSeed t).andThen fun s => (p.runBulk s).andThen p.runTail).state := by
    intro t ht hd
    have := Plan.runRest_same hd
    rw [Run.andThen_assoc] at this
    exact this.trans (congrArg (·.read a) ht)
  split
  · split
    · rfl
    · split
      · rename_i hst
        split
        · rfl
        · rename_i dm hdm
          refine key (s.setEng _) rfl ?_
          intro _ i hi
          have hl := State.buildMap_mapLen hdm
          have hi : i < mapLen dm := hi
          exact h hst dm hdm i (by omega)
      · rename_i hst
        exact key (s.setEng _) rfl fun hs => absurd hs hst
  · rename_i hmv
    exact key _ rfl fun hs => absurd (hm hs) hmv

/-- A whole command, completed or not. -/
theorem runCommand_same {p : Plan} {a : Nat} {s : State}
    (hm : p.stores = true → p.moves = true)
    (h : p.stores = true → ∀ dm, s.buildMap p.sg s.eng.latch.dst (p.total s.eng) = .ok dm →
      ∀ i, i < p.total s.eng → mapAddr dm i ≠ a) :
    (runCommand p s).mem.read a = s.mem.read a := by
  have hw := Plan.runWork_same hm h
  rcases runCommand_cases p s with ⟨k, _, e⟩ | ⟨k, x, t, _, hr, _, e⟩ | ⟨t, _, hr, _, e⟩
  · rw [e]; rfl
  · rw [hr] at hw; rw [e]; exact hw
  · rw [hr] at hw; rw [e]; exact hw

end Sys2Proof.Machine
end

