-- ==== Sys2Proof/Laws/Units.lean ====
section
/-! SUPPORT. Laws of a command's units: a unit, a run of BULK units and a whole CRYPT or MAC command when
every access is performed, as a recursion on the working registers (20_memory.md R68; 40_control.md R110,
R120). -/

namespace Sys2Proof.Machine

/-! ### One unit -/

/-- The engine after a unit of `u` bytes `b`. -/
def Plan.afterUnit (p : Plan) (e : Engine) (inTail : Bool) (u : Nat) (b : Bytes) : Engine :=
  { e with work := (p.compute e inTail b).2 }.advance u

/-- A unit of a command that stores, every access performed. -/
theorem Plan.runUnit_stores {p : Plan} {s : State} {inTail : Bool} {u : Nat} (hst : p.stores = true)
    (hr : s.admits s.eng.srcMap .read) (hw : s.admits s.eng.dstMap .write)
    (hsl : s.eng.work.pos + u ≤ mapLen s.eng.srcMap)
    (hdl : s.eng.work.pos +
      (p.compute s.eng inTail (streamBytes s.mem s.eng.srcMap s.eng.work.pos u)).1.length ≤ mapLen s.eng.dstMap) :
    p.runUnit inTail u s = .going
      { s with
        mem := streamStore s.mem s.eng.dstMap s.eng.work.pos
          (p.compute s.eng inTail (streamBytes s.mem s.eng.srcMap s.eng.work.pos u)).1
        eng := p.afterUnit s.eng inTail u (streamBytes s.mem s.eng.srcMap s.eng.work.pos u) } := by
  simp only [Plan.runUnit, State.streamRead_eq hr hsl, hst, if_true]
  rw [State.streamWrite_eq (State.admits_congr (by rfl) hw) hdl]
  rfl

/-- A unit of a command that stores nothing, every read performed. -/
theorem Plan.runUnit_reads {p : Plan} {s : State} {inTail : Bool} {u : Nat} (hst : p.stores = false)
    (hr : s.admits s.eng.srcMap .read) (hsl : s.eng.work.pos + u ≤ mapLen s.eng.srcMap) :
    p.runUnit inTail u s = .going
      { s with eng := p.afterUnit s.eng inTail u (streamBytes s.mem s.eng.srcMap s.eng.work.pos u) } := by
  simp only [Plan.runUnit, State.streamRead_eq hr hsl, hst]
  rfl

/-! ### The BULK units -/

/-- One more unit at the end. -/
theorem Plan.runBlocks_last (p : Plan) (n : Nat) (s : State) :
    p.runBlocks (n + 1) s = (p.runBlocks n s).andThen (p.runUnit false 16) := by
  induction n generalizing s with
  | zero => simp only [Plan.runBlocks, Run.andThen_going]; cases p.runUnit false 16 s <;> rfl
  | succ n ih =>
    have e1 : p.runBlocks (n + 1 + 1) s = (p.runUnit false 16 s).andThen (p.runBlocks (n + 1)) := rfl
    have e2 : p.runBlocks (n + 1) s = (p.runUnit false 16 s).andThen (p.runBlocks n) := rfl
    rw [e1, e2]
    cases p.runUnit false 16 s with
    | going t => exact ih t
    | raised k a t => rfl

/-- The working registers before BULK unit `i`, from those of `e`, when unit `j` reads block `b j`. -/
def Plan.workAt (p : Plan) (e : Engine) (b : Nat → Block) : Nat → Work
  | 0 => e.work
  | i + 1 =>
    let w := (p.block { e with work := p.workAt e b i } (b i)).2
    { w with pos := w.pos + 16 }

/-- The output block of BULK unit `i`. -/
def Plan.outAt (p : Plan) (e : Engine) (b : Nat → Block) (i : Nat) : Block :=
  (p.block { e with work := p.workAt e b i } (b i)).1

@[simp] theorem Plan.workAt_zero (p : Plan) (e : Engine) (b : Nat → Block) : p.workAt e b 0 = e.work := rfl

theorem Plan.workAt_succ (p : Plan) (e : Engine) (b : Nat → Block) (i : Nat) :
    p.workAt e b (i + 1) =
      { (p.block { e with work := p.workAt e b i } (b i)).2 with
        pos := (p.block { e with work := p.workAt e b i } (b i)).2.pos + 16 } := rfl

/-- The position moves by 16 a unit. -/
theorem Plan.workAt_pos {p : Plan} {e : Engine} {b : Nat → Block}
    (hp : ∀ e b, (p.block e b).2.pos = e.work.pos) (i : Nat) :
    (p.workAt e b i).pos = e.work.pos + 16 * i := by
  induction i with
  | zero => rfl
  | succ i ih => rw [Plan.workAt_succ]; simp only [hp, ih]; omega

/-- No transfer is in progress. -/
def Engine.betweenUnits (e : Engine) : Prop := e.unitIn = [] ∧ e.unitOut = none

/-- The state with another memory and other working registers. -/
def State.withWork (s : State) (mem : Memory) (w : Work) : State :=
  { s with mem := mem, eng := { s.eng with work := w } }

@[simp] theorem State.withWork_mem (s : State) (mem : Memory) (w : Work) : (s.withWork mem w).mem = mem := rfl
@[simp] theorem State.withWork_eng (s : State) (mem : Memory) (w : Work) :
    (s.withWork mem w).eng = { s.eng with work := w } := rfl
@[simp] theorem State.withWork_platform (s : State) (mem : Memory) (w : Work) :
    (s.withWork mem w).platform = s.platform := rfl
theorem State.withWork_self (s : State) : s.withWork s.mem s.eng.work = s := rfl

/-- Between units, a unit changes the working registers only. -/
theorem Plan.afterUnit_eq {p : Plan} {e : Engine} {w : Work} {inTail : Bool} {u : Nat} {b : Bytes}
    {r : Bytes × Work} (hb : e.betweenUnits) (hcomp : p.compute { e with work := w } inTail b = r)
    (hpos : r.2.pos = w.pos) :
    p.afterUnit { e with work := w } inTail u b = { e with work := { r.2 with pos := w.pos + u } } := by
  obtain ⟨h1, h2⟩ := hb
  simp only [Plan.afterUnit, Engine.advance, hcomp, hpos]
  cases e
  simp_all

/-- One unit of a command that stores, on a memory and working registers of a state with no transfer. -/
theorem Plan.runUnit_withWork {p : Plan} {s : State} {mem : Memory} {w : Work} {inTail : Bool} {u : Nat}
    (hst : p.stores = true) (hb : s.eng.betweenUnits)
    (hr : s.admits s.eng.srcMap .read) (hw : s.admits s.eng.dstMap .write)
    (hsl : w.pos + u ≤ mapLen s.eng.srcMap) (b : Bytes) (hbytes : streamBytes mem s.eng.srcMap w.pos u = b)
    (r : Bytes × Work) (hcomp : p.compute { s.eng with work := w } inTail b = r)
    (hdl : w.pos + r.1.length ≤ mapLen s.eng.dstMap) (hpos : r.2.pos = w.pos) :
    p.runUnit inTail u (s.withWork mem w) = .going
      (s.withWork (streamStore mem s.eng.dstMap w.pos r.1) { r.2 with pos := w.pos + u }) := by
  subst hbytes
  rw [Plan.runUnit_stores hst]
  · simp only [State.withWork_eng, State.withWork_mem, hcomp, Plan.afterUnit_eq hb hcomp hpos]
    rfl
  · exact State.admits_congr (s := s) rfl hr
  · exact State.admits_congr (s := s) rfl hw
  · exact hsl
  · simp only [State.withWork_eng, State.withWork_mem, hcomp]; exact hdl

/-- One unit of a command that stores nothing. -/
theorem Plan.runUnit_withWork_reads {p : Plan} {s : State} {w : Work} {inTail : Bool} {u : Nat}
    (hst : p.stores = false) (hb : s.eng.betweenUnits) (hr : s.admits s.eng.srcMap .read)
    (hsl : w.pos + u ≤ mapLen s.eng.srcMap) (b : Bytes) (hbytes : streamBytes s.mem s.eng.srcMap w.pos u = b)
    (r : Bytes × Work) (hcomp : p.compute { s.eng with work := w } inTail b = r) (hpos : r.2.pos = w.pos) :
    p.runUnit inTail u (s.withWork s.mem w) = .going (s.withWork s.mem { r.2 with pos := w.pos + u }) := by
  subst hbytes
  rw [Plan.runUnit_reads hst]
  · simp only [State.withWork_eng, State.withWork_mem, Plan.afterUnit_eq hb hcomp hpos]
    rfl
  · exact State.admits_congr (s := s) rfl hr
  · exact hsl

/-- The memory after `k` destination blocks and nothing else were written. -/
structure StoredBlocks (mem mem' : Memory) (dm : List Segment) (n : Nat) (out : Nat → Block) : Prop where
  /-- The blocks. -/
  blocks : ∀ i, i < n → streamBlock mem' dm i = out i
  /-- Every other address. -/
  other : ∀ a, (∀ j, j < 16 * n → mapAddr dm j ≠ a) → mem'.read a = mem.read a

/-- One more block is stored. -/
theorem StoredBlocks.succ {mem mem' : Memory} {dm : List Segment} {n N : Nat} {out : Nat → Block}
    (hinj : ∀ i j, i < N → j < N → mapAddr dm i = mapAddr dm j → i = j) (hn : 16 * (n + 1) ≤ N)
    (h : StoredBlocks mem mem' dm n out) :
    StoredBlocks mem (streamStore mem' dm (16 * n) (blockBytes (out n))) dm (n + 1) out where
  blocks i hi := by
    by_cases hin : i = n
    · subst hin
      have := streamBytes_streamStore (mem := mem') (m := dm) (off := 16 * i) (v := blockBytes (out i))
        (by
          intro a b ha hb e
          simp only [length_blockBytes] at ha hb
          have := hinj _ _ (by omega) (by omega) e
          omega)
      rw [length_blockBytes] at this
      rw [streamBlock, this, blockOf_blockBytes]
    · rw [← h.blocks i (by omega)]
      unfold streamBlock
      congr 1
      apply streamBytes_congr
      intro j hj
      apply read_streamStore_other
      intro k hk e
      simp only [length_blockBytes] at hk
      have := hinj _ _ (by omega) (by omega) e
      omega
  other a ha := by
    rw [read_streamStore_other, h.other a (fun j hj => ha j (by omega))]
    intro j hj
    simp only [length_blockBytes] at hj
    exact ha _ (by omega)

/-- The source bytes at and after the blocks stored read as they did. -/
theorem StoredBlocks.source {mem mem' : Memory} {sm dm : List Segment} {n N u : Nat} {out : Nat → Block}
    (hsd : ∀ i j, i < N → j < N → mapAddr sm i = mapAddr dm j → i = j) (hn : 16 * n + u ≤ N)
    (h : StoredBlocks mem mem' dm n out) :
    streamBytes mem' sm (16 * n) u = streamBytes mem sm (16 * n) u := by
  apply streamBytes_congr
  intro j hj
  apply h.other
  intro k hk e
  have := hsd (16 * n + j) k (by omega) (by omega) e.symm
  omega

/-- The first `n` BULK units of a command that stores, every access performed, no destination address used
twice, and a destination address that is a source address being the one of the same offset. -/
theorem Plan.runBlocks_stores {p : Plan} {s : State} {n N : Nat} (hst : p.stores = true)
    (hp : ∀ e b, (p.block e b).2.pos = e.work.pos) (h0 : s.eng.work.pos = 0) (hb : s.eng.betweenUnits)
    (hr : s.admits s.eng.srcMap .read) (hw : s.admits s.eng.dstMap .write)
    (hsl : mapLen s.eng.srcMap = N) (hdl : mapLen s.eng.dstMap = N)
    (hinj : ∀ i j, i < N → j < N → mapAddr s.eng.dstMap i = mapAddr s.eng.dstMap j → i = j)
    (hsd : ∀ i j, i < N → j < N → mapAddr s.eng.srcMap i = mapAddr s.eng.dstMap j → i = j)
    (hn : 16 * n ≤ N) :
    ∃ mem, p.runBlocks n s =
        .going (s.withWork mem (p.workAt s.eng (streamBlock s.mem s.eng.srcMap) n)) ∧
      StoredBlocks s.mem mem s.eng.dstMap n (p.outAt s.eng (streamBlock s.mem s.eng.srcMap)) := by
  induction n with
  | zero => exact ⟨s.mem, rfl, ⟨by omega, fun _ _ => rfl⟩⟩
  | succ n ih =>
    obtain ⟨mem, h1, h2⟩ := ih (by omega)
    have hpos : (p.workAt s.eng (streamBlock s.mem s.eng.srcMap) n).pos = 16 * n := by
      rw [Plan.workAt_pos hp, h0, Nat.zero_add]
    refine ⟨_, ?_, h2.succ hinj hn⟩
    rw [Plan.runBlocks_last, h1, Run.andThen_going]
    have := Plan.runUnit_withWork (p := p) (s := s) (mem := mem)
      (w := p.workAt s.eng (streamBlock s.mem s.eng.srcMap) n) (inTail := false) (u := 16) hst hb hr hw
      (by omega) (streamBytes s.mem s.eng.srcMap (16 * n) 16) (by rw [hpos]; exact h2.source hsd (by omega))
      (blockBytes (p.outAt s.eng (streamBlock s.mem s.eng.srcMap) n),
        (p.block { s.eng with work := p.workAt s.eng (streamBlock s.mem s.eng.srcMap) n }
          (streamBlock s.mem s.eng.srcMap n)).2) rfl (by rw [length_blockBytes]; omega) (hp _ _)
    rw [this, Plan.workAt_succ, hp, hpos]

/-- The first `n` BULK units of a command that stores nothing. -/
theorem Plan.runBlocks_reads {p : Plan} {s : State} {n : Nat} (hst : p.stores = false)
    (hp : ∀ e b, (p.block e b).2.pos = e.work.pos) (h0 : s.eng.work.pos = 0) (hb : s.eng.betweenUnits)
    (hr : s.admits s.eng.srcMap .read) (hn : 16 * n ≤ mapLen s.eng.srcMap) :
    p.runBlocks n s = .going (s.withWork s.mem (p.workAt s.eng (streamBlock s.mem s.eng.srcMap) n)) := by
  induction n with
  | zero => rfl
  | succ n ih =>
    have hpos : (p.workAt s.eng (streamBlock s.mem s.eng.srcMap) n).pos = 16 * n := by
      rw [Plan.workAt_pos hp, h0, Nat.zero_add]
    rw [Plan.runBlocks_last, ih (by omega), Run.andThen_going]
    rw [Plan.runUnit_withWork_reads (p := p) (s := s)
      (w := p.workAt s.eng (streamBlock s.mem s.eng.srcMap) n) (inTail := false) (u := 16) hst hb hr
      (by omega) (streamBytes s.mem s.eng.srcMap (16 * n) 16) (by rw [hpos])
      (blockBytes (p.outAt s.eng (streamBlock s.mem s.eng.srcMap) n),
        (p.block { s.eng with work := p.workAt s.eng (streamBlock s.mem s.eng.srcMap) n }
          (streamBlock s.mem s.eng.srcMap n)).2) rfl (hp _ _), Plan.workAt_succ, hp, hpos]

end Sys2Proof.Machine
end

