-- ==== Sys2Proof/Laws/Commands.lean ====
section
/-! SUPPORT. What a whole command computes when its checks pass and every access is performed: a CRYPT
command in terms of its blocks and its tail, a MAC command in terms of its blocks, a command without data in
terms of its SEED and COMMIT (40_control.md R110, R115, R116, R120). -/

namespace Sys2Proof.Machine

/-! ### Acceptance -/

theorem Engine.accepted_iff (e : Engine) :
    e.accepted = true ↔ e.phase = .check ∧ e.work.pos = 0 ∧ e.srcMap = [] ∧ e.dstMap = [] ∧ e.descIndex = 0 ∧
      e.unitIn = [] ∧ e.unitOut = none := by
  simp [Engine.accepted, and_assoc]

/-- Acceptance of a word leaves an accepted engine. -/
theorem Engine.accept_accepted (e : Engine) (w : Word) : (e.accept w).accepted = true := by
  simp [Engine.accepted_iff, Engine.accept]

/-- An accepted engine is between units, at position 0. -/
theorem Engine.accepted_between {e : Engine} (h : e.accepted = true) :
    e.betweenUnits ∧ e.work.pos = 0 := by
  obtain ⟨_, h1, _, _, _, h2, h3⟩ := e.accepted_iff.mp h
  exact ⟨⟨h2, h3⟩, h1⟩

/-! ### A command without data -/

/-- A command with no data and no draw, whose checks pass. -/
theorem runCommand_noData {p : Plan} {s : State} {w : Work} (hmv : p.moves = false) (hdr : p.draws = false)
    (hck : p.checkError s.eng = none) (hseed : ∀ b, p.seed b s.eng = .ok w)
    (hbulk : p.bulkEnd s.eng.reqLen = 0) (htot : p.span s.eng.reqLen = 0) :
    runCommand p s = s.setEng (p.commit { s.eng with work := w }).succeed := by
  have h1 : p.runMap s = .going s := by simp [Plan.runMap, hmv]
  have h2 : p.runSeed s = .going (s.setWork w) := by simp [Plan.runSeed, hdr, hseed]
  have h3 : p.runBulk (s.setWork w) = .going (s.setWork w) := by
    have : p.bulk (s.setWork w).eng = 0 := hbulk
    rw [Plan.runBulk, this]
    rfl
  have h4 : p.runTail (s.setWork w) = .going (s.setWork w) := by
    have : p.total (s.setWork w).eng = 0 := htot
    rw [Plan.runTail, this]
    rfl
  simp only [runCommand, hck, Plan.runWork, h1, h2, h3, h4, Run.andThen_going]
  rfl

/-! ### A CRYPT command -/

/-- The engine of a CRYPT command after SEED. -/
def Engine.seeded (e : Engine) (sm dm : List Segment) (w : Work) : Engine :=
  { e with srcMap := sm, dstMap := dm, work := w }

/-- MAP and SEED of a CRYPT command. -/
theorem Plan.runMapSeed_stores {p : Plan} {s : State} {sm dm : List Segment} {w : Work}
    (hmv : p.moves = true) (hst : p.stores = true) (hdr : p.draws = false)
    (htot : p.span s.eng.reqLen = s.eng.reqLen)
    (hseed : ∀ b, p.seed b { s.eng with srcMap := sm, dstMap := dm } = .ok w)
    (hs : s.cryptStreams p.sg sm dm) :
    (p.runMap s).andThen p.runSeed = .going (s.setEng (s.eng.seeded sm dm w)) := by
  obtain ⟨h1, h2, _⟩ := hs
  have ht : p.total s.eng = s.eng.reqLen := htot
  simp only [Plan.runMap, hmv, hst, if_true, ht, h1, h2, Run.andThen_going, Plan.runSeed, hdr, Bool.false_eq_true,
    if_false, State.setEng_eng, hseed]
  rfl

/-- A CRYPT command with its BULK units done: memory and the working registers. -/
theorem Plan.runToTail_stores {p : Plan} {s : State} {sm dm : List Segment} {w : Work} {B : Nat}
    (hmv : p.moves = true) (hst : p.stores = true) (hdr : p.draws = false)
    (htot : p.span s.eng.reqLen = s.eng.reqLen) (hbulk : p.bulkEnd s.eng.reqLen = B)
    (hseed : ∀ b, p.seed b { s.eng with srcMap := sm, dstMap := dm } = .ok w)
    (hp : ∀ e b, (p.block e b).2.pos = e.work.pos) (hw0 : w.pos = 0) (hacc : s.eng.accepted = true)
    (hs : s.cryptStreams p.sg sm dm) (hB : 16 * (B / 16) = B) (hBL : B ≤ s.eng.reqLen) :
    ∃ mem, ((p.runMap s).andThen p.runSeed).andThen p.runBulk =
        .going ((s.setEng (s.eng.seeded sm dm w)).withWork mem
          (p.workAt (s.eng.seeded sm dm w) (streamBlock s.mem sm) (B / 16))) ∧
      StoredBlocks s.mem mem dm (B / 16) (p.outAt (s.eng.seeded sm dm w) (streamBlock s.mem sm)) := by
  rw [Plan.runMapSeed_stores hmv hst hdr htot hseed hs, Run.andThen_going]
  obtain ⟨hm1, hm2, ha1, ha2, hinj, hsd⟩ := hs
  obtain ⟨hb, -⟩ := Engine.accepted_between hacc
  have hbk : p.bulk (s.setEng (s.eng.seeded sm dm w)).eng = B := hbulk
  rw [Plan.runBulk, hbk]
  exact Plan.runBlocks_stores (s := s.setEng (s.eng.seeded sm dm w)) (n := B / 16) (N := s.eng.reqLen) hst hp hw0 hb
    (State.admits_congr (s := s) rfl ha1) (State.admits_congr (s := s) rfl ha2)
    (State.buildMap_mapLen hm1) (State.buildMap_mapLen hm2) hinj hsd (by omega)

/-- A CRYPT command whose bulk end is `L`: no TAIL unit. -/
theorem runCommand_blocks {p : Plan} {s : State} {sm dm : List Segment} {w : Work}
    (hmv : p.moves = true) (hst : p.stores = true) (hdr : p.draws = false) (hck : p.checkError s.eng = none)
    (htot : p.span s.eng.reqLen = s.eng.reqLen) (hbulk : p.bulkEnd s.eng.reqLen = s.eng.reqLen)
    (hseed : ∀ b, p.seed b { s.eng with srcMap := sm, dstMap := dm } = .ok w)
    (hp : ∀ e b, (p.block e b).2.pos = e.work.pos) (hw0 : w.pos = 0) (hacc : s.eng.accepted = true)
    (hs : s.cryptStreams p.sg sm dm) (hL : s.eng.reqLen % 16 = 0) :
    ∃ mem, runCommand p s =
        { s with
          mem := mem
          eng := (p.commit { s.eng.seeded sm dm w with
            work := p.workAt (s.eng.seeded sm dm w) (streamBlock s.mem sm) (s.eng.reqLen / 16) }).succeed } ∧
      StoredBlocks s.mem mem dm (s.eng.reqLen / 16)
        (p.outAt (s.eng.seeded sm dm w) (streamBlock s.mem sm)) := by
  obtain ⟨mem, h1, h2⟩ := Plan.runToTail_stores hmv hst hdr htot hbulk hseed hp hw0 hacc hs (by omega) (by omega)
  refine ⟨mem, ?_, h2⟩
  have hpos : (p.workAt (s.eng.seeded sm dm w) (streamBlock s.mem sm) (s.eng.reqLen / 16)).pos = s.eng.reqLen := by
    rw [Plan.workAt_pos hp]
    have : (s.eng.seeded sm dm w).work.pos = 0 := hw0
    omega
  have h3 : p.runTail ((s.setEng (s.eng.seeded sm dm w)).withWork mem
      (p.workAt (s.eng.seeded sm dm w) (streamBlock s.mem sm) (s.eng.reqLen / 16))) = .going ((s.setEng (s.eng.seeded sm dm w)).withWork mem
      (p.workAt (s.eng.seeded sm dm w) (streamBlock s.mem sm) (s.eng.reqLen / 16))) := by
    unfold Plan.runTail
    rw [if_neg]
    have ht : p.total ((s.setEng (s.eng.seeded sm dm w)).withWork mem
      (p.workAt (s.eng.seeded sm dm w) (streamBlock s.mem sm) (s.eng.reqLen / 16))).eng = s.eng.reqLen := htot
    rw [ht]
    simp only [State.withWork_eng, hpos, lt_self_iff_false, not_false_eq_true]
  simp only [runCommand, hck, Plan.runWork, h1, Run.andThen_going, h3]
  rfl

/-- A CRYPT command with a TAIL unit: `u = L − bulk end` bytes, of which the plan's `tail` makes the last `u`
output bytes. -/
theorem runCommand_tail {p : Plan} {s : State} {sm dm : List Segment} {w : Work} {B u : Nat} {r : Bytes × Work}
    (hmv : p.moves = true) (hst : p.stores = true) (hdr : p.draws = false) (hck : p.checkError s.eng = none)
    (htot : p.span s.eng.reqLen = s.eng.reqLen) (hbulk : p.bulkEnd s.eng.reqLen = B)
    (hseed : ∀ b, p.seed b { s.eng with srcMap := sm, dstMap := dm } = .ok w)
    (hp : ∀ e b, (p.block e b).2.pos = e.work.pos) (hw0 : w.pos = 0) (hacc : s.eng.accepted = true)
    (hs : s.cryptStreams p.sg sm dm) (hB : 16 * (B / 16) = B) (hu : 0 < u) (hBL : B + u = s.eng.reqLen)
    (hr : p.tail { s.eng.seeded sm dm w with
        work := p.workAt (s.eng.seeded sm dm w) (streamBlock s.mem sm) (B / 16) } (streamBytes s.mem sm B u) = r)
    (hrl : r.1.length = u) (hrp : r.2.pos = B) :
    ∃ mem, runCommand p s =
        { s with
          mem := mem
          eng := (p.commit { s.eng.seeded sm dm w with work := { r.2 with pos := s.eng.reqLen } }).succeed } ∧
      (∀ i, i < B / 16 → streamBlock mem dm i = p.outAt (s.eng.seeded sm dm w) (streamBlock s.mem sm) i) ∧
      streamBytes mem dm B u = r.1 ∧
      (∀ a, (∀ j, j < s.eng.reqLen → mapAddr dm j ≠ a) → mem.read a = s.mem.read a) := by
  obtain ⟨mem, h1, h2⟩ := Plan.runToTail_stores hmv hst hdr htot hbulk hseed hp hw0 hacc hs hB (by omega)
  obtain ⟨hm1, hm2, ha1, ha2, hinj, hsd⟩ := hs
  obtain ⟨hb, -⟩ := Engine.accepted_between hacc
  have hl1 := State.buildMap_mapLen hm1
  have hl2 := State.buildMap_mapLen hm2
  set W := p.workAt (s.eng.seeded sm dm w) (streamBlock s.mem sm) (B / 16) with hW
  have hpos : W.pos = B := by
    rw [hW, Plan.workAt_pos hp]
    have : (s.eng.seeded sm dm w).work.pos = 0 := hw0
    omega
  have h3 : p.runTail ((s.setEng (s.eng.seeded sm dm w)).withWork mem W) =
      .going ((s.setEng (s.eng.seeded sm dm w)).withWork
        (streamStore mem dm B r.1) { r.2 with pos := s.eng.reqLen }) := by
    unfold Plan.runTail
    have ht : p.total ((s.setEng (s.eng.seeded sm dm w)).withWork mem W).eng = s.eng.reqLen := htot
    have hp' : ((s.setEng (s.eng.seeded sm dm w)).withWork mem W).eng.work.pos = B := hpos
    rw [ht, hp', if_pos (by omega), show s.eng.reqLen - B = u by omega]
    have := Plan.runUnit_withWork (p := p) (s := s.setEng (s.eng.seeded sm dm w)) (mem := mem) (w := W)
      (inTail := true) (u := u) hst hb (State.admits_congr (s := s) rfl ha1)
      (State.admits_congr (s := s) rfl ha2) (show W.pos + u ≤ mapLen sm by omega) (streamBytes s.mem sm B u)
      (by rw [hpos]; have := h2.source hsd (u := u) (by omega); rwa [hB] at this) r hr
      (show W.pos + r.1.length ≤ mapLen dm by omega) (by omega)
    rw [this, hpos, hBL]
    rfl
  refine ⟨streamStore mem dm B r.1, ?_, ?_, ?_, ?_⟩
  · simp only [runCommand, hck, Plan.runWork, h1, Run.andThen_going, h3]
    rfl
  · intro i hi
    rw [← h2.blocks i hi]
    unfold streamBlock
    congr 1
    apply streamBytes_congr
    intro j hj
    apply read_streamStore_other
    intro k hk e
    have := hinj _ _ (by omega) (by omega) e
    omega
  · have := streamBytes_streamStore (mem := mem) (m := dm) (off := B) (v := r.1)
      (by intro i j hi hj e; have := hinj _ _ (by omega) (by omega) e; omega)
    rwa [hrl] at this
  · intro a ha
    rw [read_streamStore_other (fun j hj => ha _ (by omega)), h2.other a (fun j hj => ha j (by omega))]

/-! ### A MAC command -/

/-- MAC_UPDATE and MAC_FINUP: the phases MAP to TAIL of a command that only reads, with `B` bytes in BULK and
`u` in TAIL. -/
theorem runCommand_reads {p : Plan} {s : State} {sm : List Segment} {w : Work} {B u : Nat} {r : Bytes × Work}
    (hmv : p.moves = true) (hst : p.stores = false) (hdr : p.draws = false) (hck : p.checkError s.eng = none)
    (htot : p.span s.eng.reqLen = B + u) (hbulk : p.bulkEnd s.eng.reqLen = B)
    (hseed : ∀ b, p.seed b { s.eng with srcMap := sm } = .ok w)
    (hp : ∀ e b, (p.block e b).2.pos = e.work.pos) (hw0 : w.pos = 0) (hacc : s.eng.accepted = true)
    (hs : s.macStream p.sg (B + u) sm) (hB : 16 * (B / 16) = B)
    (hr : p.tail { s.eng with
        srcMap := sm
        work := p.workAt { s.eng with srcMap := sm, work := w } (streamBlock s.mem sm) (B / 16) }
        (streamBytes s.mem sm B u) = r)
    (hrp : r.2.pos = B) :
    runCommand p s = s.setEng (p.commit { s.eng with
      srcMap := sm
      work := if u = 0 then p.workAt { s.eng with srcMap := sm, work := w } (streamBlock s.mem sm) (B / 16)
        else { r.2 with pos := B + u } }).succeed := by
  obtain ⟨hm, ha⟩ := hs
  obtain ⟨hb, -⟩ := Engine.accepted_between hacc
  have hl := State.buildMap_mapLen hm
  have ht : p.total s.eng = B + u := htot
  set e1 : Engine := { s.eng with srcMap := sm, work := w } with he1
  have h1 : (p.runMap s).andThen p.runSeed = .going (s.setEng e1) := by
    simp only [Plan.runMap, hmv, hst, if_true, ht, hm, Run.andThen_going, Plan.runSeed, hdr, Bool.false_eq_true,
      if_false, State.setEng_eng, hseed]
    rfl
  set W := p.workAt e1 (streamBlock s.mem sm) (B / 16) with hW
  have hpos : W.pos = B := by
    rw [hW, Plan.workAt_pos hp]
    have : e1.work.pos = 0 := hw0
    omega
  have h2 : p.runBulk (s.setEng e1) = .going ((s.setEng e1).withWork s.mem W) := by
    have hbk : p.bulk (s.setEng e1).eng = B := hbulk
    rw [Plan.runBulk, hbk]
    exact Plan.runBlocks_reads (s := s.setEng e1) (n := B / 16) hst hp hw0 hb
      (State.admits_congr (s := s) rfl ha) (show 16 * (B / 16) ≤ mapLen sm by omega)
  have ht' : p.total ((s.setEng e1).withWork s.mem W).eng = B + u := htot
  have hp' : ((s.setEng e1).withWork s.mem W).eng.work.pos = B := hpos
  simp only [runCommand, hck, Plan.runWork, h1, h2, Run.andThen_going]
  unfold Plan.runTail
  rw [ht', hp']
  by_cases hu : u = 0
  · rw [if_neg (by omega)]
    simp only [hu, if_true]
    rfl
  · rw [if_pos (by omega), show B + u - B = u by omega]
    have h4 := Plan.runUnit_withWork_reads (p := p) (s := s.setEng e1) (w := W) (inTail := true) (u := u) hst hb
      (State.admits_congr (s := s) rfl ha) (show W.pos + u ≤ mapLen sm by omega) (streamBytes s.mem sm B u)
      (by rw [hpos]; rfl) r hr (by omega)
    rw [State.setEng_mem] at h4
    rw [h4]
    simp only [hu, if_false, hpos]
    rfl

end Sys2Proof.Machine
end

