-- ==== Sys2Proof/Laws/PerInstr.lean ====
section
/-! SUPPORT. For every command: its fields are a row of 30_encoding.md R98, its word matches its row of the
opcode map R102, and decoding its word gives it back. One lemma a constructor. -/

namespace Sys2Proof.Laws.TableRow

/-- The command is legal, its word matches its row, and the word decodes to it. -/
def Statement (i : Instr) : Prop :=
  i.wellFormed = true ∧ i.row.matches (encode i) = true ∧ decode (encode i) = .ok i

theorem nop : Statement .nop := ⟨by decide, by decide, by decide⟩
theorem setkeyEcb : Statement .setkeyEcb := ⟨by decide, by decide, by decide⟩
theorem setkeyCbc : Statement .setkeyCbc := ⟨by decide, by decide, by decide⟩
theorem setkeyCts : Statement .setkeyCts := ⟨by decide, by decide, by decide⟩
theorem setkeyEssiv : Statement .setkeyEssiv := ⟨by decide, by decide, by decide⟩
theorem setkeyCtr : Statement .setkeyCtr := ⟨by decide, by decide, by decide⟩
theorem setkeyXctr : Statement .setkeyXctr := ⟨by decide, by decide, by decide⟩
theorem setkeyXts : Statement .setkeyXts := ⟨by decide, by decide, by decide⟩
theorem setkeyCbcmac : Statement .setkeyCbcmac := ⟨by decide, by decide, by decide⟩
theorem setkeyCmac : Statement .setkeyCmac := ⟨by decide, by decide, by decide⟩
theorem setkeyXcbc : Statement .setkeyXcbc := ⟨by decide, by decide, by decide⟩
theorem cryptEcbEnc (sg : Bool) : Statement (.cryptEcbEnc sg) := by
  cases sg <;> exact ⟨by decide, by decide, by decide⟩
theorem cryptEcbDec (sg : Bool) : Statement (.cryptEcbDec sg) := by
  cases sg <;> exact ⟨by decide, by decide, by decide⟩
theorem cryptCbcEnc (sg : Bool) : Statement (.cryptCbcEnc sg) := by
  cases sg <;> exact ⟨by decide, by decide, by decide⟩
theorem cryptCbcDec (sg : Bool) : Statement (.cryptCbcDec sg) := by
  cases sg <;> exact ⟨by decide, by decide, by decide⟩
theorem cryptCtsEnc (sg : Bool) : Statement (.cryptCtsEnc sg) := by
  cases sg <;> exact ⟨by decide, by decide, by decide⟩
theorem cryptCtsDec (sg : Bool) : Statement (.cryptCtsDec sg) := by
  cases sg <;> exact ⟨by decide, by decide, by decide⟩
theorem cryptEssivEnc (sg : Bool) : Statement (.cryptEssivEnc sg) := by
  cases sg <;> exact ⟨by decide, by decide, by decide⟩
theorem cryptEssivDec (sg : Bool) : Statement (.cryptEssivDec sg) := by
  cases sg <;> exact ⟨by decide, by decide, by decide⟩
theorem cryptCtrEnc (sg : Bool) : Statement (.cryptCtrEnc sg) := by
  cases sg <;> exact ⟨by decide, by decide, by decide⟩
theorem cryptCtrDec (sg : Bool) : Statement (.cryptCtrDec sg) := by
  cases sg <;> exact ⟨by decide, by decide, by decide⟩
theorem cryptXctrEnc (sg : Bool) : Statement (.cryptXctrEnc sg) := by
  cases sg <;> exact ⟨by decide, by decide, by decide⟩
theorem cryptXctrDec (sg : Bool) : Statement (.cryptXctrDec sg) := by
  cases sg <;> exact ⟨by decide, by decide, by decide⟩
theorem cryptXtsEnc (first sg : Bool) : Statement (.cryptXtsEnc first sg) := by
  cases first <;> cases sg <;> exact ⟨by decide, by decide, by decide⟩
theorem cryptXtsDec (first sg : Bool) : Statement (.cryptXtsDec first sg) := by
  cases first <;> cases sg <;> exact ⟨by decide, by decide, by decide⟩
theorem macInitCbcmac : Statement .macInitCbcmac := ⟨by decide, by decide, by decide⟩
theorem macInitCmac : Statement .macInitCmac := ⟨by decide, by decide, by decide⟩
theorem macInitXcbc : Statement .macInitXcbc := ⟨by decide, by decide, by decide⟩
theorem macUpdateCbcmac (sg : Bool) : Statement (.macUpdateCbcmac sg) := by
  cases sg <;> exact ⟨by decide, by decide, by decide⟩
theorem macUpdateCmac (sg : Bool) : Statement (.macUpdateCmac sg) := by
  cases sg <;> exact ⟨by decide, by decide, by decide⟩
theorem macUpdateXcbc (sg : Bool) : Statement (.macUpdateXcbc sg) := by
  cases sg <;> exact ⟨by decide, by decide, by decide⟩
theorem macFinupCbcmac (sg : Bool) : Statement (.macFinupCbcmac sg) := by
  cases sg <;> exact ⟨by decide, by decide, by decide⟩
theorem macFinupCmac (sg : Bool) : Statement (.macFinupCmac sg) := by
  cases sg <;> exact ⟨by decide, by decide, by decide⟩
theorem macFinupXcbc (sg : Bool) : Statement (.macFinupXcbc sg) := by
  cases sg <;> exact ⟨by decide, by decide, by decide⟩

end Sys2Proof.Laws.TableRow
end

