-- ==== Sys2Proof/Laws/Plans.lean ====
section
/-! SUPPORT. What the plan of each command is, field by field, read from the command's own fields: the lemmas
that turn a statement about all commands into one about plans (30_encoding.md R98; 40_control.md R113 to
R115). -/

namespace Sys2Proof.Machine

/-- Every meaning runs its plan. -/
theorem exec_eq (i : Instr) (s : State) : exec i s = .next (runCommand (planOf i) s) := by
  cases i <;> rfl

theorem exec_next {i : Instr} {s t : State} (h : exec i s = .next t) : t = runCommand (planOf i) s := by
  rw [exec_eq] at h
  exact (Host.Outcome.next.inj h).symm

/-- The fixed part of a plan. -/
theorem planOf_shape (i : Instr) :
    (planOf i).moves = decide (i.fields.op.toNat ∈ [2, 4, 5]) ∧
    (planOf i).stores = decide (i.fields.op.toNat = 2) ∧
    (planOf i).sg = i.fields.sg ∧
    (planOf i).draws = decide (i = .setkeyEssiv) := by
  cases i <;> exact ⟨rfl, rfl, rfl, rfl⟩

theorem planOf_moves (i : Instr) : (planOf i).moves = decide (i.fields.op.toNat ∈ [2, 4, 5]) :=
  (planOf_shape i).1
theorem planOf_stores (i : Instr) : (planOf i).stores = decide (i.fields.op.toNat = 2) := (planOf_shape i).2.1
theorem planOf_sg (i : Instr) : (planOf i).sg = i.fields.sg := (planOf_shape i).2.2.1

theorem planOf_stores_moves (i : Instr) (h : (planOf i).stores = true) : (planOf i).moves = true := by
  rw [planOf_stores, decide_eq_true_eq] at h
  rw [planOf_moves, h]
  rfl

/-- `N` of a command (R115). -/
theorem planOf_total (i : Instr) (e : Engine) : (planOf i).total e = bytesRead i e.latch := by
  cases i <;> rfl

/-- What an error of a command changes beside the error completion (60_exceptions.md R262). -/
theorem planOf_onError (i : Instr) :
    (planOf i).onError = if i.fields.op.toNat = 1 then Engine.dropKey
      else if i.fields.op.toNat ∈ [3, 4, 5] then Engine.abortMac else id := by
  cases i <;> rfl

/-- Check 2 (R113). -/
theorem planOf_needs (i : Instr) :
    (planOf i).needs = (if i.fields.op.toNat ∈ [2, 3, 4, 5] then some (modeClass i.fields.mode) else none) ∧
    (planOf i).needsMac = if i.fields.op.toNat ∈ [4, 5] then some i.fields.mode else none := by
  cases i <;> exact ⟨rfl, rfl⟩

theorem ite_flip {α : Type} {P Q : Prop} [Decidable P] [Decidable Q] (h : P ↔ ¬ Q) {a b : α} :
    (if P then a else b) = if Q then b else a := by
  by_cases hQ : Q
  · rw [if_neg (fun hP => h.mp hP hQ), if_pos hQ]
  · rw [if_pos (h.mpr hQ), if_neg hQ]

/-- Check 3 (R114, 41_setkey.md R131). -/
theorem planOf_lengthError (i : Instr) (l : Latch) : (planOf i).lengthError l = lengthRule i l := by
  have key : ∀ k : BitVec 7, (k = 16 ∨ k = 24 ∨ k = 32 ↔ k.toNat ∈ [16, 24, 32]) ∧
      (k = 32 ∨ k = 48 ∨ k = 64 ↔ k.toNat ∈ [32, 48, 64]) := by decide
  cases i
  case setkeyXts => exact if_congr (key _).2 rfl rfl
  case setkeyEcb | setkeyCbc | setkeyCts | setkeyEssiv | setkeyCtr | setkeyXctr | setkeyCbcmac | setkeyCmac
    | setkeyXcbc => exact if_congr (key _).1 rfl rfl
  all_goals first
    | rfl
    | exact ite_flip (by omega)

theorem Engine.not_keyFor {e : Engine} {c : KeyClass} :
    (!e.slot.valid || e.slot.cls != c) = true ↔ ¬ e.keyFor c := by
  unfold Engine.keyFor
  cases e.slot.valid <;> simp

/-- The checks of a command, in their order: KeyNotSet, SequenceError, the length error. -/
theorem planOf_checkError (i : Instr) (e : Engine) :
    (i.fields.op.toNat ∈ [2, 3, 4, 5] ∧ ¬ e.keyFor (modeClass i.fields.mode) →
      (planOf i).checkError e = some .keyNotSet) ∧
    ((i.fields.op.toNat ∈ [2, 3, 4, 5] → e.keyFor (modeClass i.fields.mode)) →
      i.fields.op.toNat ∈ [4, 5] → ¬ (e.macActive = true ∧ e.macMode = i.fields.mode) →
      (planOf i).checkError e = some .sequenceError) ∧
    (keyAndMacOk i e → (planOf i).checkError e = lengthRule i e.latch) := by
  obtain ⟨h1, h2⟩ := planOf_needs i
  simp only [Plan.checkError, Plan.stateError, h1, h2, planOf_lengthError]
  refine ⟨?_, ?_, ?_⟩
  · rintro ⟨ho, hk⟩
    simp [ho, Engine.not_keyFor.mpr hk]
  · intro hk ho hm
    have ho' : i.fields.op.toNat ∈ [2, 3, 4, 5] := by
      simp only [List.mem_cons, List.not_mem_nil, or_false] at ho ⊢; omega
    have hk' : ¬ (!e.slot.valid || e.slot.cls != modeClass i.fields.mode) = true :=
      fun h => Engine.not_keyFor.mp h (hk ho')
    have hm' : (!e.macActive || e.macMode != i.fields.mode) = true := by
      cases hA : e.macActive <;> simp_all
    rw [if_pos ho', if_pos ho]
    simp only [Option.any_some, hk', hm', if_true, Bool.false_eq_true, if_false]
  · rintro ⟨hk, hm⟩
    have a : ((if i.fields.op.toNat ∈ [2, 3, 4, 5] then some (modeClass i.fields.mode) else none).any
        fun c => !e.slot.valid || e.slot.cls != c) = false := by
      split
      · rename_i ho
        rw [Option.any_some, Bool.eq_false_iff]
        exact fun h => Engine.not_keyFor.mp h (hk ho)
      · rfl
    have b : ((if i.fields.op.toNat ∈ [4, 5] then some i.fields.mode else none).any
        fun m => !e.macActive || e.macMode != m) = false := by
      split
      · rename_i ho
        simp [(hm ho).1, (hm ho).2]
      · rfl
    rw [a, b]
    rfl

end Sys2Proof.Machine
end

