-- ==== Sys2Proof/Laws/Races.lean ====
section
/-! SUPPORT. What the operations on shared memory do: a shared write, a reader's view of memory, the settling of
races, and what one engine step writes. -/

namespace Sys2Proof.Machine

/-! ### Shared writes -/

/-- A shared write stores the bytes and adds to the records; nothing else changes. -/
theorem State.sharedWrite_eq (s : State) (x : Agent) (a : Nat) (b : Bytes) :
    ∃ rs, s.sharedWrite x a b = { s with mem := s.mem.writeBytes a b, races := rs } := by
  induction b generalizing s a with
  | nil => exact ⟨s.races, rfl⟩
  | cons v vs ih => exact ih _ (a + 1)

@[simp] theorem State.sharedWrite_mem (s : State) (x : Agent) (a : Nat) (b : Bytes) :
    (s.sharedWrite x a b).mem = s.mem.writeBytes a b := by
  obtain ⟨rs, h⟩ := s.sharedWrite_eq x a b
  rw [h]

@[simp] theorem State.sharedWrite_before (s : State) (x : Agent) (a : Nat) (b : Bytes) :
    (s.sharedWrite x a b).before = s.before := by
  obtain ⟨rs, h⟩ := s.sharedWrite_eq x a b
  rw [h]

@[simp] theorem State.sharedWrite_eng (s : State) (x : Agent) (a : Nat) (b : Bytes) :
    (s.sharedWrite x a b).eng = s.eng := by
  obtain ⟨rs, h⟩ := s.sharedWrite_eq x a b
  rw [h]

@[simp] theorem State.sharedWrite_after (s : State) (x : Agent) (a : Nat) (b : Bytes) :
    (s.sharedWrite x a b).after = s.after := by
  obtain ⟨rs, h⟩ := s.sharedWrite_eq x a b
  rw [h]

@[simp] theorem State.sharedWrite_platform (s : State) (x : Agent) (a : Nat) (b : Bytes) :
    (s.sharedWrite x a b).platform = s.platform := by
  obtain ⟨rs, h⟩ := s.sharedWrite_eq x a b
  rw [h]

@[simp] theorem State.sharedWrite_turns (s : State) (x : Agent) (a : Nat) (b : Bytes) :
    (s.sharedWrite x a b).turns = s.turns := by
  obtain ⟨rs, h⟩ := s.sharedWrite_eq x a b
  rw [h]

@[simp] theorem State.sharedWrite_draws (s : State) (x : Agent) (a : Nat) (b : Bytes) :
    (s.sharedWrite x a b).draws = s.draws := by
  obtain ⟨rs, h⟩ := s.sharedWrite_eq x a b
  rw [h]

@[simp] theorem State.sharedWrite_seen (s : State) (x : Agent) (a : Nat) (b : Bytes) :
    (s.sharedWrite x a b).seen = s.seen := by
  obtain ⟨rs, h⟩ := s.sharedWrite_eq x a b
  rw [h]

/-- What an engine step writes is stored and recorded; nothing else changes. -/
theorem State.sharedWrites_eq (s : State) (x : Agent) (w : Option (Nat × Bytes)) :
    ∃ rs, s.sharedWrites x w =
      { s with mem := (match w with | none => s.mem | some (a, b) => s.mem.writeBytes a b), races := rs } := by
  cases w with
  | none => exact ⟨s.races, rfl⟩
  | some w => exact s.sharedWrite_eq x w.1 w.2

/-! ### One record -/

/-- A writer finds its own write, and else only writes it does not know (20_memory.md R80). -/
theorem Race.mem_values_write (r : Race) (x : Agent) (v u : Byte) :
    u ∈ (r.write x v).values x ↔
      u = v ∨ ∃ w ∈ r.writes, w.value = u ∧ x ∉ w.known ∧ x ∉ w.stale := by
  simp only [Race.values, Race.found, Race.write, List.mem_map, List.mem_filter, List.mem_append,
    List.mem_singleton, List.contains_eq_mem]
  constructor
  · rintro ⟨w, ⟨⟨w', hw', rfl⟩ | rfl, hs⟩, rfl⟩
    · by_cases hk : x ∈ w'.known
      · simp [hk] at hs
      · simp only [hk, decide_false, Bool.false_eq_true, if_false] at hs ⊢
        exact .inr ⟨w', hw', rfl, hk, by simpa using hs⟩
    · exact .inl rfl
  · rintro (rfl | ⟨w, hw, rfl, hk, hs⟩)
    · exact ⟨_, ⟨.inr rfl, by simp⟩, rfl⟩
    · exact ⟨w, ⟨.inl ⟨w, hw, by simp [hk]⟩, by simp [hs]⟩, rfl⟩

/-- Another agent finds a write beside all it found before. -/
theorem Race.values_write_other (r : Race) {x y : Agent} (h : y ≠ x) (v : Byte) :
    (r.write x v).values y = r.values y ++ [v] := by
  have hy : ∀ w : RaceWrite,
      (if w.known.contains x then { w with stale := w.stale.insert x } else w).stale.contains y =
        w.stale.contains y := by
    intro w
    split
    · simp only [List.contains_eq_mem, List.mem_insert_iff, h, false_or]
    · rfl
  have hv : ∀ w : RaceWrite,
      (if w.known.contains x then { w with stale := w.stale.insert x } else w).value = w.value := by
    intro w
    split <;> rfl
  unfold Race.values Race.found Race.write
  simp only [List.filter_append, List.map_append]
  congr 1
  generalize r.writes = l
  induction l with
  | nil => rfl
  | cons w l ih =>
    rw [List.map_cons, List.filter_cons, List.filter_cons]
    simp only [hy]
    split
    · simp only [List.map_cons, hv, ih]
    · exact ih

/-- A command that starts finds what the host finds (20_memory.md R78). -/
theorem Race.start_values (r : Race) (k : Nat) : (r.start k).values (.engine k) = (r.start k).values .host := by
  unfold Race.values Race.found Race.start
  congr 1
  refine List.filter_congr fun w hw => ?_
  obtain ⟨w', _, rfl⟩ := List.mem_map.mp hw
  simp only [RaceWrite.tell, RaceWrite.forget, List.contains_eq_mem]
  by_cases hs : Agent.host ∈ w'.stale
  · have : Agent.host ∈ w'.stale.filter (· != .engine k) := List.mem_filter.mpr ⟨hs, rfl⟩
    simp [this]
  · simp [hs]

/-- Where the content is settled, the host finds that content, and else only writes it does not know. -/
theorem Race.mem_found_settleOn {r : Race} {w x : RaceWrite} (hw : w ∈ r.candidates)
    (hx : x ∈ (r.settleOn w).found .host) : x = w ∨ x ∈ r.writes ∧ Agent.host ∉ x.known := by
  have hk : Agent.host ∈ w.known := by simpa using (List.mem_filter.mp hw).2
  obtain ⟨hm, hs⟩ := List.mem_filter.mp hx
  rcases List.mem_append.mp hm with hm | hm
  · obtain ⟨y, hy, rfl⟩ := List.mem_map.mp hm
    by_cases hh : Agent.host ∈ y.known
    · simp [hh, hk] at hs
    · simp only [List.contains_eq_mem, hh, decide_false, Bool.false_eq_true, if_false]
      exact .inr ⟨List.mem_of_mem_erase hy, by simp⟩
  · exact .inl (List.mem_singleton.mp hm)

/-- A host write leaves the host that one content. -/
theorem Race.candidates_write_host (r : Race) (v : Byte) : (r.write .host v).candidates = [⟨v, [.host], []⟩] := by
  unfold Race.candidates Race.found Race.write
  simp only [List.filter_append, List.filter_filter]
  rw [List.filter_eq_nil_iff.mpr, List.nil_append]
  · rfl
  · rintro w hw h
    obtain ⟨w, _, rfl⟩ := List.mem_map.mp hw
    by_cases hk : Agent.host ∈ w.known <;> simp [hk] at h

/-- Where the content is settled, it is the one content the host knows. -/
theorem Race.candidates_settleOn {r : Race} {w : RaceWrite} (hw : w ∈ r.candidates) :
    (r.settleOn w).candidates = [w] := by
  have hk : Agent.host ∈ w.known := by simpa using (List.mem_filter.mp hw).2
  have hs : Agent.host ∉ w.stale := by
    simpa [Race.found] using (List.mem_filter.mp (List.mem_filter.mp hw).1).2
  unfold Race.candidates Race.found Race.settleOn
  simp only [List.filter_append, List.filter_filter]
  rw [List.filter_eq_nil_iff.mpr, List.nil_append]
  · simp [hk, hs]
  · rintro x hx h
    obtain ⟨x, _, rfl⟩ := List.mem_map.mp hx
    by_cases hh : Agent.host ∈ x.known <;> simp [hh, hk] at h

@[simp] theorem Race.write_addr (r : Race) (x : Agent) (v : Byte) : (r.write x v).addr = r.addr := rfl
@[simp] theorem Race.start_addr (r : Race) (k : Nat) : (r.start k).addr = r.addr := rfl
@[simp] theorem Race.finish_addr (r : Race) (k : Nat) : (r.finish k).addr = r.addr := rfl
@[simp] theorem Race.settleOn_addr (r : Race) (w : RaceWrite) : (r.settleOn w).addr = r.addr := rfl

/-! ### Draws -/

/-- A draw is one of the values. -/
theorem draw_mem {α : Type} (v : α) (vs : List α) (d : Nat) : (draw v vs d).1 ∈ v :: vs := by
  cases vs with
  | nil => exact List.mem_cons_self
  | cons w ws =>
    have h : Config.raceDraw d % ((w :: ws).length + 1) < (v :: w :: ws).length := Nat.mod_lt _ (Nat.succ_pos _)
    simp only [draw, List.getD_eq_getElem _ _ h]
    exact List.getElem_mem h

/-- A single value takes no draw. -/
theorem draw_single {α : Type} (v : α) (vs : List α) (d : Nat) (h : (v :: vs).length ≤ 1) :
    (draw v vs d).2 = d := by
  cases vs with
  | nil => rfl
  | cons => simp at h

/-- Putting a byte changes memory at its address only. -/
theorem State.putByte_eq (s : State) (a : Addr) (v : Byte) :
    ∃ mem, s.putByte a v = { s with mem := mem } ∧ (s.mem.wf = true → mem.wf = true) ∧
      (∀ b : Addr, mem.read b.toNat = if b = a then v else s.mem.read b.toNat) ∧
      (s.mem.read a.toNat = v → mem = s.mem) := by
  refine ⟨_, rfl, fun w => ?_, fun b => ?_, fun h => if_pos h⟩
  · split
    · exact w
    · exact Memory.wf_set a.isLt w
  · by_cases e : b = a
    · subst e
      rw [if_pos rfl]
      split
      · assumption
      · rw [Memory.read_set, if_pos rfl]
    · rw [if_neg e]
      split
      · rfl
      · rw [Memory.read_set, if_neg fun h => e (BitVec.eq_of_toNat_eq h)]

/-- A drawn byte changes memory at its address and the count of draws; nothing else. -/
theorem State.drawByte_eq (s : State) (a : Addr) (vs : List Byte) :
    ∃ mem d, s.drawByte a vs = { s with mem := mem, draws := d } ∧
      (s.mem.wf = true → mem.wf = true) ∧
      (∀ b : Addr, if b = a ∧ vs ≠ [] then mem.read b.toNat ∈ vs else mem.read b.toNat = s.mem.read b.toNat) ∧
      (vs = [] → mem = s.mem ∧ d = s.draws) := by
  cases vs with
  | nil => exact ⟨s.mem, s.draws, rfl, id, fun b => by simp, fun _ => ⟨rfl, rfl⟩⟩
  | cons v vs =>
    obtain ⟨mem, h, w, r, _⟩ := State.putByte_eq { s with draws := (draw v vs s.draws).2 } a (draw v vs s.draws).1
    refine ⟨mem, (draw v vs s.draws).2, h, w, fun b => ?_, fun h => by simp at h⟩
    by_cases e : b = a
    · rw [if_pos ⟨e, List.cons_ne_nil v vs⟩, r, if_pos e]
      exact draw_mem v vs s.draws
    · rw [if_neg (fun h => e h.1), r, if_neg e]

/-- Drawing bytes one after another, by values that depend on the records only. -/
theorem State.drawBytes_eq (f : Addr → List Byte) (as : List Addr) (s : State) :
    ∃ mem d, as.foldl (fun t a => t.drawByte a (f a)) s = { s with mem := mem, draws := d } ∧
      (s.mem.wf = true → mem.wf = true) ∧
      ∀ b : Addr, if b ∈ as ∧ f b ≠ [] then mem.read b.toNat ∈ f b else mem.read b.toNat = s.mem.read b.toNat := by
  induction as generalizing s with
  | nil => exact ⟨s.mem, s.draws, rfl, id, fun b => by simp⟩
  | cons a as ih =>
    obtain ⟨m1, d1, h1, w1, r1, _⟩ := s.drawByte_eq a (f a)
    obtain ⟨m2, d2, h2, w2, r2⟩ := ih { s with mem := m1, draws := d1 }
    refine ⟨m2, d2, ?_, fun w => w2 (w1 w), fun b => ?_⟩
    · rw [List.foldl_cons, h1, h2]
    · have q1 := r1 b
      have q2 := r2 b
      by_cases hb : b ∈ as ∧ f b ≠ []
      · rw [if_pos hb] at q2
        rw [if_pos ⟨List.mem_cons_of_mem _ hb.1, hb.2⟩]
        exact q2
      · rw [if_neg hb] at q2
        by_cases ha : b = a ∧ f a ≠ []
        · rw [if_pos ha] at q1
          obtain ⟨rfl, hf⟩ := ha
          rw [if_pos ⟨List.mem_cons_self, hf⟩, q2]
          exact q1
        · rw [if_neg ha] at q1
          rw [if_neg, q2]
          · exact q1
          · rintro ⟨hm, hf⟩
            rcases List.mem_cons.mp hm with rfl | hm
            · exact ha ⟨rfl, hf⟩
            · exact hb ⟨hm, hf⟩

/-- What a reader finds: a racing byte has one of its admitted values, any other byte its own; nothing but
memory and the count of draws differs. -/
theorem State.seenBy_eq (s : State) (reader : Agent) :
    ∃ mem d, s.seenBy reader = { s with mem := mem, draws := d } ∧ (s.mem.wf = true → mem.wf = true) ∧
      ∀ a : Addr, if s.raceValues reader a = [] then mem.read a.toNat = s.mem.read a.toNat
        else mem.read a.toNat ∈ s.raceValues reader a := by
  have fold : ∀ (as : List Addr) (t : State), t.races = s.races →
      as.foldl (fun t a => t.drawByte a (t.raceValues reader a)) t =
        as.foldl (fun t a => t.drawByte a (s.raceValues reader a)) t := by
    intro as
    induction as with
    | nil => intros; rfl
    | cons a as ih =>
      intro t ht
      have hv : t.raceValues reader a = s.raceValues reader a := by simp only [State.raceValues, ht]
      rw [List.foldl_cons, List.foldl_cons, hv]
      obtain ⟨m, d, e, _⟩ := t.drawByte_eq a (s.raceValues reader a)
      exact ih _ (by rw [e]; exact ht)
  obtain ⟨mem, d, h, w, r⟩ := State.drawBytes_eq (s.raceValues reader) (s.races.map (·.addr)).dedup s
  refine ⟨mem, d, ?_, w, fun a => ?_⟩
  · unfold State.seenBy
    rw [fold _ s rfl]
    exact h
  · have q := r a
    by_cases hv : s.raceValues reader a = []
    · rw [if_neg (fun e => e.2 hv)] at q
      rw [if_pos hv]
      exact q
    · rw [if_neg hv]
      rw [if_pos] at q
      · exact q
      · refine ⟨?_, hv⟩
        rw [List.mem_dedup, List.mem_map]
        by_contra hn
        refine hv ?_
        rw [State.raceValues, List.filter_eq_nil_iff.mpr, List.flatMap_nil]
        intro x hx hb
        exact hn ⟨x, hx, by simpa using hb⟩

/-- With no record every reader finds memory as it is. -/
@[simp] theorem State.seenBy_quiet {s : State} (h : s.races = []) (reader : Agent) : s.seenBy reader = s := by
  simp [State.seenBy, h]

/-! ### The ordering points -/

/-- Settling one record draws its byte where the host knows a value of it, and keeps a record of its address. -/
theorem State.settleRace_eq (s : State) (r : Race) :
    ∃ mem d q, s.settleRace r = { s with mem := mem, draws := d, races := s.races ++ [q] } ∧
      q.addr = r.addr ∧ (s.mem.wf = true → mem.wf = true) ∧ (r.candidates.length ≤ 1 → d = s.draws) ∧
      (q = r ∧ r.candidates = [] ∧ mem = s.mem ∨
        ∃ w ∈ r.candidates, q = r.settleOn w ∧
          (∀ b : Addr, mem.read b.toNat = if b = r.addr then w.value else s.mem.read b.toNat) ∧
          (s.mem.read r.addr.toNat = w.value → mem = s.mem)) := by
  unfold State.settleRace
  cases hc : r.candidates with
  | nil => exact ⟨s.mem, s.draws, r, rfl, rfl, id, fun _ => rfl, .inl ⟨rfl, rfl, rfl⟩⟩
  | cons w ws =>
    obtain ⟨mem, h, wf, rd, e⟩ := State.putByte_eq
      { s with races := s.races ++ [r.settleOn (draw w ws s.draws).1], draws := (draw w ws s.draws).2 }
      r.addr (draw w ws s.draws).1.value
    exact ⟨mem, (draw w ws s.draws).2, r.settleOn (draw w ws s.draws).1, h, rfl, wf, draw_single w ws s.draws,
      .inr ⟨_, draw_mem w ws s.draws, rfl, rd, e⟩⟩

/-- Settling records changes memory, the count of draws and the records only; memory not at all where it holds
what every record settles on, and the count not where each settles on one write. -/
theorem State.settleRaces_eq (qs : List Race) (s : State) :
    ∃ mem d rs, qs.foldl State.settleRace s = { s with mem := mem, draws := d, races := s.races ++ rs } ∧
      rs.map (·.addr) = qs.map (·.addr) ∧ (s.mem.wf = true → mem.wf = true) ∧
      ((∀ q ∈ qs, ∀ w ∈ q.candidates, s.mem.read q.addr.toNat = w.value) → mem = s.mem) ∧
      ((∀ q ∈ qs, q.candidates.length ≤ 1) → d = s.draws) := by
  induction qs generalizing s with
  | nil => exact ⟨s.mem, s.draws, [], by simp, rfl, id, fun _ => rfl, fun _ => rfl⟩
  | cons q qs ih =>
    obtain ⟨m1, d1, q1, h1, a1, w1, n1, c1⟩ := s.settleRace_eq q
    obtain ⟨m2, d2, rs, h2, a2, w2, c2, n2⟩ := ih { s with mem := m1, draws := d1, races := s.races ++ [q1] }
    refine ⟨m2, d2, q1 :: rs, ?_, by simp [a1, a2], fun w => w2 (w1 w), fun h => ?_, fun h =>
      (n2 fun x hx => h x (List.mem_cons_of_mem _ hx)).trans (n1 (h q List.mem_cons_self))⟩
    · rw [List.foldl_cons, h1, h2]
      simp
    · have e1 : m1 = s.mem := by
        rcases c1 with ⟨_, _, e⟩ | ⟨w, hw, _, _, e⟩
        · exact e
        · exact e (h q List.mem_cons_self w hw)
      subst e1
      exact c2 fun x hx => h x (List.mem_cons_of_mem _ hx)

/-- The end of a command changes memory, the count of draws and the records only; memory not at all where it holds
what every record settles on, and the count not where each settles on one write. -/
theorem State.finishRaces_eq (s : State) :
    ∃ mem d rs, s.finishRaces = { s with mem := mem, draws := d, races := rs } ∧
      (s.mem.wf = true → mem.wf = true) ∧ (s.busyInstances = [] → rs = []) ∧
      ((∀ q ∈ s.races, ∀ v ∈ q.finalValues s.before.length, s.mem.read q.addr.toNat = v) → mem = s.mem) ∧
      ((∀ q ∈ s.races, (q.finish s.before.length).candidates.length ≤ 1) → d = s.draws) := by
  obtain ⟨mem, d, rs, h, _, w, c, n⟩ :=
    State.settleRaces_eq (s.races.map (·.finish s.before.length)) { s with races := [] }
  have keep : (∀ q ∈ s.races, ∀ v ∈ q.finalValues s.before.length, s.mem.read q.addr.toNat = v) → mem = s.mem := by
    refine fun hq => c fun q hm x hx => ?_
    obtain ⟨q, hm', rfl⟩ := List.mem_map.mp hm
    exact hq q hm' _ (List.mem_map.mpr ⟨x, hx, rfl⟩)
  have one : (∀ q ∈ s.races, (q.finish s.before.length).candidates.length ≤ 1) → d = s.draws :=
    fun hq => n fun q hm => by
      obtain ⟨q, hm', rfl⟩ := List.mem_map.mp hm
      exact hq q hm'
  unfold State.finishRaces State.dropRaces
  rw [h]
  split
  · exact ⟨mem, d, [], rfl, w, fun _ => rfl, keep, one⟩
  · rename_i hb
    exact ⟨mem, d, rs, rfl, w, fun h => absurd h hb, keep, one⟩

/-- An ordering point changes memory, the count of draws and the records only; with no record, nothing. -/
theorem State.ordered_eq (s : State) (was : Bool) :
    ∃ mem d rs, s.ordered was = { s with mem := mem, draws := d, races := rs } ∧
      (s.mem.wf = true → mem.wf = true) ∧
      ((was = true → s.eng.busy = false →
        ∀ q ∈ s.races, ∀ v ∈ q.finalValues s.before.length, s.mem.read q.addr.toNat = v) → mem = s.mem) := by
  unfold State.ordered
  cases was <;> cases hb : s.eng.busy
  · exact ⟨s.mem, s.draws, s.races, rfl, id, fun _ => rfl⟩
  · exact ⟨s.mem, s.draws, _, rfl, id, fun _ => rfl⟩
  · obtain ⟨mem, d, rs, h, w, _, c, _⟩ := s.finishRaces_eq
    exact ⟨mem, d, rs, h, w, fun hq => c (hq rfl rfl)⟩
  · exact ⟨s.mem, s.draws, s.races, rfl, id, fun _ => rfl⟩

/-- With no record an ordering point leaves everything. -/
@[simp] theorem State.ordered_quiet {s : State} (h : s.races = []) (was : Bool) : s.ordered was = s := by
  obtain ⟨bs, e, as, m, p, ts, d, rs, se⟩ := s
  obtain rfl : rs = [] := h
  cases was <;> cases hb : e.busy <;>
    simp [State.ordered, hb, State.finishRaces, State.startRaces, State.dropRaces]

/-! ### What one engine step writes -/

/-- A `Work` update by a plan's computation leaves the position alone. -/
def Plan.keepsPos (p : Plan) : Prop :=
  ∀ (e : Engine) (t : Bool) (b : Bytes), (p.compute e t b).2.pos = e.work.pos

theorem planOf_keepsPos (i : Instr) : (planOf i).keepsPos := by
  intro e t b
  cases i
  case cryptCtrEnc | cryptCtrDec => cases t <;> simp [planOf, planCryptCtrEnc, planCryptCtrDec, ctrPlan,
    Plan.crypt, Plan.compute, ctrBlock, ctrTail]
  case cryptXtsEnc | cryptXtsDec => cases t <;> simp [planOf, planCryptXtsEnc, planCryptXtsDec,
    Plan.crypt, Plan.compute, xtsBlock, xtsEncUnit, xtsDecUnit]
  all_goals cases t <;> rfl

/-- Passing on through the phases leaves no output behind. -/
theorem Plan.settle_unitOut (p : Plan) (e : Engine) : (p.settle e).unitOut = e.unitOut := by
  have a : (p.settleMap e).unitOut = e.unitOut := by
    unfold Plan.settleMap
    split
    · rfl
    · split
      · rfl
      · split <;> rfl
  have b : ∀ e : Engine, (p.settleBulk e).unitOut = e.unitOut := by
    intro e
    unfold Plan.settleBulk
    split <;> rfl
  have c : ∀ e : Engine, (p.settleTail e).unitOut = e.unitOut := by
    intro e
    unfold Plan.settleTail
    split <;> rfl
  rw [Plan.settle, c, b, a]

/-- The write of a unit's next piece. -/
theorem Plan.writeStep_mem (p : Plan) (s : State) (out : Bytes) :
    (p.writeStep s out).mem =
      match pieces s.eng.dstMap (s.eng.work.pos + (p.unitLen s.eng - out.length)) out.length with
      | [] => s.mem
      | (a, n) :: _ =>
        if s.accessOk a (out.take n).length .write then s.mem.writeBytes a (out.take n) else s.mem := by
  simp only [Plan.writeStep]
  generalize pieces _ _ _ = ps
  cases ps with
  | nil => rfl
  | cons q _ =>
    obtain ⟨a, n⟩ := q
    simp only [State.memWrite]
    by_cases h : s.accessOk a (out.take n).length .write = true
    · simp only [if_pos h]
      split <;> rfl
    · simp only [if_neg h]
      rfl

/-- A command's engine step changes memory by what `nextWrite` says. -/
theorem Plan.engineStep_mem {p : Plan} (hp : p.keepsPos) (s : State) :
    (engineStep p s).mem =
      match p.nextWrite s with
      | none => s.mem
      | some (a, b) => s.mem.writeBytes a b := by
  have transfer : ∀ x : Bool, (s.eng.phase == .tail) = x → (s.eng.phase = .bulk ∨ s.eng.phase = .tail) →
      (p.transferStep s).mem = match p.nextWrite s with
        | none => s.mem
        | some (a, b) => s.mem.writeBytes a b := by
    intro x _ hx
    have ht : (s.eng.phase == .bulk || s.eng.phase == .tail) = true := by
      rcases hx with h | h <;> rw [h] <;> rfl
    unfold Plan.transferStep Plan.nextWrite Plan.pendingOut
    rw [if_pos ht]
    cases hu : s.eng.unitOut with
    | some out =>
      simp only [Plan.writeStep_mem]
      cases pieces s.eng.dstMap (s.eng.work.pos + (p.unitLen s.eng - out.length)) out.length with
      | nil => rfl
      | cons q _ => simp only; split <;> rfl
    | none =>
      simp only
      by_cases hl : s.eng.unitIn.length < p.unitLen s.eng
      · rw [if_pos hl, if_pos (Or.inl hl)]
        unfold Plan.readStep
        simp only
        split
        · rfl
        · split
          · rfl
          · split
            · rename_i hc
              simp only [Plan.computeUnit, hc.2]
              rfl
            · rfl
      · rw [if_neg hl]
        cases hs : p.stores with
        | false =>
          rw [if_pos (Or.inr rfl)]
          simp only [Plan.computeUnit, hs, Bool.false_eq_true, if_false, Plan.endUnit, State.setEng_eng,
            Plan.settle_unitOut]
          rfl
        | true =>
          rw [if_neg (by simp [hl])]
          simp only [Plan.computeUnit, hs, if_true, State.setEng_eng, Plan.writeStep_mem]
          have hpos := hp s.eng (s.eng.phase == .tail) s.eng.unitIn
          simp only [Plan.unitLen, Plan.total] at hpos ⊢
          simp only [Engine.reqLen, hpos]
          generalize pieces _ _ _ = ps
          cases ps with
          | nil => rfl
          | cons q _ =>
            simp only
            have ha : ∀ (e : Engine) a n k, (s.setEng e).accessOk a n k = s.accessOk a n k := fun _ _ _ _ => rfl
            rw [ha]
            split <;> rfl
  have none_of : (s.eng.phase == .bulk || s.eng.phase == .tail) = false → p.nextWrite s = none := by
    intro h
    unfold Plan.nextWrite Plan.pendingOut
    rw [h]
    rfl
  unfold engineStep
  cases hph : s.eng.phase with
  | bulk => exact transfer false (by rw [hph]; rfl) (.inl hph)
  | tail => exact transfer true (by rw [hph]; rfl) (.inr hph)
  | idle => rw [none_of (by rw [hph]; rfl)]
  | check =>
    rw [none_of (by rw [hph]; rfl)]
    simp only [Plan.checkStep]
    split <;> rfl
  | map =>
    rw [none_of (by rw [hph]; rfl)]
    simp only [Plan.mapStep]
    repeat' first | rfl | split
  | seed =>
    rw [none_of (by rw [hph]; rfl)]
    simp only [Plan.seedStep, Plan.runSeed]
    cases p.seed (Config.hashFail s.draws) s.eng <;> cases p.draws <;> rfl
  | commit =>
    rw [none_of (by rw [hph]; rfl)]
    rfl

/-- An engine step of an instance changes memory by what `nextWrite` says. -/
theorem microStep_mem (s : State) :
    (microStep s).mem =
      match s.nextWrite with
      | none => s.mem
      | some (a, b) => s.mem.writeBytes a b := by
  unfold microStep State.nextWrite
  cases s.eng.busy with
  | false => rfl
  | true =>
    simp only [if_true]
    cases decode s.eng.latch.cmd with
    | error _ => rfl
    | ok i => exact Plan.engineStep_mem (planOf_keepsPos i) s

/-- What one engine step among other agents does: the command sees memory as `seenBy` gives it, and memory
itself changes by the write of the step and by the settling of races. -/
theorem racedStep_eq (s : State) :
    ∃ t : State, t.mem = (match (s.seenBy (.engine s.before.length)).nextWrite with
        | none => s.mem
        | some (a, b) => s.mem.writeBytes a b) ∧
      (∃ rs, t = { microStep (s.seenBy (.engine s.before.length)) with mem := t.mem, races := rs }) ∧
      racedStep s = t.ordered s.eng.busy := by
  obtain ⟨rs, h⟩ := State.sharedWrites_eq { microStep (s.seenBy (.engine s.before.length)) with mem := s.mem }
    (.engine s.before.length) (s.seenBy (.engine s.before.length)).nextWrite
  exact ⟨_, by rw [h], ⟨rs, h.trans (by rw [h])⟩, rfl⟩

end Sys2Proof.Machine
end

