-- ==== Sys2Proof/Tests/Slice0.lean ====
section
/-! SUPPORT. Tests of the model on words and values written out from the spec (the rule stands at each), and for
every obligation with hypotheses a state and operands that meet them. -/

open Sys2Proof Sys2Proof.Machine

namespace Sys2Proof.Tests

/-! ### Decoding: words written bit by bit from 30_encoding.md R91 to R96 (reserved, SG, FIRST, DIR, MODE, OP) -/

theorem test_decode_nop :
    decode 0b000000000000000000000_0_0_0_0000_0000#32 = .ok .nop := by decide
theorem test_decode_setkeyEcb :
    decode 0b000000000000000000000_0_0_0_0000_0001#32 = .ok .setkeyEcb := by decide
theorem test_decode_setkeyCbc :
    decode 0b000000000000000000000_0_0_0_0001_0001#32 = .ok .setkeyCbc := by decide
theorem test_decode_setkeyCts :
    decode 0b000000000000000000000_0_0_0_0010_0001#32 = .ok .setkeyCts := by decide
theorem test_decode_setkeyEssiv :
    decode 0b000000000000000000000_0_0_0_0011_0001#32 = .ok .setkeyEssiv := by decide
theorem test_decode_setkeyCtr :
    decode 0b000000000000000000000_0_0_0_0100_0001#32 = .ok .setkeyCtr := by decide
theorem test_decode_setkeyXctr :
    decode 0b000000000000000000000_0_0_0_0101_0001#32 = .ok .setkeyXctr := by decide
theorem test_decode_setkeyXts :
    decode 0b000000000000000000000_0_0_0_0110_0001#32 = .ok .setkeyXts := by decide
theorem test_decode_setkeyCbcmac :
    decode 0b000000000000000000000_0_0_0_1000_0001#32 = .ok .setkeyCbcmac := by decide
theorem test_decode_setkeyCmac :
    decode 0b000000000000000000000_0_0_0_1001_0001#32 = .ok .setkeyCmac := by decide
theorem test_decode_setkeyXcbc :
    decode 0b000000000000000000000_0_0_0_1010_0001#32 = .ok .setkeyXcbc := by decide
theorem test_decode_cryptEcbEnc :
    decode 0b000000000000000000000_0_0_0_0000_0010#32 = .ok (.cryptEcbEnc false) ∧
    decode 0b000000000000000000000_1_0_0_0000_0010#32 = .ok (.cryptEcbEnc true) := by decide
theorem test_decode_cryptEcbDec :
    decode 0b000000000000000000000_0_0_1_0000_0010#32 = .ok (.cryptEcbDec false) ∧
    decode 0b000000000000000000000_1_0_1_0000_0010#32 = .ok (.cryptEcbDec true) := by decide
theorem test_decode_cryptCbcEnc :
    decode 0b000000000000000000000_0_0_0_0001_0010#32 = .ok (.cryptCbcEnc false) ∧
    decode 0b000000000000000000000_1_0_0_0001_0010#32 = .ok (.cryptCbcEnc true) := by decide
theorem test_decode_cryptCbcDec :
    decode 0b000000000000000000000_0_0_1_0001_0010#32 = .ok (.cryptCbcDec false) ∧
    decode 0b000000000000000000000_1_0_1_0001_0010#32 = .ok (.cryptCbcDec true) := by decide
theorem test_decode_cryptCtsEnc :
    decode 0b000000000000000000000_0_0_0_0010_0010#32 = .ok (.cryptCtsEnc false) ∧
    decode 0b000000000000000000000_1_0_0_0010_0010#32 = .ok (.cryptCtsEnc true) := by decide
theorem test_decode_cryptCtsDec :
    decode 0b000000000000000000000_0_0_1_0010_0010#32 = .ok (.cryptCtsDec false) ∧
    decode 0b000000000000000000000_1_0_1_0010_0010#32 = .ok (.cryptCtsDec true) := by decide
theorem test_decode_cryptEssivEnc :
    decode 0b000000000000000000000_0_0_0_0011_0010#32 = .ok (.cryptEssivEnc false) ∧
    decode 0b000000000000000000000_1_0_0_0011_0010#32 = .ok (.cryptEssivEnc true) := by decide
theorem test_decode_cryptEssivDec :
    decode 0b000000000000000000000_0_0_1_0011_0010#32 = .ok (.cryptEssivDec false) ∧
    decode 0b000000000000000000000_1_0_1_0011_0010#32 = .ok (.cryptEssivDec true) := by decide
theorem test_decode_cryptCtrEnc :
    decode 0b000000000000000000000_0_0_0_0100_0010#32 = .ok (.cryptCtrEnc false) ∧
    decode 0b000000000000000000000_1_0_0_0100_0010#32 = .ok (.cryptCtrEnc true) := by decide
theorem test_decode_cryptCtrDec :
    decode 0b000000000000000000000_0_0_1_0100_0010#32 = .ok (.cryptCtrDec false) ∧
    decode 0b000000000000000000000_1_0_1_0100_0010#32 = .ok (.cryptCtrDec true) := by decide
theorem test_decode_cryptXctrEnc :
    decode 0b000000000000000000000_0_0_0_0101_0010#32 = .ok (.cryptXctrEnc false) ∧
    decode 0b000000000000000000000_1_0_0_0101_0010#32 = .ok (.cryptXctrEnc true) := by decide
theorem test_decode_cryptXctrDec :
    decode 0b000000000000000000000_0_0_1_0101_0010#32 = .ok (.cryptXctrDec false) ∧
    decode 0b000000000000000000000_1_0_1_0101_0010#32 = .ok (.cryptXctrDec true) := by decide
theorem test_decode_cryptXtsEnc :
    decode 0b000000000000000000000_0_0_0_0110_0010#32 = .ok (.cryptXtsEnc false false) ∧
    decode 0b000000000000000000000_0_1_0_0110_0010#32 = .ok (.cryptXtsEnc true false) ∧
    decode 0b000000000000000000000_1_0_0_0110_0010#32 = .ok (.cryptXtsEnc false true) := by decide
theorem test_decode_cryptXtsDec :
    decode 0b000000000000000000000_0_0_1_0110_0010#32 = .ok (.cryptXtsDec false false) ∧
    decode 0b000000000000000000000_0_1_1_0110_0010#32 = .ok (.cryptXtsDec true false) ∧
    decode 0b000000000000000000000_1_0_1_0110_0010#32 = .ok (.cryptXtsDec false true) := by decide
theorem test_decode_macInitCbcmac :
    decode 0b000000000000000000000_0_0_0_1000_0011#32 = .ok .macInitCbcmac := by decide
theorem test_decode_macInitCmac :
    decode 0b000000000000000000000_0_0_0_1001_0011#32 = .ok .macInitCmac := by decide
theorem test_decode_macInitXcbc :
    decode 0b000000000000000000000_0_0_0_1010_0011#32 = .ok .macInitXcbc := by decide
theorem test_decode_macUpdateCbcmac :
    decode 0b000000000000000000000_0_0_0_1000_0100#32 = .ok (.macUpdateCbcmac false) ∧
    decode 0b000000000000000000000_1_0_0_1000_0100#32 = .ok (.macUpdateCbcmac true) := by decide
theorem test_decode_macUpdateCmac :
    decode 0b000000000000000000000_0_0_0_1001_0100#32 = .ok (.macUpdateCmac false) ∧
    decode 0b000000000000000000000_1_0_0_1001_0100#32 = .ok (.macUpdateCmac true) := by decide
theorem test_decode_macUpdateXcbc :
    decode 0b000000000000000000000_0_0_0_1010_0100#32 = .ok (.macUpdateXcbc false) ∧
    decode 0b000000000000000000000_1_0_0_1010_0100#32 = .ok (.macUpdateXcbc true) := by decide
theorem test_decode_macFinupCbcmac :
    decode 0b000000000000000000000_0_0_0_1000_0101#32 = .ok (.macFinupCbcmac false) ∧
    decode 0b000000000000000000000_1_0_0_1000_0101#32 = .ok (.macFinupCbcmac true) := by decide
theorem test_decode_macFinupCmac :
    decode 0b000000000000000000000_0_0_0_1001_0101#32 = .ok (.macFinupCmac false) ∧
    decode 0b000000000000000000000_1_0_0_1001_0101#32 = .ok (.macFinupCmac true) := by decide
theorem test_decode_macFinupXcbc :
    decode 0b000000000000000000000_0_0_0_1010_0101#32 = .ok (.macFinupXcbc false) ∧
    decode 0b000000000000000000000_1_0_0_1010_0101#32 = .ok (.macFinupXcbc true) := by decide

/-! ### Illegal words (R99, one of each part of the illegal space) and ill-formed fields (R98) -/

theorem test_reject_reserved_bit : decode 0x00000800#32 = .error .reservedBits := by decide
theorem test_reject_top_bit : decode 0x80000002#32 = .error .reservedBits := by decide
theorem test_reject_op_6 : decode 0x00000006#32 = .error .reservedOp := by decide
theorem test_reject_op_15 : decode 0x0000000F#32 = .error .reservedOp := by decide
theorem test_reject_mode_7 : decode 0x00000072#32 = .error .reservedMode := by decide
theorem test_reject_mode_11 : decode 0x000000B1#32 = .error .reservedMode := by decide
theorem test_reject_mode_15 : decode 0x000000F4#32 = .error .reservedMode := by decide
theorem test_reject_crypt_cmac : decode 0x00000092#32 = .error .modeOfAnotherOp := by decide
theorem test_reject_macInit_ecb : decode 0x00000003#32 = .error .modeOfAnotherOp := by decide
theorem test_reject_finup_xts : decode 0x00000065#32 = .error .modeOfAnotherOp := by decide
theorem test_reject_nop_mode : decode 0x00000010#32 = .error .reservedMode := by decide
theorem test_reject_setkey_dir : decode 0x00000101#32 = .error .dirSet := by decide
theorem test_reject_update_dir : decode 0x00000184#32 = .error .dirSet := by decide
theorem test_reject_cbc_first : decode 0x00000212#32 = .error .firstSet := by decide
theorem test_reject_setkey_sg : decode 0x00000401#32 = .error .sgSet := by decide
theorem test_reject_macInit_sg : decode 0x00000483#32 = .error .sgSet := by decide

/-- An ill-formed term for each check of `Fields.legal`, which that check refuses. -/
theorem test_smoke_reserved : (⟨2, 1, false, false, false, 1⟩ : Fields).reservedOk = false := by decide
theorem test_smoke_op : (⟨6, 0, false, false, false, 0⟩ : Fields).opOk = false := by decide
theorem test_smoke_mode : (⟨2, 8, false, false, false, 0⟩ : Fields).modeOk = false := by decide
theorem test_smoke_dir : (⟨1, 0, true, false, false, 0⟩ : Fields).dirOk = false := by decide
theorem test_smoke_first : (⟨2, 1, false, true, false, 0⟩ : Fields).firstOk = false := by decide
theorem test_smoke_sg : (⟨3, 9, false, false, true, 0⟩ : Fields).sgOk = false := by decide
theorem test_smoke_legal : (⟨2, 6, true, true, true, 0⟩ : Fields).legal = true := by decide

/-! ### Examples of the rules -/

/-- R21: writing 0x03020100 to IV0 sets IV bytes 0 to 3 to 0x00 to 0x03. -/
theorem test_iv_bytes :
    (blockBytes (Engine.reset.hostWrite (.iv 0) 0x03020100).iv).take 4 = [0x00, 0x01, 0x02, 0x03] := by decide

/-- 41_setkey.md R136: `GF_DOUBLE(7df76b0c…) = fbeed618…`, and the reduction of `80 00…00`. -/
theorem test_gfDouble :
    blockBytes (gfDouble (blockOf [0x7d, 0xf7, 0x6b, 0x0c, 0x1a, 0xb8, 0x99, 0xb3,
      0x3e, 0x42, 0xf0, 0x47, 0xb9, 0x1b, 0x54, 0x6f])) =
      [0xfb, 0xee, 0xd6, 0x18, 0x35, 0x71, 0x33, 0x66, 0x7c, 0x85, 0xe0, 0x8f, 0x72, 0x36, 0xa8, 0xde] := by
  decide
theorem test_gfDouble_top :
    blockBytes (gfDouble (blockOf (0x80 :: zeros 15))) = zeros 15 ++ [0x87] := by decide

/-- 45_xts.md R210: `MULX_LE(66e94bd4…) = ccd297a8…`, and the reduction of `00…00 80`. -/
theorem test_mulxLe :
    blockBytes (mulxLe (blockOf [0x66, 0xe9, 0x4b, 0xd4, 0xef, 0x8a, 0x2c, 0x3b,
      0x88, 0x4c, 0xfa, 0x59, 0xca, 0x34, 0x2b, 0x2e])) =
      [0xcc, 0xd2, 0x97, 0xa8, 0xdf, 0x15, 0x59, 0x76, 0x10, 0x99, 0xf4, 0xb3, 0x94, 0x69, 0x56, 0x5c] := by
  decide
theorem test_mulxLe_top : blockBytes (mulxLe (blockOf (zeros 15 ++ [0x80]))) = 0x87 :: zeros 15 := by decide

/-- 00_scope.md R9 (c), and R9 (b) on it. -/
theorem test_aes_zero :
    aesE (zeros 16) (blockOf (zeros 16)) = zeroVector ∧ aesD (zeros 16) zeroVector = blockOf (zeros 16) := by
  have z : blockOf (zeros 16) = 0 := by decide
  have h : aesE (zeros 16) 0 = zeroVector := by simp [aesE, aes]
  exact ⟨by rw [z, h], by rw [z, ← h]; simp [aesE, aesD]⟩

/-- 44_ctr_xctr.md R190: the carry leaves the low 32 bits; `ff…ff` wraps to zero. -/
theorem test_ctrInc_carry :
    blockBytes (ctrInc (blockOf (zeros 12 ++ rep 0xff 4))) = zeros 11 ++ [0x01] ++ zeros 4 := by decide
theorem test_ctrInc_wrap : blockBytes (ctrInc (blockOf (rep 0xff 16))) = zeros 16 := by decide

/-! ### Commands as the first step after reset -/

/-- What a step leaves in STATUS. -/
def statusAfter (o : TurnOutcome) : Option Word :=
  match o with
  | .next t => some (t.eng.hostRead .status)
  | _ => none

/-- 40_control.md R118: after reset `RUN NOP` leaves STATUS = 0x00000002. -/
theorem test_step_nop : statusAfter (step (State.reset.withFetchWord 32 0x00000000)) = some 0x00000002 := by
  decide
/-- 60_exceptions.md R260: DONE, ERR and code 6 with no key. -/
theorem test_step_ecb_no_key : statusAfter (step (State.reset.withFetchWord 32 0x00000002)) = some 0x00000606 := by
  decide
/-- R267: a CRYPT.CTS with no key and `L = 0` reports KeyNotSet, not its length. -/
theorem test_step_cts_no_key : statusAfter (step (State.reset.withFetchWord 32 0x00000022)) = some 0x00000606 := by
  decide
/-- R131: KEYLEN 0 is InvalidKeyLength. -/
theorem test_step_setkey_no_length :
    statusAfter (step (State.reset.withFetchWord 32 0x00000001)) = some 0x00000106 := by decide
/-- R99: an illegal word is IllegalCommand. -/
theorem test_step_illegal : statusAfter (step (State.reset.withFetchWord 32 0x00000401)) = some 0x00000506 := by
  decide

/-- A state that has just accepted the word of `i`, with 0x00, 0x01, … staged as the key and `n` as KEYLEN. -/
def setkeyState (i : Instr) (n : Nat) : State :=
  { State.reset with
    eng := ({ Engine.reset with
      keylen := BitVec.ofNat 7 n
      key := 0x3f3e3d3c3b3a393837363534333231302f2e2d2c2b2a292827262524232221201f1e1d1c1b1a191817161514131211100f0e0d0c0b0a09080706050403020100#512 }).accept (encode i) }

/-- The key slot a step leaves. -/
def slotAfter (o : TurnOutcome) : Option KeySlot :=
  match o with
  | .next t => some t.eng.slot
  | _ => none

/-- 41_setkey.md R132: the raw key is bytes 0 to KEYLEN − 1. -/
theorem test_setkey_ecb : (slotAfter (step (setkeyState .setkeyEcb 24))).map (fun k => (k.cls, k.data, k.mac)) =
    some (.plain, (List.range 24).map fun j => BitVec.ofNat 8 j,
      (List.range 24).map fun j => BitVec.ofNat 8 j) := by decide +kernel
/-- 41_setkey.md R133: key1 is the first half, key2 the second. -/
theorem test_setkey_xts : (slotAfter (step (setkeyState .setkeyXts 32))).map (fun k => (k.cls, k.data, k.tweak)) =
    some (.xts, (List.range 16).map (fun j => BitVec.ofNat 8 j),
      (List.range 16).map fun j => BitVec.ofNat 8 (j + 16)) := by decide +kernel
/-- 41_setkey.md R131: 16 bytes are no XTS key; the failed SETKEY leaves no key (R139). -/
theorem test_setkey_xts_short : statusAfter (step (setkeyState .setkeyXts 16)) = some 0x00000106 := by decide

/-! ### States for the witnesses -/

/-- An engine of key class `c` that has just accepted `i` for `n` bytes at 0x1000, with 0x8000 as its
destination. -/
def readyEngine (i : Instr) (c : KeyClass) (n : Nat) : Engine :=
  ({ Engine.reset with
    len := BitVec.ofNat 32 n
    src := 0x1000
    dst := 0x8000
    slot := { KeySlot.empty with valid := true, cls := c, data := zeros 16, mac := zeros 16 }
    macActive := decide (i.fields.op.toNat ∈ [4, 5])
    macMode := i.fields.mode }).accept (encode i)

/-- A machine with that engine in focus. -/
def readyState (i : Instr) (c : KeyClass) (n : Nat) : State := { State.reset with eng := readyEngine i c n }

theorem readyState_reqLen (i : Instr) (c : KeyClass) (n : Nat) (h : n < 2 ^ 32) :
    (readyState i c n).eng.reqLen = n := by
  show (BitVec.ofNat 32 n).toNat = n
  rw [BitVec.toNat_ofNat]
  exact Nat.mod_eq_of_lt h

/-- A CRYPT of 1 to 0x7000 bytes is ready, in flat form. -/
theorem readyState_crypt (i : Instr) (c : KeyClass) (n : Nat) (h0 : n ≠ 0) (h : n ≤ 0x7000) :
    (readyState i c n).cryptReady c false [⟨0x1000, n⟩] [⟨0x8000, n⟩] := by
  have hl := readyState_reqLen i c n (by omega)
  refine ⟨rfl, ⟨rfl, rfl⟩, ?_⟩
  have := State.cryptStreams_flat (s := readyState i c n) rfl (by rw [hl]; exact h0)
    (by rw [hl]; show 0x1000 + n ≤ _; omega) (by rw [hl]; show 0x8000 + n ≤ _; omega)
    (by rw [hl]; show 0x1000 + n ≤ 0x8000 ∨ _; omega)
  rw [hl] at this
  exact this

/-- A CRYPT of no bytes is ready, in either form. -/
theorem readyState_empty (i : Instr) (c : KeyClass) (sg : Bool) : (readyState i c 0).cryptReady c sg [] [] :=
  ⟨rfl, ⟨rfl, rfl⟩, State.cryptStreams_empty sg rfl⟩

/-- A MAC command of 1 to 0x7000 bytes read is ready, in flat form. -/
theorem readyState_mac (i : Instr) (n m : Nat) (hi : i.fields.op.toNat ∈ [4, 5]) (h0 : m ≠ 0) (h : m ≤ 0x7000) :
    (readyState i (modeClass i.fields.mode) n).macReady i.fields.mode false m [⟨0x1000, m⟩] := by
  refine ⟨rfl, ⟨⟨rfl, rfl⟩, decide_eq_true hi, rfl⟩, ?_⟩
  exact State.macStream_flat (s := readyState i (modeClass i.fields.mode) n) rfl h0
    (by show 0x1000 + m ≤ _; omega)

/-- A MAC command that reads no byte is ready. -/
theorem readyState_macEmpty (i : Instr) (sg : Bool) (n : Nat) (hi : i.fields.op.toNat ∈ [4, 5]) :
    (readyState i (modeClass i.fields.mode) n).macReady i.fields.mode sg 0 [] :=
  ⟨rfl, ⟨⟨rfl, rfl⟩, decide_eq_true hi, rfl⟩, State.macStream_empty _ sg⟩

/-- A machine whose engine has accepted `i` for 16 bytes with descriptor lists at 0x4000 and 0x5000: the
source in segments of 5 and 11 bytes with an empty one between them, the destination in one. -/
def listState (i : Instr) (c : KeyClass) : State :=
  { State.reset with
    eng := ({ readyEngine i c 16 with src := 0x4000, dst := 0x5000 }).accept (encode i)
    mem := Memory.writeBytes (Memory.writeBytes [] 0x4000
      (toLe 0x1000 8 ++ toLe 5 4 ++ toLe 0 4 ++ toLe 0x1800 8 ++ toLe 0 4 ++ toLe 0 4 ++
        toLe 0x2000 8 ++ toLe 11 4 ++ toLe 1 4))
      0x5000 (toLe 0x8000 8 ++ toLe 20 4 ++ toLe 1 4) }

/-- R65 on `listState`: the empty segment is skipped and the last one is cut to what remains. -/
theorem test_buildMap_list :
    (listState (.cryptEcbEnc true) .plain).buildMap true 0x4000 16 = .ok [⟨0x1000, 5⟩, ⟨0x2000, 11⟩] ∧
    (listState (.cryptEcbEnc true) .plain).buildMap true 0x5000 16 = .ok [⟨0x8000, 16⟩] := by decide
/-- R65, R70: a misaligned list, and a list that ends early. -/
theorem test_buildMap_errors :
    (listState (.cryptEcbEnc true) .plain).buildMap true 0x4008 16 = .error 0x4008 ∧
    (listState (.cryptEcbEnc true) .plain).buildMap true 0x4000 17 = .error 0x4020 := by decide

/-! ### Witnesses: for each obligation with hypotheses, a state and operands that meet them together. An
obligation whose hypotheses fall in clauses has one for each clause, at the boundary values of its range. -/

theorem witness_StepKeepsMemoryCanonical :
    ∃ t, ({ State.reset with turns := [.store (2 ^ 64 - 1) [7]] } : State).mem.wf = true ∧
      step { State.reset with turns := [.store (2 ^ 64 - 1) [7]] } = .next t ∧ t.mem = [(2 ^ 64 - 1, 7)] :=
  ⟨_, rfl, rfl, rfl⟩

theorem witness_StepKeepsEnginesWellFormed :
    ∃ t, (readyState (.cryptCbcEnc false) .plain 32).enginesWf = true ∧
      step (readyState (.cryptCbcEnc false) .plain 32) = .next t :=
  ⟨_, by decide +kernel, rfl⟩

theorem witness_ResetTurns :
    (3 : Word).getLsbD 0 = true ∧
    ∃ s : State, s.turns = [.hardReset 0] ∧ 0 < s.engines.length ∧ s.eng.busy = true :=
  ⟨by decide, { State.reset with turns := [.hardReset 0], eng := Engine.reset.accept 0 }, rfl, by decide, by decide⟩

/-- A machine of two instances. -/
def twoEngines : State := State.resetOn ⟨16, [0x1000, 0x2000], []⟩ 1

theorem witness_HostRegisterTurns :
    (twoEngines.platform.wf 2 = true ∧ twoEngines.platform.bases[1]? = some 0x2000 ∧
      twoEngines.platform.window (0x2000 + 0xFF) = some (1, 0xFF)) ∧
    (twoEngines.platform.window 0x2010 = some (1, 0x10) ∧ Reg.ofOffset 0x10 4 = some .cmd ∧
      twoEngines.engines[1]? = some .reset) ∧
    (twoEngines.platform.window 0x10FE = some (0, 0xFE) ∧ 0xFE % 4 ≠ 0) := by decide +kernel

theorem witness_OperandsReadBack : Engine.reset.busy = false ∧ (2 : Word).getLsbD 0 = false := by decide

theorem witness_BytesOfRegisters : Engine.reset.busy = false ∧ Engine.reset.macActive = false := by decide

theorem witness_WritesWhileBusyAreIgnored :
    (Engine.reset.accept 0).busy = true ∧ (2 : Word).getLsbD 0 = false := by decide

theorem witness_InterruptLevel :
    (∃ t, exec .nop { State.reset with eng := { Engine.reset with irqEn := true } } = .next t) ∧
    ((6 : Word).getLsbD 1 = true ∧ (6 : Word).getLsbD 2 = true) ∧
    (0 : Word).getLsbD 1 = false ∧ (1 : Word).getLsbD 0 = true ∧
    ((2 : Word).getLsbD 0 = false ∧ (2 : Word).getLsbD 1 = true) :=
  ⟨⟨_, exec_eq _ _⟩, by decide⟩

theorem witness_AcceptanceLatches : (Engine.reset.accept 0).busy = true ∧ Engine.reset.busy = false := by decide

theorem witness_StepRunsTheAcceptedCommand :
    ((readyState (.cryptXtsDec true true) .xts 17).turns = [] ∧
      (readyState (.cryptXtsDec true true) .xts 17).eng.phase = .check ∧
      decode (readyState (.cryptXtsDec true true) .xts 17).eng.latch.cmd = .ok (.cryptXtsDec true true) ∧
      (readyState (.cryptXtsDec true true) .xts 17).quiet = true) ∧
    (∀ e ∈ twoEngines.before ++ twoEngines.after, e.busy = false) ∧
    (({ twoEngines with turns := [.engine 1] } : State).turns = [.engine 1] ∧
      twoEngines.engines[1]? = some .reset ∧ twoEngines.races = []) := by decide +kernel

/-- An illegal word was just accepted, and the host has stored a byte since. -/
def illegalState : State :=
  { State.reset.placeCommand 0x401 with
    mem := [(0x1000, 6)]
    races := [(⟨0x1000, [⟨5, [.host, .engine 0], []⟩]⟩ : Race).write .host 6] }

theorem witness_IllegalWordCompletes :
    Engine.reset.busy = false ∧ illegalState.turns = [] ∧ illegalState.eng.phase = .check ∧
    (Fields.ofWord illegalState.eng.latch.cmd).legal = false ∧ illegalState.racesWf = true ∧
    (∀ q ∈ illegalState.races, ∀ v ∈ q.finalValues 0, illegalState.mem.read q.addr.toNat = v) ∧
    (∀ q ∈ illegalState.races, (q.finish 0).candidates.length ≤ 1) := by decide

theorem witness_IdleEngineWaits :
    twoEngines.turns = [] ∧ (∀ e ∈ twoEngines.engines, e.busy = false) ∧ twoEngines.eng.busy = false := by decide

/-- Two instances: instance 0 is to encrypt 16 bytes from 0x1000 to 0x8000 and has written the first of them;
the host has stored bytes at 0x1000 and at 0x8000 meanwhile. -/
def racingState (ts : List Turn) : State :=
  { readyState (.cryptEcbEnc false) .plain 16 with
    after := [.reset]
    turns := ts
    races :=
      [(⟨0x1000, [⟨5, [.host, .engine 0], []⟩]⟩ : Race).write .host 6,
       ((⟨0x8000, [⟨1, [.host, .engine 0], []⟩]⟩ : Race).write (.engine 0) 2).write .host 3] }

/-- 20_memory.md R81: the command reads the racing byte of its source as it was before or as it was stored;
it and the host read the byte both wrote as the one or as the other; finally it holds one of the two. -/
theorem test_race_values :
    (racingState []).raceValues (.engine 0) 0x1000 = [5, 6] ∧ (racingState []).raceValues .host 0x1000 = [6] ∧
    (racingState []).raceValues (.engine 0) 0x8000 = [2, 3] ∧ (racingState []).raceValues .host 0x8000 = [2, 3] ∧
    (racingState []).races.map (·.finalValues 0) = [[6], [2, 3]] := by decide +kernel

/-- A byte that instance 0 wrote (2) and then instance 1 (3), both busy since it was 1. -/
def sharedByte : Race := ((⟨0x8000, [⟨1, [.host, .engine 0, .engine 1], []⟩]⟩ : Race).write (.engine 0) 2).write (.engine 1) 3

/-- R80, R81: each instance reads its own write or the other's; the host may find the old byte too. Once
instance 0 is done neither the host nor its next command finds the old byte (R78, R79), and with both done the
byte is one of the two. -/
theorem test_two_instances :
    sharedByte.values (.engine 0) = [2, 3] ∧ sharedByte.values (.engine 1) = [2, 3] ∧
    sharedByte.values .host = [1, 2, 3] ∧ (sharedByte.finish 0).values .host = [2, 3] ∧
    ((sharedByte.finish 0).start 0).values (.engine 0) = [2, 3] ∧
    ((sharedByte.finish 0).finish 1).candidates.map (·.value) = [2, 3] := by decide

/-- R81: a store while the command runs goes on record with the value before it. -/
theorem test_race_store :
    (match step { readyState (.cryptEcbEnc false) .plain 16 with turns := [.store 0x1000 [7, 8]] } with
      | .next t => t.races
      | _ => []) =
    [⟨0x1000, [⟨0, [.host, .engine 0], [.host]⟩, ⟨7, [.host], []⟩]⟩,
     ⟨0x1001, [⟨0, [.host, .engine 0], [.host]⟩, ⟨8, [.host], []⟩]⟩] := by decide +kernel

/-- R81: with no command in progress a store is no race. -/
theorem test_no_race :
    (match step { State.reset with turns := [.store 0x1000 [7, 8]] } with
      | .next t => some (t.mem, t.races)
      | _ => none) = some ([(0x1000, 7), (0x1001, 8)], []) := by decide +kernel

/-- The state in which instance 0 of a racing run is about to write its one block. -/
def writingState : State :=
  { racingState [.engine 0] with
    eng := { (readyState (.cryptEcbEnc false) .plain 16).eng with
      phase := .bulk
      srcMap := [⟨0x1000, 16⟩]
      dstMap := [⟨0x8000, 16⟩]
      unitOut := some (zeros 16) } }

/-- R80: instance 0 writes a byte over both values and no longer finds what it knew. -/
theorem test_own_write :
    (match step writingState with
      | .next t => t.raceValues (.engine 0) 0x8000
      | _ => []) = [3, 0] := by decide +kernel

theorem witness_EngineTurnStaysOnItsInstance :
    (writingState.turns = [.engine 0] ∧ 0 < writingState.engines.length ∧ writingState.racesWf = true ∧
      writingState.nextWrite = some (0x8000, zeros 16) ∧
      (match step writingState with
        | .next t => t.busyAt 0
        | _ => false) = true ∧ (0x8000 : Addr).toNat = 0x8000 + 0 ∧ (zeros 16)[0]? = some 0) ∧
    (({ readyState (.cryptEcbEnc false) .plain 16 with turns := [.store (2 ^ 64 - 1) [7]] } : State).turns =
        [.store (2 ^ 64 - 1) [7]] ∧ 2 ^ 64 - 1 + [(7 : Byte)].length ≤ 2 ^ 64 ∧
      (readyState (.cryptEcbEnc false) .plain 16).races = [] ∧
      (readyState (.cryptEcbEnc false) .plain 16).busyAt 0 = true) ∧
    ((racingState [.load 0x8000 2]).turns = [.load 0x8000 2] ∧ 0x8000 + 2 ≤ 2 ^ 64) ∧
    ((racingState [.write 0xA0001010 4 0]).busyAt 1 = false ∧
      (match step { racingState [.write 0xA0001010 4 0] with platform := ⟨16, [0xA0000000, 0xA0001000], []⟩ } with
        | .next t => t.busyAt 1
        | _ => false) = true) ∧
    ((racingState [.hardReset 0]).busyAt 0 = true ∧
      (match step (racingState [.hardReset 0]) with
        | .next t => t.busyAt 0
        | _ => true) = false) := by decide +kernel

theorem witness_BusyStepsKeepRegisters :
    (microStep (readyState (.cryptCbcEnc false) .plain 32)).eng.busy = true := by decide +kernel

theorem witness_EngineStepsRunTheCommand :
    (readyState (.cryptCbcEnc false) .plain 32).eng.accepted = true ∧
    3 + 2 * (readyState (.cryptCbcEnc false) .plain 32).platform.maxSegments +
      2 * bytesRead (.cryptCbcEnc false) (readyState (.cryptCbcEnc false) .plain 32).eng.latch ≤ 99 := by decide

theorem witness_KeyAndSequenceChecks :
    (∀ i ∈ [Instr.cryptEcbEnc false, .macInitCmac, .macUpdateXcbc false, .macFinupCbcmac true],
      i.fields.op.toNat ∈ [2, 3, 4, 5] ∧ ¬ State.reset.eng.keyFor (modeClass i.fields.mode)) ∧
    (∀ i ∈ [Instr.macUpdateCbcmac false, .macFinupCbcmac false],
      i.fields.op.toNat ∈ [4, 5] ∧
      ({ (readyEngine i .plain 16) with macActive := false } : Engine).keyFor (modeClass i.fields.mode) ∧
      ({ (readyEngine i .cmac 16) with macMode := 8 } : Engine).macActive = true) ∧
    ((readyEngine (.macUpdateCmac false) .cmac 16).keyFor (modeClass 9) ∧
      ({ (readyEngine (.macUpdateCmac false) .cmac 16) with macMode := 8 } : Engine).macMode ≠
        (Instr.macUpdateCmac false).fields.mode) ∧
    (∀ i ∈ [Instr.nop, .setkeyXts, .cryptXtsEnc true false, .macInitXcbc, .macFinupXcbc false],
      keyAndMacOk i (readyState i (modeClass i.fields.mode) 16).eng) := by
  simp only [keyAndMacOk, Engine.keyFor]
  decide

/-- The length rule on both sides of each bound. -/
theorem witness_LengthChecks :
    (∀ c : Instr × Nat × Option ErrorKind, c ∈
        [(Instr.cryptEcbEnc false, 15, some .invalidRequestLength), (.cryptEcbEnc false, 16, none),
         (.cryptCtsDec true, 15, some .invalidRequestLength), (.cryptCtsDec true, 16, none),
         (.cryptXtsEnc true false, 15, some .invalidRequestLength), (.cryptXtsEnc true false, 16, none),
         (.cryptCtrEnc false, 15, none), (.macUpdateCmac false, 17, none),
         (.macFinupCmac false, 17, some .unsupportedLength), (.macFinupCmac false, 16, none),
         (.setkeyEcb, 0, some .invalidKeyLength)] →
      keyAndMacOk c.1 (readyState c.1 (modeClass c.1.fields.mode) c.2.1).eng ∧
      lengthRule c.1 (readyState c.1 (modeClass c.1.fields.mode) c.2.1).eng.latch = c.2.2) ∧
    (∀ n ∈ [16, 24, 32], lengthRule .setkeyCmac (setkeyState .setkeyCmac n).eng.latch = none) ∧
    (∀ n ∈ [32, 48, 64], lengthRule .setkeyXts (setkeyState .setkeyXts n).eng.latch = none) ∧
    (lengthRule (.cryptXctrEnc false) { Latch.reset with len := 1, xctr := 0xFFFFFFFFFFFFFFFF } = none ∧
      lengthRule (.cryptXctrEnc false) { Latch.reset with len := 2, xctr := 0xFFFFFFFFFFFFFFFF } =
        some .unsupportedLength) := by
  simp only [keyAndMacOk, Engine.keyFor]
  decide +kernel

/-- The outcomes of SETKEY: a new slot, and an error. -/
theorem witness_SetkeyReplacesTheSlot :
    (∃ t, exec .setkeyEcb (setkeyState .setkeyEcb 16) = .next t ∧ t.eng.errCode = 0) ∧
    (∃ t, exec .setkeyXts (setkeyState .setkeyXts 16) = .next t ∧ t.eng.errCode ≠ 0) :=
  ⟨⟨_, exec_eq _ _, by decide +kernel⟩, ⟨_, exec_eq _ _, by decide +kernel⟩⟩

theorem witness_ErrorsLeaveResults :
    ∀ i ∈ [Instr.cryptEcbEnc false, .setkeyEcb, .macInitCmac, .macUpdateXcbc false, .macFinupCbcmac true],
      ∃ t, exec i State.reset = .next t ∧ t.eng.errCode ≠ 0 := by
  intro i hi
  refine ⟨_, exec_eq i _, ?_⟩
  revert i
  decide +kernel

/-- A misaligned source list, for CRYPT and for MAC_UPDATE, and a misaligned destination list. -/
theorem witness_MapErrorsLeaveMemory :
    (∀ i ∈ [Instr.cryptEcbEnc true, .macUpdateCbcmac true],
      let s := { readyState i .plain 16 with eng := ({ readyEngine i .plain 16 with src := 8 }).accept (encode i) }
      i.fields.op.toNat ∈ [2, 4, 5] ∧ keyAndMacOk i s.eng ∧ lengthRule i s.eng.latch = none ∧
      s.buildMap i.fields.sg s.eng.latch.src (bytesRead i s.eng.latch) = .error 8) ∧
    (let i := Instr.cryptEcbEnc true
     let s := listState i .plain
     let t := { s with eng := ({ s.eng with dst := 8 }).accept (encode i) }
     keyAndMacOk i t.eng ∧ lengthRule i t.eng.latch = none ∧
      t.buildMap i.fields.sg t.eng.latch.src (bytesRead i t.eng.latch) = .ok [⟨0x1000, 5⟩, ⟨0x2000, 11⟩] ∧
      t.buildMap i.fields.sg t.eng.latch.dst (bytesRead i t.eng.latch) = .error 8) := by
  simp only [keyAndMacOk, Engine.keyFor]
  decide +kernel

theorem witness_BuildMapCovers :
    ((16 : Nat) ≠ 0 ∧ (0x4008 : Addr).toNat % 16 ≠ 0 ∧ (0x4000 : Addr).toNat % 16 = 0) ∧
    State.reset.buildMap true 0x4000 16 = .error 0x4100 ∧
    (listState (.cryptEcbEnc true) .plain).buildMap true 0x4000 16 = .ok [⟨0x1000, 5⟩, ⟨0x2000, 11⟩] := by decide

/-- The four ends of a list walk: too long, a descriptor refused, complete, END too early. -/
theorem witness_BuildMapCovers_walks :
    (let s := { listState (.cryptEcbEnc true) .plain with platform := ⟨2, [], []⟩ }
     s.walksPast 0x4000 16 2 ∧ 2 = s.platform.maxSegments) ∧
    (let s := { listState (.cryptEcbEnc true) .plain with platform := ⟨16, [], [.exact 0x4010 16 .read]⟩ }
     s.walksPast 0x4000 16 1 ∧ 1 < s.platform.maxSegments ∧ s.accessOk 0x4010 16 .read = false) ∧
    (let s := listState (.cryptEcbEnc true) .plain
     s.walksPast 0x4000 16 2 ∧ s.accessOk 0x4020 16 .read = true ∧ 16 ≤ listLen s.mem 0x4000 3) ∧
    (let s := listState (.cryptEcbEnc true) .plain
     s.walksPast 0x4000 17 2 ∧ s.accessOk 0x4020 16 .read = true ∧ listLen s.mem 0x4000 3 < 17 ∧
      segEnd s.mem 0x4000 2 = true) := by
  simp only [State.walksPast]
  decide +kernel

/-- The platform refuses the write of the second of two blocks. -/
def refusingState : State :=
  { readyState (.cryptEcbEnc false) .plain 32 with platform := ⟨16, [0xA0000000], [.exact 0x8010 16 .write]⟩ }

theorem witness_RefusedWriteKeepsEarlierBlocks :
    let s := refusingState
    let sm : List Segment := [⟨0x1000, 32⟩]
    let dm : List Segment := [⟨0x8000, 32⟩]
    s.eng.accepted = true ∧ s.eng.keyFor .plain ∧ s.eng.reqLen = 32 ∧
    s.buildMap false s.eng.latch.src 32 = .ok sm ∧ s.buildMap false s.eng.latch.dst 32 = .ok dm ∧
    s.admits sm .read ∧
    (∀ i j, i < 32 → j < 32 → mapAddr dm i = mapAddr dm j → i = j) ∧
    (∀ i j, i < 32 → j < 32 → mapAddr sm i = mapAddr dm j → i = j) ∧
    (∀ off m x l, off + m ≤ 16 * 1 → (x, l) ∈ pieces dm off m → s.accessOk x l .write = true) ∧
    pieces dm (16 * 1) 16 = [(0x8010, 16)] ∧ s.accessOk 0x8010 16 .write = false := by
  refine ⟨rfl, ⟨rfl, rfl⟩, rfl, rfl, rfl, ?_, ?_, ?_, ?_, rfl, rfl⟩
  · intro seg hs o m _ hl
    rw [List.mem_singleton.mp hs] at hl ⊢
    simp only at hl
    simp only [State.accessOk, State.memOk, refusingState, List.any_cons, List.any_nil, Denial.refuses,
      Bool.or_false]
    have : ((Access.read == Access.write) : Bool) = false := by decide
    rw [this]
    simp only [Bool.false_and, Bool.not_false, Bool.true_and, decide_eq_true_eq]
    omega
  · intro i j hi hj e
    rw [mapAddr_flat hi, mapAddr_flat hj] at e
    omega
  · intro i j hi hj e
    rw [mapAddr_flat hi, mapAddr_flat hj] at e
    omega
  · intro off m x l hm hp
    have hx : x + l ≤ 0x8010 := by
      simp only [pieces] at hp
      split at hp
      · simp at hp
      · split at hp
        · simp at hp
        · simp only [List.mem_singleton, Prod.mk.injEq] at hp
          omega
    have hd : Denial.refuses (.exact 0x8010 16 .write) x l .write = false := by
      simp only [Denial.refuses, Bool.and_eq_false_iff, beq_eq_false_iff_ne]
      omega
    simp only [State.accessOk, State.memOk, refusingState, List.any_cons, List.any_nil, hd,
      Bool.or_false, Bool.not_false, Bool.true_and, decide_eq_true_eq]
    omega

/-- The second unit of two: its read refused, and the second of its two write pieces refused. -/
theorem witness_RefusedWriteKeepsEarlierBlocks_units :
    (let i := Instr.cryptEcbEnc false
     let s := { readyState i .plain 32 with platform := ⟨16, [], [.exact 0x1010 16 .read]⟩ }
     i.fields.op.toNat ∈ [2, 4, 5] ∧ s.eng.accepted = true ∧ keyAndMacOk i s.eng ∧
     lengthRule i s.eng.latch = none ∧
     s.buildMap false s.eng.latch.src 32 = .ok [⟨0x1000, 32⟩] ∧
     s.buildMap false s.eng.latch.dst 32 = .ok [⟨0x8000, 32⟩] ∧
     unitsOf i s.eng.latch = [(0, 16)] ++ (16, 16) :: [] ∧
     (∀ q ∈ [(0, 16)], s.performs (pieces [⟨0x1000, 32⟩] q.1 q.2) .read ∧
       s.performs (pieces [⟨0x8000, 32⟩] q.1 q.2) .write) ∧
     pieces [⟨0x1000, 32⟩] 16 16 = [] ++ (0x1010, 16) :: [] ∧ s.accessOk 0x1010 16 .read = false) ∧
    (let i := Instr.cryptCtsDec false
     let s := { readyState i .plain 40 with platform := ⟨16, [], [.exact 0x9000 20 .write]⟩ }
     let dm : List Segment := [⟨0x8000, 20⟩, ⟨0x9000, 20⟩]
     unitsOf i s.eng.latch = [(0, 16)] ++ (16, 24) :: [] ∧
     pieces dm 16 24 = [(0x8010, 4)] ++ (0x9000, 20) :: [] ∧ s.performs (pieces [⟨0x1000, 40⟩] 16 24) .read ∧
     s.performs [(0x8010, 4)] .write ∧ s.accessOk 0x9000 20 .write = false) ∧
    (∀ j k, j < mapLen [⟨0x8000, 32⟩] → k < mapLen [⟨0x8000, 32⟩] →
      mapAddr [⟨0x8000, 32⟩] j = mapAddr [⟨0x8000, 32⟩] k → j = k) := by
  refine ⟨?_, ?_, fun j k hj hk e => ?_⟩
  · simp only [keyAndMacOk, Engine.keyFor, State.performs]
    decide +kernel
  · simp only [State.performs]
    decide +kernel
  · rw [mapAddr_flat (n := 32) hj, mapAddr_flat (n := 32) hk] at e
    omega

theorem witness_SetkeyPlain :
    (∀ i ∈ [Instr.setkeyEcb, .setkeyCbc, .setkeyCts, .setkeyCtr, .setkeyXctr, .setkeyCbcmac],
      ∀ n ∈ [16, 24, 32], (setkeyState i n).eng.latch.keylen.toNat ∈ [16, 24, 32]) := by decide
theorem witness_SetkeyXts :
    ∀ n ∈ [32, 48, 64], (setkeyState .setkeyXts n).eng.latch.keylen.toNat ∈ [32, 48, 64] := by decide
theorem witness_SetkeyEssiv :
    ∀ n ∈ [16, 24, 32], (setkeyState .setkeyEssiv n).eng.latch.keylen.toNat ∈ [16, 24, 32] := by decide
theorem witness_SetkeyMacSubkeys :
    ∀ i ∈ [Instr.setkeyCmac, .setkeyXcbc], ∀ n ∈ [16, 24, 32],
      (setkeyState i n).eng.latch.keylen.toNat ∈ [16, 24, 32] := by decide

/-- A CRYPT of 1 to 0x7000 bytes, with its length as a number. -/
theorem ready_and_length (i : Instr) (c : KeyClass) (n : Nat) (h0 : n ≠ 0) (h : n ≤ 0x7000) :
    (readyState i c n).cryptReady c false [⟨0x1000, n⟩] [⟨0x8000, n⟩] ∧ (readyState i c n).eng.reqLen = n :=
  ⟨readyState_crypt i c n h0 h, readyState_reqLen i c n (by omega)⟩

/-- Whole blocks: 0x7000 bytes, and none. -/
def WholeBlocks (c : KeyClass) : Prop :=
    (∃ s sm dm, State.cryptReady s c false sm dm ∧ s.eng.reqLen % 16 = 0 ∧ s.eng.reqLen = 0x7000) ∧
    (∃ s sm dm, State.cryptReady s c true sm dm ∧ s.eng.reqLen % 16 = 0 ∧ s.eng.reqLen = 0)

theorem wholeBlocks_ready (i : Instr) (c : KeyClass) : WholeBlocks c := by
  refine ⟨⟨readyState i c 0x7000, _, _, readyState_crypt i c _ (by decide) (by decide), ?_, ?_⟩,
    ⟨readyState i c 0, _, _, readyState_empty i c true, ?_, ?_⟩⟩ <;>
    rw [readyState_reqLen i c _ (by decide)]

/-- Stealing modes: one block exactly, one byte more, and two blocks. -/
def Stealing (c : KeyClass) : Prop :=
  ∀ n ∈ [16, 17, 31, 32],
    ∃ s sm dm, State.cryptReady s c false sm dm ∧ 16 ≤ s.eng.reqLen ∧ s.eng.reqLen = n

theorem stealing_ready (i : Instr) (c : KeyClass) : Stealing c := by
  intro n hn
  have h : 16 ≤ n ∧ n ≤ 32 := by
    simp only [List.mem_cons, List.not_mem_nil, or_false] at hn
    omega
  obtain ⟨hr, hl⟩ := ready_and_length i c n (by omega) (by omega)
  exact ⟨_, _, _, hr, by rw [hl]; exact h.1, hl⟩

theorem witness_EcbTransforms : WholeBlocks .plain := wholeBlocks_ready (.cryptEcbEnc false) .plain
theorem witness_CbcEncrypts : WholeBlocks .plain := wholeBlocks_ready (.cryptCbcEnc false) .plain
theorem witness_CbcDecrypts : WholeBlocks .plain := wholeBlocks_ready (.cryptCbcDec false) .plain
theorem witness_EssivEncrypts : WholeBlocks .essiv := wholeBlocks_ready (.cryptEssivEnc false) .essiv
theorem witness_EssivDecrypts : WholeBlocks .essiv := wholeBlocks_ready (.cryptEssivDec false) .essiv
theorem witness_CtsEncrypts : Stealing .plain := stealing_ready (.cryptCtsEnc false) .plain
theorem witness_CtsDecrypts : Stealing .plain := stealing_ready (.cryptCtsDec false) .plain
theorem witness_XtsEncrypts : Stealing .xts := stealing_ready (.cryptXtsEnc true false) .xts
theorem witness_XtsDecrypts : Stealing .xts := stealing_ready (.cryptXtsDec false false) .xts

theorem witness_CtrTransforms :
    ∀ i ∈ [Instr.cryptCtrEnc false, .cryptCtrDec false],
      ∃ s sm dm, State.cryptReady s .plain false sm dm ∧ s.eng.reqLen = 17 :=
  fun i _ => ⟨_, _, _, ready_and_length i .plain 17 (by decide) (by decide)⟩

/-- An XCTR request that ends exactly at byte 2^64 of the keystream. -/
theorem witness_XctrTransforms :
    ∀ i ∈ [Instr.cryptXctrEnc false, .cryptXctrDec false],
      ∃ s sm dm, State.cryptReady s .plain false sm dm ∧
        s.eng.latch.xctr.toNat + s.eng.reqLen = 2 ^ 64 := by
  intro i _
  refine ⟨{ readyState i .plain 17 with
    eng := ({ readyEngine i .plain 17 with xctr := 0xFFFFFFFFFFFFFFEF }).accept (encode i) }, _, _,
    ⟨rfl, ⟨rfl, rfl⟩, State.cryptStreams_flat rfl (by show (BitVec.ofNat 32 17).toNat ≠ 0; decide)
      (by show 0x1000 + (BitVec.ofNat 32 17).toNat ≤ 2 ^ 64; decide)
      (by show 0x8000 + (BitVec.ofNat 32 17).toNat ≤ 2 ^ 64; decide)
      (.inl (by show 0x1000 + (BitVec.ofNat 32 17).toNat ≤ 0x8000; decide))⟩, ?_⟩
  show (0xFFFFFFFFFFFFFFEF#64).toNat + (BitVec.ofNat 32 17).toNat = 2 ^ 64
  decide

theorem witness_EmptyRequests :
    ∀ i ∈ [Instr.cryptEcbEnc true, .cryptCbcDec false, .cryptEssivEnc false, .cryptCtrDec true,
        .cryptXctrEnc false],
      let s := readyState i (modeClass i.fields.mode) 0
      i.fields.op = 2 ∧ i.fields.mode.toNat ∈ [0, 1, 3, 4, 5] ∧ s.eng.keyFor (modeClass i.fields.mode) ∧
      s.eng.accepted = true ∧ s.eng.latchWf = true ∧ s.eng.reqLen = 0 := by
  simp only [Engine.keyFor]
  decide +kernel

theorem witness_MacInitStarts :
    ∀ i ∈ [Instr.macInitCbcmac, .macInitCmac, .macInitXcbc],
      i.fields.op = 3 ∧ (readyState i (modeClass i.fields.mode) 0).eng.keyFor (modeClass i.fields.mode) := by
  simp only [Engine.keyFor]
  decide

/-- 40 bytes, of which two blocks are read. -/
theorem witness_MacUpdateChains :
    ∀ i ∈ [Instr.macUpdateCbcmac false, .macUpdateCmac false, .macUpdateXcbc false],
      ∃ s sm, i.fields.op = 4 ∧
        State.macReady s i.fields.mode i.fields.sg (16 * (s.eng.reqLen / 16)) sm ∧ s.eng.reqLen = 40 := by
  intro i hi
  have h : i.fields.op = 4 ∧ i.fields.sg = false := by revert i; decide
  refine ⟨readyState i (modeClass i.fields.mode) 40, [⟨0x1000, 32⟩], h.1, ?_, readyState_reqLen i _ 40 (by decide)⟩
  rw [readyState_reqLen i _ 40 (by decide), h.2]
  exact readyState_mac i 40 32 (by rw [h.1]; decide) (by decide) (by decide)

/-- A last part of no byte, of one, of fifteen and of sixteen. -/
def LastParts (mode : BitVec 4) : Prop :=
  ∀ n ∈ [0, 1, 15, 16], ∃ s sm, State.macReady s mode false s.eng.reqLen sm ∧ s.eng.reqLen = n ∧ s.eng.reqLen ≤ 16

theorem finup_ready (i : Instr) (hi : i.fields.op.toNat ∈ [4, 5]) : LastParts i.fields.mode := by
  intro n hm
  have hn : n ≤ 16 := by revert n; decide
  have hl := readyState_reqLen i (modeClass i.fields.mode) n (by omega)
  rcases Nat.eq_zero_or_pos n with rfl | h0
  · exact ⟨_, [], by rw [hl]; exact readyState_macEmpty i false 0 hi, hl, by rw [hl]; exact hn⟩
  · exact ⟨_, _, by rw [hl]; exact readyState_mac i n n hi (by omega) (by omega), hl, by rw [hl]; exact hn⟩

theorem witness_FinupCbcmac : LastParts 8 := finup_ready (.macFinupCbcmac false) (by decide)
theorem witness_FinupCmacAndXcbc : LastParts 9 ∧ LastParts 10 :=
  ⟨finup_ready (.macFinupCmac false) (by decide), finup_ready (.macFinupXcbc false) (by decide)⟩

theorem witness_CryptFrame :
    (Instr.cryptXtsEnc true false).fields.op = 2 ∧ (Instr.cryptEcbEnc false).fields.mode.toNat ∈ [0, 5] ∧
    ∃ t, exec (.cryptXtsEnc true false) (readyState (.cryptXtsEnc true false) .xts 17) = .next t :=
  ⟨by decide, by decide, _, exec_eq _ _⟩

theorem witness_MacFrame :
    ∀ i ∈ [Instr.macInitCmac, .macUpdateCmac false, .macFinupCmac true], i.fields.op.toNat ∈ [3, 4, 5] ∧
      ∃ t, exec i (readyState i .cmac 16) = .next t :=
  fun i hi => ⟨by revert i; decide, _, exec_eq _ _⟩

theorem witness_SetkeyAndNopFrame :
    ∀ i ∈ [Instr.nop, .setkeyXts], i.fields.op.toNat ∈ [0, 1] ∧ ∃ t, exec i (setkeyState i 32) = .next t :=
  fun i hi => ⟨by revert i; decide, _, exec_eq _ _⟩

/-- Two memories that differ outside the source buffer. -/
theorem witness_FlatCommandsReadOnlyTheirSource :
    let i := Instr.cryptCbcEnc false
    let s := readyState i .plain 16
    i.fields.sg = false ∧ s.eng.accepted = true ∧
    (∀ j, j < bytesRead i s.eng.latch →
      Memory.read [(0x2000, 5)] (s.eng.latch.src.toNat + j) = s.mem.read (s.eng.latch.src.toNat + j)) ∧
    ∃ t, exec i s = .next t :=
  ⟨rfl, rfl, by decide, _, exec_eq _ _⟩

theorem witness_StealingTailsRoundTrip :
    (∀ r ∈ [1, 16], 1 ≤ r ∧ r ≤ 16 ∧ (zeros r).length = r) ∧
    (∀ r ∈ [1, 15], 1 ≤ r ∧ r ≤ 15 ∧ (zeros r).length = r) := by decide

/-- A second command `j` that reads what the first one left at 0x8000 and stores it at 0x1000. -/
def SecondCommand (i j : Instr) (c : KeyClass) (n : Nat) : Prop :=
    ∃ s s' t sm dm sm' dm', State.cryptReady s c false sm dm ∧ State.cryptReady s' c false sm' dm' ∧
      s.eng.latch.cmd = encode i ∧ s'.eng.latch.cmd = encode j ∧ s.eng.reqLen = n ∧
      s'.eng.slot = s.eng.slot ∧ s'.eng.latch.iv = s.eng.latch.iv ∧
      s'.eng.latch.xctr = s.eng.latch.xctr ∧ s'.eng.reqLen = s.eng.reqLen ∧
      s.eng.latch.xctr.toNat + s.eng.reqLen ≤ 2 ^ 64 ∧ exec i s = .next t ∧
      (∀ p, p < s.eng.reqLen → s'.mem.read (mapAddr sm' p) = t.mem.read (mapAddr dm p))

theorem secondCommand (i j : Instr) (c : KeyClass) (n : Nat) (h0 : n ≠ 0) (h : n ≤ 0x7000) :
    SecondCommand i j c n := by
  have hl := readyState_reqLen i c n (by omega)
  let s' : State :=
    { readyState j c n with
      mem := (runCommand (planOf i) (readyState i c n)).mem
      eng := ({ readyEngine j c n with src := 0x8000, dst := 0x1000, macActive := false }).accept (encode j) }
  have hl' : s'.eng.reqLen = n := by
    show (BitVec.ofNat 32 n).toNat = n
    rw [BitVec.toNat_ofNat]
    exact Nat.mod_eq_of_lt (by omega)
  have hs : s'.cryptStreams false [⟨0x8000, n⟩] [⟨0x1000, n⟩] := by
    have := State.cryptStreams_flat (s := s') rfl (by rw [hl']; exact h0)
      (by rw [hl']; show 0x8000 + n ≤ _; omega) (by rw [hl']; show 0x1000 + n ≤ _; omega)
      (by rw [hl']; show 0x8000 + n ≤ 0x1000 ∨ 0x1000 + n ≤ 0x8000 ∨ _; omega)
    rw [hl'] at this
    exact this
  exact ⟨readyState i c n, s', _, _, _, _, _, readyState_crypt i c n h0 h, ⟨rfl, ⟨rfl, rfl⟩, hs⟩, rfl, rfl, hl, rfl, rfl,
    rfl, by rw [hl, hl'], by rw [hl]; show 0 + n ≤ _; omega, exec_eq _ _, fun _ _ => rfl⟩

theorem witness_BlockModesRoundTrip :
    SecondCommand (.cryptEcbEnc false) (.cryptEcbDec false) .plain 32 ∧
    SecondCommand (.cryptCbcEnc false) (.cryptCbcDec false) .plain 16 ∧
    SecondCommand (.cryptEssivEnc false) (.cryptEssivDec false) .essiv 48 :=
  ⟨secondCommand _ _ _ _ (by decide) (by decide), secondCommand _ _ _ _ (by decide) (by decide),
    secondCommand _ _ _ _ (by decide) (by decide)⟩

theorem witness_StreamModesSelfInverse :
    SecondCommand (.cryptXctrEnc false) (.cryptXctrDec false) .plain 17 ∧
    SecondCommand (.cryptCtrDec false) (.cryptCtrDec false) .plain 1 :=
  ⟨secondCommand _ _ _ _ (by decide) (by decide), secondCommand _ _ _ _ (by decide) (by decide)⟩

end Sys2Proof.Tests
end

section
/-! PROOFS. The register window of the host (10_state.md R20): which instance and register a bus address
reaches, an instance brought into focus, and what a host write, a host read and an access that is not an
aligned 32-bit one do in a step (O10). -/

namespace Sys2Proof.Machine

/-! ### Where an address leads -/

/-- An access of another width or alignment reaches no register (10_state.md R20). -/
theorem Reg.ofOffset_eq_none {off width : Nat} (h : width ≠ 4 ∨ off % 4 ≠ 0) : Reg.ofOffset off width = none :=
  if_neg fun ⟨hw, ha, _⟩ => h.elim (· hw) (· ha)

/-- Windows that start at distinct multiples of their size do not overlap, so an address inside one of them is
found in that one. -/
theorem findWindow_of_getElem? {bases : List Nat} {k b off : Nat} (aligned : ∀ c ∈ bases, c % 0x100 = 0)
    (distinct : bases.Nodup) (hb : bases[k]? = some b) (hoff : off < 0x100) (m : Nat) :
    findWindow bases m (b + off) = some (m + k, off) := by
  induction bases generalizing k m with
  | nil => simp at hb
  | cons base bases ih =>
    obtain ⟨fresh, distinct⟩ := List.nodup_cons.mp distinct
    unfold findWindow
    cases k with
    | zero =>
      obtain rfl : base = b := by simpa using hb
      rw [if_pos (by omega)]
      simp
    | succ k =>
      rw [List.getElem?_cons_succ] at hb
      have hmem : b ∈ bases := List.mem_of_getElem? hb
      have hne : b ≠ base := fun h => fresh (h ▸ hmem)
      have hbase := aligned base List.mem_cons_self
      have hrest := fun c hc => aligned c (List.mem_cons_of_mem _ hc)
      have hmod := hrest b hmem
      rw [if_neg (by omega), ih hrest distinct hb, Nat.add_right_comm, Nat.add_assoc]

/-- On a well-formed platform the bytes of window `k` are those of instance `k` (00_scope.md R11). -/
theorem Platform.window_base {p : Platform} {n k b off : Nat} (hp : p.wf n = true) (hb : p.bases[k]? = some b)
    (hoff : off < 0x100) : p.window (b + off) = some (k, off) := by
  simp only [Platform.wf, Bool.and_eq_true, List.all_eq_true, beq_iff_eq, decide_eq_true_eq] at hp
  obtain ⟨⟨⟨_, aligned⟩, distinct⟩, _⟩ := hp
  simpa [Platform.window] using findWindow_of_getElem? aligned distinct hb hoff 0

/-! ### An instance in focus -/

/-- The state with the engine `e` in focus in the place of instance `k`. -/
def State.focusOn (s : State) (k : Nat) (e : Engine) : State :=
  { s with before := s.engines.take k, eng := e, after := s.engines.drop (k + 1) }

section
variable {s : State} {k : Nat} {e : Engine}

theorem State.focus_eq (h : s.engines[k]? = some e) : s.focus k = some (s.focusOn k e) := by
  obtain ⟨hk, rfl⟩ := List.getElem?_eq_some_iff.mp h
  simp only [State.focus, List.drop_eq_getElem_cons hk, State.focusOn]

theorem State.focusOn_before_length (h : s.engines[k]? = some e) : (s.focusOn k e).before.length = k :=
  List.length_take_of_le (List.getElem?_eq_some_iff.mp h).1.le

/-- The engine put in focus takes the place of instance `k`, whatever engine was there. -/
theorem State.setEng_focusOn_engines (h : s.engines[k]? = some e) (f : Engine) :
    ((s.focusOn k e).setEng f).engines = s.engines.set k f := by
  rw [List.set_eq_take_append_cons_drop, if_pos (List.getElem?_eq_some_iff.mp h).1]
  rfl

/-- Bringing an instance into focus changes no instance. -/
theorem State.focusOn_engines (h : s.engines[k]? = some e) : (s.focusOn k e).engines = s.engines :=
  calc (s.focusOn k e).engines
      = s.engines.set k e := State.setEng_focusOn_engines h e
    _ = s.engines := by
      obtain ⟨hk, rfl⟩ := List.getElem?_eq_some_iff.mp h
      exact List.set_getElem_self hk

/-- An access of instance `k` that leaves it as `f`: the other instances and the turns to come stay, and so does
memory, unless the access ends a command whose races leave a byte open (20_memory.md R79, R81). -/
theorem State.hostTurn_focusOn (h : s.engines[k]? = some e) (f : Engine) :
    ((s.focusOn k e).hostTurn f).engines = s.engines.set k f ∧ ((s.focusOn k e).hostTurn f).turns = s.turns ∧
      ((e.busy = true → f.busy = false →
        ∀ q ∈ s.races, ∀ v ∈ q.finalValues k, s.mem.read q.addr.toNat = v) →
        ((s.focusOn k e).hostTurn f).mem = s.mem) := by
  obtain ⟨mem, d, rs, ht, _, hmem⟩ := ((s.focusOn k e).setEng f).ordered_eq e.busy
  rw [State.setEng_before, State.focusOn_before_length h] at hmem
  change (s.focusOn k e).hostTurn f = _ at ht
  rw [ht]
  exact ⟨State.setEng_focusOn_engines h f, rfl, hmem⟩

end

/-! ### A host access as a step -/

/-- A listed turn is taken by the next step. -/
theorem step_of_turns {s : State} {t : Turn} {ts : List Turn} (h : s.turns = t :: ts) :
    step s = takeTurn t { s with turns := ts } := by
  simp only [step, h]

/-- An access that reaches a register acts on it with its instance in focus. -/
theorem State.onRegister_eq {s : State} {addr width k off : Nat} {r : Reg} {e : Engine}
    (hw : s.platform.window addr = some (k, off)) (hr : Reg.ofOffset off width = some r)
    (he : s.engines[k]? = some e) (f : State → Reg → TurnOutcome) :
    s.onRegister addr width f = f (s.focusOn k e) r := by
  simp only [State.onRegister, hw, hr, State.onEngine, State.focus_eq he]

/-- An access of a window that reaches no register is not admitted. -/
theorem State.onRegister_refused {s : State} {addr width k off : Nat}
    (hw : s.platform.window addr = some (k, off)) (hr : Reg.ofOffset off width = none)
    (f : State → Reg → TurnOutcome) : s.onRegister addr width f = .refused .accessNotAdmitted := by
  simp only [State.onRegister, hw, hr]

section
variable {s : State} {addr width k off : Nat} {v : Word} {ts : List Turn} {r : Reg} {e : Engine}

theorem step_write (ht : s.turns = .write addr width v :: ts) (hw : s.platform.window addr = some (k, off))
    (hr : Reg.ofOffset off width = some r) (he : s.engines[k]? = some e) :
    step s = .next ((({ s with turns := ts } : State).focusOn k e).hostTurn (e.hostWrite r v)) := by
  rw [step_of_turns ht]
  exact State.onRegister_eq (s := { s with turns := ts }) hw hr he _

theorem step_read (ht : s.turns = .read addr width :: ts) (hw : s.platform.window addr = some (k, off))
    (hr : Reg.ofOffset off width = some r) (he : s.engines[k]? = some e) :
    step s = .next { ({ s with turns := ts } : State).focusOn k e with seen := some (.word (e.hostRead r)) } := by
  rw [step_of_turns ht]
  exact State.onRegister_eq (s := { s with turns := ts }) hw hr he _

theorem step_access_refused (ht : s.turns = .write addr width v :: ts ∨ s.turns = .read addr width :: ts)
    (hw : s.platform.window addr = some (k, off)) (hr : Reg.ofOffset off width = none) :
    step s = .refused .accessNotAdmitted := by
  rcases ht with ht | ht
  all_goals
    rw [step_of_turns ht]
    exact State.onRegister_refused (s := { s with turns := ts }) hw hr _

end

/-- Settles O10: the map of the window by its finitely many offsets, the windows by their alignment, and each
access by the step lemma of its turn. -/
theorem hostRegisterTurns : Obligations.HostRegisterTurns := by
  refine ⟨by decide, by decide, by decide, by decide, ?windows, ?write, ?read, ?refused⟩
  case windows => exact fun _ _ _ _ _ hp hb hoff => Platform.window_base hp hb hoff
  case write =>
    intro s addr v ts k off r e ht hw hr he
    exact ⟨_, step_write ht hw hr he, State.hostTurn_focusOn (s := { s with turns := ts }) he _⟩
  case read =>
    intro s addr ts k off r e ht hw hr he
    exact ⟨_, step_read ht hw hr he, rfl, State.focusOn_engines (s := { s with turns := ts }) he, rfl, rfl⟩
  case refused =>
    exact fun _ _ _ _ _ _ _ ht hw h => step_access_refused ht hw (Reg.ofOffset_eq_none h)

end Sys2Proof.Machine
end

section
/-! PROOFS. What the table of the commands says of their units, their SEED and their COMMIT: the bulk end lies at
whole blocks inside what a command reads, SEED makes a well-formed slot of a key that passed its length check, and
no phase but the end of a unit moves the position (40_control.md R114, R116, R120; 41_setkey.md R131 to R139). -/

namespace Sys2Proof.Machine

/-! ### The checks -/

theorem Plan.checkError_eq_none {p : Plan} {e : Engine} :
    p.checkError e = none ↔ p.stateError e = none ∧ p.lengthError e.latch = none := by
  unfold Plan.checkError
  cases p.stateError e <;> simp

/-- A command that passed its checks passed its length check (R114). -/
theorem lengthRule_of_checkError {i : Instr} {e : Engine} (h : (planOf i).checkError e = none) :
    lengthRule i e.latch = none := by
  rw [← planOf_lengthError]
  exact (Plan.checkError_eq_none.mp h).2

/-- A command that needs a key and passed its checks found it (R113). -/
theorem keyFor_of_checkError {i : Instr} {e : Engine} (h : (planOf i).checkError e = none)
    (ho : i.fields.op.toNat ∈ [2, 3, 4, 5]) : e.keyFor (modeClass i.fields.mode) := by
  by_contra hk
  rw [(planOf_checkError i e).1 ⟨ho, hk⟩] at h
  cases h

/-! ### The units -/

/-- The bulk end of a command (R120). -/
theorem planOf_bulk (i : Instr) (e : Engine) : (planOf i).bulk e = bulkBytes i e.reqLen := by
  cases i
  case cryptXtsEnc | cryptXtsDec =>
    change xtsBulkEnd e.reqLen = if e.reqLen % 16 = 0 then e.reqLen else 16 * (e.reqLen / 16 - 1)
    unfold xtsBulkEnd
    split <;> omega
  all_goals rfl

/-- A command reads at most its request. -/
theorem bytesRead_le (i : Instr) (l : Latch) : bytesRead i l ≤ l.len.toNat := by
  unfold bytesRead
  split <;> omega

/-- The BULK units lie in what the command reads: row by row of the table of R120. -/
theorem bulkBytes_le (i : Instr) (l : Latch) : bulkBytes i l.len.toNat ≤ bytesRead i l := by
  unfold bulkBytes bytesRead
  split <;> grind

/-- Where the length check passed, the bulk end lies at whole blocks: row by row of the tables of R114 and R120. -/
theorem bulkBytes_mod {i : Instr} {l : Latch} (h : lengthRule i l = none) : bulkBytes i l.len.toNat % 16 = 0 := by
  unfold lengthRule at h
  unfold bulkBytes
  split <;> grind

/-- The computation of a unit makes no key slot. -/
theorem planOf_compute_newSlot (i : Instr) (e : Engine) (t : Bool) (b : Bytes) :
    ((planOf i).compute e t b).2.newSlot = e.work.newSlot := by
  cases i
  case cryptCtrEnc | cryptCtrDec =>
    cases t <;> simp only [planOf, planCryptCtrEnc, planCryptCtrDec, ctrPlan, Plan.crypt, Plan.compute, ctrBlock,
      ctrTail, if_true, Bool.false_eq_true, if_false]
  case cryptXtsEnc | cryptXtsDec =>
    cases t <;> simp only [planOf, planCryptXtsEnc, planCryptXtsDec, Plan.crypt, Plan.compute, xtsBlock, xtsEncUnit,
      xtsDecUnit, if_true, Bool.false_eq_true, if_false]
  all_goals cases t <;> rfl

/-! ### The slots SETKEY makes -/

theorem Latch.length_rawKey {l : Latch} (h : l.keylen.toNat ≤ 64) : l.rawKey.length = l.keylen.toNat := by
  simp [Latch.rawKey, slice, h]

section
variable {raw : Bytes} (h : aesKeyBytes raw = true)
include h

theorem slotPlain_wf : (slotPlain raw).wf = true := by
  simp [KeySlot.wf, slotPlain, KeySlot.empty, h]

theorem slotEssiv_wf : (slotEssiv raw).wf = true := by
  simp [KeySlot.wf, slotEssiv, KeySlot.empty, h, digest256]

theorem slotCmac_wf : (slotCmac raw).wf = true := by
  simp [KeySlot.wf, slotCmac, KeySlot.empty, h]

end

theorem slotXcbc_wf (raw : Bytes) : (slotXcbc raw).wf = true := by
  simp [KeySlot.wf, slotXcbc, KeySlot.empty]

theorem slotXts_wf {raw : Bytes} {n : Nat} (h : n = 32 ∨ n = 48 ∨ n = 64) (hl : raw.length = n) :
    (slotXts raw n).wf = true := by
  rcases h with rfl | rfl | rfl <;> simp [KeySlot.wf, slotXts, KeySlot.empty, aesKeyBytes, slice, hl]

/-- The raw key of a SETKEY of a class other than XTS that passed its length check (41_setkey.md R131). -/
theorem aesKeyBytes_rawKey {l : Latch} (h : aesKeyLength l = none) : aesKeyBytes l.rawKey = true := by
  unfold aesKeyLength at h
  split at h
  · rename_i hk
    rcases hk with hk | hk | hk <;> simp [aesKeyBytes, Latch.length_rawKey, hk]
  · cases h

/-- The raw key of a SETKEY.XTS that passed its length check (41_setkey.md R131). -/
theorem slotXts_rawKey_wf {l : Latch} (h : xtsKeyLength l = none) :
    (slotXts l.rawKey l.keylen.toNat).wf = true := by
  unfold xtsKeyLength at h
  split at h
  · rename_i hk
    rcases hk with hk | hk | hk <;> exact slotXts_wf (by simp [hk]) (Latch.length_rawKey (by simp [hk]))
  · cases h

/-! ### SEED -/

/-- SEED leaves the position, and a well-formed slot to be installed where the checks passed. -/
theorem planOf_seed {i : Instr} {b : Bool} {e : Engine} {w : Work} (h : (planOf i).seed b e = .ok w) :
    w.pos = e.work.pos ∧
      ((planOf i).lengthError e.latch = none → e.work.newSlot.wf = true → w.newSlot.wf = true) := by
  cases i
  case setkeyEcb | setkeyCbc | setkeyCts | setkeyCtr | setkeyXctr | setkeyCbcmac =>
    obtain rfl := Except.ok.inj h
    exact ⟨rfl, fun hl _ => slotPlain_wf (aesKeyBytes_rawKey hl)⟩
  case setkeyXts =>
    obtain rfl := Except.ok.inj h
    exact ⟨rfl, fun hl _ => slotXts_rawKey_wf hl⟩
  case setkeyCmac =>
    obtain rfl := Except.ok.inj h
    exact ⟨rfl, fun hl _ => slotCmac_wf (aesKeyBytes_rawKey hl)⟩
  case setkeyXcbc =>
    obtain rfl := Except.ok.inj h
    exact ⟨rfl, fun _ _ => slotXcbc_wf _⟩
  case setkeyEssiv =>
    cases b
    · obtain rfl := Except.ok.inj h
      exact ⟨rfl, fun hl _ => slotEssiv_wf (aesKeyBytes_rawKey hl)⟩
    · cases h
  case cryptEssivEnc | cryptEssivDec =>
    obtain rfl := Except.ok.inj h
    unfold essivSeed
    split <;> exact ⟨rfl, fun _ hs => hs⟩
  all_goals
    obtain rfl := Except.ok.inj h
    exact ⟨rfl, fun _ hs => hs⟩

/-! ### COMMIT and errors -/

/-- The part of an instance's well-formedness that a completion has to keep: the key slot, the slot a SETKEY has
made, the MAC state, and the position within the request. -/
structure Engine.Sound (e : Engine) : Prop where
  slot : e.slot.wf = true
  newSlot : e.work.newSlot.wf = true
  mac : e.macWf = true
  pos : e.work.pos ≤ e.reqLen

/-- MAC_INIT of a mode whose key it found starts a computation of that mode (R231). -/
theorem Engine.macWf_of_keyFor {e : Engine} {m : BitVec 4} (hm : e.macMode = m) (h : m = 8 ∨ m = 9 ∨ m = 10)
    (hk : e.keyFor (modeClass m)) : e.macWf = true := by
  subst hm
  obtain ⟨hv, hc⟩ := hk
  rcases h with h | h | h <;> simp [Engine.macWf, hv, hc, h]

theorem commitFinup_sound (final : KeySlot → Block → Bytes → Block) {e : Engine} (h : e.Sound) :
    (commitFinup final e).Sound := by
  obtain ⟨hslot, hnew, _, hpos⟩ := h
  unfold commitFinup
  split <;> exact ⟨hslot, hnew, rfl, hpos⟩

theorem commitEssiv_sound {e : Engine} (h : e.Sound) : (commitEssiv e).Sound := by
  obtain ⟨hslot, hnew, hmac, hpos⟩ := h
  unfold commitEssiv
  split <;> exact ⟨hslot, hnew, hmac, hpos⟩

/-- COMMIT of a command that passed its checks keeps the instance sound. -/
theorem planOf_commit_sound {i : Instr} {e : Engine} (hc : (planOf i).checkError e = none) (h : e.Sound) :
    ((planOf i).commit e).Sound := by
  obtain ⟨hslot, hnew, hmac, hpos⟩ := h
  cases i
  case setkeyEcb | setkeyCbc | setkeyCts | setkeyEssiv | setkeyCtr | setkeyXctr | setkeyXts | setkeyCbcmac
    | setkeyCmac | setkeyXcbc => exact ⟨hnew, hnew, rfl, hpos⟩
  case macInitCbcmac =>
    exact ⟨hslot, hnew, Engine.macWf_of_keyFor (m := 8) rfl (by decide) (keyFor_of_checkError hc (by decide)), hpos⟩
  case macInitCmac =>
    exact ⟨hslot, hnew, Engine.macWf_of_keyFor (m := 9) rfl (by decide) (keyFor_of_checkError hc (by decide)), hpos⟩
  case macInitXcbc =>
    exact ⟨hslot, hnew, Engine.macWf_of_keyFor (m := 10) rfl (by decide) (keyFor_of_checkError hc (by decide)), hpos⟩
  case macFinupCbcmac | macFinupCmac | macFinupXcbc =>
    exact commitFinup_sound _ ⟨hslot, hnew, hmac, hpos⟩
  case cryptEssivEnc | cryptEssivDec => exact commitEssiv_sound ⟨hslot, hnew, hmac, hpos⟩
  all_goals exact ⟨hslot, hnew, hmac, hpos⟩

/-- What an error adds to its completion keeps the instance sound. -/
theorem planOf_onError_sound (i : Instr) {e : Engine} (h : e.Sound) : ((planOf i).onError e).Sound := by
  obtain ⟨hslot, hnew, hmac, hpos⟩ := h
  rw [planOf_onError]
  split
  · exact ⟨rfl, hnew, rfl, hpos⟩
  · split
    · exact ⟨hslot, hnew, rfl, hpos⟩
    · exact ⟨hslot, hnew, hmac, hpos⟩

end Sys2Proof.Machine
end

section
/-! PROOFS. What one engine step can do to its instance: an inversion lemma that later proofs cite in place of
unfolding `engineStep` (40_control.md R110, R121). -/

namespace Sys2Proof.Machine

/-! ### On through the phases -/

/-- `f` is `e` further on in its command: only the phase, the working registers, the maps and the transfer fields
may differ. -/
def Engine.Onward (e f : Engine) : Prop :=
  ∃ ph w sm dm k ui uo, f =
    { e with phase := ph, work := w, srcMap := sm, dstMap := dm, descIndex := k, unitIn := ui, unitOut := uo }

theorem Engine.Onward.trans {e f g : Engine} (h : e.Onward f) (k : f.Onward g) : e.Onward g := by
  obtain ⟨_, _, _, _, _, _, _, rfl⟩ := h
  obtain ⟨_, _, _, _, _, _, _, rfl⟩ := k
  exact ⟨_, _, _, _, _, _, _, rfl⟩

/-- Passing on through the phases changes the phase and the maps only. -/
theorem Plan.settle_eq (p : Plan) (e : Engine) :
    ∃ ph sm dm, p.settle e = { e with phase := ph, srcMap := sm, dstMap := dm } := by
  have map : ∃ ph sm dm, p.settleMap e = { e with phase := ph, srcMap := sm, dstMap := dm } := by
    unfold Plan.settleMap
    split
    · exact ⟨_, _, _, rfl⟩
    · split
      · exact ⟨_, _, _, rfl⟩
      · split <;> exact ⟨_, _, _, rfl⟩
  have bulk : ∀ f : Engine, ∃ ph, p.settleBulk f = { f with phase := ph } := by
    intro f
    unfold Plan.settleBulk
    split <;> exact ⟨_, rfl⟩
  have tail : ∀ f : Engine, ∃ ph, p.settleTail f = { f with phase := ph } := by
    intro f
    unfold Plan.settleTail
    split <;> exact ⟨_, rfl⟩
  obtain ⟨_, sm, dm, h1⟩ := map
  obtain ⟨_, h2⟩ := bulk (p.settleMap e)
  obtain ⟨ph, h3⟩ := tail (p.settleBulk (p.settleMap e))
  exact ⟨ph, sm, dm, by rw [Plan.settle, h3, h2, h1]⟩

theorem Plan.settle_onward (p : Plan) (e : Engine) : e.Onward (p.settle e) := by
  obtain ⟨_, _, _, h⟩ := p.settle_eq e
  exact ⟨_, _, _, _, _, _, _, h⟩

theorem Plan.settle_work (p : Plan) (e : Engine) : (p.settle e).work = e.work := by
  obtain ⟨_, _, _, h⟩ := p.settle_eq e
  rw [h]

theorem Plan.settle_latch (p : Plan) (e : Engine) : (p.settle e).latch = e.latch := by
  obtain ⟨_, _, _, h⟩ := p.settle_eq e
  rw [h]

/-- Before BULK the phases pass on to SEED at most. -/
theorem Plan.settle_phase_early (p : Plan) {e : Engine} (h : e.phase = .map ∨ e.phase = .seed) :
    (p.settle e).phase = .map ∨ (p.settle e).phase = .seed := by
  have hm : (p.settleMap e).phase = .map ∨ (p.settleMap e).phase = .seed := by
    unfold Plan.settleMap
    rcases h with h | h
    · rw [h]
      split
      · exact .inl h
      · split
        · exact .inr rfl
        · split
          · exact .inr rfl
          · exact .inl h
    · rw [h]
      exact .inr h
  have hb : p.settleBulk (p.settleMap e) = p.settleMap e := by
    unfold Plan.settleBulk
    rcases hm with hm | hm <;> rw [hm] <;> rfl
  have ht : p.settleTail (p.settleMap e) = p.settleMap e := by
    unfold Plan.settleTail
    rcases hm with hm | hm <;> rw [hm] <;> rfl
  rw [Plan.settle, hb, ht]
  exact hm

/-- From BULK on they pass to COMMIT at most, and stay in BULK below the bulk end only. -/
theorem Plan.settle_phase_late (p : Plan) {e : Engine} (h : e.phase = .bulk ∨ e.phase = .tail) :
    (p.settle e).phase = .bulk ∧ e.phase = .bulk ∧ e.work.pos < p.bulk e ∨
      (p.settle e).phase = .tail ∨ (p.settle e).phase = .commit := by
  have hm : p.settleMap e = e := by
    unfold Plan.settleMap
    rcases h with h | h <;> rw [h] <;> rfl
  have hb : (p.settleBulk e).phase = .bulk ∧ e.phase = .bulk ∧ e.work.pos < p.bulk e ∨
      (p.settleBulk e).phase = .tail := by
    unfold Plan.settleBulk
    split
    · exact .inr rfl
    · rename_i hn
      rcases h with h | h
      · exact .inl ⟨h, h, by simpa [h] using hn⟩
      · exact .inr h
  rw [Plan.settle, hm]
  unfold Plan.settleTail
  split
  · exact .inr (.inr rfl)
  · exact hb.imp_right .inl

/-! ### One engine step -/

/-- `f` is `e` inside a unit: the computation of the unit may have changed the working registers, but neither the
position nor the slot to be installed. -/
def Engine.Buffered (e f : Engine) : Prop :=
  ∃ w ui uo, f = { e with work := w, unitIn := ui, unitOut := uo } ∧
    w.pos = e.work.pos ∧ w.newSlot = e.work.newSlot

theorem Engine.Buffered.refl (e : Engine) : e.Buffered e := ⟨_, _, _, rfl, rfl, rfl⟩

theorem Engine.Buffered.onward {e f : Engine} (h : e.Buffered f) : e.Onward f := by
  obtain ⟨_, _, _, rfl, _⟩ := h
  exact ⟨_, _, _, _, _, _, _, rfl⟩

/-- The computation of a unit makes no key slot. -/
def Plan.keepsSlot (p : Plan) : Prop :=
  ∀ (e : Engine) (t : Bool) (b : Bytes), (p.compute e t b).2.newSlot = e.work.newSlot

/-- What one engine step of a command in progress can do to its instance (R121). -/
inductive Plan.Moves (p : Plan) (e : Engine) : Engine → Prop where
  /-- CHECK passes. -/
  | checked {ph : Phase} (h : e.phase = .check) (hc : p.checkError e = none) (hph : ph = .map ∨ ph = .seed) :
      Moves p e (p.settle { e with phase := ph })
  /-- An error, in any phase. -/
  | failed {f : Engine} (k : ErrorKind) (a : Addr) (hf : e.Buffered f) : Moves p e ((p.onError f).fail k a)
  /-- A descriptor is read in MAP. -/
  | mapped (sm dm : List Segment) (k : Nat) (h : e.phase = .map) :
      Moves p e (p.settle { e with srcMap := sm, dstMap := dm, descIndex := k })
  /-- SEED. -/
  | seeded {b : Bool} {w : Work} (h : e.phase = .seed) (hs : p.seed b e = .ok w) :
      Moves p e (p.settle { e with work := w, phase := .bulk })
  /-- An access inside a unit. -/
  | accessed {f : Engine} (h : e.phase = .bulk ∨ e.phase = .tail) (hf : e.Buffered f) : Moves p e f
  /-- The last access of a unit. -/
  | unitEnded {f : Engine} (h : e.phase = .bulk ∨ e.phase = .tail) (hf : e.Buffered f) :
      Moves p e (p.settle (f.advance (p.unitLen f)))
  /-- COMMIT. -/
  | committed (h : e.phase = .commit) : Moves p e (p.commit e).succeed

/-- `t` is `s` after a move of the instance in focus: memory and the count of draws may differ besides. -/
def Plan.MovesTo (p : Plan) (s t : State) : Prop :=
  ∃ mem d e, t = { s with mem := mem, draws := d, eng := e } ∧ p.Moves s.eng e

theorem Plan.MovesTo.setEng {p : Plan} {s : State} {e : Engine} (h : p.Moves s.eng e) : p.MovesTo s (s.setEng e) :=
  ⟨_, _, _, rfl, h⟩

theorem Plan.MovesTo.failStep {p : Plan} (s : State) (k : ErrorKind) (a : Addr) : p.MovesTo s (p.failStep k a s) :=
  .setEng (.failed k a (.refl _))

theorem Plan.checkStep_moves (p : Plan) {s : State} (h : s.eng.phase = .check) : p.MovesTo s (p.checkStep s) := by
  unfold Plan.checkStep
  cases hc : p.checkError s.eng with
  | some k => exact .failStep s k 0
  | none => exact .setEng (.checked h hc (by split <;> simp))

theorem Plan.mapStep_moves (p : Plan) {s : State} (h : s.eng.phase = .map) : p.MovesTo s (p.mapStep s) := by
  unfold Plan.mapStep
  dsimp only
  cases decide (mapLen s.eng.srcMap < p.total s.eng)
  all_goals
    simp only [if_true, Bool.false_eq_true, if_false]
    split
    · exact .failStep s _ _
    split
    · exact .failStep s _ _
    split
    · exact .failStep s _ _
    · exact .setEng (.mapped _ _ _ h)

theorem Plan.seedStep_moves (p : Plan) {s : State} (h : s.eng.phase = .seed) : p.MovesTo s (p.seedStep s) := by
  unfold Plan.seedStep Plan.runSeed
  dsimp only
  cases hs : p.seed (Config.hashFail s.draws) s.eng with
  | error k => cases p.draws <;> exact ⟨_, _, _, rfl, .failed k 0 (.refl _)⟩
  | ok w => cases p.draws <;> exact ⟨_, _, _, rfl, .seeded h hs⟩

section
variable {p : Plan} {s : State} (hph : s.eng.phase = .bulk ∨ s.eng.phase = .tail)
include hph

/-- The next write piece of a unit whose computation, if it has just been made, stands in `f`. -/
theorem Plan.writeStep_moves {f : Engine} (hf : s.eng.Buffered f) (out : Bytes) :
    p.MovesTo s (p.writeStep (s.setEng f) out) := by
  unfold Plan.writeStep
  dsimp only
  split
  · exact .setEng (.accessed hph hf)
  · split
    · exact ⟨_, _, _, rfl, .failed _ _ hf⟩
    · rename_i t hw
      obtain ⟨_, rfl⟩ := State.memWrite_ok hw
      split
      · exact ⟨_, _, _, rfl, .unitEnded hph hf⟩
      · obtain ⟨w, ui, _, rfl, hp, hn⟩ := hf
        exact ⟨_, _, _, rfl, .accessed hph ⟨w, ui, _, rfl, hp, hn⟩⟩

theorem Plan.computeUnit_moves (hpos : p.keepsPos) (hslot : p.keepsSlot) (hst : p.stores = false) (b : Bytes) :
    p.MovesTo s (p.computeUnit s b) := by
  unfold Plan.computeUnit
  rw [hst]
  exact ⟨_, _, _, rfl, .unitEnded hph ⟨_, _, _, rfl, hpos _ _ _, hslot _ _ _⟩⟩

theorem Plan.readStep_moves (hpos : p.keepsPos) (hslot : p.keepsSlot) : p.MovesTo s (p.readStep s) := by
  unfold Plan.readStep
  dsimp only
  split
  · exact ⟨_, _, _, rfl, .accessed hph (.refl _)⟩
  · split
    · exact .failStep s _ _
    · split
      · rename_i hlast
        exact Plan.computeUnit_moves hph hpos hslot hlast.2 _
      · exact .setEng (.accessed hph ⟨_, _, _, rfl, rfl, rfl⟩)

theorem Plan.transferStep_moves (hpos : p.keepsPos) (hslot : p.keepsSlot) : p.MovesTo s (p.transferStep s) := by
  unfold Plan.transferStep
  split
  · exact Plan.writeStep_moves hph (.refl s.eng) _
  · split
    · exact Plan.readStep_moves hph hpos hslot
    · dsimp only
      cases hst : p.stores with
      | false =>
        have hu : (p.computeUnit s s.eng.unitIn).eng.unitOut = none := by
          unfold Plan.computeUnit Plan.endUnit
          simp only [hst, Bool.false_eq_true, if_false, State.setEng_eng, Plan.settle_unitOut, Engine.advance_unitOut]
        rw [hu]
        exact Plan.computeUnit_moves hph hpos hslot hst _
      | true =>
        simp only [Plan.computeUnit, hst, if_true, State.setEng_eng]
        exact Plan.writeStep_moves hph ⟨_, _, _, rfl, hpos _ _ _, hslot _ _ _⟩ _

end

/-- One engine step of a command in progress is a move of its instance. -/
theorem engineStep_moves {p : Plan} (hpos : p.keepsPos) (hslot : p.keepsSlot) {s : State} (h : s.eng.phase ≠ .idle) :
    p.MovesTo s (engineStep p s) := by
  unfold engineStep
  cases hph : s.eng.phase with
  | idle => exact absurd hph h
  | check => exact p.checkStep_moves hph
  | map => exact p.mapStep_moves hph
  | seed => exact p.seedStep_moves hph
  | bulk => exact Plan.transferStep_moves (.inl hph) hpos hslot
  | tail => exact Plan.transferStep_moves (.inr hph) hpos hslot
  | commit => exact .setEng (.committed hph)

theorem Engine.busy_iff {e : Engine} : e.busy = true ↔ e.phase ≠ .idle := by
  simp [Engine.busy]

theorem Engine.busy_eq_false {e : Engine} : e.busy = false ↔ e.phase = .idle := by
  simp [Engine.busy]

/-- An idle instance does nothing (60_exceptions.md R278). -/
theorem microStep_idle {s : State} (h : s.eng.busy = false) : microStep s = s := by
  simp [microStep, h]

/-- What a busy instance does in one engine step: a move of its command, or the completion of an illegal word. -/
theorem microStep_busy {s : State} (h : s.eng.busy = true) :
    (∃ i, decode s.eng.latch.cmd = .ok i ∧ (planOf i).MovesTo s (microStep s)) ∨
    (∃ x, decode s.eng.latch.cmd = .error x ∧ microStep s = s.setEng (s.eng.fail .illegalCommand 0)) := by
  unfold microStep
  rw [if_pos h]
  cases hd : decode s.eng.latch.cmd with
  | ok i => exact .inl ⟨i, rfl, engineStep_moves (planOf_keepsPos i) (planOf_compute_newSlot i) (Engine.busy_iff.mp h)⟩
  | error x => exact .inr ⟨x, rfl, rfl⟩

/-- No engine step ends in CHECK. -/
theorem Plan.Moves.phase_ne_check {p : Plan} {e f : Engine} (h : p.Moves e f) : f.phase ≠ .check := by
  have early : ∀ g : Engine, g.phase = .map ∨ g.phase = .seed → (p.settle g).phase ≠ .check := by
    intro g hg
    rcases p.settle_phase_early hg with h | h <;> rw [h] <;> decide
  have late : ∀ g : Engine, g.phase = .bulk ∨ g.phase = .tail → (p.settle g).phase ≠ .check := by
    intro g hg
    rcases p.settle_phase_late hg with ⟨h, _⟩ | h | h <;> rw [h] <;> decide
  cases h with
  | checked h hc hph => exact early _ hph
  | failed => simp
  | mapped _ _ _ h => exact early _ (.inl h)
  | seeded => exact late _ (.inl rfl)
  | accessed h hf =>
    obtain ⟨_, _, _, rfl, _⟩ := hf
    rcases h with h | h <;> simp [h]
  | unitEnded h hf =>
    obtain ⟨_, _, _, rfl, _⟩ := hf
    exact late _ h
  | committed => simp

end Sys2Proof.Machine
end

section
/-! PROOFS. Every move of an instance keeps it well formed: the steps of its command, a whole command, a host write and
a reset (10_state.md R40 to R44; 40_control.md R112 to R117; 60_exceptions.md R260). -/

namespace Sys2Proof.Machine

/-! ### The invariant of an instance, part by part -/

/-- The parts of `Engine.wf`. -/
structure Engine.WellFormed (e : Engine) : Prop where
  code : e.errCode.toNat ≤ 8
  slot : e.slot.wf = true
  newSlot : e.work.newSlot.wf = true
  mac : e.macWf = true
  idle : e.idleWf = true
  latch : e.latchWf = true
  command : e.commandWf = true
  pos : e.posWf = true

theorem Engine.wf_iff {e : Engine} : e.wf = true ↔ e.WellFormed := by
  simp only [Engine.wf, Bool.and_eq_true, decide_eq_true_eq]
  constructor
  · rintro ⟨⟨⟨⟨⟨⟨⟨code, slot⟩, newSlot⟩, mac⟩, idle⟩, latch⟩, command⟩, pos⟩
    exact ⟨code, slot, newSlot, mac, idle, latch, command, pos⟩
  · rintro ⟨code, slot, newSlot, mac, idle, latch, command, pos⟩
    exact ⟨⟨⟨⟨⟨⟨⟨code, slot⟩, newSlot⟩, mac⟩, idle⟩, latch⟩, command⟩, pos⟩

theorem ErrorKind.code_le (k : ErrorKind) : k.code.toNat ≤ 8 := by
  cases k <;> decide

/-- A command past CHECK passed its checks (R112 to R114). -/
theorem Engine.checkError_of_commandWf {e : Engine} {i : Instr} (h : e.commandWf = true) (hi : e.phase ≠ .idle)
    (hc : e.phase ≠ .check) (hd : decode e.latch.cmd = .ok i) : (planOf i).checkError e = none := by
  unfold Engine.commandWf at h
  split at h
  · exact absurd ‹_› hi
  · exact absurd ‹_› hc
  · rw [hd] at h
    simp only [Bool.and_eq_true, beq_iff_eq] at h
    exact h.1

/-- Up to SEED the position is 0 (R44). -/
theorem Engine.pos_eq_zero {e : Engine} (h : e.posWf = true)
    (hph : e.phase = .check ∨ e.phase = .map ∨ e.phase = .seed) : e.work.pos = 0 := by
  unfold Engine.posWf at h
  rcases hph with hph | hph | hph
  all_goals
    rw [hph] at h
    simpa using h

/-- From BULK on the position is within what the command reads, in BULK at a whole block below the bulk end. -/
theorem Engine.posWf_late {e : Engine} {i : Instr} (hph : e.phase = .bulk ∨ e.phase = .tail ∨ e.phase = .commit)
    (hd : decode e.latch.cmd = .ok i) :
    e.posWf = true ↔ e.work.pos ≤ bytesRead i e.latch ∧
      (e.phase = .bulk → e.work.pos % 16 = 0 ∧ e.work.pos < bulkBytes i e.reqLen) := by
  unfold Engine.posWf
  rcases hph with hph | hph | hph
  all_goals simp [hph, hd]

/-- The position is never past the request (R44; log entry 27). -/
theorem Engine.WellFormed.pos_le {e : Engine} (h : e.WellFormed) : e.work.pos ≤ e.reqLen := by
  have hp := h.pos
  unfold Engine.posWf at hp
  split at hp
  case h_1 => exact of_decide_eq_true hp
  case h_2 | h_3 | h_4 => exact (beq_iff_eq.mp hp).trans_le (Nat.zero_le _)
  all_goals
    split at hp
    · cases hp
    · rename_i i _
      simp only [Bool.and_eq_true, decide_eq_true_eq] at hp
      exact hp.1.trans (bytesRead_le i e.latch)

theorem Engine.WellFormed.sound {e : Engine} (h : e.WellFormed) : e.Sound :=
  ⟨h.slot, h.newSlot, h.mac, h.pos_le⟩

/-! ### Completion -/

theorem Engine.Sound.succeed {e : Engine} (h : e.Sound) : e.succeed.WellFormed where
  code := by simp
  slot := h.slot
  newSlot := h.newSlot
  mac := h.mac
  idle := rfl
  latch := rfl
  command := rfl
  pos := decide_eq_true h.pos

theorem Engine.Sound.fail {e : Engine} (h : e.Sound) (k : ErrorKind) (a : Addr) : (e.fail k a).WellFormed where
  code := k.code_le
  slot := h.slot
  newSlot := h.newSlot
  mac := h.mac
  idle := rfl
  latch := rfl
  command := rfl
  pos := decide_eq_true h.pos

/-! ### The steps of a command -/

/-- An instance further on in a command that passed its checks is well formed where its new working registers are. -/
theorem Engine.WellFormed.onward {e f : Engine} {i : Instr} (h : e.WellFormed) (hb : e.busy = true)
    (hd : decode e.latch.cmd = .ok i) (hc : (planOf i).checkError e = none) (hf : e.Onward f)
    (hi : f.phase ≠ .idle) (hn : f.work.newSlot.wf = true) (hp : f.posWf = true) : f.WellFormed := by
  obtain ⟨ph, w, sm, dm, k, ui, uo, rfl⟩ := hf
  have hlatch := h.latch
  simp only [Engine.latchWf, hb, Bool.not_true, Bool.false_or] at hlatch
  refine ⟨h.code, h.slot, hn, h.mac, ?_, ?_, ?_, hp⟩
  · simp only [Engine.idleWf, Engine.busy_iff.mpr hi, Bool.true_or]
  · simp only [Engine.latchWf, hlatch, Bool.or_true]
  · unfold Engine.commandWf
    split
    · rfl
    · rfl
    · simp only [hd, Bool.and_eq_true]
      exact ⟨beq_iff_eq.mpr hc, hn⟩

/-- A step inside a unit keeps the phase, the request, the position and the slot to be installed. -/
theorem Engine.Buffered.keeps {e f : Engine} (h : e.Buffered f) :
    f.phase = e.phase ∧ f.latch = e.latch ∧ f.work.pos = e.work.pos ∧ f.work.newSlot = e.work.newSlot := by
  obtain ⟨w, ui, uo, rfl, hp, hn⟩ := h
  exact ⟨rfl, rfl, hp, hn⟩

theorem Engine.Buffered.sound {e f : Engine} (h : e.Buffered f) (he : e.Sound) : f.Sound := by
  obtain ⟨w, ui, uo, rfl, hp, hn⟩ := h
  exact ⟨he.slot, (congrArg KeySlot.wf hn).trans he.newSlot, he.mac, hp.trans_le he.pos⟩

theorem Engine.Onward.latch {e f : Engine} (h : e.Onward f) : f.latch = e.latch := by
  obtain ⟨_, _, _, _, _, _, _, rfl⟩ := h
  rfl

section
variable {i : Instr} {e f : Engine}

/-- Passing on from BULK or TAIL leaves the position as `posWf` asks. -/
theorem Plan.settle_posWf_late (hd : decode f.latch.cmd = .ok i) (hph : f.phase = .bulk ∨ f.phase = .tail)
    (hle : f.work.pos ≤ bytesRead i f.latch) (hmod : f.phase = .bulk → f.work.pos % 16 = 0) :
    ((planOf i).settle f).posWf = true := by
  have hl := (planOf i).settle_latch f
  have hto := (planOf i).settle_phase_late hph
  rw [Engine.posWf_late (i := i) (by tauto) (by rw [hl, hd]), Plan.settle_work, Engine.reqLen, hl]
  refine ⟨hle, fun hbulk => ?_⟩
  rcases hto with ⟨_, hb, hlt⟩ | ht | ht
  · rw [planOf_bulk] at hlt
    exact ⟨hmod hb, hlt⟩
  all_goals
    rw [hbulk] at ht
    cases ht

/-- What the unit at the position ends at: within what the command reads, and in BULK at a whole block. -/
theorem Engine.unit_end (hp : e.posWf = true) (hd : decode e.latch.cmd = .ok i)
    (hc : (planOf i).checkError e = none) (hph : e.phase = .bulk ∨ e.phase = .tail) :
    e.work.pos + (planOf i).unitLen e ≤ bytesRead i e.latch ∧
      (e.phase = .bulk → (e.work.pos + (planOf i).unitLen e) % 16 = 0) := by
  obtain ⟨hle, hbulk⟩ := (Engine.posWf_late (by tauto) hd).mp hp
  unfold Plan.unitLen
  rw [planOf_total]
  rcases hph with hph | hph
  · obtain ⟨hmod, hlt⟩ := hbulk hph
    have hm := bulkBytes_mod (lengthRule_of_checkError hc)
    have hb := bulkBytes_le i e.latch
    unfold Engine.reqLen at hlt
    rw [hph, if_neg (by decide)]
    exact ⟨by omega, fun _ => by omega⟩
  · rw [hph, if_pos (by decide)]
    exact ⟨by omega, fun h => by cases h⟩

section
variable (h : e.WellFormed) (hb : e.busy = true) (hd : decode e.latch.cmd = .ok i)
  (hc : (planOf i).checkError e = none) (hf : e.Onward f)
include h hb hd hc hf

theorem Engine.WellFormed.settle_early (hph : f.phase = .map ∨ f.phase = .seed) (h0 : f.work.pos = 0)
    (hn : f.work.newSlot.wf = true) : ((planOf i).settle f).WellFormed := by
  have hto := (planOf i).settle_phase_early hph
  refine h.onward hb hd hc (hf.trans (Plan.settle_onward _ f)) ?_ (by rwa [Plan.settle_work]) ?_
  · rcases hto with hto | hto <;> rw [hto] <;> decide
  · unfold Engine.posWf
    rcases hto with hto | hto <;> simp [hto, Plan.settle_work, h0]

theorem Engine.WellFormed.settle_late (hph : f.phase = .bulk ∨ f.phase = .tail)
    (hle : f.work.pos ≤ bytesRead i e.latch) (hmod : f.phase = .bulk → f.work.pos % 16 = 0)
    (hn : f.work.newSlot.wf = true) : ((planOf i).settle f).WellFormed := by
  refine h.onward hb hd hc (hf.trans (Plan.settle_onward _ f)) ?_ (by rwa [Plan.settle_work])
    (Plan.settle_posWf_late (by rwa [hf.latch]) hph (by rwa [hf.latch]) hmod)
  rcases (planOf i).settle_phase_late hph with ⟨hto, _⟩ | hto | hto <;> rw [hto] <;> decide

end

/-- Every step of a command keeps its instance well formed. -/
theorem Engine.WellFormed.moves (h : e.WellFormed) (hb : e.busy = true) (hd : decode e.latch.cmd = .ok i)
    (hf : (planOf i).Moves e f) : f.WellFormed := by
  have passed {ph : Phase} (hph : e.phase = ph) (hlate : ph ≠ .check := by decide) :
      (planOf i).checkError e = none :=
    Engine.checkError_of_commandWf h.command (Engine.busy_iff.mp hb) (hph ▸ hlate) hd
  cases hf with
  | failed k a hf => exact (planOf_onError_sound i (hf.sound h.sound)).fail k a
  | checked hph hc hto =>
    exact h.settle_early hb hd hc ⟨_, _, _, _, _, _, _, rfl⟩ hto (Engine.pos_eq_zero (e := e) h.pos (.inl hph))
      h.newSlot
  | mapped _ _ _ hph =>
    exact h.settle_early hb hd (passed hph) ⟨_, _, _, _, _, _, _, rfl⟩ (.inl hph)
      (Engine.pos_eq_zero h.pos (.inr (.inl hph))) h.newSlot
  | @seeded b w hph hs =>
    obtain ⟨hp, hn⟩ := planOf_seed hs
    have h0 : w.pos = 0 := hp.trans (Engine.pos_eq_zero h.pos (.inr (.inr hph)))
    refine h.settle_late hb hd (passed hph) ⟨_, _, _, _, _, _, _, rfl⟩ (.inl rfl) ?_ ?_
      (hn (Plan.checkError_eq_none.mp (passed hph)).2 h.newSlot)
    · exact h0.trans_le (Nat.zero_le _)
    · exact fun _ => congrArg (· % 16) h0
  | accessed hph hf =>
    have hc := hph.elim passed passed
    obtain ⟨keepsPh, keepsLatch, keepsPos, keepsSlot⟩ := hf.keeps
    refine h.onward hb hd hc hf.onward (keepsPh ▸ Engine.busy_iff.mp hb) (keepsSlot ▸ h.newSlot) ?_
    have hpos := (Engine.posWf_late (by tauto) hd).mp h.pos
    rw [Engine.posWf_late (i := i) (by rw [keepsPh]; tauto) (by rw [keepsLatch, hd]), Engine.reqLen, keepsPh,
      keepsLatch, keepsPos]
    exact hpos
  | @unitEnded g hph hf =>
    have hc := hph.elim passed passed
    obtain ⟨keepsPh, keepsLatch, keepsPos, keepsSlot⟩ := hf.keeps
    have hu : (planOf i).unitLen g = (planOf i).unitLen e := by
      simp only [Plan.unitLen, planOf_total, keepsPh, keepsLatch, keepsPos]
    obtain ⟨hle, hmod⟩ := Engine.unit_end h.pos hd hc hph
    rw [← keepsPos, ← hu] at hle hmod
    exact h.settle_late hb hd hc (hf.onward.trans ⟨_, _, _, _, _, _, _, rfl⟩) (keepsPh ▸ hph) hle (keepsPh ▸ hmod)
      (keepsSlot ▸ h.newSlot)
  | committed hph => exact (planOf_commit_sound (passed hph) h.sound).succeed

end

/-! ### A whole command -/

/-- In a command with the request `l`, the units so far end at offset `n` at most, and the slot to be installed is well
formed. -/
structure State.WorkedTo (l : Latch) (n : Nat) (s : State) : Prop where
  latch : s.eng.latch = l
  pos : s.eng.work.pos ≤ n
  newSlot : s.eng.work.newSlot.wf = true

theorem State.WorkedTo.mono {l : Latch} {m n : Nat} {s : State} (h : s.WorkedTo l m) (hmn : m ≤ n) : s.WorkedTo l n :=
  ⟨h.latch, h.pos.trans hmn, h.newSlot⟩

/-- What one part of a command leaves the next one finds, and an error keeps. -/
theorem Run.andThen_holds {P Q : State → Prop} {r : Run} {f : State → Run} (h : P r.state)
    (weaken : ∀ t, P t → Q t) (k : ∀ t, P t → Q (f t).state) : Q (r.andThen f).state := by
  cases r with
  | going t => exact k t h
  | raised e a t => exact weaken t h

section
variable {p : Plan} {l : Latch} {s : State}

theorem Plan.runMap_workedTo {n : Nat} (h : s.WorkedTo l n) : (p.runMap s).state.WorkedTo l n := by
  have hw : (p.runMap s).state.eng.work = s.eng.work := by
    unfold Plan.runMap
    split
    · split
      · rfl
      · split
        · split <;> rfl
        · rfl
    · rfl
  obtain ⟨_, _, _, _, _, _, _, hr, _⟩ := p.runMap_ran s
  exact ⟨by rw [hr]; exact h.latch, hw ▸ h.pos, hw ▸ h.newSlot⟩

theorem Plan.runUnit_workedTo (hpos : p.keepsPos) (hslot : p.keepsSlot) {n : Nat} (h : s.WorkedTo l n) (inTail : Bool)
    (u : Nat) : (p.runUnit inTail u s).state.WorkedTo l (s.eng.work.pos + u) := by
  unfold Plan.runUnit
  cases s.streamRead s.eng.srcMap s.eng.work.pos u with
  | error a => exact ⟨h.latch, Nat.le_add_right _ _, h.newSlot⟩
  | ok b =>
    dsimp only
    have hcomp : (s.setWork (p.compute s.eng inTail b).2).WorkedTo l s.eng.work.pos :=
      ⟨h.latch, (hpos _ _ _).le, (congrArg KeySlot.wf (hslot _ _ _)).trans h.newSlot⟩
    refine Run.andThen_holds (P := fun t => t.WorkedTo l s.eng.work.pos) ?_ (fun t ht => ht.mono (Nat.le_add_right _ _))
      fun t ht => ⟨ht.latch, Nat.add_le_add_right ht.pos u, ht.newSlot⟩
    split
    · obtain ⟨_, hw, _⟩ := State.streamWrite_state (s.setWork (p.compute s.eng inTail b).2) s.eng.dstMap s.eng.work.pos
        (p.compute s.eng inTail b).1
      rw [hw]
      exact ⟨hcomp.latch, hcomp.pos, hcomp.newSlot⟩
    · exact hcomp

theorem Plan.runBlocks_workedTo (hpos : p.keepsPos) (hslot : p.keepsSlot) (k : Nat) {n : Nat} (h : s.WorkedTo l n) :
    (p.runBlocks k s).state.WorkedTo l (n + 16 * k) := by
  induction k generalizing s n with
  | zero => exact h
  | succ k ih =>
    have hn := h.pos
    exact Run.andThen_holds (Plan.runUnit_workedTo hpos hslot h false 16) (fun t ht => ht.mono (by omega))
      fun t ht => (ih ht).mono (by omega)

theorem Plan.runTail_workedTo (hpos : p.keepsPos) (hslot : p.keepsSlot) (h : s.WorkedTo l (p.total s.eng)) :
    (p.runTail s).state.WorkedTo l (p.total s.eng) := by
  unfold Plan.runTail
  split
  · exact (Plan.runUnit_workedTo hpos hslot h true _).mono (by omega)
  · exact h

end

section
variable {i : Instr} {l : Latch} {s : State}

theorem planOf_runSeed_workedTo (hl : (planOf i).lengthError l = none) (h : s.WorkedTo l 0) :
    ((planOf i).runSeed s).state.WorkedTo l 0 := by
  unfold Plan.runSeed
  cases hs : (planOf i).seed (Config.hashFail s.draws) s.eng with
  | error k => cases (planOf i).draws <;> exact ⟨h.latch, h.pos, h.newSlot⟩
  | ok w =>
    obtain ⟨hp, hn⟩ := planOf_seed hs
    have hnew := hn (h.latch ▸ hl) h.newSlot
    cases (planOf i).draws <;> exact ⟨h.latch, hp.trans_le h.pos, hnew⟩

/-- The phases MAP to TAIL of a command leave the position within what it reads. -/
theorem planOf_runWork_workedTo (hl : (planOf i).lengthError l = none) (h : s.WorkedTo l 0) :
    ((planOf i).runWork s).state.WorkedTo l (bytesRead i l) := by
  have hpos := planOf_keepsPos i
  have hslot := planOf_compute_newSlot i
  have hbulk := bulkBytes_le i l
  refine Run.andThen_holds (P := State.WorkedTo l (bytesRead i l))
    (Run.andThen_holds (P := State.WorkedTo l 0)
      (Run.andThen_holds (P := State.WorkedTo l 0) (Plan.runMap_workedTo h) (fun _ => id)
        fun t ht => planOf_runSeed_workedTo hl ht)
      (fun t ht => ht.mono (Nat.zero_le _)) fun t ht => ?_)
    (fun _ => id) fun t ht => ?_
  · refine (Plan.runBlocks_workedTo hpos hslot _ ht).mono ?_
    rw [planOf_bulk, Engine.reqLen, ht.latch]
    omega
  · have htot : (planOf i).total t.eng = bytesRead i l := by rw [planOf_total, ht.latch]
    exact htot ▸ Plan.runTail_workedTo hpos hslot (htot ▸ ht)

/-- A whole command keeps its instance well formed. -/
theorem Engine.WellFormed.runCommand (h : s.eng.WellFormed) (hph : s.eng.phase = .check) :
    (runCommand (planOf i) s).eng.WellFormed := by
  have h0 := Engine.pos_eq_zero h.pos (.inl hph)
  have sound (hc : (planOf i).checkError s.eng = none) {t : State} (ht : ((planOf i).runWork s).state = t)
      (hr : s.Ran t) : t.eng.Sound := by
    have hw := planOf_runWork_workedTo (Plan.checkError_eq_none.mp hc).2 ⟨rfl, h0.le, h.newSlot⟩
    rw [ht] at hw
    obtain ⟨_, _, _, _, _, _, _, rfl, _⟩ := hr
    exact ⟨h.slot, hw.newSlot, h.mac, hw.pos.trans (bytesRead_le i _)⟩
  rcases runCommand_cases (planOf i) s with ⟨k, _, he⟩ | ⟨k, a, t, hc, hw, hr, he⟩ | ⟨t, hc, hw, hr, he⟩
  · rw [he]
    exact (planOf_onError_sound i h.sound).fail k 0
  · rw [he]
    exact (planOf_onError_sound i (sound hc (by rw [hw]; rfl) hr)).fail k a
  · have hs := sound hc (by rw [hw]; rfl) hr
    rw [he]
    refine (planOf_commit_sound ?_ hs).succeed
    obtain ⟨_, _, _, _, _, _, _, rfl, _⟩ := hr
    exact hc

end

/-! ### The host's accesses -/

theorem Engine.wellFormed_reset : Engine.reset.WellFormed :=
  Engine.wf_iff.mp (by decide)

section
variable {e : Engine} (h : e.WellFormed)
include h

/-- A write of operand registers while idle. -/
theorem Engine.WellFormed.operands (hi : e.busy = false) (len : BitVec 32) (src dst : Addr) (keylen : BitVec 7)
    (xctr : BitVec 64) (iv : Block) (key : KeyBuffer) :
    ({ e with len := len, src := src, dst := dst, keylen := keylen, xctr := xctr, iv := iv, key := key } :
      Engine).WellFormed := by
  obtain ⟨code, slot, newSlot, mac, idle, _, command, pos⟩ := h
  refine ⟨code, slot, newSlot, mac, idle, ?_, command, pos⟩
  unfold Engine.latchWf
  change (!e.busy || _) = true
  rw [hi]
  rfl

theorem Engine.WellFormed.accept (w : Word) : (e.accept w).WellFormed where
  code := h.code
  slot := h.slot
  newSlot := h.newSlot
  mac := h.mac
  idle := rfl
  latch := by simp [Engine.latchWf]
  command := rfl
  pos := rfl

theorem Engine.WellFormed.operandWrite {f : Engine} (hf : e.busy = false → f.WellFormed) :
    (e.operandWrite f).WellFormed := by
  unfold Engine.operandWrite
  split
  · obtain ⟨code, slot, newSlot, mac, idle, latch, command, pos⟩ := h
    exact ⟨code, slot, newSlot, mac, idle, latch, command, pos⟩
  · exact hf (by simpa using ‹¬ e.busy = true›)

/-- A host write of any register keeps the instance well formed. -/
theorem Engine.WellFormed.hostWrite (r : Reg) (v : Word) : (e.hostWrite r v).WellFormed := by
  cases r
  case ctrl =>
    unfold Engine.hostWrite
    dsimp only
    split
    · exact Engine.wellFormed_reset
    · obtain ⟨code, slot, newSlot, mac, idle, latch, command, pos⟩ := h
      exact ⟨code, slot, newSlot, mac, idle, latch, command, pos⟩
  case status =>
    obtain ⟨code, slot, newSlot, mac, idle, latch, command, pos⟩ := h
    exact ⟨code, slot, newSlot, mac, idle, latch, command, pos⟩
  case cmd => exact h.operandWrite fun _ => h.accept v
  case len | srcLo | srcHi | dstLo | dstHi | keylen | xctrLo | xctrHi | iv | key =>
    exact h.operandWrite fun hi => h.operands hi _ _ _ _ _ _ _
  all_goals exact h

end

end Sys2Proof.Machine
end

section
/-! PROOFS. Records of races stay with commands in progress: what each operation on a record keeps of the part of the
invariant that speaks of races, and the ordering points (20_memory.md R78 to R81; log entry 8). -/

namespace Sys2Proof.Machine

/-! ### The invariant of a record -/

/-- The record of one write speaks of agents in `A` only, and the agents in `C` know no more of it than the host. -/
def RaceWrite.Ok (A C : Agent → Prop) (w : RaceWrite) : Prop :=
  (∀ a, a ∈ w.known ∨ a ∈ w.stale → A a) ∧
    ∀ a, C a → (a ∈ w.known → .host ∈ w.known) ∧ (a ∈ w.stale → .host ∈ w.stale)

/-- A record all of whose writes are in order. -/
def Race.Ok (A C : Agent → Prop) (r : Race) : Prop := ∀ w ∈ r.writes, w.Ok A C

/-- Records, one for each byte, in order, and at most one content known to the host. -/
structure RacesOk (A C : Agent → Prop) (rs : List Race) : Prop where
  nodup : (rs.map (·.addr)).Nodup
  one : ∀ r ∈ rs, r.candidates.length ≤ 1
  writes : ∀ r ∈ rs, r.Ok A C

theorem RaceWrite.Ok.mono {A A' C C' : Agent → Prop} {w : RaceWrite} (h : w.Ok A C) (hA : ∀ a, A a → A' a)
    (hC : ∀ a, C' a → C a) : w.Ok A' C' :=
  ⟨fun a ha => hA a (h.1 a ha), fun a ha => h.2 a (hC a ha)⟩

theorem RacesOk.mono {A A' C C' : Agent → Prop} {rs : List Race} (h : RacesOk A C rs) (hA : ∀ a, A a → A' a)
    (hC : ∀ a, C' a → C a) : RacesOk A' C' rs :=
  ⟨h.nodup, h.one, fun r hr w hw => (h.writes r hr w hw).mono hA hC⟩

theorem RacesOk.nil (A C : Agent → Prop) : RacesOk A C [] :=
  ⟨List.nodup_nil, by simp, by simp⟩

theorem Race.length_candidates_le (r : Race) : r.candidates.length ≤ r.writes.length :=
  (List.length_filter_le _ _).trans (List.length_filter_le _ _)

/-- The contents known to the host stay in number where an operation keeps what the host knows of each write. -/
theorem Race.candidates_map (r : Race) {f : RaceWrite → RaceWrite}
    (hk : ∀ w, Agent.host ∈ (f w).known ↔ Agent.host ∈ w.known)
    (hs : ∀ w, Agent.host ∈ (f w).stale ↔ Agent.host ∈ w.stale) :
    ({ r with writes := r.writes.map f } : Race).candidates = r.candidates.map f := by
  simp only [Race.candidates, Race.found, List.filter_map, List.filter_filter]
  congr 1
  refine List.filter_congr fun w _ => ?_
  simp [hk, hs]

@[simp] theorem RaceWrite.mem_known_tell {w : RaceWrite} {x y a : Agent} :
    a ∈ (w.tell x y).known ↔ a ∈ w.known ∨ a = y ∧ x ∈ w.known := by
  by_cases h : x ∈ w.known <;> simp [RaceWrite.tell, h, List.mem_insert_iff, or_comm]

@[simp] theorem RaceWrite.mem_stale_tell {w : RaceWrite} {x y a : Agent} :
    a ∈ (w.tell x y).stale ↔ a ∈ w.stale ∨ a = y ∧ x ∈ w.stale := by
  by_cases h : x ∈ w.stale <;> simp [RaceWrite.tell, h, List.mem_insert_iff, or_comm]

@[simp] theorem RaceWrite.mem_known_forget {w : RaceWrite} {x a : Agent} :
    a ∈ (w.forget x).known ↔ a ∈ w.known ∧ a ≠ x := by
  simp [RaceWrite.forget]

@[simp] theorem RaceWrite.mem_stale_forget {w : RaceWrite} {x a : Agent} :
    a ∈ (w.forget x).stale ↔ a ∈ w.stale ∧ a ≠ x := by
  simp [RaceWrite.forget]

/-! ### Writes -/

section
variable {A C : Agent → Prop} {x : Agent} (hx : A x) (hc : x = .host ∨ ¬ C x)
include hx hc

theorem Race.Ok.write {r : Race} (h : r.Ok A C) (v : Byte) : (r.write x v).Ok A C := by
  intro w hw
  rcases List.mem_append.mp hw with hw | hw
  · obtain ⟨w, hold, rfl⟩ := List.mem_map.mp hw
    obtain ⟨hA, hC⟩ := h w hold
    split
    · refine ⟨fun a ha => ?_, fun a ha => ⟨(hC a ha).1, fun hs => ?_⟩⟩
      · rcases ha with ha | ha
        · exact hA a (.inl ha)
        · rcases List.mem_insert_iff.mp ha with rfl | ha
          · exact hx
          · exact hA a (.inr ha)
      · rcases List.mem_insert_iff.mp hs with rfl | hs
        · rcases hc with rfl | hc
          · exact List.mem_insert_self
          · exact absurd ha hc
        · exact List.mem_insert_of_mem ((hC a ha).2 hs)
    · exact ⟨hA, hC⟩
  · obtain rfl := List.mem_singleton.mp hw
    refine ⟨fun a ha => ?_, fun a ha => ⟨fun hk => ?_, fun hs => by simp at hs⟩⟩
    · rcases ha with ha | ha
      · exact List.mem_singleton.mp ha ▸ hx
      · simp at ha
    · obtain rfl := List.mem_singleton.mp hk
      rcases hc with rfl | hc
      · exact List.mem_singleton.mpr rfl
      · exact absurd ha hc

end

/-- The record of an earlier write after one of agent `x`. -/
def RaceWrite.overwrittenBy (w : RaceWrite) (x : Agent) : RaceWrite :=
  if w.known.contains x then { w with stale := w.stale.insert x } else w

/-- A write leaves the host at most one content where it knew at most one. -/
theorem Race.candidates_write_le {r : Race} (x : Agent) (v : Byte) (h : r.candidates.length ≤ 1) :
    (r.write x v).candidates.length ≤ 1 := by
  by_cases hx : x = .host
  · rw [hx, Race.candidates_write_host]
    rfl
  · have hmap := r.candidates_map (f := (·.overwrittenBy x)) (fun w => by rw [RaceWrite.overwrittenBy]; split <;> rfl)
      fun w => by rw [RaceWrite.overwrittenBy]; split <;> simp [List.mem_insert_iff, Ne.symm hx]
    have happ : (r.write x v).candidates =
        ({ r with writes := r.writes.map (·.overwrittenBy x) } : Race).candidates := by
      simp [Race.candidates, Race.found, Race.write, RaceWrite.overwrittenBy, List.filter_append, Ne.symm hx]
    rw [happ, hmap, List.length_map]
    exact h

theorem map_addr_noteWrite (x : Agent) (v : Byte) (fresh : Race) (rs : List Race) :
    (noteWrite x v fresh rs).map (·.addr) =
      if fresh.addr ∈ rs.map (·.addr) then rs.map (·.addr) else rs.map (·.addr) ++ [fresh.addr] := by
  induction rs with
  | nil => simp [noteWrite]
  | cons r rs ih =>
    by_cases h : r.addr = fresh.addr
    · simp [noteWrite, h]
    · simp only [noteWrite, h, if_false, List.map_cons, ih, List.mem_cons, Ne.symm h, false_or]
      split <;> rfl

theorem mem_noteWrite {x : Agent} {v : Byte} {fresh q : Race} {rs : List Race} (h : q ∈ noteWrite x v fresh rs) :
    q ∈ rs ∨ ∃ r ∈ fresh :: rs, q = r.write x v := by
  induction rs with
  | nil => exact .inr ⟨fresh, List.mem_cons_self, List.mem_singleton.mp h⟩
  | cons r rs ih =>
    unfold noteWrite at h
    split at h
    · rcases List.mem_cons.mp h with rfl | h
      · exact .inr ⟨r, by simp, rfl⟩
      · exact .inl (List.mem_cons_of_mem _ h)
    · rcases List.mem_cons.mp h with rfl | h
      · exact .inl List.mem_cons_self
      · rcases ih h with h | ⟨r', hr, rfl⟩
        · exact .inl (List.mem_cons_of_mem _ h)
        · refine .inr ⟨r', ?_, rfl⟩
          simp only [List.mem_cons] at hr ⊢
          tauto

section
variable {A C : Agent → Prop} {x : Agent} (hx : A x) (hc : x = .host ∨ ¬ C x)
include hx hc

theorem RacesOk.noteWrite {rs : List Race} {fresh : Race} (h : RacesOk A C rs) (h1 : fresh.candidates.length ≤ 1)
    (hw : fresh.Ok A C) (v : Byte) : RacesOk A C (noteWrite x v fresh rs) where
  nodup := by
    rw [map_addr_noteWrite]
    split
    · exact h.nodup
    · rename_i hn
      refine List.Nodup.append h.nodup (List.nodup_singleton _) ?_
      rintro a ha hm
      exact hn (List.mem_singleton.mp hm ▸ ha)
  one q hq := by
    rcases mem_noteWrite hq with hq | ⟨r, hr, rfl⟩
    · exact h.one q hq
    · refine Race.candidates_write_le x v ?_
      rcases List.mem_cons.mp hr with rfl | hr
      · exact h1
      · exact h.one r hr
  writes q hq := by
    rcases mem_noteWrite hq with hq | ⟨r, hr, rfl⟩
    · exact h.writes q hq
    · refine Race.Ok.write hx hc ?_ v
      rcases List.mem_cons.mp hr with rfl | hr
      · exact hw
      · exact h.writes r hr

theorem RacesOk.sharedWrite {s : State} (hA : ∀ a ∈ s.agents, A a) (h : RacesOk A C s.races) (addr : Nat)
    (b : Bytes) : RacesOk A C (s.sharedWrite x addr b).races := by
  induction b generalizing s addr with
  | nil => exact h
  | cons v vs ih =>
    refine ih (s := { s with races := _, mem := _ }) (by exact hA) ?_ (addr + 1)
    dsimp only
    split
    · exact h
    · refine h.noteWrite hx hc (Race.length_candidates_le _) ?_ v
      intro w hw
      obtain rfl := List.mem_singleton.mp hw
      exact ⟨fun a ha => hA a (by simpa using ha), fun a _ => ⟨fun _ => List.mem_cons_self, fun hs => by simp at hs⟩⟩

end

/-! ### The ordering points -/

section
variable {A C A' C' : Agent → Prop} {k : Nat}

/-- A command starts: it knows what the host knows, and nothing else (R78). -/
theorem RaceWrite.Ok.start {w : RaceWrite} (h : w.Ok A C) (hA : ∀ a, A a → A' a) (hk : A' (.engine k))
    (hC : ∀ a, C' a → C a ∨ a = .engine k) : ((w.forget (.engine k)).tell .host (.engine k)).Ok A' C' := by
  obtain ⟨hAw, hCw⟩ := h
  constructor
  · intro a ha
    by_cases hak : a = .engine k
    · exact hak ▸ hk
    · refine hA a (hAw a ?_)
      simpa [hak] using ha
  · intro a ha
    rcases hC a ha with ha | rfl
    · obtain ⟨c1, c2⟩ := hCw a ha
      by_cases hak : a = .engine k
      · simp [hak]
      · simpa [hak] using And.intro c1 c2
    · simp

/-- A command is over: the host knows what it knew, and it is no agent any more (R79). -/
theorem RaceWrite.Ok.finish {w : RaceWrite} (h : w.Ok A C) (hA : ∀ a, A a → a = .engine k ∨ A' a) (hh : A' .host) :
    ((w.tell (.engine k) .host).forget (.engine k)).Ok A' C := by
  obtain ⟨hAw, hCw⟩ := h
  constructor
  · intro a ha
    by_cases hah : a = .host
    · exact hah ▸ hh
    · have ha : (a ∈ w.known ∨ a ∈ w.stale) ∧ a ≠ .engine k := by
        simp only [RaceWrite.mem_known_forget, RaceWrite.mem_stale_forget, RaceWrite.mem_known_tell,
          RaceWrite.mem_stale_tell, hah, false_and, or_false] at ha
        tauto
      exact (hA a (hAw a ha.1)).resolve_left ha.2
  · intro a ha
    obtain ⟨c1, c2⟩ := hCw a ha
    simp only [RaceWrite.mem_known_forget, RaceWrite.mem_stale_forget, RaceWrite.mem_known_tell,
      RaceWrite.mem_stale_tell, true_and, ne_eq, reduceCtorEq, not_false_eq_true, and_true]
    tauto

/-- The content is settled. -/
theorem Race.Ok.settleOn {r : Race} {w : RaceWrite} (h : r.Ok A C) (hw : w ∈ r.candidates) : (r.settleOn w).Ok A C := by
  have hmem : w ∈ r.writes := List.mem_of_mem_filter (List.mem_of_mem_filter hw)
  have hhost : Agent.host ∈ w.known := by simpa using (List.mem_filter.mp hw).2
  intro y hy
  rcases List.mem_append.mp hy with hy | hy
  · obtain ⟨y, hold, rfl⟩ := List.mem_map.mp hy
    obtain ⟨hA, hC⟩ := h y (List.mem_of_mem_erase hold)
    split
    · refine ⟨fun a ha => ?_, fun a ha => ⟨(hC a ha).1, fun _ => List.mem_union_iff.mpr (.inr hhost)⟩⟩
      rcases ha with ha | ha
      · exact hA a (.inl ha)
      · rcases List.mem_union_iff.mp ha with ha | ha
        · exact hA a (.inr ha)
        · exact (h w hmem).1 a (.inl ha)
    · exact ⟨hA, hC⟩
  · exact List.mem_singleton.mp hy ▸ h w hmem

end

/-- What settling records leaves of each: the record as it was where the host knows no content, else settled on one. -/
theorem State.mem_settleRaces {qs : List Race} {s : State} {r : Race}
    (h : r ∈ (qs.foldl State.settleRace s).races) :
    r ∈ s.races ∨ ∃ q ∈ qs, (r = q ∧ q.candidates = []) ∨ ∃ w ∈ q.candidates, r = q.settleOn w := by
  induction qs generalizing s with
  | nil => exact .inl h
  | cons q qs ih =>
    obtain ⟨mem, d, q', hs, _, _, _, hq⟩ := s.settleRace_eq q
    rw [List.foldl_cons, hs] at h
    rcases ih h with h | ⟨p, hp, hr⟩
    · rcases List.mem_append.mp h with h | h
      · exact .inl h
      · obtain rfl := List.mem_singleton.mp h
        refine .inr ⟨q, List.mem_cons_self, ?_⟩
        rcases hq with ⟨e, hn, _⟩ | ⟨w, hw, e, _⟩
        · exact .inl ⟨e, hn⟩
        · exact .inr ⟨w, hw, e⟩
    · exact .inr ⟨p, List.mem_cons_of_mem _ hp, hr⟩

section
variable {A C A' C' : Agent → Prop} {s : State}

theorem RacesOk.finishRaces (h : RacesOk A C s.races) (hA : ∀ a, A a → a = .engine s.before.length ∨ A' a)
    (hh : A' .host) : RacesOk A' C s.finishRaces.races := by
  have finish : ∀ q ∈ s.races.map (·.finish s.before.length), q.Ok A' C := by
    intro q hq
    obtain ⟨r, hr, rfl⟩ := List.mem_map.mp hq
    intro w hw
    obtain ⟨y, hy, rfl⟩ := List.mem_map.mp hw
    exact (h.writes r hr y hy).finish hA hh
  obtain ⟨mem, d, rs, hs, haddr, _⟩ :=
    State.settleRaces_eq (s.races.map (·.finish s.before.length)) { s with races := [] }
  have settled : RacesOk A' C rs := by
    have hmem : ∀ r ∈ rs, ∃ q ∈ s.races.map (·.finish s.before.length),
        (r = q ∧ q.candidates = []) ∨ ∃ w ∈ q.candidates, r = q.settleOn w := by
      intro r hr
      have hr : r ∈ ((s.races.map (·.finish s.before.length)).foldl State.settleRace { s with races := [] }).races := by
        rw [hs]
        exact hr
      exact (State.mem_settleRaces hr).resolve_left (by simp)
    refine ⟨?_, fun r hr => ?_, fun r hr => ?_⟩
    · rw [haddr, List.map_map]
      exact h.nodup
    · obtain ⟨q, _, ⟨rfl, hn⟩ | ⟨w, hw, rfl⟩⟩ := hmem r hr
      · simp [hn]
      · simp [Race.candidates_settleOn hw]
    · obtain ⟨q, hq, ⟨rfl, _⟩ | ⟨w, hw, rfl⟩⟩ := hmem r hr
      · exact finish r hq
      · exact (finish q hq).settleOn hw
  unfold State.finishRaces State.dropRaces
  rw [hs]
  split
  · exact .nil A' C
  · exact settled

theorem RacesOk.startRaces (h : RacesOk A C s.races) (hA : ∀ a, A a → A' a) (hk : A' (.engine s.before.length))
    (hC : ∀ a, C' a → C a ∨ a = .engine s.before.length) : RacesOk A' C' s.startRaces.races := by
  unfold State.startRaces
  dsimp only
  split
  · exact .nil A' C'
  · refine ⟨?_, fun r hr => ?_, fun r hr w hw => ?_⟩
    · rw [List.map_map]
      exact h.nodup
    · obtain ⟨q, hq, rfl⟩ := List.mem_map.mp hr
      have := q.candidates_map (f := fun w => (w.forget (.engine s.before.length)).tell .host (.engine s.before.length))
        (fun w => by simp) (fun w => by simp)
      rw [Race.start, this, List.length_map]
      exact h.one q hq
    · obtain ⟨q, hq, rfl⟩ := List.mem_map.mp hr
      obtain ⟨y, hy, rfl⟩ := List.mem_map.mp hw
      exact (h.writes q hq y hy).start hA hk hC

end

end Sys2Proof.Machine
end

section
/-! PROOFS. What one step of the machine can do, and that every step keeps the instances well formed and the records of
races in order (O8). -/

namespace Sys2Proof.Machine

/-! ### The instances -/

/-- A state whose other instances are those of `s` differs from it in the instance in focus only. -/
theorem State.engines_eq_set {s t : State} (hb : t.before = s.before) (ha : t.after = s.after) :
    t.engines = s.engines.set s.before.length t.eng := by
  simp [State.engines, hb, ha]

theorem State.getElem?_engines_focus (s : State) : s.engines[s.before.length]? = some s.eng := by
  simp [State.engines]

theorem State.busyAt_iff {s : State} {k : Nat} : s.busyAt k = true ↔ ∃ e, s.engines[k]? = some e ∧ e.busy = true := by
  simp [State.busyAt, Option.any_eq_true]

theorem State.busyAt_lt {s : State} {k : Nat} (h : s.busyAt k = true) : k < s.engines.length := by
  obtain ⟨e, he, _⟩ := State.busyAt_iff.mp h
  exact (List.getElem?_eq_some_iff.mp he).1

theorem State.mem_busyInstances {s : State} {k : Nat} : k ∈ s.busyInstances ↔ s.busyAt k = true := by
  simp only [State.busyInstances, List.mem_filter, List.mem_range]
  exact ⟨fun h => h.2, fun h => ⟨State.busyAt_lt h, h⟩⟩

/-- The agents are the host and the commands in progress. -/
theorem State.mem_agents {s : State} {a : Agent} :
    a ∈ s.agents ↔ a = .host ∨ ∃ k, a = .engine k ∧ s.busyAt k = true := by
  simp only [State.agents, List.mem_cons, List.mem_map, State.mem_busyInstances]
  exact or_congr_right ⟨fun ⟨k, h, e⟩ => ⟨k, e.symm, h⟩, fun ⟨k, e, h⟩ => ⟨k, h, e.symm⟩⟩

theorem State.busyInstances_congr {s t : State} (h : t.engines = s.engines) : t.busyInstances = s.busyInstances := by
  unfold State.busyInstances State.busyAt
  rw [h]

theorem State.agents_congr {s t : State} (h : t.engines = s.engines) : t.agents = s.agents := by
  unfold State.agents
  rw [State.busyInstances_congr h]

/-- The agent is a command in CHECK. -/
def State.inCheck (s : State) (a : Agent) : Prop :=
  ∃ k e, a = .engine k ∧ s.engines[k]? = some e ∧ e.phase = .check

section
variable {s t : State} (hb : t.before = s.before) (ha : t.after = s.after)
include hb ha

theorem State.busyAt_other {k : Nat} (hk : k ≠ s.before.length) : t.busyAt k = s.busyAt k := by
  unfold State.busyAt
  rw [State.engines_eq_set hb ha, List.getElem?_set_ne hk.symm]

/-- With the instance in focus idle, no command is in progress where none is beside it. -/
theorem State.busyInstances_eq_nil (hs : s.eng.busy = false) (ht : t.busyInstances = []) : s.busyInstances = [] := by
  rw [List.eq_nil_iff_forall_not_mem] at ht ⊢
  intro k hk
  rw [State.mem_busyInstances] at hk
  have hf : k ≠ s.before.length := by
    rintro rfl
    obtain ⟨e, he, hbusy⟩ := State.busyAt_iff.mp hk
    rw [State.getElem?_engines_focus] at he
    rw [← Option.some.inj he, hs] at hbusy
    cases hbusy
  exact ht k (State.mem_busyInstances.mpr ((State.busyAt_other hb ha hf).trans hk))

/-- The agents but for the command in focus are the same. -/
theorem State.mem_agents_other {a : Agent} (h : a ∈ s.agents) : a = .engine s.before.length ∨ a ∈ t.agents := by
  rcases State.mem_agents.mp h with rfl | ⟨k, rfl, hk⟩
  · exact .inr (State.mem_agents.mpr (.inl rfl))
  · by_cases hf : k = s.before.length
    · exact .inl (by rw [hf])
    · exact .inr (State.mem_agents.mpr (.inr ⟨k, rfl, (State.busyAt_other hb ha hf).trans hk⟩))

theorem State.inCheck_other {a : Agent} (h : t.inCheck a) :
    s.inCheck a ∨ a = .engine s.before.length ∧ t.eng.phase = .check := by
  obtain ⟨k, e, rfl, he, hph⟩ := h
  by_cases hf : k = s.before.length
  · refine .inr ⟨by rw [hf], ?_⟩
    rw [hf, ← hb, State.getElem?_engines_focus] at he
    exact Option.some.inj he ▸ hph
  · rw [State.engines_eq_set hb ha, List.getElem?_set_ne (Ne.symm hf)] at he
    exact .inl ⟨k, e, rfl, he, hph⟩

end

theorem State.mem_agents_focus {s : State} : .engine s.before.length ∈ s.agents ↔ s.eng.busy = true := by
  rw [State.mem_agents]
  simp [State.busyAt_iff, State.getElem?_engines_focus]

theorem State.enginesWf_iff {s : State} : s.enginesWf = true ↔ ∀ e ∈ s.engines, e.WellFormed := by
  simp only [State.enginesWf, List.all_eq_true, Engine.wf_iff]

/-- Where the other instances are those of a well-formed state, the one in focus decides. -/
theorem State.enginesWf_of_eng {s t : State} (h : s.enginesWf = true) (hb : t.before = s.before)
    (ha : t.after = s.after) (he : s.eng.WellFormed → t.eng.WellFormed) : t.enginesWf = true := by
  rw [State.enginesWf_iff] at h ⊢
  intro e hm
  rw [State.engines_eq_set hb ha] at hm
  rcases List.mem_or_eq_of_mem_set hm with hm | rfl
  · exact h e hm
  · exact he (h _ (by simp [State.engines]))

/-! ### The records of a state -/

theorem RaceWrite.within_iff {w : RaceWrite} {x y : Agent} :
    w.within x y = true ↔ (x ∈ w.known → y ∈ w.known) ∧ (x ∈ w.stale → y ∈ w.stale) := by
  simp [RaceWrite.within, ← imp_iff_not_or]

/-- The parts of `State.racesWf`. -/
theorem State.racesWf_iff {s : State} :
    s.racesWf = true ↔ RacesOk (· ∈ s.agents) s.inCheck s.races ∧ (s.busyInstances = [] → s.races = []) := by
  have check (w : RaceWrite) : ((List.range s.engines.length).all fun k =>
        !s.engines[k]?.any (·.phase == .check) || w.within (.engine k) .host) = true ↔
      ∀ a, s.inCheck a → (a ∈ w.known → .host ∈ w.known) ∧ (a ∈ w.stale → .host ∈ w.stale) := by
    simp only [List.all_eq_true, List.mem_range, Bool.or_eq_true, Bool.not_eq_true', State.inCheck]
    constructor
    · rintro h a ⟨k, e, rfl, he, hph⟩
      obtain ⟨hk, _⟩ := List.getElem?_eq_some_iff.mp he
      refine RaceWrite.within_iff.mp ((h k hk).resolve_left ?_)
      simp [he, hph]
    · intro h k hk
      by_cases hph : s.engines[k].phase = .check
      · exact .inr (RaceWrite.within_iff.mpr (h _ ⟨k, _, rfl, List.getElem?_eq_getElem hk, hph⟩))
      · exact .inl (by simp [hk, hph])
  have agents (w : RaceWrite) : ((w.known ++ w.stale).all s.agents.contains) = true ↔
      ∀ a, a ∈ w.known ∨ a ∈ w.stale → a ∈ s.agents := by
    simp only [List.all_eq_true, List.mem_append, List.contains_iff_mem]
  have record (r : Race) : (decide (r.candidates.length ≤ 1) && r.writes.all fun w =>
        (w.known ++ w.stale).all s.agents.contains && (List.range s.engines.length).all fun k =>
          !s.engines[k]?.any (·.phase == .check) || w.within (.engine k) .host) = true ↔
      r.candidates.length ≤ 1 ∧ r.Ok (· ∈ s.agents) s.inCheck := by
    rw [Bool.and_eq_true, decide_eq_true_eq, List.all_eq_true]
    refine and_congr_right fun _ => forall₂_congr fun w _ => ?_
    rw [Bool.and_eq_true, agents, check]
    rfl
  have busy : (s.races.isEmpty || !s.busyInstances.isEmpty) = true ↔ (s.busyInstances = [] → s.races = []) := by
    cases s.races <;> cases s.busyInstances <;> simp
  unfold State.racesWf
  rw [Bool.and_eq_true, Bool.and_eq_true, decide_eq_true_eq, busy, List.all_eq_true]
  simp only [record]
  constructor
  · rintro ⟨⟨hn, hb⟩, h⟩
    exact ⟨⟨hn, fun r hr => (h r hr).1, fun r hr => (h r hr).2⟩, hb⟩
  · rintro ⟨⟨hn, h1, h2⟩, hb⟩
    exact ⟨⟨hn, hb⟩, fun r hr => ⟨h1 r hr, h2 r hr⟩⟩

/-- The invariant speaks of the instances and the records only. -/
theorem State.racesWf_congr {s t : State} (he : t.engines = s.engines) (hr : t.races = s.races)
    (h : s.racesWf = true) : t.racesWf = true := by
  unfold State.racesWf at h ⊢
  rw [State.agents_congr he, State.busyInstances_congr he, he, hr]
  exact h

/-- The move of the instance in focus and the ordering point it reaches, if any: the records that were in order before
it are in order after it. -/
theorem State.racesWf_ordered {s t : State} (h : s.racesWf = true) (hb : t.before = s.before) (ha : t.after = s.after)
    (hr : RacesOk (· ∈ s.agents) s.inCheck t.races)
    (hn : t.eng.busy = false → s.eng.busy = false → t.races = s.races)
    (hc : t.eng.phase = .check → s.eng.phase = .check ∨ s.eng.busy = false) :
    (t.ordered s.eng.busy).racesWf = true := by
  have hlen : t.before.length = s.before.length := by rw [hb]
  have hidle (hi : t.eng.busy = true) : t.busyInstances ≠ [] :=
    List.ne_nil_of_mem (State.mem_busyInstances.mpr (State.busyAt_iff.mpr ⟨_, t.getElem?_engines_focus, hi⟩))
  have hcheck (hs : s.eng.busy = true) {a : Agent} (hta : t.inCheck a) : s.inCheck a := by
    rcases State.inCheck_other hb ha hta with h | ⟨rfl, hph⟩
    · exact h
    · refine ⟨_, _, rfl, s.getElem?_engines_focus, (hc hph).resolve_right ?_⟩
      simp [hs]
  have hagents (hi : t.eng.busy = s.eng.busy) {a : Agent} (hsa : a ∈ s.agents) : a ∈ t.agents := by
    rcases State.mem_agents_other hb ha hsa with rfl | h
    · rw [← hlen, State.mem_agents_focus, hi]
      exact State.mem_agents_focus.mp hsa
    · exact h
  rw [State.racesWf_iff]
  unfold State.ordered
  cases hs : s.eng.busy <;> cases ht : t.eng.busy <;> dsimp only
  case false.false =>
    refine ⟨hr.mono (fun a => hagents (by rw [hs, ht])) fun a hta => ?_, fun hi => ?_⟩
    · refine (State.inCheck_other hb ha hta).resolve_right fun ⟨_, hph⟩ => ?_
      rw [Engine.busy_eq_false.mp ht] at hph
      cases hph
    · rw [hn ht hs]
      exact (State.racesWf_iff.mp h).2 (State.busyInstances_eq_nil hb ha hs hi)
  case false.true =>
    refine ⟨hr.startRaces (fun a hsa => ?_) (State.mem_agents_focus.mpr ht) fun a hta => ?_,
      fun hi => absurd hi (hidle ht)⟩
    · rcases State.mem_agents_other hb ha hsa with rfl | h
      · rw [State.mem_agents_focus, hs] at hsa
        cases hsa
      · exact h
    · rw [hlen]
      exact (State.inCheck_other hb ha hta).imp_right And.left
  case true.false =>
    obtain ⟨mem, d, rs, hf, _, hempty, _⟩ := t.finishRaces_eq
    have hfin : RacesOk (· ∈ t.agents) s.inCheck t.finishRaces.races :=
      hr.finishRaces (fun a hsa => hlen ▸ State.mem_agents_other hb ha hsa) (State.mem_agents.mpr (.inl rfl))
    rw [hf] at hfin ⊢
    exact ⟨hfin.mono (fun _ => id) fun a hta => hcheck hs hta, hempty⟩
  case true.true =>
    exact ⟨hr.mono (fun a => hagents (by rw [hs, ht])) fun a => hcheck hs, fun hi => absurd hi (hidle ht)⟩

/-! ### An engine step among other agents -/

/-- What an engine step can do to an instance, idle or busy. -/
inductive Engine.Steps (e : Engine) : Engine → Prop where
  | idle (h : e.busy = false) : Steps e e
  | illegal (h : e.busy = true) : Steps e (e.fail .illegalCommand 0)
  | moves {i : Instr} {f : Engine} (h : e.busy = true) (hd : decode e.latch.cmd = .ok i) (hf : (planOf i).Moves e f) :
      Steps e f

theorem microStep_eq (s : State) :
    ∃ mem d e, microStep s = { s with mem := mem, draws := d, eng := e } ∧ s.eng.Steps e := by
  cases h : s.eng.busy with
  | false => exact ⟨_, _, _, microStep_idle h, .idle h⟩
  | true =>
    rcases microStep_busy h with ⟨i, hd, mem, d, e, ht, hf⟩ | ⟨x, hd, ht⟩
    · exact ⟨mem, d, e, ht, .moves h hd hf⟩
    · exact ⟨_, _, _, ht, .illegal h⟩

theorem Engine.Steps.wellFormed {e f : Engine} (hf : e.Steps f) (h : e.WellFormed) : f.WellFormed := by
  cases hf with
  | idle => exact h
  | illegal => exact h.sound.fail _ _
  | moves hb hd hf => exact h.moves hb hd hf

theorem Engine.Steps.phase_ne_check {e f : Engine} (hf : e.Steps f) : f.phase ≠ .check := by
  cases hf with
  | idle h => rw [Engine.busy_eq_false.mp h]; decide
  | illegal => simp
  | moves _ _ hf => exact hf.phase_ne_check

/-- Only BULK and TAIL write. -/
theorem State.nextWrite_eq_none {s : State} (h : s.eng.phase ≠ .bulk) (h' : s.eng.phase ≠ .tail) :
    s.nextWrite = none := by
  unfold State.nextWrite
  split
  · split
    · simp [Plan.nextWrite, Plan.pendingOut, h, h']
    · rfl
  · rfl

/-- What an engine step writes goes on record in order: its instance is busy, and not in CHECK. -/
theorem RacesOk.sharedWrites {s t : State} (h : s.racesWf = true) (ht : t.races = s.races)
    (hA : ∀ a ∈ t.agents, a ∈ s.agents) {w : Option (Nat × Bytes)}
    (hw : w ≠ none → s.eng.phase = .bulk ∨ s.eng.phase = .tail) :
    RacesOk (· ∈ s.agents) s.inCheck (t.sharedWrites (.engine s.before.length) w).races := by
  have hs := ht ▸ (State.racesWf_iff.mp h).1
  cases w with
  | none => exact hs
  | some w =>
    have hph := hw (by simp)
    refine hs.sharedWrite (State.mem_agents_focus.mpr (Engine.busy_iff.mpr ?_)) (.inr ?_) hA _ _
    · rcases hph with hph | hph <;> rw [hph] <;> decide
    · rintro ⟨k, e, hk, he, hc⟩
      obtain rfl := Agent.engine.inj hk
      rw [State.getElem?_engines_focus] at he
      obtain rfl := Option.some.inj he
      rcases hph with hph | hph <;> rw [hph] at hc <;> cases hc

theorem Engine.Steps.busy {e f : Engine} (hf : e.Steps f) (h : f.busy = true) : e.busy = true := by
  cases hf with
  | idle => exact h
  | illegal hb => exact hb
  | moves hb => exact hb

/-- An engine step among other agents is an engine step of its instance, and keeps the records in order. -/
theorem racedStep_steps (s : State) :
    (racedStep s).before = s.before ∧ (racedStep s).after = s.after ∧ s.eng.Steps (racedStep s).eng ∧
      (s.racesWf = true → (racedStep s).racesWf = true) := by
  obtain ⟨m0, d0, hv, _⟩ := s.seenBy_eq (.engine s.before.length)
  obtain ⟨m1, d1, e, hm, hsteps⟩ := microStep_eq (s.seenBy (.engine s.before.length))
  have hw : (s.seenBy (.engine s.before.length)).nextWrite ≠ none → s.eng.phase = .bulk ∨ s.eng.phase = .tail := by
    intro h
    by_contra hph
    rw [not_or] at hph
    refine h (State.nextWrite_eq_none ?_ ?_) <;> rw [hv]
    · exact hph.1
    · exact hph.2
  unfold racedStep
  dsimp only
  rw [hm]
  generalize (s.seenBy (.engine s.before.length)).nextWrite = w at hw ⊢
  rw [hv] at hsteps ⊢
  dsimp only at hsteps ⊢
  set t : State := { s with mem := s.mem, draws := d1, eng := e } with ht
  have hagents : ∀ a ∈ t.agents, a ∈ s.agents := by
    intro a ha
    rcases State.mem_agents_other (s := t) (t := s) rfl rfl ha with rfl | h
    · exact State.mem_agents_focus.mpr (hsteps.busy (State.mem_agents_focus.mp ha))
    · exact h
  obtain ⟨rs, hu⟩ := t.sharedWrites_eq (.engine s.before.length) w
  obtain ⟨_, _, _, ho, _⟩ := (t.sharedWrites (.engine s.before.length) w).ordered_eq s.eng.busy
  have hwrites (h : s.racesWf = true) := RacesOk.sharedWrites (t := t) h rfl hagents hw
  have hidle (h : s.eng.busy = false) : w = none := by
    by_contra hn
    rw [Engine.busy_eq_false] at h
    rcases hw hn with hph | hph <;> rw [h] at hph <;> cases hph
  refine ⟨by rw [ho, hu], by rw [ho, hu], by rw [ho, hu]; exact hsteps, fun h => ?_⟩
  refine State.racesWf_ordered h (by rw [hu]) (by rw [hu]) (hwrites h) (fun _ hs => ?_) fun hc => ?_
  · rw [hidle hs]
    rfl
  · rw [hu] at hc
    exact absurd hc hsteps.phase_ne_check

/-! ### One step of the machine -/

/-- What a step can do to the machine, with the instance it acts on in focus in `u`. -/
inductive State.Changes (u : State) : State → Prop where
  /-- A read, or a step in which the machine waits. -/
  | nothing {t : State} (he : t.engines = u.engines) (hr : t.races = u.races) : Changes u t
  /-- A store of the host. -/
  | stored (a : Nat) (b : Bytes) : Changes u (u.sharedWrite .host a b)
  /-- A host write of a register. -/
  | written (r : Reg) (v : Word) : Changes u (u.hostTurn (u.eng.hostWrite r v))
  /-- The reset input. -/
  | reset : Changes u (u.hostTurn .reset)
  /-- An engine step. -/
  | stepped (ts : List Turn) : Changes u { racedStep u with turns := ts }
  /-- An illegal word completes. -/
  | illegal (h : u.eng.busy = true) : Changes u (u.hostTurn (u.eng.fail .illegalCommand 0))
  /-- A whole command, where nothing can race with it. -/
  | command (i : Instr) (hq : u.quiet = true) (hph : u.eng.phase = .check) : Changes u (runCommand (planOf i) u)

/-- `u` has the instances and the records of `s`. -/
def State.Refocused (s u : State) : Prop := u.engines = s.engines ∧ u.races = s.races

theorem State.onEngine_next {s t : State} {k : Nat} {f : State → TurnOutcome} (h : s.onEngine k f = .next t) :
    ∃ u, s.Refocused u ∧ f u = .next t := by
  cases he : s.engines[k]? with
  | none =>
    have hd : s.engines.drop k = [] := List.drop_eq_nil_of_le (List.getElem?_eq_none_iff.mp he)
    simp [State.onEngine, State.focus, hd] at h
  | some e =>
    simp only [State.onEngine, State.focus_eq he] at h
    exact ⟨_, ⟨State.focusOn_engines he, rfl⟩, h⟩

theorem State.onRegister_next {s t : State} {addr width : Nat} {f : State → Reg → TurnOutcome}
    (h : s.onRegister addr width f = .next t) : ∃ u r, s.Refocused u ∧ f u r = .next t := by
  unfold State.onRegister at h
  split at h
  · cases h
  · split at h
    · cases h
    · obtain ⟨u, hu, hf⟩ := State.onEngine_next h
      exact ⟨u, _, hu, hf⟩

theorem takeTurn_changes {s t : State} {x : Turn} (h : takeTurn x s = .next t) :
    ∃ u, s.Refocused u ∧ u.Changes t := by
  cases x with
  | engine k =>
    obtain ⟨u, hu, hf⟩ := State.onEngine_next h
    obtain rfl := Host.Outcome.next.inj hf
    exact ⟨u, hu, .stepped (racedStep u).turns⟩
  | write addr width v =>
    obtain ⟨u, r, hu, hf⟩ := State.onRegister_next h
    obtain rfl := Host.Outcome.next.inj hf
    exact ⟨u, hu, .written r v⟩
  | read addr width =>
    obtain ⟨u, r, hu, hf⟩ := State.onRegister_next h
    obtain rfl := Host.Outcome.next.inj hf
    exact ⟨u, hu, .nothing rfl rfl⟩
  | store addr b =>
    simp only [takeTurn] at h
    split at h
    · obtain rfl := Host.Outcome.next.inj h
      exact ⟨s, ⟨rfl, rfl⟩, .stored addr b⟩
    · cases h
  | load addr n =>
    simp only [takeTurn] at h
    split at h
    · obtain rfl := Host.Outcome.next.inj h
      exact ⟨s, ⟨rfl, rfl⟩, .nothing rfl rfl⟩
    · cases h
  | hardReset k =>
    obtain ⟨u, hu, hf⟩ := State.onEngine_next h
    obtain rfl := Host.Outcome.next.inj hf
    exact ⟨u, hu, .reset⟩
  | wait k =>
    obtain ⟨u, hu, hf⟩ := State.onEngine_next h
    refine ⟨u, hu, ?_⟩
    split at hf
    · obtain rfl := Host.Outcome.next.inj hf
      exact .stepped _
    · obtain rfl := Host.Outcome.next.inj hf
      exact .nothing rfl rfl

theorem engineTurn_changes {u t : State} (h : engineTurn u = .next t) : u.Changes t := by
  unfold engineTurn at h
  split at h
  · rename_i hph
    have hbusy : u.eng.busy = true := Engine.busy_iff.mpr (by rw [hph]; decide)
    split at h
    · rename_i i _
      split at h
      · rename_i hq
        obtain rfl := exec_next h
        exact .command i hq hph
      · obtain rfl := Host.Outcome.next.inj h
        exact .stepped (racedStep u).turns
    · obtain rfl := Host.Outcome.next.inj h
      have he : (illegalCommand u).ordered true = u.hostTurn (u.eng.fail .illegalCommand 0) := by
        rw [State.hostTurn, hbusy]
        rfl
      exact he ▸ .illegal hbusy
  · obtain rfl := Host.Outcome.next.inj h
    exact .stepped (racedStep u).turns

theorem unscheduled_changes {s t : State} (h : unscheduled s = .next t) : ∃ u, s.Refocused u ∧ u.Changes t := by
  unfold unscheduled at h
  split at h
  · exact ⟨s, ⟨rfl, rfl⟩, engineTurn_changes h⟩
  · split at h
    · obtain ⟨u, hu, hf⟩ := State.onEngine_next h
      exact ⟨u, hu, engineTurn_changes hf⟩
    · obtain rfl := Host.Outcome.next.inj h
      exact ⟨s, ⟨rfl, rfl⟩, .nothing rfl rfl⟩

/-- What one step can do. -/
theorem step_changes {s t : State} (h : step s = .next t) : ∃ u, s.Refocused u ∧ u.Changes t := by
  unfold step at h
  split at h
  · exact unscheduled_changes h
  · obtain ⟨u, hu, hc⟩ := takeTurn_changes h
    exact ⟨u, hu, hc⟩

/-! ### The invariant -/

theorem State.hostTurn_eq (u : State) (e : Engine) :
    (u.hostTurn e).before = u.before ∧ (u.hostTurn e).after = u.after ∧ (u.hostTurn e).eng = e := by
  obtain ⟨_, _, _, h, _⟩ := (u.setEng e).ordered_eq u.eng.busy
  rw [State.hostTurn, h]
  exact ⟨rfl, rfl, rfl⟩

/-- A host access keeps the records in order, where it puts an instance in CHECK only if it was idle. -/
theorem State.racesWf_hostTurn {u : State} {e : Engine} (h : u.racesWf = true)
    (hc : e.phase = .check → u.eng.phase = .check ∨ u.eng.busy = false) : (u.hostTurn e).racesWf = true :=
  State.racesWf_ordered (t := u.setEng e) h rfl rfl (State.racesWf_iff.mp h).1 (fun _ _ => rfl) hc

/-- A write puts an instance in CHECK only as the acceptance of a command. -/
theorem Engine.hostWrite_phase (e : Engine) (r : Reg) (v : Word) (h : (e.hostWrite r v).phase = .check) :
    e.phase = .check ∨ e.busy = false := by
  have operand (f : Engine) (hf : (e.operandWrite f).phase = .check) : e.phase = .check ∨ e.busy = false := by
    unfold Engine.operandWrite at hf
    split at hf
    · exact .inl hf
    · exact .inr (by simpa using ‹¬ e.busy = true›)
  cases r
  case ctrl =>
    simp only [Engine.hostWrite] at h
    split at h
    · cases h
    · exact .inl h
  case cmd | len | srcLo | srcHi | dstLo | dstHi | keylen | xctrLo | xctrHi | iv | key => exact operand _ h
  all_goals exact .inl h

theorem State.Changes.enginesWf {u t : State} (hc : u.Changes t) (h : u.enginesWf = true) : t.enginesWf = true := by
  have access (e : Engine) (he : u.eng.WellFormed → e.WellFormed) : (u.hostTurn e).enginesWf = true := by
    obtain ⟨hb, ha, heng⟩ := u.hostTurn_eq e
    exact State.enginesWf_of_eng h hb ha fun hw => by rw [heng]; exact he hw
  cases hc with
  | nothing he => rwa [State.enginesWf, he]
  | stored a b => exact State.enginesWf_of_eng h (by simp) (by simp) (by simp)
  | written r v => exact access _ fun hw => hw.hostWrite r v
  | reset => exact access _ fun _ => Engine.wellFormed_reset
  | illegal => exact access _ fun hw => hw.sound.fail _ _
  | stepped ts =>
    obtain ⟨hb, ha, hs, _⟩ := racedStep_steps u
    exact State.enginesWf_of_eng (t := { racedStep u with turns := ts }) h hb ha hs.wellFormed
  | command i _ hph =>
    obtain ⟨hb, ha, _⟩ := runCommand_frame (planOf i) u
    exact State.enginesWf_of_eng h hb ha fun hw => hw.runCommand hph

theorem runCommand_races (p : Plan) (s : State) : (runCommand p s).races = s.races := by
  rcases runCommand_cases p s with ⟨_, _, h⟩ | ⟨_, _, _, _, _, hr, h⟩ | ⟨_, _, _, hr, h⟩
  · rw [h, State.setEng_races]
  all_goals
    obtain ⟨_, _, _, _, _, _, _, rfl, _⟩ := hr
    rw [h, State.setEng_races]

/-- With no command in progress a write leaves no record. -/
theorem State.sharedWrite_races_idle {s : State} {x : Agent} {addr : Nat} {b : Bytes} (h : s.busyInstances = []) :
    (s.sharedWrite x addr b).races = s.races := by
  induction b generalizing s addr with
  | nil => rfl
  | cons v vs ih =>
    rw [State.sharedWrite, if_pos h]
    exact ih (s := { s with mem := s.mem.set addr v }) h

theorem State.Changes.racesWf {u t : State} (hc : u.Changes t) (h : u.racesWf = true) : t.racesWf = true := by
  cases hc with
  | nothing he hr => exact State.racesWf_congr he hr h
  | stored a b =>
    obtain ⟨hs, hb⟩ := State.racesWf_iff.mp h
    have he : (u.sharedWrite .host a b).engines = u.engines := by simp [State.engines]
    have hok := hs.sharedWrite (x := .host) (State.mem_agents.mpr (.inl rfl)) (.inl rfl) (fun _ => id) a b
    rw [State.racesWf_iff, State.agents_congr he, State.busyInstances_congr he]
    refine ⟨hok.mono (fun _ => id) fun y => ?_, fun hi => ?_⟩
    · unfold State.inCheck
      rw [he]
      exact id
    · rw [State.sharedWrite_races_idle hi]
      exact hb hi
  | written r v => exact State.racesWf_hostTurn h (u.eng.hostWrite_phase r v)
  | reset => exact State.racesWf_hostTurn h (fun hph => by cases hph)
  | illegal => exact State.racesWf_hostTurn h (fun hph => by cases hph)
  | stepped ts =>
    obtain ⟨_, _, _, hr⟩ := racedStep_steps u
    exact State.racesWf_congr (s := racedStep u) rfl rfl (hr h)
  | command i hq _ =>
    have hraces : (runCommand (planOf i) u).races = [] := by
      rw [runCommand_races]
      simp only [State.quiet, Bool.and_eq_true, List.isEmpty_iff] at hq
      exact hq.2
    rw [State.racesWf_iff, hraces]
    exact ⟨.nil _ _, fun _ => rfl⟩

/-- Settles O8: every change a step can make keeps each instance well formed, by the moves of a command, and the records
in order, by the ordering points. -/
theorem stepKeepsEnginesWellFormed : Obligations.StepKeepsEnginesWellFormed := by
  intro s t hs hstep
  obtain ⟨u, ⟨he, hr⟩, hc⟩ := step_changes hstep
  have hwf : t.enginesWf = true := hc.enginesWf (by rwa [State.enginesWf, he])
  exact ⟨hwf, fun e hm => (State.enginesWf_iff.mp hwf e hm).pos_le, fun h => hc.racesWf (State.racesWf_congr he hr h)⟩

end Sys2Proof.Machine
end

section
/-! PROOFS. What `BuildMap` answers for a descriptor list: the walk, descriptor by descriptor, with the segments
`listMap` gives (20_memory.md R62 to R65, R70; O30). -/

namespace Sys2Proof.Machine

/-! ### One descriptor -/

theorem Memory.slice_readBytes (m : Memory) (a : Nat) {i j n : Nat} (hj : j ≤ n) :
    slice (m.readBytes a n) i j = m.readBytes (a + i) (j - i) := by
  apply List.ext_getElem
  · simp only [slice, List.length_take, List.length_drop, Memory.length_readBytes]
    omega
  · intro t _ _
    simp only [slice, List.getElem_take, List.getElem_drop, Memory.getElem_readBytes, Nat.add_assoc]

theorem Memory.getD_readBytes (m : Memory) (a : Nat) {i n : Nat} (h : i < n) (d : Byte) :
    (m.readBytes a n).getD i d = m.read (a + i) := by
  rw [List.getD_eq_getElem _ _ (by simpa using h), Memory.getElem_readBytes]

theorem listLen_succ (mem : Memory) (a k : Nat) : listLen mem a (k + 1) = listLen mem a k + segLen mem a k := by
  simp [listLen, List.range_succ]

theorem listMap_succ (mem : Memory) (a n k : Nat) : listMap mem a n (k + 1) =
    if 0 < segLen mem a k then
      listMap mem a n k ++ [⟨segAddr mem a k, min (segLen mem a k) (n - listLen mem a k)⟩]
    else listMap mem a n k := by
  by_cases h : segLen mem a k = 0
  · simp [listMap, List.range_succ, List.filterMap_append, h]
  · simp [listMap, List.range_succ, List.filterMap_append, h, Nat.pos_of_ne_zero h]

theorem mapLen_concat (m : List Segment) (seg : Segment) : mapLen (m ++ [seg]) = mapLen m + seg.len := by
  induction m with
  | nil => simp [mapLen]
  | cons x m ih => simp only [List.cons_append, mapLen, ih, Nat.add_assoc]

/-- The segments of `k` descriptors cover what the descriptors do, up to the request. -/
theorem mapLen_listMap (mem : Memory) (a n k : Nat) : mapLen (listMap mem a n k) = min n (listLen mem a k) := by
  induction k with
  | zero => simp [listMap, listLen, mapLen]
  | succ k ih =>
    rw [listMap_succ, listLen_succ]
    split
    · rw [mapLen_concat, ih]
      dsimp only
      omega
    · rw [ih]
      omega

section
variable {s : State} {a n k : Nat}

/-- A descriptor that is read adds its segment, and is refused where it carries END before the request is complete. -/
theorem State.descriptorStep_read (h : s.accessOk (a + 16 * k) 16 .read = true) :
    s.descriptorStep a n k (listMap s.mem a n k) =
      if n ≤ listLen s.mem a (k + 1) then .ok (listMap s.mem a n (k + 1))
      else if segEnd s.mem a k then .error (refusedAddr (a + 16 * k))
      else .ok (listMap s.mem a n (k + 1)) := by
  have hmap : (if 0 < segLen s.mem a k then
      listMap s.mem a n k ++ [⟨segAddr s.mem a k, min (segLen s.mem a k) (n - mapLen (listMap s.mem a n k))⟩]
      else listMap s.mem a n k) = listMap s.mem a n (k + 1) := by
    rw [listMap_succ, mapLen_listMap, show n - min n (listLen s.mem a k) = n - listLen s.mem a k by omega]
  have hlen : mapLen (listMap s.mem a n (k + 1)) = n ↔ n ≤ listLen s.mem a (k + 1) := by
    rw [mapLen_listMap]
    omega
  have haddr : le (slice (s.mem.readBytes (a + 16 * k) 16) 0 8) = segAddr s.mem a k := by
    rw [Memory.slice_readBytes _ _ (by decide)]
    rfl
  have hseg : le (slice (s.mem.readBytes (a + 16 * k) 16) 8 12) = segLen s.mem a k := by
    rw [Memory.slice_readBytes _ _ (by decide)]
    rfl
  have hend : ((s.mem.readBytes (a + 16 * k) 16).getD 12 0).getLsbD 0 = segEnd s.mem a k := by
    rw [Memory.getD_readBytes _ _ (by decide)]
    rfl
  unfold State.descriptorStep
  rw [State.memRead_eq, if_pos h]
  simp only [haddr, hseg, hend, gt_iff_lt, hmap, hlen]

/-- A refused descriptor is named. -/
theorem State.descriptorStep_refused (h : s.accessOk (a + 16 * k) 16 .read = false) (m : List Segment) :
    s.descriptorStep a n k m = .error (refusedAddr (a + 16 * k)) := by
  unfold State.descriptorStep
  rw [State.memRead_eq, h]
  rfl

/-! ### The walk -/

/-- The walk of the list at `a` from descriptor `k` on. -/
def State.walkFrom (s : State) (a n k : Nat) : Except Addr (List Segment) :=
  s.walkList a n (s.platform.maxSegments - k) k (listMap s.mem a n k)

theorem State.buildMap_eq_walkFrom {p : Addr} (hn : n ≠ 0) (ha : p.toNat % 16 = 0) :
    s.buildMap true p n = s.walkFrom p.toNat n 0 := by
  simp [State.buildMap, State.walkFrom, listMap, hn, ha]

/-- The list is too long. -/
theorem State.walkFrom_long (h : k = s.platform.maxSegments) :
    s.walkFrom a n k = .error (refusedAddr (a + 16 * k)) := by
  rw [State.walkFrom, h, Nat.sub_self]
  rfl

theorem State.walkFrom_step (h : k < s.platform.maxSegments) : s.walkFrom a n k =
    match s.descriptorStep a n k (listMap s.mem a n k) with
    | .error x => .error x
    | .ok m => if mapLen m = n then .ok m
      else s.walkList a n (s.platform.maxSegments - (k + 1)) (k + 1) m := by
  rw [State.walkFrom, show s.platform.maxSegments - k = s.platform.maxSegments - (k + 1) + 1 by omega]
  rfl

theorem State.walkFrom_refused (h : k < s.platform.maxSegments) (hr : s.accessOk (a + 16 * k) 16 .read = false) :
    s.walkFrom a n k = .error (refusedAddr (a + 16 * k)) := by
  rw [State.walkFrom_step h, State.descriptorStep_refused hr]

/-- A descriptor that is read completes the request, ends the list before it is complete, or is walked past. -/
theorem State.walkFrom_read (h : k < s.platform.maxSegments) (hr : s.accessOk (a + 16 * k) 16 .read = true) :
    s.walkFrom a n k =
      if n ≤ listLen s.mem a (k + 1) then .ok (listMap s.mem a n (k + 1))
      else if segEnd s.mem a k then .error (refusedAddr (a + 16 * k))
      else s.walkFrom a n (k + 1) := by
  rw [State.walkFrom_step h, State.descriptorStep_read hr]
  by_cases hn : n ≤ listLen s.mem a (k + 1)
  · simp only [if_pos hn]
    rw [if_pos (by rw [mapLen_listMap]; omega)]
  · simp only [if_neg hn]
    cases segEnd s.mem a k
    · simp only [Bool.false_eq_true, if_false]
      rw [if_neg (by rw [mapLen_listMap]; omega)]
      rfl
    · rfl

theorem State.walksPast_zero (s : State) (a n : Nat) : s.walksPast a n 0 :=
  ⟨Nat.zero_le _, fun j hj => by omega⟩

theorem State.walksPast.mono {j : Nat} (h : s.walksPast a n k) (hj : j ≤ k) : s.walksPast a n j :=
  ⟨hj.trans h.1, fun i hi => h.2 i (by omega)⟩

theorem State.walksPast.succ (h : s.walksPast a n k) (hk : k < s.platform.maxSegments)
    (hr : s.accessOk (a + 16 * k) 16 .read = true) (he : segEnd s.mem a k = false) (hl : listLen s.mem a (k + 1) < n) :
    s.walksPast a n (k + 1) := by
  refine ⟨hk, fun j hj => ?_⟩
  rcases Nat.lt_succ_iff_lt_or_eq.mp hj with hj | rfl
  · exact h.2 j hj
  · exact ⟨hr, he, hl⟩

/-- The walk is where it has walked past. -/
theorem State.walkFrom_zero (h : s.walksPast a n k) : s.walkFrom a n 0 = s.walkFrom a n k := by
  induction k with
  | zero => rfl
  | succ k ih =>
    obtain ⟨hr, he, hl⟩ := h.2 k (Nat.lt_succ_self k)
    rw [ih (h.mono (Nat.le_succ k)), State.walkFrom_read h.1 hr, if_neg (by omega), he]
    rfl

/-- The descriptors walked past leave part of the request. -/
theorem State.walksPast.listLen_lt {j : Nat} (hn : n ≠ 0) (h : s.walksPast a n k) (hj : j ≤ k) :
    listLen s.mem a j < n := by
  cases j with
  | zero => exact Nat.pos_of_ne_zero hn
  | succ j => exact (h.2 j hj).2.2

/-- How a walk ends: at the descriptor where it stops, with an error or with the request complete. -/
theorem State.walkFrom_cases (h : s.walksPast a n k) : ∃ j, s.walksPast a n j ∧
    (s.walkFrom a n k = .error (refusedAddr (a + 16 * j)) ∨
      j < s.platform.maxSegments ∧ s.walkFrom a n k = .ok (listMap s.mem a n (j + 1))) := by
  induction hd : s.platform.maxSegments - k generalizing k with
  | zero => exact ⟨k, h, .inl (State.walkFrom_long (by have := h.1; omega))⟩
  | succ d ih =>
    have hk : k < s.platform.maxSegments := by omega
    cases hr : s.accessOk (a + 16 * k) 16 .read with
    | false => exact ⟨k, h, .inl (State.walkFrom_refused hk hr)⟩
    | true =>
      rw [State.walkFrom_read hk hr]
      split
      · exact ⟨k, h, .inr ⟨hk, rfl⟩⟩
      · cases he : segEnd s.mem a k with
        | true => exact ⟨k, h, .inl rfl⟩
        | false => exact ih (h.succ hk hr he (by omega)) (by omega)

/-- The segments of the descriptors up to the one that completes the request are not empty. -/
theorem listMap_len_pos {mem : Memory} {seg : Segment} (h : ∀ j, j < k → listLen mem a j < n)
    (hs : seg ∈ listMap mem a n k) : 1 ≤ seg.len := by
  obtain ⟨j, hj, hseg⟩ := List.mem_filterMap.mp hs
  have hlt := h j (List.mem_range.mp hj)
  split at hseg
  · cases hseg
  · obtain rfl := Option.some.inj hseg
    dsimp only
    omega

theorem length_listMap_le (mem : Memory) (a n k : Nat) : (listMap mem a n k).length ≤ k :=
  (List.length_filterMap_le _ _).trans List.length_range.le

/-- A list gives non-empty segments, no more of them than descriptors may be read. -/
theorem State.buildMap_list_segments {p : Addr} {m : List Segment} (hn : n ≠ 0) (h : s.buildMap true p n = .ok m) :
    (∀ seg ∈ m, 1 ≤ seg.len) ∧ m.length ≤ s.platform.maxSegments := by
  by_cases ha : p.toNat % 16 = 0
  · rw [State.buildMap_eq_walkFrom hn ha] at h
    obtain ⟨j, hj, he | ⟨hlt, ho⟩⟩ := State.walkFrom_cases (s.walksPast_zero p.toNat n)
    · rw [he] at h
      cases h
    · rw [ho] at h
      obtain rfl := Except.ok.inj h
      exact ⟨fun seg hs => listMap_len_pos (fun i hi => hj.listLen_lt hn (by omega)) hs,
        (length_listMap_le _ _ _ _).trans hlt⟩
  · rw [State.buildMap_misaligned s hn ha] at h
    cases h

end

/-- Settles O30: the flat map by its definition, a list by the walk to the descriptor where it stops. -/
theorem buildMapCovers : Obligations.BuildMapCovers := by
  intro s sg a n
  refine ⟨s.buildMap_zero sg a, fun hn => s.buildMap_flat a hn, fun m hm => ?covers,
    fun hn ha => s.buildMap_misaligned hn ha, fun hn ha k hk => ?stops, fun x ha hx => ?names⟩
  case covers =>
    refine ⟨State.buildMap_mapLen hm, ?_⟩
    by_cases hn : n = 0
    · subst hn
      rw [State.buildMap_zero] at hm
      obtain rfl := Except.ok.inj hm
      simp
    cases sg with
    | false =>
      rw [State.buildMap_flat s a hn] at hm
      obtain rfl := Except.ok.inj hm
      simpa using Nat.one_le_iff_ne_zero.mpr hn
    | true =>
      obtain ⟨hpos, hlen⟩ := State.buildMap_list_segments hn hm
      exact ⟨hpos, fun _ => hlen⟩
  case stops =>
    have hwalk : s.buildMap true a n = s.walkFrom a.toNat n k := by
      rw [State.buildMap_eq_walkFrom hn ha, State.walkFrom_zero hk]
    dsimp only
    rw [hwalk]
    refine ⟨State.walkFrom_long, State.walkFrom_refused, fun hlt hr hle => ?_, fun hlt hr hl he => ?_⟩
    · rw [State.walkFrom_read hlt hr, if_pos hle]
    · rw [State.walkFrom_read hlt hr, if_neg (by omega), if_pos he]
      rfl
  case names =>
    have hn : n ≠ 0 := by
      rintro rfl
      rw [State.buildMap_zero] at hx
      cases hx
    rw [State.buildMap_eq_walkFrom hn ha] at hx
    obtain ⟨j, hj, he | ⟨_, ho⟩⟩ := State.walkFrom_cases (s.walksPast_zero a.toNat n)
    · rw [he] at hx
      exact ⟨j, hj, (Except.error.inj hx).symm⟩
    · rw [ho] at hx
      cases hx

end Sys2Proof.Machine
end

section
/-! PROOFS. Registers, bytes and bits: the words of a register that is wider than 32 bits, the bytes of a byte string
held in registers, and what a write of one word leaves of the others (10_state.md R21; O13). -/

namespace Sys2Proof.Machine

/-! ### Words -/

theorem getLsbD_getWord {n : Nat} (b : BitVec n) (j i : Nat) :
    (getWord b j).getLsbD i = (decide (i < 32) && b.getLsbD (32 * j + i)) := by
  simp [getWord]

/-- A write of word `j` sets its bits and leaves the others. -/
theorem getLsbD_setWord {n : Nat} (b : BitVec n) {j : Nat} (v : Word) {i : Nat} (hi : i < n) :
    (setWord b j v).getLsbD i = if i / 32 = j then v.getLsbD (i % 32) else b.getLsbD i := by
  have hones (t : Nat) : (0xFFFFFFFF#32).getLsbD t = decide (t < 32) := BitVec.getLsbD_allOnes
  simp only [setWord, BitVec.getLsbD_or, BitVec.getLsbD_and, BitVec.getLsbD_not, BitVec.getLsbD_shiftLeft,
    BitVec.getLsbD_setWidth, hones, hi, decide_true, Bool.true_and]
  split
  · rename_i hj
    rw [show i - 32 * j = i % 32 by omega, decide_eq_false (show ¬ i < 32 * j by omega),
      decide_eq_true (show i % 32 < n by omega), decide_eq_true (show i % 32 < 32 by omega)]
    simp
  · rename_i hj
    rcases Nat.lt_or_ge i (32 * j) with hlt | hge
    · simp [hlt]
    · have hout : 32 ≤ i - 32 * j := by omega
      simp [BitVec.getLsbD_of_ge v _ hout, Nat.not_lt.mpr hout]

/-- Byte `i` of a number of `w` bytes. -/
theorem getElem?_toLe (x w i : Nat) (h : i < w) : (toLe x w)[i]? = some (BitVec.ofNat 8 (x / 256 ^ i)) := by
  induction w generalizing x i with
  | zero => omega
  | succ w ih =>
    cases i with
    | zero => simp [toLe]
    | succ i => rw [toLe, List.getElem?_cons_succ, ih _ _ (by omega), Nat.div_div_eq_div_mul, pow_succ']

/-- Byte `i` of a register's byte string is its bits `[8i+7 : 8i]` (R21). -/
theorem getElem?_toLe_toNat {n w i : Nat} (b : BitVec n) (h : i < w) :
    (toLe b.toNat w)[i]? = some (b.extractLsb' (8 * i) 8) := by
  rw [getElem?_toLe _ _ _ h]
  congr 1
  apply BitVec.eq_of_toNat_eq
  rw [BitVec.toNat_ofNat, BitVec.extractLsb'_toNat, Nat.shiftRight_eq_div_pow, pow_mul]
  rfl

/-- A byte of a register's byte string is a byte of its word. -/
theorem extractByte_getWord {n : Nat} (b : BitVec n) (j : Nat) {i : Nat} (h : i < 4) :
    (getWord b j).extractLsb' (8 * i) 8 = b.extractLsb' (8 * (4 * j + i)) 8 := by
  apply BitVec.eq_of_getLsbD_eq
  intro t ht
  simp only [BitVec.getLsbD_extractLsb', getLsbD_getWord, ht]
  rw [show 32 * j + (8 * i + t) = 8 * (4 * j + i) + t by omega, decide_eq_true (show 8 * i + t < 32 by omega)]
  simp

theorem extractByte_setWord {n : Nat} (b : BitVec n) (j : Nat) (v : Word) {i : Nat} (h : 8 * i + 8 ≤ n) :
    (setWord b j v).extractLsb' (8 * i) 8 =
      if i / 4 = j then v.extractLsb' (8 * (i % 4)) 8 else b.extractLsb' (8 * i) 8 := by
  apply BitVec.eq_of_getLsbD_eq
  intro t ht
  rw [BitVec.getLsbD_extractLsb', getLsbD_setWord b v (by omega), show (8 * i + t) / 32 = i / 4 by omega,
    show (8 * i + t) % 32 = 8 * (i % 4) + t by omega]
  split <;> simp [ht]

theorem getWord_setWord {n : Nat} (b : BitVec n) (j k : Nat) (v : Word) (h : 32 * k + 32 ≤ n) :
    getWord (setWord b j v) k = if k = j then v else getWord b k := by
  apply BitVec.eq_of_getLsbD_eq
  intro t ht
  rw [getLsbD_getWord, getLsbD_setWord b v (by omega), show (32 * k + t) / 32 = k by omega,
    show (32 * k + t) % 32 = t by omega]
  rw [decide_eq_true ht, Bool.true_and]
  split
  · rfl
  · rw [getLsbD_getWord, decide_eq_true ht, Bool.true_and]

/-- A `_LO`/`_HI` pair is `_HI · 2^32 + _LO` (R21). -/
theorem toNat_eq_words (b : BitVec 64) : b.toNat = (getWord b 1).toNat * 2 ^ 32 + (getWord b 0).toNat := by
  have h := b.isLt
  simp only [getWord, BitVec.extractLsb'_toNat, Nat.shiftRight_eq_div_pow]
  omega

theorem getWord_pair (hi lo : Word) : getWord (hi ++ lo : BitVec 64) 0 = lo ∧ getWord (hi ++ lo : BitVec 64) 1 = hi :=
  ⟨BitVec.extractLsb'_append_eq_right, BitVec.extractLsb'_append_eq_left⟩

@[simp] theorem getWord_setLo_zero (b : BitVec 64) (v : Word) : getWord (setLo b v) 0 = v := (getWord_pair _ v).1
@[simp] theorem getWord_setLo_one (b : BitVec 64) (v : Word) : getWord (setLo b v) 1 = getWord b 1 :=
  (getWord_pair _ v).2
@[simp] theorem getWord_setHi_zero (b : BitVec 64) (v : Word) : getWord (setHi b v) 0 = getWord b 0 :=
  (getWord_pair v _).1
@[simp] theorem getWord_setHi_one (b : BitVec 64) (v : Word) : getWord (setHi b v) 1 = v := (getWord_pair v _).2

/-! ### Writes while idle -/

theorem Engine.operandWrite_idle {e f : Engine} (h : e.busy = false) : e.operandWrite f = f := by
  simp [Engine.operandWrite, h]

/-- Settles O13: a write of a word by the bits it sets, a read by the bits it takes. -/
theorem bytesOfRegisters : Obligations.BytesOfRegisters := by
  intro e v he
  refine ⟨fun j b => ?iv, fun j b => ?key, fun j i hm => ?digest, fun j i => ?readIv,
    toNat_eq_words e.src, toNat_eq_words e.dst, toNat_eq_words e.xctr, toNat_eq_words e.errAddr⟩
  case iv =>
    have hw : (e.hostWrite (.iv j) v).iv = setWord e.iv j.val v := by
      simp only [Engine.hostWrite, Engine.operandWrite_idle he]
    rw [hw, blockBytes, getElem?_toLe_toNat _ b.isLt, extractByte_setWord _ _ _ (by omega), blockBytes,
      getElem?_toLe_toNat _ b.isLt]
    split <;> rfl
  case key =>
    have hw : (e.hostWrite (.key j) v).key = setWord e.key j.val v := by
      simp only [Engine.hostWrite, Engine.operandWrite_idle he]
    rw [hw, getElem?_toLe_toNat _ b.isLt, extractByte_setWord _ _ _ (by omega), getElem?_toLe_toNat _ b.isLt]
    split <;> rfl
  case digest =>
    have hr : e.hostRead (.digest j) = getWord e.dg j.val := by simp [Engine.hostRead, Engine.digestView, hm]
    rw [hr, extractByte_getWord _ _ i.isLt, blockBytes, getElem?_toLe_toNat _ (by omega)]
  case readIv =>
    change _ = some ((getWord e.iv j.val).extractLsb' _ _)
    rw [extractByte_getWord _ _ i.isLt, blockBytes, getElem?_toLe_toNat _ (by omega)]

end Sys2Proof.Machine
end

section
/-! PROOFS. What the host reads and writes register by register: constants, read-only and hidden registers, operands
while idle and while busy, the fields of STATUS (10_state.md R22 to R39; O11, O12, O14, O15). -/

namespace Sys2Proof.Machine

/-! ### Operand registers -/

/-- A register whose write sets an operand. -/
def Reg.Operand (r : Reg) : Prop :=
  r ∈ [Reg.len, .srcLo, .srcHi, .dstLo, .dstHi, .keylen, .xctrLo, .xctrHi] ∨ (∃ j, r = .iv j) ∨ (∃ j, r = .key j)

theorem Engine.operandWrite_busy {e : Engine} (h : e.busy = true) (f : Engine) :
    e.operandWrite f = { e with wrIgn := true } := by
  simp [Engine.operandWrite, h]

section
variable {e : Engine} (he : e.busy = false)
include he

/-- While idle a write of an operand register changes operand registers only, and the staged key only where it is a
write of KEY. -/
theorem Engine.hostWrite_operand {r : Reg} (hr : r.Operand) (v : Word) :
    ∃ len src dst keylen xctr iv key, e.hostWrite r v =
        { e with len := len, src := src, dst := dst, keylen := keylen, xctr := xctr, iv := iv, key := key } ∧
      ((∀ j, r ≠ .key j) → key = e.key) := by
  have operand {f : Engine} : e.operandWrite f = f := Engine.operandWrite_idle he
  cases r
  case len | srcLo | srcHi | dstLo | dstHi | keylen | xctrLo | xctrHi | iv =>
    exact ⟨_, _, _, _, _, _, _, operand, fun _ => rfl⟩
  case key j => exact ⟨_, _, _, _, _, _, _, operand, fun h => absurd rfl (h j)⟩
  all_goals simp [Reg.Operand] at hr

/-- While idle a write of an operand register leaves what the others read. -/
theorem Engine.hostRead_hostWrite_other {r q : Reg} (hr : r.Operand) (hq : q ≠ r) (v : Word) :
    (e.hostWrite r v).hostRead q = e.hostRead q := by
  have operand {f : Engine} : e.operandWrite f = f := Engine.operandWrite_idle he
  cases r
  case len | srcLo | srcHi | dstLo | dstHi | keylen | xctrLo | xctrHi | key =>
    rw [Engine.hostWrite, operand]
    cases q <;> simp [Engine.hostRead, Engine.statusWord, Engine.statusKeyClass, Engine.statusMacMode, Engine.busy,
      Engine.digestView] at hq ⊢
  case iv j =>
    rw [Engine.hostWrite, operand]
    cases q with
    | iv k =>
      refine (getWord_setWord e.iv j k v (by omega)).trans (if_neg fun h => hq ?_)
      rw [Fin.eq_of_val_eq h]
    | _ => rfl
  all_goals simp [Reg.Operand] at hr

end

/-- A write of CTRL that is no reset sets the interrupt enable (R24). -/
theorem Engine.hostWrite_ctrl {e : Engine} {v : Word} (h : v.getLsbD 0 = false) :
    e.hostWrite .ctrl v = { e with irqEn := v.getLsbD 1 } := by
  rw [Engine.hostWrite, h]
  rfl

/-- Settles O12: each operand reads back by the word it sets, and the frame of a write is said once for all of them. -/
theorem operandsReadBack : Obligations.OperandsReadBack := by
  intro e v he
  have operand {f : Engine} : e.operandWrite f = f := Engine.operandWrite_idle he
  refine ⟨?len, ?keylen, ?pairs, fun j k => ?iv, fun hv => ?ctrl, fun r hr => ?frame⟩
  case len => simp only [Engine.hostWrite, operand, Engine.hostRead]
  case keylen =>
    simp only [Engine.hostWrite, operand, Engine.hostRead]
    apply BitVec.eq_of_toNat_eq
    have hmask : (0x7F : Word).toNat = 2 ^ 7 - 1 := rfl
    rw [BitVec.toNat_setWidth, BitVec.toNat_setWidth, BitVec.toNat_and, hmask, Nat.and_two_pow_sub_one_eq_mod]
    omega
  case pairs =>
    simp [Engine.hostWrite, operand, Engine.hostRead]
  case iv =>
    simp only [Engine.hostWrite, operand, Engine.hostRead]
    rw [getWord_setWord _ _ _ _ (by omega)]
    simp only [Fin.val_inj]
  case ctrl => rw [Engine.hostWrite_ctrl hv]
  case frame =>
    have hr : r.Operand := hr
    refine ⟨fun q hq => Engine.hostRead_hostWrite_other he hr hq v, ?_⟩
    obtain ⟨_, _, _, _, _, _, _, hw, hkey⟩ := Engine.hostWrite_operand he hr v
    rw [hw]
    exact ⟨hkey, rfl, ⟨rfl, rfl, rfl⟩, rfl, rfl, rfl, rfl, rfl, rfl⟩

/-- Settles O14: an operand write while busy only flags itself, and the other writes do not ask whether it is busy. -/
theorem writesWhileBusyAreIgnored : Obligations.WritesWhileBusyAreIgnored := by
  intro e v he
  have ignored (f : Engine) : e.operandWrite f = { e with wrIgn := true } := Engine.operandWrite_busy he f
  refine ⟨?operands, fun j => ignored _, fun j => ignored _, ?readOnly, fun j => rfl, fun hv => ?ctrl, rfl, rfl⟩
  case operands =>
    simp only [List.forall_mem_cons]
    exact ⟨ignored _, ignored _, ignored _, ignored _, ignored _, ignored _, ignored _, ignored _, ignored _, by simp⟩
  case readOnly =>
    simp only [List.forall_mem_cons]
    exact ⟨rfl, rfl, rfl, rfl, rfl, by simp⟩
  case ctrl => exact Engine.hostWrite_ctrl hv

/-! ### The other registers -/

theorem getWord_eq_setWidth {n : Nat} (b : BitVec n) (j : Nat) : getWord b j = (b >>> (32 * j)).setWidth 32 :=
  BitVec.setWidth_ushiftRight_eq_extractLsb.symm

/-- Settles O11: what each register answers, by its definition. -/
theorem constantAndHiddenRegisters : Obligations.ConstantAndHiddenRegisters := by
  intro e v
  refine ⟨⟨rfl, rfl⟩, ⟨rfl, rfl⟩, rfl, ⟨rfl, rfl⟩, ⟨?errLo, getWord_eq_setWidth e.errAddr 1, rfl, rfl⟩,
    fun j => ⟨?digest, rfl⟩, fun _ => rfl, ⟨rfl, rfl⟩, ?ctrl⟩
  case errLo => exact (getWord_eq_setWidth e.errAddr 0).trans (by simp)
  case digest =>
    change getWord e.digestView j.val = _
    rw [getWord_eq_setWidth, Engine.digestView]
    cases e.macActive <;> simp
  case ctrl =>
    change (BitVec.ofBool e.irqEn).setWidth 32 <<< 1 = _
    cases e.irqEn <;> decide

/-- Settles O15: the fields of STATUS by their place in the word, a write by its definition. -/
theorem statusFields : Obligations.StatusFields := by
  intro e v
  have bit (i : Nat) : (e.hostRead .status).getLsbD i = e.statusWord.getLsbD i := rfl
  have field (k n : Nat) : (e.hostRead .status).extractLsb' k n = e.statusWord.extractLsb' k n := rfl
  refine ⟨⟨?busy, ?done, ?err, ?wrIgn, ?valid, ?mac⟩, ⟨?zero, ?code, ?cls, ?mode, ?high⟩, rfl⟩
  case busy =>
    simp only [bit, Engine.statusWord, BitVec.getLsbD_append]
    simp only [Nat.zero_lt_one, if_true, BitVec.getLsbD_ofBool, decide_true, Bool.true_and, Engine.busy]
    cases e.phase <;> rfl
  case done | err | wrIgn | valid | mac =>
    simp only [bit, Engine.statusWord, BitVec.getLsbD_append]
    simp
  case zero | code | cls | mode | high =>
    rw [field, Engine.statusWord]
    simp (disch := decide) only [BitVec.extractLsb'_append_eq_of_le, Nat.reduceSub, BitVec.extractLsb'_append_eq_right,
      BitVec.extractLsb'_eq_self, BitVec.ofNat_eq_ofNat, Engine.statusKeyClass, Engine.statusMacMode]

end Sys2Proof.Machine
end

section
/-! PROOFS. The reset values, and what a reset does to the machine (10_state.md R50; 70_reset_and_hazards.md R290, R291;
O5, O6, O9). -/

namespace Sys2Proof.Machine

theorem toLe_zero (w : Nat) : toLe 0 w = zeros w := by
  induction w with
  | zero => rfl
  | succ w ih =>
    rw [toLe, Nat.zero_div, ih]
    rfl

/-- The bytes of a register that is 0 (R50). -/
theorem toLe_toNat_zero {n : Nat} {b : BitVec n} (h : b = 0#n) (w : Nat) : toLe b.toNat w = zeros w := by
  rw [h, BitVec.toNat_zero, toLe_zero]

/-- Settles O5: the value of each element is computed, the byte strings by the bytes of 0. -/
theorem resetState : Obligations.ResetState :=
  ⟨by decide, by decide, ⟨toLe_toNat_zero rfl 16, toLe_toNat_zero rfl 64⟩, by decide,
    ⟨rfl, rfl, toLe_toNat_zero rfl 16, rfl⟩, ⟨rfl, rfl, rfl, rfl, rfl, rfl, rfl, rfl, rfl, rfl, rfl⟩, by decide⟩

/-- Settles O6: every instance is at its reset values, and there is no record of a race. -/
theorem resetMeetsTheInvariant : Obligations.ResetMeetsTheInvariant := by
  intro p n
  refine ⟨rfl, State.enginesWf_iff.mpr fun e he => ?_, State.racesWf_iff.mpr ⟨.nil _ _, fun _ => rfl⟩, rfl⟩
  obtain rfl : e = .reset := by
    rcases List.mem_cons.mp he with rfl | he
    · rfl
    · exact List.eq_of_mem_replicate he
  exact Engine.wellFormed_reset

theorem step_hardReset {s : State} {k : Nat} {ts : List Turn} {e : Engine} (ht : s.turns = .hardReset k :: ts)
    (he : s.engines[k]? = some e) :
    step s = .next ((({ s with turns := ts } : State).focusOn k e).hostTurn .reset) := by
  rw [step_of_turns ht, takeTurn, State.onEngine, State.focus_eq (s := { s with turns := ts }) he]

/-- Settles O9: the host's write by its definition, the reset input by the access rule of the instance in focus. -/
theorem resetTurns : Obligations.ResetTurns := by
  refine ⟨fun e v hv => if_pos hv, fun s k ts ht hk => ?_⟩
  have he : s.engines[k]? = some s.engines[k] := List.getElem?_eq_getElem hk
  obtain ⟨hengines, hturns, hmem⟩ := State.hostTurn_focusOn (s := { s with turns := ts }) he .reset
  exact ⟨_, step_hardReset ht he, hengines, hturns, fun hraces => hmem fun hbusy _ =>
    hraces (State.busyAt_iff.mpr ⟨_, he, hbusy⟩)⟩

end Sys2Proof.Machine
end

section
/-! PROOFS. What NOP and SETKEY leave as it was (10_state.md R37; 40_control.md R118, R122; O55). -/

namespace Sys2Proof.Machine

/-- A command without data does its work in SEED. -/
theorem Plan.runWork_noData {p : Plan} (hmoves : p.moves = false) (hbulk : ∀ e, p.bulk e = 0)
    (htotal : ∀ e, p.total e = 0) (s : State) : p.runWork s = p.runSeed s := by
  have htail (t : State) : p.runTail t = .going t := by simp [Plan.runTail, htotal]
  have hblocks (t : State) : p.runBulk t = .going t := by simp [Plan.runBulk, hbulk, Plan.runBlocks]
  have hmap : p.runMap s = .going s := by simp [Plan.runMap, hmoves]
  rw [Plan.runWork, hmap, Run.andThen_going]
  cases p.runSeed s with
  | going t => rw [Run.andThen_going, hblocks, Run.andThen_going, htail]
  | raised => rfl

/-- `f` is `e` but for what NOP and SETKEY may change: the key slot and the MAC computation, unless `nop` holds, the
result, the status, and what a completion empties. -/
structure Engine.KeyFrame (nop : Prop) (e f : Engine) : Prop where
  iv : f.iv = e.iv
  xctr : f.xctr = e.xctr
  operands : f.sameOperands e
  macMode : f.macMode = e.macMode
  slot : nop → f.slot = e.slot ∧ f.sameMac e

section
variable {i : Instr} (hi : i.fields.op.toNat ∈ [0, 1]) (e : Engine)
include hi

theorem planOf_onError_keyFrame (k : ErrorKind) (a : Addr) :
    e.KeyFrame (i.fields.op = 0) (((planOf i).onError e).fail k a) := by
  rw [planOf_onError]
  by_cases h1 : i.fields.op.toNat = 1
  · rw [if_pos h1]
    refine ⟨rfl, rfl, ⟨rfl, rfl, rfl, rfl, rfl, rfl, rfl, rfl⟩, rfl, fun h0 => ?_⟩
    rw [h0] at h1
    cases h1
  · have h0 : i.fields.op.toNat = 0 := by simpa [h1] using hi
    rw [if_neg h1, if_neg (by rw [h0]; decide)]
    exact ⟨rfl, rfl, ⟨rfl, rfl, rfl, rfl, rfl, rfl, rfl, rfl⟩, rfl, fun _ => ⟨rfl, rfl, rfl, rfl⟩⟩

theorem planOf_commit_keyFrame : e.KeyFrame (i.fields.op = 0) ((planOf i).commit e).succeed := by
  cases i
  case nop => exact ⟨rfl, rfl, ⟨rfl, rfl, rfl, rfl, rfl, rfl, rfl, rfl⟩, rfl, fun _ => ⟨rfl, rfl, rfl, rfl⟩⟩
  case setkeyEcb | setkeyCbc | setkeyCts | setkeyEssiv | setkeyCtr | setkeyXctr | setkeyXts | setkeyCbcmac
    | setkeyCmac | setkeyXcbc =>
    exact ⟨rfl, rfl, ⟨rfl, rfl, rfl, rfl, rfl, rfl, rfl, rfl⟩, rfl, fun h => absurd h (by decide)⟩
  all_goals simp [Instr.fields, Fields.fixed, Fields.withBits] at hi

/-- NOP and SETKEY touch no memory. -/
theorem planOf_runWork_mem (s : State) : ((planOf i).runWork s).state.mem = s.mem := by
  have hop (h : i.fields.op.toNat ∈ [2, 4, 5]) : False := by
    simp only [List.mem_cons, List.not_mem_nil, or_false] at hi h
    omega
  have htotal (e : Engine) : (planOf i).total e = 0 := by
    rw [planOf_total, bytesRead]
    simp only [List.mem_cons, List.not_mem_nil, or_false] at hi
    rcases hi with hi | hi <;> rw [hi] <;> rfl
  have hbulk (e : Engine) : (planOf i).bulk e = 0 := by
    rw [planOf_bulk]
    have := bulkBytes_le i e.latch
    rw [← planOf_total, htotal] at this
    exact Nat.le_zero.mp this
  rw [Plan.runWork_noData (by rw [planOf_moves, decide_eq_false hop]) hbulk htotal]
  exact ((planOf i).runSeed_same s).1

end

/-- Settles O55: these commands do their work in SEED, which touches no memory, and their COMMIT and their errors
change the key slot and the MAC computation only. -/
theorem setkeyAndNopFrame : Obligations.SetkeyAndNopFrame := by
  intro i s t hi ht
  obtain rfl := exec_next ht
  have hwork := planOf_runWork_mem hi s
  obtain ⟨hb, ha, hp, hturns, hseen, _⟩ := runCommand_frame (planOf i) s
  have hraces := runCommand_races (planOf i) s
  have frame : (runCommand (planOf i) s).mem = s.mem ∧
      s.eng.KeyFrame (i.fields.op = 0) (runCommand (planOf i) s).eng := by
    rcases runCommand_cases (planOf i) s with ⟨k, _, he⟩ | ⟨k, a, t, _, hw, hr, he⟩ | ⟨t, _, hw, hr, he⟩
    · rw [he]
      exact ⟨rfl, planOf_onError_keyFrame hi s.eng k 0⟩
    · rw [hw, Run.state_raised] at hwork
      have hf := planOf_onError_keyFrame hi t.eng k a
      obtain ⟨_, _, _, _, _, _, _, rfl, _⟩ := hr
      rw [he]
      exact ⟨hwork, hf.iv, hf.xctr, hf.operands, hf.macMode, hf.slot⟩
    · rw [hw, Run.state_going] at hwork
      have hf := planOf_commit_keyFrame hi t.eng
      obtain ⟨_, _, _, _, _, _, _, rfl, _⟩ := hr
      rw [he]
      exact ⟨hwork, hf.iv, hf.xctr, hf.operands, hf.macMode, hf.slot⟩
  obtain ⟨hmem, hf⟩ := frame
  exact ⟨hmem, hf.iv, hf.xctr, hf.operands, hf.macMode, ⟨hb, ha, hp, hturns, hseen⟩, hraces, hf.slot⟩

end Sys2Proof.Machine
end

section
/-! PROOFS. Every step keeps host memory in canonical form: what it stores lies below 2^64, whether the host, a command or
the settling of a race stores it (00_scope.md R15; 20_memory.md R60; O7). -/

namespace Sys2Proof.Machine

/-- What an engine step writes is a DMA access that is performed (00_scope.md R15). -/
theorem Plan.nextWrite_accessOk {p : Plan} {s : State} {a : Nat} {b : Bytes} (h : p.nextWrite s = some (a, b)) :
    s.accessOk a b.length .write = true := by
  unfold Plan.nextWrite at h
  split at h
  · cases h
  · split at h
    · cases h
    · split at h
      · rename_i hok
        obtain ⟨rfl, rfl⟩ := Prod.mk.inj (Option.some.inj h)
        exact hok
      · cases h

/-- So it lies below 2^64. -/
theorem State.nextWrite_le {s : State} {a : Nat} {b : Bytes} (h : s.nextWrite = some (a, b)) :
    a + b.length ≤ 2 ^ 64 := by
  unfold State.nextWrite at h
  split at h
  · split at h
    · exact State.accessOk_le (Plan.nextWrite_accessOk h)
    · cases h
  · cases h

/-- A turn of an instance is taken with that instance in focus. -/
theorem State.onEngine_eq_next {s t : State} {k : Nat} {f : State → TurnOutcome} (h : s.onEngine k f = .next t) :
    ∃ e, s.engines[k]? = some e ∧ f (s.focusOn k e) = .next t := by
  cases he : s.engines[k]? with
  | none =>
    have hd : s.engines.drop k = [] := List.drop_eq_nil_of_le (List.getElem?_eq_none_iff.mp he)
    simp [State.onEngine, State.focus, hd] at h
  | some e =>
    rw [State.onEngine, State.focus_eq he] at h
    exact ⟨e, rfl, h⟩

/-- A host access of a register is taken with its instance in focus. -/
theorem State.onRegister_eq_next {s t : State} {addr width : Nat} {f : State → Reg → TurnOutcome}
    (h : s.onRegister addr width f = .next t) :
    ∃ k e r, s.engines[k]? = some e ∧ f (s.focusOn k e) r = .next t := by
  unfold State.onRegister at h
  split at h
  · cases h
  · split at h
    · cases h
    · obtain ⟨e, he, hf⟩ := State.onEngine_eq_next h
      exact ⟨_, e, _, he, hf⟩

/-! ### What moves an instance -/

/-- An ordering point settles races at addresses of 64 bits. -/
theorem State.ordered_mem_wf {s : State} (was : Bool) (h : s.mem.wf = true) : (s.ordered was).mem.wf = true := by
  obtain ⟨mem, d, rs, ho, hwf, _⟩ := s.ordered_eq was
  rw [ho]
  exact hwf h

theorem State.hostTurn_mem_wf {s : State} (e : Engine) (h : s.mem.wf = true) : (s.hostTurn e).mem.wf = true :=
  State.ordered_mem_wf (s := s.setEng e) _ h

/-- An engine step among other agents stores what it writes, and settles races where it ends its command. -/
theorem racedStep_mem_wf {s : State} (h : s.mem.wf = true) : (racedStep s).mem.wf = true := by
  obtain ⟨t, hmem, _, ht⟩ := racedStep_eq s
  rw [ht]
  apply State.ordered_mem_wf
  rw [hmem]
  cases hw : (s.seenBy (.engine s.before.length)).nextWrite with
  | none => exact h
  | some w => exact Memory.wf_writeBytes (State.nextWrite_le hw) h

theorem engineTurn_mem_wf {s t : State} (h : s.mem.wf = true) (ht : engineTurn s = .next t) : t.mem.wf = true := by
  unfold engineTurn at ht
  split at ht
  · split at ht
    · split at ht
      · obtain rfl := exec_next ht
        obtain ⟨_, _, _, _, _, hwf⟩ := runCommand_frame (planOf _) s
        exact hwf h
      · obtain rfl := Host.Outcome.next.inj ht
        exact racedStep_mem_wf h
    · obtain rfl := Host.Outcome.next.inj ht
      exact State.ordered_mem_wf (s := illegalCommand s) true h
  · obtain rfl := Host.Outcome.next.inj ht
    exact racedStep_mem_wf h

/-! ### One step -/

theorem takeTurn_mem_wf {s t : State} {x : Turn} (h : s.mem.wf = true) (ht : takeTurn x s = .next t) :
    t.mem.wf = true := by
  cases x with
  | engine k =>
    obtain ⟨e, _, hf⟩ := State.onEngine_eq_next ht
    obtain rfl := Host.Outcome.next.inj hf
    exact racedStep_mem_wf (s := s.focusOn k e) h
  | write addr width v =>
    obtain ⟨k, e, r, _, hf⟩ := State.onRegister_eq_next ht
    obtain rfl := Host.Outcome.next.inj hf
    exact State.hostTurn_mem_wf (s := s.focusOn k e) _ h
  | read addr width =>
    obtain ⟨k, e, r, _, hf⟩ := State.onRegister_eq_next ht
    obtain rfl := Host.Outcome.next.inj hf
    exact h
  | store addr b =>
    simp only [takeTurn] at ht
    split at ht
    · obtain rfl := Host.Outcome.next.inj ht
      rw [State.sharedWrite_mem]
      exact Memory.wf_writeBytes ‹_› h
    · cases ht
  | load addr n =>
    simp only [takeTurn] at ht
    split at ht
    · obtain rfl := Host.Outcome.next.inj ht
      exact h
    · cases ht
  | hardReset k =>
    obtain ⟨e, _, hf⟩ := State.onEngine_eq_next ht
    obtain rfl := Host.Outcome.next.inj hf
    exact State.hostTurn_mem_wf (s := s.focusOn k e) _ h
  | wait k =>
    obtain ⟨e, _, hf⟩ := State.onEngine_eq_next ht
    split at hf
    · obtain rfl := Host.Outcome.next.inj hf
      exact racedStep_mem_wf (s := s.focusOn k e) h
    · obtain rfl := Host.Outcome.next.inj hf
      exact h

theorem unscheduled_mem_wf {s t : State} (h : s.mem.wf = true) (ht : unscheduled s = .next t) : t.mem.wf = true := by
  unfold unscheduled at ht
  split at ht
  · exact engineTurn_mem_wf h ht
  · split at ht
    · obtain ⟨e, _, hf⟩ := State.onEngine_eq_next ht
      exact engineTurn_mem_wf (s := s.focusOn _ e) h hf
    · obtain rfl := Host.Outcome.next.inj ht
      exact h

/-- Settles O7: the memory rules of the turns, and of an engine that moves with no turn listed. -/
theorem stepKeepsMemoryCanonical : Obligations.StepKeepsMemoryCanonical := by
  intro s t h ht
  unfold step at ht
  split at ht
  · exact unscheduled_mem_wf h ht
  · rename_i ts _
    exact takeTurn_mem_wf (s := { s with turns := ts }) h ht

end Sys2Proof.Machine
end

section
/-! PROOFS. A segment map that cannot be built ends its command (20_memory.md R65; 40_control.md R115; O29). -/

namespace Sys2Proof.Machine

/-- A command whose checks pass goes on to its work (R113, R114). -/
theorem planOf_checkError_none {i : Instr} {e : Engine} (h : keyAndMacOk i e) (hl : lengthRule i e.latch = none) :
    (planOf i).checkError e = none := by
  obtain ⟨_, _, hcheck⟩ := planOf_checkError i e
  rw [hcheck h, hl]

/-- An error of the phases MAP to TAIL ends the command with that error; memory is as the phases left it. -/
theorem runCommand_raised {p : Plan} {s t : State} {k : ErrorKind} {a : Addr} (hc : p.checkError s.eng = none)
    (hw : p.runWork s = .raised k a t) :
    (runCommand p s).eng.failedWith k a ∧ (runCommand p s).mem = t.mem := by
  have he : runCommand p s = t.setEng ((p.onError t.eng).fail k a) := by
    simp only [runCommand, hc, hw, Plan.failStep]
  rw [he]
  exact ⟨⟨rfl, rfl, rfl, rfl, rfl, rfl, rfl⟩, rfl⟩

section
variable {p : Plan} {s : State} {a : Addr} (hmv : p.moves = true)
include hmv

theorem Plan.runMap_source_error (h : s.buildMap p.sg s.eng.latch.src (p.total s.eng) = .error a) :
    p.runMap s = .raised .bufferIoFailure a s := by
  simp only [Plan.runMap, hmv, if_true, h]

/-- The source list comes before the destination list. -/
theorem Plan.runMap_destination_error {sm : List Segment} (hst : p.stores = true)
    (hs : s.buildMap p.sg s.eng.latch.src (p.total s.eng) = .ok sm)
    (h : s.buildMap p.sg s.eng.latch.dst (p.total s.eng) = .error a) :
    p.runMap s = .raised .bufferIoFailure a s := by
  simp only [Plan.runMap, hmv, hst, if_true, hs, h]

end

/-- An error in MAP is the command's. -/
theorem Plan.runWork_map_error {p : Plan} {s t : State} {k : ErrorKind} {a : Addr} (h : p.runMap s = .raised k a t) :
    p.runWork s = .raised k a t := by
  simp only [Plan.runWork, h, Run.andThen_raised]

/-- Settles O29: MAP raises the error of the map it could not build, before anything is written. -/
theorem mapErrorsLeaveMemory : Obligations.MapErrorsLeaveMemory := by
  intro i s a hop hkey hlen
  have hc := planOf_checkError_none hkey hlen
  have hmv : (planOf i).moves = true := by rw [planOf_moves, decide_eq_true hop]
  simp only [← planOf_total, ← planOf_sg]
  have ends (hm : (planOf i).runMap s = .raised .bufferIoFailure a s) :
      ∃ t, exec i s = .next t ∧ t.eng.failedWith .bufferIoFailure a ∧ t.mem = s.mem :=
    ⟨_, exec_eq i s, runCommand_raised hc (Plan.runWork_map_error hm)⟩
  refine ⟨fun h => ends (Plan.runMap_source_error hmv h), fun ho sm hs h => ends ?_⟩
  have hst : (planOf i).stores = true := by rw [planOf_stores, ho]; rfl
  exact Plan.runMap_destination_error hmv hst hs h

end Sys2Proof.Machine
end

section
/-! PROOFS. What a CRYPT leaves as it was (20_memory.md R69; 40_control.md R116, R119; 46_mac.md R230; O53). -/

namespace Sys2Proof.Machine

/-! ### The draw counter -/

section
variable {p : Plan} (d : Nat)

theorem Plan.runUnit_draws (inTail : Bool) (u : Nat) {s : State} (h : s.draws = d) :
    (p.runUnit inTail u s).state.draws = d := by
  unfold Plan.runUnit
  split
  · exact h
  · refine Run.andThen_holds (P := fun t => t.draws = d) ?_ (fun _ => id) fun _ => id
    split
    · obtain ⟨_, hw, _⟩ := State.streamWrite_state (s.setWork (p.compute s.eng inTail _).2) s.eng.dstMap s.eng.work.pos
        (p.compute s.eng inTail _).1
      rw [hw]
      exact h
    · exact h

theorem Plan.runBlocks_draws (n : Nat) {s : State} (h : s.draws = d) : (p.runBlocks n s).state.draws = d := by
  induction n generalizing s with
  | zero => exact h
  | succ n ih =>
    exact Run.andThen_holds (P := fun t => t.draws = d) (Plan.runUnit_draws d false 16 h) (fun _ => id) fun _ => ih

theorem Plan.runTail_draws {s : State} (h : s.draws = d) : (p.runTail s).state.draws = d := by
  unfold Plan.runTail
  split
  · exact Plan.runUnit_draws d true _ h
  · exact h

theorem Plan.runMap_draws {s : State} (h : s.draws = d) : (p.runMap s).state.draws = d := by
  unfold Plan.runMap
  split
  · split
    · exact h
    · split
      · split <;> exact h
      · exact h
  · exact h

/-- SEED makes a draw where its command has one (41_setkey.md R135). -/
theorem Plan.runSeed_draws (hd : p.draws = false) {s : State} (h : s.draws = d) : (p.runSeed s).state.draws = d := by
  unfold Plan.runSeed
  rw [hd]
  cases p.seed (Config.hashFail s.draws) s.eng <;> exact h

theorem Plan.runWork_draws (hd : p.draws = false) (s : State) : (p.runWork s).state.draws = s.draws := by
  have seeded : ((p.runMap s).andThen p.runSeed).state.draws = s.draws :=
    Run.andThen_holds (P := fun t => t.draws = s.draws) (Plan.runMap_draws _ rfl) (fun _ => id)
      fun _ => Plan.runSeed_draws _ hd
  have bulk : (((p.runMap s).andThen p.runSeed).andThen p.runBulk).state.draws = s.draws :=
    Run.andThen_holds (P := fun t => t.draws = s.draws) seeded (fun _ => id) fun _ => Plan.runBlocks_draws _ _
  exact Run.andThen_holds (P := fun t => t.draws = s.draws) bulk (fun _ => id) fun _ => Plan.runTail_draws _

end

theorem runCommand_draws {p : Plan} (hd : p.draws = false) (s : State) : (runCommand p s).draws = s.draws := by
  have hw := Plan.runWork_draws hd s
  rcases runCommand_cases p s with ⟨k, _, he⟩ | ⟨k, a, t, _, hr, _, he⟩ | ⟨t, _, hr, _, he⟩
  · rw [he, State.setEng_draws]
  all_goals
    rw [hr] at hw
    rw [he, State.setEng_draws]
    exact hw

/-! ### The engine -/

/-- `f` is `e` but for what a CRYPT of this mode may change: IV and XCTR in the modes that have them, the result, the
status, and what a completion empties. -/
structure Engine.CryptFrame (mode : BitVec 4) (e f : Engine) : Prop where
  operands : f.sameOperands e
  mac : f.sameMac e
  slot : f.slot = e.slot
  iv : mode.toNat ∈ [0, 5] → f.iv = e.iv
  xctr : mode ≠ 5 → f.xctr = e.xctr

/-- A mode whose COMMIT writes IV. -/
theorem Engine.CryptFrame.writesIv {mode : BitVec 4} (h : mode.toNat ∉ [0, 5]) (e : Engine) (v : Block) :
    e.CryptFrame mode ({ e with iv := v, result := 0 } : Engine).succeed :=
  ⟨⟨rfl, rfl, rfl, rfl, rfl, rfl, rfl, rfl⟩, ⟨rfl, rfl, rfl⟩, rfl, fun hm => absurd hm h, fun _ => rfl⟩

section
variable {i : Instr} (hi : i.fields.op = 2) (e : Engine)
include hi

theorem planOf_onError_crypt : (planOf i).onError = id := by
  rw [planOf_onError, hi]
  rfl

theorem planOf_draws_crypt : (planOf i).draws = false := by
  obtain ⟨_, _, _, hd⟩ := planOf_shape i
  rw [hd, decide_eq_false_iff_not]
  rintro rfl
  cases hi

theorem planOf_fail_cryptFrame (k : ErrorKind) (a : Addr) :
    e.CryptFrame i.fields.mode (((planOf i).onError e).fail k a) := by
  rw [planOf_onError_crypt hi]
  exact ⟨⟨rfl, rfl, rfl, rfl, rfl, rfl, rfl, rfl⟩, ⟨rfl, rfl, rfl⟩, rfl, fun _ => rfl, fun _ => rfl⟩

/-- COMMIT writes IV under CBC, CTS, ESSIV, CTR and XTS, and XCTR under XCTR (R116). -/
theorem planOf_commit_cryptFrame : e.CryptFrame i.fields.mode ((planOf i).commit e).succeed := by
  cases i
  case cryptEcbEnc | cryptEcbDec =>
    exact ⟨⟨rfl, rfl, rfl, rfl, rfl, rfl, rfl, rfl⟩, ⟨rfl, rfl, rfl⟩, rfl, fun _ => rfl, fun _ => rfl⟩
  case cryptXctrEnc | cryptXctrDec =>
    exact ⟨⟨rfl, rfl, rfl, rfl, rfl, rfl, rfl, rfl⟩, ⟨rfl, rfl, rfl⟩, rfl, fun _ => rfl, fun h => absurd rfl h⟩
  case cryptCbcEnc | cryptCbcDec => exact .writesIv (mode := 1) (by decide) e _
  case cryptCtsEnc | cryptCtsDec => exact .writesIv (mode := 2) (by decide) e _
  case cryptCtrEnc | cryptCtrDec => exact .writesIv (mode := 4) (by decide) e _
  case cryptXtsEnc | cryptXtsDec => exact .writesIv (mode := 6) (by decide) e _
  case cryptEssivEnc | cryptEssivDec =>
    have hc : e.CryptFrame 3 (commitEssiv e).succeed := by
      unfold commitEssiv
      split
      · exact .writesIv (by decide) e e.iv
      · exact .writesIv (by decide) e _
    exact hc
  all_goals cases hi

end

/-- Settles O53: memory by the frame of a whole command, the engine by what COMMIT and an error write. -/
theorem cryptFrame : Obligations.CryptFrame := by
  intro i s t hi ht
  obtain rfl := exec_next ht
  obtain ⟨hb, ha, hp, hturns, hseen, _⟩ := runCommand_frame (planOf i) s
  have hmem (a : Nat) (h : ∀ dm, s.buildMap i.fields.sg s.eng.latch.dst s.eng.reqLen = .ok dm →
      ∀ j, j < s.eng.reqLen → mapAddr dm j ≠ a) : (runCommand (planOf i) s).mem.read a = s.mem.read a := by
    have htotal : (planOf i).total s.eng = s.eng.reqLen := by
      rw [planOf_total, bytesRead, hi]
      rfl
    refine runCommand_same (planOf_stores_moves i) fun _ => ?_
    rw [planOf_sg, htotal]
    exact h
  have heng : s.eng.CryptFrame i.fields.mode (runCommand (planOf i) s).eng := by
    rcases runCommand_cases (planOf i) s with ⟨k, _, he⟩ | ⟨k, a, t, _, _, hr, he⟩ | ⟨t, _, _, hr, he⟩
    · rw [he]
      exact planOf_fail_cryptFrame hi s.eng k 0
    · have hf := planOf_fail_cryptFrame hi t.eng k a
      obtain ⟨_, _, _, _, _, _, _, rfl, _⟩ := hr
      rw [he]
      exact ⟨hf.operands, hf.mac, hf.slot, hf.iv, hf.xctr⟩
    · have hf := planOf_commit_cryptFrame hi t.eng
      obtain ⟨_, _, _, _, _, _, _, rfl, _⟩ := hr
      rw [he]
      exact ⟨hf.operands, hf.mac, hf.slot, hf.iv, hf.xctr⟩
  exact ⟨heng.operands, heng.mac, heng.slot, heng.iv, heng.xctr, ⟨hb, ha, hp, hturns, hseen⟩,
    runCommand_draws (planOf_draws_crypt hi) s, runCommand_races (planOf i) s, hmem⟩

end Sys2Proof.Machine
end

section
/-! PROOFS. The pieces of a stream range, performed up to a refused one: what they read and store, and the offsets they
stand for (20_memory.md R64, R66, R67; 60_exceptions.md R263). -/

namespace Sys2Proof.Machine

/-! ### The pieces of a range -/

@[simp] theorem pieces_zero (m : List Segment) (off : Nat) : pieces m off 0 = [] := by
  cases m <;> rfl

theorem pieces_cons_ge {seg : Segment} {off : Nat} (h : seg.len ≤ off) (m : List Segment) (n : Nat) :
    pieces (seg :: m) off n = pieces m (off - seg.len) n := by
  by_cases hn : n = 0
  · subst hn
    simp
  · rw [pieces, if_neg hn, if_pos h]

theorem pieces_cons_lt {seg : Segment} {off n : Nat} (hn : n ≠ 0) (h : off < seg.len) (m : List Segment) :
    pieces (seg :: m) off n =
      (seg.addr + off, min n (seg.len - off)) :: pieces m 0 (n - min n (seg.len - off)) := by
  rw [pieces, if_neg hn, if_neg (by omega)]

/-- Induction along the pieces of a range: at its end, past a segment, or at a piece. -/
theorem pieces_induction {P : List Segment → Nat → Nat → Prop} (nil : ∀ off n, P [] off n)
    (zero : ∀ m off, P m off 0)
    (skip : ∀ seg m off n, seg.len ≤ off → P m (off - seg.len) n → P (seg :: m) off n)
    (piece : ∀ seg m off n, n ≠ 0 → off < seg.len → P m 0 (n - min n (seg.len - off)) → P (seg :: m) off n)
    (m : List Segment) (off n : Nat) : P m off n := by
  induction m generalizing off n with
  | nil => exact nil off n
  | cons seg m ih =>
    by_cases hn : n = 0
    · exact hn ▸ zero _ _
    · by_cases h : seg.len ≤ off
      · exact skip seg m off n h (ih _ _)
      · exact piece seg m off n hn (by omega) (ih _ _)

theorem sum_pieces_le (m : List Segment) (off n : Nat) : ((pieces m off n).map (·.2)).sum ≤ n := by
  induction m, off, n using pieces_induction with
  | nil | zero => simp [pieces]
  | skip seg m off n h ih => rwa [pieces_cons_ge h]
  | piece seg m off n hn h ih =>
    rw [pieces_cons_lt hn h, List.map_cons, List.sum_cons]
    dsimp only
    omega

/-- A piece is a non-empty part of a segment. -/
theorem pieces_within {m : List Segment} {off n : Nat} {q : Nat × Nat} (hq : q ∈ pieces m off n) :
    0 < q.2 ∧ ∃ seg ∈ m, ∃ o, q.1 = seg.addr + o ∧ o + q.2 ≤ seg.len := by
  induction m, off, n using pieces_induction with
  | nil => simp [pieces] at hq
  | zero => simp at hq
  | skip seg m off n h ih =>
    rw [pieces_cons_ge h] at hq
    obtain ⟨h0, x, hx, ho⟩ := ih hq
    exact ⟨h0, x, List.mem_cons_of_mem _ hx, ho⟩
  | piece seg m off n hn h ih =>
    rw [pieces_cons_lt hn h] at hq
    rcases List.mem_cons.mp hq with rfl | hq
    · exact ⟨by dsimp only; omega, seg, List.mem_cons_self, off, rfl, by dsimp only; omega⟩
    · obtain ⟨h0, x, hx, ho⟩ := ih hq
      exact ⟨h0, x, List.mem_cons_of_mem _ hx, ho⟩

/-- The first pieces of a range are the pieces of its first bytes, and the others those of the bytes after them. -/
theorem pieces_eq_append {m : List Segment} {off n : Nat} {before after : List (Nat × Nat)}
    (h : pieces m off n = before ++ after) :
    before = pieces m off (before.map (·.2)).sum ∧
      after = pieces m (off + (before.map (·.2)).sum) (n - (before.map (·.2)).sum) := by
  induction m, off, n using pieces_induction generalizing before with
  | nil off n =>
    obtain ⟨rfl, rfl⟩ := List.append_eq_nil_iff.mp h.symm
    exact ⟨rfl, rfl⟩
  | zero m off =>
    rw [pieces_zero] at h
    obtain ⟨rfl, rfl⟩ := List.append_eq_nil_iff.mp h.symm
    simp
  | skip seg m off n hs ih =>
    rw [pieces_cons_ge hs] at h
    obtain ⟨hb, ha⟩ := ih h
    rw [pieces_cons_ge hs, pieces_cons_ge (by omega), Nat.sub_add_comm hs]
    exact ⟨hb, ha⟩
  | piece seg m off n hn hs ih =>
    cases before with
    | nil => simpa using h.symm
    | cons x before =>
      rw [pieces_cons_lt hn hs, List.cons_append, List.cons.injEq] at h
      obtain ⟨rfl, h⟩ := h
      obtain ⟨hb, ha⟩ := ih h
      have hle : (before.map (·.2)).sum ≤ n - min n (seg.len - off) := by
        have := sum_pieces_le m 0 (n - min n (seg.len - off))
        rw [h, List.map_append, List.sum_append] at this
        omega
      simp only [List.map_cons, List.sum_cons]
      generalize (before.map (·.2)).sum = k at hb ha hle
      constructor
      · rw [pieces_cons_lt (by omega) hs, hb]
        congr 2 <;> [skip; congr 1] <;> omega
      · by_cases hk : n = min n (seg.len - off) + k
        · rw [← hk, Nat.sub_self, pieces_zero, ha, show n - min n (seg.len - off) - k = 0 by omega, pieces_zero]
        · rw [pieces_cons_ge (by omega), ha]
          congr 1 <;> omega

/-! ### Reads -/

/-- The bytes the pieces of a range stand for. -/
theorem flatMap_readBytes_pieces (mem : Memory) {m : List Segment} {off n : Nat} (h : off + n ≤ mapLen m) :
    (pieces m off n).flatMap (fun q => mem.readBytes q.1 q.2) = streamBytes mem m off n := by
  induction m, off, n using pieces_induction with
  | nil off n =>
    obtain rfl : n = 0 := by rw [mapLen] at h; omega
    rfl
  | zero => simp [streamBytes]
  | skip seg m off n hs ih =>
    rw [mapLen] at h
    rw [pieces_cons_ge hs, ih (by omega), streamBytes_cons_ge _ hs]
  | piece seg m off n hn hs ih =>
    rw [mapLen] at h
    rw [pieces_cons_lt hn hs, List.flatMap_cons, ih (by omega)]
    have hsplit : n = min n (seg.len - off) + (n - min n (seg.len - off)) := by omega
    conv_rhs => rw [hsplit, streamBytes_add, streamBytes_cons_lt _ (by omega)]
    congr 1
    by_cases hk : n ≤ seg.len - off
    · simp [Nat.min_eq_left hk, streamBytes]
    · rw [streamBytes_cons_ge _ (by omega)]
      congr 1
      omega

section
variable {s : State} {ps before after : List (Nat × Nat)} {a n : Nat}

theorem State.performs_cons {q : Nat × Nat} {k : Access} :
    s.performs (q :: ps) k ↔ s.accessOk q.1 q.2 k = true ∧ s.performs ps k := by
  simp [State.performs]

theorem State.readPieces_performs (h : s.performs ps .read) :
    s.readPieces ps = .ok (ps.flatMap fun q => s.mem.readBytes q.1 q.2) := by
  induction ps with
  | nil => rfl
  | cons q ps ih =>
    obtain ⟨hq, hps⟩ := State.performs_cons.mp h
    rw [State.readPieces, State.memRead_eq, if_pos hq, ih hps]
    rfl

/-- A read is refused at its first refused piece (R66). -/
theorem State.readPieces_refused (h : s.performs before .read) (hn : s.accessOk a n .read = false) :
    s.readPieces (before ++ (a, n) :: after) = .error (refusedAddr a) := by
  induction before with
  | nil => simp [State.readPieces, State.memRead_eq, hn]
  | cons q ps ih =>
    obtain ⟨hq, hps⟩ := State.performs_cons.mp h
    rw [List.cons_append, State.readPieces, State.memRead_eq, if_pos hq, ih hps]

/-- `StreamRead`, every piece performed. -/
theorem State.streamRead_performs {m : List Segment} {off : Nat} (h : s.performs (pieces m off n) .read)
    (hle : off + n ≤ mapLen m) : s.streamRead m off n = .ok (streamBytes s.mem m off n) := by
  rw [State.streamRead, State.readPieces_performs h, flatMap_readBytes_pieces _ hle]

end

/-! ### Stores -/

/-- Memory after the pieces are stored, each with the next bytes (R67). -/
def storePieces : Memory → List (Nat × Nat) → Bytes → Memory
  | mem, [], _ => mem
  | mem, (a, n) :: ps, v => storePieces (mem.writeBytes a (v.take n)) ps (v.drop n)

/-- The pieces of a range store at the addresses of its offsets. -/
theorem storePieces_pieces {m : List Segment} {off n : Nat} (mem : Memory) {v : Bytes} (hv : n ≤ v.length)
    (h : off + n ≤ mapLen m) : storePieces mem (pieces m off n) v = streamStore mem m off (v.take n) := by
  induction m, off, n using pieces_induction generalizing mem v with
  | nil off n =>
    obtain rfl : n = 0 := by rw [mapLen] at h; omega
    rfl
  | zero => simp [storePieces, streamStore]
  | skip seg m off n hs ih =>
    rw [mapLen] at h
    rw [pieces_cons_ge hs, ih mem hv (by omega), streamStore_cons_ge _ _ hs]
  | piece seg m off n hn hs ih =>
    rw [mapLen] at h
    rw [pieces_cons_lt hn hs, storePieces, ih _ (by rw [List.length_drop]; omega) (by omega)]
    have hsplit : v.take n = v.take (min n (seg.len - off)) ++
        (v.drop (min n (seg.len - off))).take (n - min n (seg.len - off)) := by
      rw [← List.take_add]
      congr 1
      omega
    have hlen : (v.take (min n (seg.len - off))).length = min n (seg.len - off) := by
      rw [List.length_take]
      omega
    have hfirst : streamStore mem (seg :: m) off (v.take (min n (seg.len - off))) =
        mem.writeBytes (seg.addr + off) (v.take (min n (seg.len - off))) :=
      streamStore_cons_lt _ (by rw [hlen]; omega)
    rw [hsplit, streamStore_append, hlen, hfirst]
    by_cases hk : n ≤ seg.len - off
    · simp [Nat.min_eq_left hk, streamStore]
    · rw [streamStore_cons_ge _ _ (by omega)]
      congr 1
      omega

section
variable {s : State} {before after : List (Nat × Nat)} {v : Bytes} {a n : Nat}

/-- Where the first pieces are performed, a write goes on with the others. -/
theorem State.writePieces_append (h : s.performs before .write) (hv : (before.map (·.2)).sum ≤ v.length)
    (rest : List (Nat × Nat)) : s.writePieces (before ++ rest) v =
      ({ s with mem := storePieces s.mem before v } : State).writePieces rest (v.drop (before.map (·.2)).sum) := by
  induction before generalizing s v with
  | nil => rfl
  | cons q ps ih =>
    obtain ⟨hq, hps⟩ := State.performs_cons.mp h
    rw [List.map_cons, List.sum_cons] at hv ⊢
    have hlen : (v.take q.2).length = q.2 := by
      rw [List.length_take]
      omega
    rw [List.cons_append, State.writePieces, State.memWrite, hlen, if_pos hq]
    have hrest := ih (s := { s with mem := s.mem.writeBytes q.1 (v.take q.2) }) (v := v.drop q.2) hps
      (by rw [List.length_drop]; omega)
    rw [List.drop_drop] at hrest
    exact hrest

/-- A write is refused at its first refused piece, and what it wrote before stays (R67, R263). -/
theorem State.writePieces_refused (h : s.performs before .write) (hv : (before.map (·.2)).sum + n ≤ v.length)
    (hn : s.accessOk a n .write = false) : s.writePieces (before ++ (a, n) :: after) v =
      .raised .bufferIoFailure (refusedAddr a) { s with mem := storePieces s.mem before v } := by
  have hlen : ((v.drop (before.map (·.2)).sum).take n).length = n := by
    rw [List.length_take, List.length_drop]
    omega
  have hno : ¬ ({ s with mem := storePieces s.mem before v } : State).accessOk a n .write = true :=
    Bool.eq_false_iff.mp hn
  rw [State.writePieces_append h (by omega), State.writePieces, State.memWrite, hlen, if_neg hno]

/-- `StreamWrite`, every piece performed. -/
theorem State.streamWrite_performs {m : List Segment} {off : Nat} (h : s.performs (pieces m off v.length) .write)
    (hle : off + v.length ≤ mapLen m) :
    s.streamWrite m off v = .going { s with mem := streamStore s.mem m off v } := by
  have hw := State.writePieces_append h (sum_pieces_le m off v.length) []
  rw [List.append_nil, storePieces_pieces _ le_rfl hle, List.take_length] at hw
  exact hw

end

/-- Segments every access of which is performed have every piece performed. -/
theorem State.performs_of_admits {s : State} {m : List Segment} {k : Access} (h : s.admits m k) (off n : Nat) :
    s.performs (pieces m off n) k := by
  intro q hq
  obtain ⟨h0, seg, hs, o, ha, hle⟩ := pieces_within hq
  rw [ha]
  exact h seg hs o q.2 h0 hle

end Sys2Proof.Machine
end

section
/-! PROOFS. BULK and TAIL of a command as one run over the list of its units, and the length of what a unit stores
(20_memory.md R68; 40_control.md R120). -/

namespace Sys2Proof.Machine

/-! ### The units of a command -/

/-- The units follow each other, from offset `a` to offset `b`. -/
def Abut : Nat → List (Nat × Nat) → Nat → Prop
  | a, [], b => a = b
  | a, q :: us, b => q.1 = a ∧ Abut (a + q.2) us b

theorem Abut.append {a b c : Nat} {us vs : List (Nat × Nat)} (h : Abut a us b) (k : Abut b vs c) :
    Abut a (us ++ vs) c := by
  induction us generalizing a with
  | nil => exact h ▸ k
  | cons q us ih => exact ⟨h.1, ih h.2⟩

theorem Abut.of_append {a c : Nat} {us vs : List (Nat × Nat)} (h : Abut a (us ++ vs) c) :
    ∃ b, Abut a us b ∧ Abut b vs c := by
  induction us generalizing a with
  | nil => exact ⟨a, rfl, h⟩
  | cons q us ih =>
    obtain ⟨hq, h⟩ := h
    obtain ⟨b, hb, hc⟩ := ih h
    exact ⟨b, ⟨hq, hb⟩, hc⟩

theorem Abut.le {a b : Nat} {us : List (Nat × Nat)} (h : Abut a us b) : a ≤ b := by
  induction us generalizing a with
  | nil => exact Nat.le_of_eq h
  | cons q us ih => exact (Nat.le_add_right _ _).trans (ih h.2)

theorem abut_blocks (n : Nat) : Abut 0 ((List.range n).map fun k => (16 * k, 16)) (16 * n) := by
  induction n with
  | zero => rfl
  | succ n ih =>
    rw [List.range_succ, List.map_append]
    exact ih.append ⟨rfl, rfl⟩

/-- The units cover what the command reads, where its length check passed. -/
theorem unitsOf_abut {i : Instr} {l : Latch} (h : lengthRule i l = none) : Abut 0 (unitsOf i l) (bytesRead i l) := by
  have hmod := bulkBytes_mod h
  have hle := bulkBytes_le i l
  refine Abut.append (abut_blocks _) ?_
  split
  · exact ⟨by dsimp only; omega, show _ + _ = _ by omega⟩
  · exact show _ = _ by omega

/-- A unit is a block below the bulk end, or all that remains from there. -/
theorem mem_unitsOf {i : Instr} {l : Latch} {q : Nat × Nat} (h : q ∈ unitsOf i l) :
    (q.1 + 16 ≤ bulkBytes i l.len.toNat ∧ q.2 = 16) ∨
      (q.1 = bulkBytes i l.len.toNat ∧ q.2 = bytesRead i l - bulkBytes i l.len.toNat ∧
        bulkBytes i l.len.toNat < bytesRead i l) := by
  rcases List.mem_append.mp h with h | h
  · obtain ⟨k, hk, rfl⟩ := List.mem_map.mp h
    have := List.mem_range.mp hk
    exact .inl ⟨by dsimp only; omega, rfl⟩
  · split at h
    · obtain rfl := List.mem_singleton.mp h
      exact .inr ⟨rfl, rfl, ‹_›⟩
    · cases h

theorem mem_unitsOf_le {i : Instr} {l : Latch} {q : Nat × Nat} (h : q ∈ unitsOf i l) : q.1 + q.2 ≤ bytesRead i l := by
  have := bulkBytes_le i l
  rcases mem_unitsOf h with h | h <;> omega

theorem planOf_stores_iff (i : Instr) : (planOf i).stores = true ↔ i.fields.op = 2 := by
  rw [planOf_stores, decide_eq_true_eq]
  exact ⟨fun h => BitVec.eq_of_toNat_eq h, fun h => by rw [h]; rfl⟩

/-! ### One unit -/

/-- What a performed unit leaves of the state: memory, and the working registers and transfer fields. -/
theorem Plan.runUnit_going {p : Plan} {s t : State} {inTail : Bool} {u : Nat}
    (h : p.runUnit inTail u s = .going t) :
    ∃ mem b, t = { s with mem := mem, eng := p.afterUnit s.eng inTail u b } := by
  unfold Plan.runUnit at h
  split at h
  · cases h
  · rename_i b _
    dsimp only at h
    obtain ⟨r, hr, ht⟩ := Run.andThen_eq_going.mp h
    have hmem : ∃ mem, r = { s.setWork (p.compute s.eng inTail b).2 with mem := mem } := by
      split at hr
      · obtain ⟨mem, hw, _⟩ := State.streamWrite_state (s.setWork (p.compute s.eng inTail b).2) s.eng.dstMap
          s.eng.work.pos (p.compute s.eng inTail b).1
        rw [hr] at hw
        exact ⟨mem, hw⟩
      · exact ⟨s.mem, (Run.going.inj hr).symm⟩
    obtain ⟨mem, rfl⟩ := hmem
    exact ⟨mem, b, (Run.going.inj ht).symm⟩

/-- What the units keep of an engine: its maps and its request. -/
structure Engine.Transferring (l : Latch) (sm dm : List Segment) (pos : Nat) (e : Engine) : Prop where
  latch : e.latch = l
  srcMap : e.srcMap = sm
  dstMap : e.dstMap = dm
  pos : e.work.pos = pos

theorem Engine.Transferring.afterUnit {p : Plan} (hp : p.keepsPos) {l : Latch} {sm dm : List Segment} {pos : Nat}
    {e : Engine} (h : e.Transferring l sm dm pos) (inTail : Bool) (u : Nat) (b : Bytes) :
    (p.afterUnit e inTail u b).Transferring l sm dm (pos + u) := by
  obtain ⟨hl, hs, hd, hpos⟩ := h
  refine ⟨hl, hs, hd, ?_⟩
  rw [Plan.afterUnit, Engine.advance_work, hp, hpos]

theorem Plan.runUnit_transferring {p : Plan} (hp : p.keepsPos) {l : Latch} {sm dm : List Segment} {pos : Nat}
    {s t : State} (h : s.eng.Transferring l sm dm pos) {inTail : Bool} {u : Nat}
    (ht : p.runUnit inTail u s = .going t) : t.eng.Transferring l sm dm (pos + u) := by
  obtain ⟨mem, b, rfl⟩ := Plan.runUnit_going ht
  exact h.afterUnit hp inTail u b

/-! ### The list of units -/

/-- The units of a list, in their order; one at or past the bulk end `B` is a TAIL unit. -/
def Plan.runUnits (p : Plan) (B : Nat) : List (Nat × Nat) → State → Run
  | [], s => .going s
  | q :: us, s => (p.runUnit (decide (B ≤ q.1)) q.2 s).andThen (p.runUnits B us)

theorem Plan.runUnits_append (p : Plan) (B : Nat) (us vs : List (Nat × Nat)) (s : State) :
    p.runUnits B (us ++ vs) s = (p.runUnits B us s).andThen (p.runUnits B vs) := by
  induction us generalizing s with
  | nil => rfl
  | cons q us ih =>
    rw [List.cons_append, Plan.runUnits, Plan.runUnits, Run.andThen_assoc]
    exact congrArg _ (funext ih)

theorem Plan.runUnits_singleton (p : Plan) (B : Nat) (q : Nat × Nat) (s : State) :
    p.runUnits B [q] s = p.runUnit (decide (B ≤ q.1)) q.2 s := by
  unfold Plan.runUnits
  cases p.runUnit (decide (B ≤ q.1)) q.2 s <;> rfl

theorem Plan.runUnits_transferring {p : Plan} (hp : p.keepsPos) {l : Latch} {sm dm : List Segment} {a b B : Nat}
    {us : List (Nat × Nat)} (hus : Abut a us b) {s t : State} (h : s.eng.Transferring l sm dm a)
    (ht : p.runUnits B us s = .going t) : t.eng.Transferring l sm dm b := by
  induction us generalizing a s with
  | nil => exact Run.going.inj ht ▸ (show a = b from hus) ▸ h
  | cons q us ih =>
    obtain ⟨r, hr, ht⟩ := Run.andThen_eq_going.mp ht
    exact ih hus.2 (Plan.runUnit_transferring hp h hr) ht

/-- BULK is the run of the blocks below the bulk end. -/
theorem Plan.runBlocks_eq_units (p : Plan) {B n : Nat} (h : 16 * n ≤ B) (s : State) :
    p.runBlocks n s = p.runUnits B ((List.range n).map fun k => (16 * k, 16)) s := by
  induction n with
  | zero => rfl
  | succ n ih =>
    have hb : decide (B ≤ 16 * n) = false := by simp only [decide_eq_false_iff_not]; omega
    rw [Plan.runBlocks_last, ih (by omega), List.range_succ, List.map_append, Plan.runUnits_append]
    congr 1
    funext t
    rw [List.map_singleton, Plan.runUnits_singleton, hb]

section
variable {i : Instr} {s : State}

/-- BULK and TAIL are the run of the units. -/
theorem planOf_runTransfer (hl : lengthRule i s.eng.latch = none) (h0 : s.eng.work.pos = 0) :
    ((planOf i).runBulk s).andThen (planOf i).runTail =
      (planOf i).runUnits (bulkBytes i s.eng.reqLen) (unitsOf i s.eng.latch) s := by
  have hmod : bulkBytes i s.eng.reqLen % 16 = 0 := bulkBytes_mod hl
  rw [Plan.runBulk, planOf_bulk, Plan.runBlocks_eq_units (B := bulkBytes i s.eng.reqLen) _ (by omega), unitsOf,
    Plan.runUnits_append]
  cases hb : (planOf i).runUnits (bulkBytes i s.eng.reqLen)
      ((List.range (bulkBytes i s.eng.latch.len.toNat / 16)).map fun k => (16 * k, 16)) s with
  | raised k a t => rw [Engine.reqLen] at hb ⊢; rw [hb]; rfl
  | going t =>
    obtain ⟨hlatch, _, _, hpos⟩ := Plan.runUnits_transferring (planOf_keepsPos i) (abut_blocks _)
      ⟨rfl, rfl, rfl, h0⟩ hb
    rw [Engine.reqLen] at hb hmod ⊢
    rw [hb, Run.andThen_going, Run.andThen_going, Plan.runTail, planOf_total, hlatch, hpos,
      show 16 * (bulkBytes i s.eng.latch.len.toNat / 16) = bulkBytes i s.eng.latch.len.toNat by omega]
    split
    · rw [Plan.runUnits_singleton, decide_eq_true le_rfl]
    · rfl

theorem Plan.runMap_work (p : Plan) (s : State) : (p.runMap s).state.eng.work = s.eng.work := by
  unfold Plan.runMap
  split
  · split
    · rfl
    · split
      · split <;> rfl
      · rfl
  · rfl

/-- MAP and SEED keep the request and the position. -/
theorem planOf_runMapSeed_keeps (i : Instr) (s : State) :
    (((planOf i).runMap s).andThen (planOf i).runSeed).state.eng.latch = s.eng.latch ∧
      (((planOf i).runMap s).andThen (planOf i).runSeed).state.eng.work.pos = s.eng.work.pos := by
  refine Run.andThen_holds (P := fun t => t.eng.latch = s.eng.latch ∧ t.eng.work.pos = s.eng.work.pos)
    ⟨?_, by rw [Plan.runMap_work]⟩ (fun _ => id) fun t ht => ?_
  · obtain ⟨_, _, _, _, _, _, _, hr, _⟩ := (planOf i).runMap_ran s
    rw [hr]
  · obtain ⟨hl, hp⟩ := ht
    unfold Plan.runSeed
    cases hs : (planOf i).seed (Config.hashFail t.draws) t.eng with
    | error k => cases (planOf i).draws <;> exact ⟨hl, hp⟩
    | ok w =>
      obtain ⟨hpos, _⟩ := planOf_seed hs
      cases (planOf i).draws <;> exact ⟨hl, hpos.trans hp⟩

/-- The work of a command: MAP, SEED, and the units. -/
theorem planOf_runWork_eq (hl : lengthRule i s.eng.latch = none) (h0 : s.eng.work.pos = 0) :
    (planOf i).runWork s = (((planOf i).runMap s).andThen (planOf i).runSeed).andThen
      ((planOf i).runUnits (bulkBytes i s.eng.reqLen) (unitsOf i s.eng.latch)) := by
  obtain ⟨hlatch, hpos⟩ := planOf_runMapSeed_keeps i s
  rw [Plan.runWork, Run.andThen_assoc]
  cases hr : ((planOf i).runMap s).andThen (planOf i).runSeed with
  | raised k a t => rfl
  | going t =>
    rw [hr, Run.state_going] at hlatch hpos
    rw [Run.andThen_going, Run.andThen_going, planOf_runTransfer (by rwa [hlatch]) (hpos.trans h0), Engine.reqLen,
      hlatch]
    rfl

end

/-! ### What a unit stores -/

section
variable {t : Bytes} (e : Engine)

@[simp] theorem length_slice (s : Bytes) (a b : Nat) : (slice s a b).length = min (b - a) (s.length - a) := by
  simp [slice]

theorem length_ctsEncUnit (h : 16 ≤ t.length) (h' : t.length ≤ 32) : (ctsEncUnit e t).1.length = t.length := by
  simp only [ctsEncUnit, ctsEncTail, List.length_append, length_blockBytes, length_slice]
  omega

theorem length_ctsDecUnit (h : 16 ≤ t.length) (h' : t.length ≤ 32) : (ctsDecUnit e t).1.length = t.length := by
  simp only [ctsDecUnit, ctsDecTail, List.length_append, length_blockBytes, length_slice, length_xorBytes]
  omega

theorem length_xtsEncUnit (h : 16 ≤ t.length) (h' : t.length ≤ 32) : (xtsEncUnit e t).1.length = t.length := by
  simp only [xtsEncUnit, xtsEncTail, List.length_append, length_blockBytes, length_slice]
  omega

theorem length_xtsDecUnit (h : 16 ≤ t.length) (h' : t.length ≤ 32) : (xtsDecUnit e t).1.length = t.length := by
  simp only [xtsDecUnit, xtsDecTail, List.length_append, length_blockBytes, length_slice]
  omega

theorem length_ctrTail (h : t.length ≤ 16) : (ctrTail e t).1.length = t.length := by
  simp only [ctrTail, length_xorBytes, length_slice, length_blockBytes]
  omega

theorem length_xctrUnit : (xctrUnit e t).1.length = t.length := by
  simp [xctrUnit]

end

theorem of_check_eq_none {P : Prop} [Decidable P] {k : ErrorKind} (h : (if P then none else some k) = none) : P := by
  by_contra hP
  rw [if_neg hP] at h
  cases h

/-- A TAIL unit under CTS is a block and a rest of at most a block (43_cts.md R170). -/
theorem ctsTail_bounds {L u : Nat} (h : 16 ≤ L) (hu : u = L - ctsBulkEnd L) (hlt : ctsBulkEnd L < L) :
    16 ≤ u ∧ u ≤ 32 := by
  unfold ctsBulkEnd at hu hlt
  by_cases h16 : L = 16
  · rw [if_pos h16] at hlt
    omega
  · rw [if_neg h16] at hu hlt
    omega

/-- A TAIL unit under XTS is a block and a rest of less than a block (45_xts.md R213). -/
theorem xtsTail_bounds {L u : Nat} (h : 16 ≤ L) (hu : u = L - if L % 16 = 0 then L else 16 * (L / 16 - 1))
    (hlt : (if L % 16 = 0 then L else 16 * (L / 16 - 1)) < L) : 16 ≤ u ∧ u ≤ 32 := by
  by_cases h0 : L % 16 = 0
  · rw [if_pos h0] at hlt
    omega
  · rw [if_neg h0] at hu hlt
    omega

/-- A CRYPT stores as many bytes of a unit as it reads. -/
theorem planOf_compute_length {i : Instr} {l : Latch} (hi : i.fields.op = 2) (hl : lengthRule i l = none)
    {q : Nat × Nat} (hq : q ∈ unitsOf i l) (e : Engine) {b : Bytes} (hb : b.length = q.2) :
    ((planOf i).compute e (decide (bulkBytes i l.len.toNat ≤ q.1)) b).1.length = q.2 := by
  rcases mem_unitsOf hq with ⟨hlt, h16⟩ | ⟨heq, hu, hlt⟩
  · rw [decide_eq_false (by omega), h16]
    exact length_blockBytes _
  · rw [decide_eq_true heq.ge, Plan.compute, if_pos rfl, ← hb]
    cases i
    case cryptEcbEnc | cryptEcbDec | cryptCbcEnc | cryptCbcDec | cryptEssivEnc | cryptEssivDec => rfl
    case cryptCtsEnc =>
      obtain ⟨h1, h2⟩ := ctsTail_bounds (of_check_eq_none hl) hu hlt
      exact length_ctsEncUnit e (hb ▸ h1) (hb ▸ h2)
    case cryptCtsDec =>
      obtain ⟨h1, h2⟩ := ctsTail_bounds (of_check_eq_none hl) hu hlt
      exact length_ctsDecUnit e (hb ▸ h1) (hb ▸ h2)
    case cryptXtsEnc =>
      obtain ⟨h1, h2⟩ := xtsTail_bounds (of_check_eq_none hl) hu hlt
      exact length_xtsEncUnit e (hb ▸ h1) (hb ▸ h2)
    case cryptXtsDec =>
      obtain ⟨h1, h2⟩ := xtsTail_bounds (of_check_eq_none hl) hu hlt
      exact length_xtsDecUnit e (hb ▸ h1) (hb ▸ h2)
    case cryptCtrEnc | cryptCtrDec =>
      have h16 : q.2 = l.len.toNat - 16 * (l.len.toNat / 16) := hu
      exact length_ctrTail e (by omega)
    case cryptXctrEnc | cryptXctrDec => exact length_xctrUnit e
    all_goals cases hi

end Sys2Proof.Machine
end

section
/-! PROOFS. What a refused access of BULK or TAIL leaves (20_memory.md R66, R67; 60_exceptions.md R263, R265; O31). -/

namespace Sys2Proof.Machine

/-! ### The platform that refuses nothing -/

/-- What the platform performs is performed where nothing is refused. -/
theorem State.accessOk_noRefusals {s : State} {a n : Nat} {k : Access} (h : s.accessOk a n k = true) :
    s.noRefusals.accessOk a n k = true := by
  simpa [State.accessOk, State.memOk, State.noRefusals] using State.accessOk_le h

theorem State.performs_noRefusals {s : State} {ps : List (Nat × Nat)} {k : Access} (h : s.performs ps k) :
    s.noRefusals.performs ps k :=
  fun q hq => State.accessOk_noRefusals (h q hq)

theorem State.memRead_noRefusals {s : State} {a n : Nat} {b : Bytes} (h : s.memRead a n = .ok b) :
    s.noRefusals.memRead a n = .ok b := by
  obtain ⟨hok, rfl⟩ := State.memRead_ok h
  rw [State.memRead_eq, if_pos (State.accessOk_noRefusals hok)]
  rfl

theorem State.descriptorStep_noRefusals {s : State} {base n k : Nat} {map m : List Segment}
    (h : s.descriptorStep base n k map = .ok m) : s.noRefusals.descriptorStep base n k map = .ok m := by
  unfold State.descriptorStep at h ⊢
  cases hr : s.memRead (base + 16 * k) 16 with
  | error a =>
    rw [hr] at h
    cases h
  | ok d =>
    rw [hr] at h
    rw [State.memRead_noRefusals hr]
    exact h

theorem State.walkList_noRefusals {s : State} {base n fuel k : Nat} {map m : List Segment}
    (h : s.walkList base n fuel k map = .ok m) : s.noRefusals.walkList base n fuel k map = .ok m := by
  induction fuel generalizing k map with
  | zero => cases h
  | succ fuel ih =>
    unfold State.walkList at h ⊢
    cases hd : s.descriptorStep base n k map with
    | error a =>
      rw [hd] at h
      cases h
    | ok map' =>
      rw [hd] at h
      rw [State.descriptorStep_noRefusals hd]
      dsimp only at h ⊢
      split at h
      · rwa [if_pos ‹_›]
      · rw [if_neg ‹_›]
        exact ih h

/-- A map that is built is built there too. -/
theorem State.buildMap_noRefusals {s : State} {sg : Bool} {a : Addr} {n : Nat} {m : List Segment}
    (h : s.buildMap sg a n = .ok m) : s.noRefusals.buildMap sg a n = .ok m := by
  unfold State.buildMap at h ⊢
  split at h
  · rwa [if_pos ‹_›]
  · rw [if_neg ‹_›]
    split at h
    · rw [if_pos ‹_›]
      split at h
      · cases h
      · rw [if_neg ‹_›]
        exact State.walkList_noRefusals h
    · rwa [if_neg ‹_›]

/-! ### One unit -/

section
variable {p : Plan} {s : State} {inTail : Bool} {u : Nat}

/-- The bytes a unit stores. -/
def Plan.unitBytes (p : Plan) (inTail : Bool) (u : Nat) (s : State) : Bytes :=
  (p.compute s.eng inTail (streamBytes s.mem s.eng.srcMap s.eng.work.pos u)).1

/-- The state after a unit every access of which is performed. -/
def Plan.unitDone (p : Plan) (inTail : Bool) (u : Nat) (s : State) : State :=
  { s with
    mem := if p.stores then streamStore s.mem s.eng.dstMap s.eng.work.pos (p.unitBytes inTail u s) else s.mem
    eng := p.afterUnit s.eng inTail u (streamBytes s.mem s.eng.srcMap s.eng.work.pos u) }

/-- The state in which a unit has been computed. -/
def Plan.unitComputed (p : Plan) (inTail : Bool) (u : Nat) (s : State) : State :=
  s.setWork (p.compute s.eng inTail (streamBytes s.mem s.eng.srcMap s.eng.work.pos u)).2

section
variable (hr : s.performs (pieces s.eng.srcMap s.eng.work.pos u) .read)
  (hsl : s.eng.work.pos + u ≤ mapLen s.eng.srcMap)
include hr hsl

/-- A unit whose reads are performed goes on to its writes. -/
theorem Plan.runUnit_read : p.runUnit inTail u s =
    (if p.stores then (p.unitComputed inTail u s).streamWrite s.eng.dstMap s.eng.work.pos (p.unitBytes inTail u s)
      else .going (p.unitComputed inTail u s)).andThen fun t => .going (t.setEng (t.eng.advance u)) := by
  rw [Plan.runUnit, State.streamRead_performs hr hsl]
  rfl

theorem Plan.runUnit_performs (hw : p.stores = true → s.performs (pieces s.eng.dstMap s.eng.work.pos u) .write ∧
      s.eng.work.pos + u ≤ mapLen s.eng.dstMap ∧ (p.unitBytes inTail u s).length = u) :
    p.runUnit inTail u s = .going (p.unitDone inTail u s) := by
  rw [Plan.runUnit_read hr hsl]
  unfold Plan.unitDone
  cases hst : p.stores with
  | false => rfl
  | true =>
    obtain ⟨hperf, hdl, hlen⟩ := hw hst
    rw [if_pos rfl, if_pos rfl, State.streamWrite_performs (s := p.unitComputed inTail u s) (by rw [hlen]; exact hperf)
      (by rw [hlen]; exact hdl)]
    rfl

/-- Where a write piece is refused, the pieces before it stay written (R67, R263). -/
theorem Plan.runUnit_write_refused {before after : List (Nat × Nat)} {a n : Nat} (hst : p.stores = true)
    (hlen : (p.unitBytes inTail u s).length = u)
    (hps : pieces s.eng.dstMap s.eng.work.pos u = before ++ (a, n) :: after) (hb : s.performs before .write)
    (hn : s.accessOk a n .write = false) : p.runUnit inTail u s = .raised .bufferIoFailure (refusedAddr a)
      { p.unitComputed inTail u s with mem := storePieces s.mem before (p.unitBytes inTail u s) } := by
  have hsum := sum_pieces_le s.eng.dstMap s.eng.work.pos u
  rw [hps, List.map_append, List.sum_append, List.map_cons, List.sum_cons] at hsum
  dsimp only at hsum
  rw [Plan.runUnit_read hr hsl, if_pos hst, State.streamWrite, hlen, hps,
    State.writePieces_refused (s := p.unitComputed inTail u s) hb (by omega) hn]
  rfl

/-- Whatever becomes of the other write pieces of a unit, they leave the addresses that are not theirs. -/
theorem Plan.runUnit_write_frame {before rest : List (Nat × Nat)} {x : Nat} (hst : p.stores = true)
    (hlen : (p.unitBytes inTail u s).length = u)
    (hps : pieces s.eng.dstMap s.eng.work.pos u = before ++ rest) (hb : s.performs before .write)
    (hx : ∀ a k, (a, k) ∈ rest → ¬ (a ≤ x ∧ x < a + k)) :
    (p.runUnit inTail u s).state.mem.read x = (storePieces s.mem before (p.unitBytes inTail u s)).read x := by
  have hsum := sum_pieces_le s.eng.dstMap s.eng.work.pos u
  rw [hps, List.map_append, List.sum_append] at hsum
  rw [Plan.runUnit_read hr hsl, if_pos hst, State.streamWrite, hlen, hps,
    State.writePieces_append (s := p.unitComputed inTail u s) hb (by omega)]
  exact Run.andThen_holds (P := fun t => t.mem.read x = (storePieces s.mem before (p.unitBytes inTail u s)).read x)
    (State.writePieces_other _ _ _ _ hx) (fun _ => id) fun _ => id

end

/-- Where a read piece is refused, nothing of the unit is written (R66, R263). -/
theorem Plan.runUnit_read_refused {before after : List (Nat × Nat)} {a n : Nat}
    (hps : pieces s.eng.srcMap s.eng.work.pos u = before ++ (a, n) :: after) (hb : s.performs before .read)
    (hn : s.accessOk a n .read = false) : p.runUnit inTail u s = .raised .bufferIoFailure (refusedAddr a) s := by
  rw [Plan.runUnit, State.streamRead, hps, State.readPieces_refused hb hn]

/-- A unit, performed or not, leaves every address that is no destination address from its position on. -/
theorem Plan.runUnit_frame {x : Nat}
    (hx : ∀ j, s.eng.work.pos ≤ j → j < mapLen s.eng.dstMap → mapAddr s.eng.dstMap j ≠ x) :
    (p.runUnit inTail u s).state.mem.read x = s.mem.read x := by
  unfold Plan.runUnit
  split
  · rfl
  · refine Run.andThen_holds (P := fun t => t.mem.read x = s.mem.read x) ?_ (fun _ => id) fun _ => id
    split
    · exact State.streamWrite_other (s.setWork _) _ _ _ _ fun j hj _ => hx j hj
    · rfl

end

/-- So do the units of a list. -/
theorem Plan.runUnits_frame {p : Plan} (hp : p.keepsPos) {l : Latch} {sm dm : List Segment} {a b B : Nat}
    {us : List (Nat × Nat)} (hus : Abut a us b) {s : State} (hs : s.eng.Transferring l sm dm a) {x : Nat}
    (hx : ∀ j, a ≤ j → j < mapLen dm → mapAddr dm j ≠ x) : (p.runUnits B us s).state.mem.read x = s.mem.read x := by
  induction us generalizing a s with
  | nil => rfl
  | cons q us ih =>
    have hunit : (p.runUnit (decide (B ≤ q.1)) q.2 s).state.mem.read x = s.mem.read x :=
      Plan.runUnit_frame (by rw [hs.pos, hs.dstMap]; exact hx)
    unfold Plan.runUnits
    cases hr : p.runUnit (decide (B ≤ q.1)) q.2 s with
    | raised k e t => rwa [hr] at hunit
    | going t =>
      rw [hr] at hunit
      exact (ih hus.2 (Plan.runUnit_transferring hp hs hr) fun j hj => hx j (by omega)).trans hunit

/-! ### The units of a command -/

/-- The maps of a command that passed its length check cover what it reads and stores; a command that stores nothing
has no destination map. -/
structure Covers (i : Instr) (l : Latch) (sm dm : List Segment) : Prop where
  length : lengthRule i l = none
  source : mapLen sm = bytesRead i l
  destination : i.fields.op = 2 → mapLen dm = bytesRead i l
  none : i.fields.op ≠ 2 → dm = []

section
variable {i : Instr} {l : Latch} {sm dm : List Segment} (hc : Covers i l sm dm)
include hc

/-- A CRYPT has as many bytes to store of a unit as the unit has. -/
theorem Covers.length_unitBytes (hi : i.fields.op = 2) {q : Nat × Nat} (hq : q ∈ unitsOf i l) (s : State) :
    ((planOf i).unitBytes (decide (bulkBytes i l.len.toNat ≤ q.1)) q.2 s).length = q.2 :=
  planOf_compute_length hi hc.length hq _ (length_streamBytes _ _ _ _)

/-- A unit of a command, every access performed. -/
theorem Covers.runUnit_performs {s : State} {q : Nat × Nat} (hq : q ∈ unitsOf i l)
    (hs : s.eng.Transferring l sm dm q.1) (hr : s.performs (pieces sm q.1 q.2) .read)
    (hw : s.performs (pieces dm q.1 q.2) .write) :
    (planOf i).runUnit (decide (bulkBytes i l.len.toNat ≤ q.1)) q.2 s =
      .going ((planOf i).unitDone (decide (bulkBytes i l.len.toNat ≤ q.1)) q.2 s) := by
  have hle := mem_unitsOf_le hq
  refine Plan.runUnit_performs ?_ ?_ fun hst => ?_
  · rwa [hs.srcMap, hs.pos]
  · rwa [hs.srcMap, hs.pos, hc.source]
  · have hi := (planOf_stores_iff i).mp hst
    refine ⟨?_, ?_, hc.length_unitBytes hi hq s⟩
    · rwa [hs.dstMap, hs.pos]
    · rwa [hs.dstMap, hs.pos, hc.destination hi]

/-- It writes at its destination addresses only. -/
theorem Covers.unitDone_frame {s : State} {q : Nat × Nat} (hq : q ∈ unitsOf i l)
    (hs : s.eng.Transferring l sm dm q.1) {x : Nat}
    (hx : ∀ j, j < q.1 + q.2 → j < mapLen dm → mapAddr dm j ≠ x) :
    ((planOf i).unitDone (decide (bulkBytes i l.len.toNat ≤ q.1)) q.2 s).mem.read x = s.mem.read x := by
  have hle := mem_unitsOf_le hq
  unfold Plan.unitDone
  dsimp only
  split
  · rename_i hst
    have hi := (planOf_stores_iff i).mp hst
    have hlen := hc.length_unitBytes hi hq s
    have hdl := hc.destination hi
    rw [hs.dstMap, hs.pos]
    exact read_streamStore_other fun j hj => hx _ (by omega) (by omega)
  · rfl

/-- Performed units leave the same memory on a platform that refuses nothing, and write at their destination addresses
only. -/
theorem Covers.runUnits_performs {us : List (Nat × Nat)} {a b : Nat} (hus : Abut a us b)
    (hmem : ∀ q ∈ us, q ∈ unitsOf i l) {s : State} (hs : s.eng.Transferring l sm dm a)
    (hp : ∀ q ∈ us, s.performs (pieces sm q.1 q.2) .read ∧ s.performs (pieces dm q.1 q.2) .write) :
    ∃ t, (planOf i).runUnits (bulkBytes i l.len.toNat) us s = .going t ∧
      (planOf i).runUnits (bulkBytes i l.len.toNat) us s.noRefusals = .going t.noRefusals ∧
      t.eng.Transferring l sm dm b ∧ t.platform = s.platform ∧
      ∀ x, (∀ j, j < b → j < mapLen dm → mapAddr dm j ≠ x) → t.mem.read x = s.mem.read x := by
  induction us generalizing a s with
  | nil => exact ⟨s, rfl, rfl, (show a = b from hus) ▸ hs, rfl, fun _ _ => rfl⟩
  | cons q us ih =>
    obtain ⟨rfl, hus⟩ := hus
    obtain ⟨hr, hw⟩ := hp q List.mem_cons_self
    have hq := hmem q List.mem_cons_self
    have hle := hus.le
    have hunit := hc.runUnit_performs hq hs hr hw
    have hfree := hc.runUnit_performs (s := s.noRefusals) hq ⟨hs.latch, hs.srcMap, hs.dstMap, hs.pos⟩
      (State.performs_noRefusals hr) (State.performs_noRefusals hw)
    obtain ⟨t, ht, htfree, hts, hplat, hframe⟩ := ih hus (fun q' hq' => hmem q' (List.mem_cons_of_mem _ hq'))
      (Plan.runUnit_transferring (planOf_keepsPos i) hs hunit) fun q' hq' => hp q' (List.mem_cons_of_mem _ hq')
    refine ⟨t, ?_, ?_, hts, hplat, fun x hx => ?_⟩
    · rw [Plan.runUnits, hunit]
      exact ht
    · rw [Plan.runUnits, hfree]
      exact htfree
    · rw [hframe x hx]
      exact hc.unitDone_frame hq hs fun j hj => hx j (by omega)

end

/-! ### MAP and SEED -/

section
variable {i : Instr} (hop : i.fields.op.toNat ∈ [2, 4, 5])
include hop

/-- SEED of a command that moves data raises no error. -/
theorem planOf_seed_ok (e : Engine) : ∃ w, ∀ b, (planOf i).seed b e = .ok w := by
  cases i
  case nop | setkeyEcb | setkeyCbc | setkeyCts | setkeyEssiv | setkeyCtr | setkeyXctr | setkeyXts | setkeyCbcmac
    | setkeyCmac | setkeyXcbc | macInitCbcmac | macInitCmac | macInitXcbc => exact absurd hop (by decide)
  all_goals exact ⟨_, fun _ => rfl⟩

theorem planOf_draws_data : (planOf i).draws = false := by
  obtain ⟨_, _, _, hd⟩ := planOf_shape i
  rw [hd, decide_eq_false_iff_not]
  rintro rfl
  exact absurd hop (by decide)

/-- MAP and SEED of a command whose maps are built. -/
theorem planOf_runMapSeed {s : State} {sm dm : List Segment} {w : Work} (hacc : s.eng.accepted = true)
    (hsm : s.buildMap i.fields.sg s.eng.latch.src (bytesRead i s.eng.latch) = .ok sm)
    (hdm : if i.fields.op = 2 then s.buildMap i.fields.sg s.eng.latch.dst (bytesRead i s.eng.latch) = .ok dm
      else dm = [])
    (hw : ∀ b, (planOf i).seed b { s.eng with srcMap := sm, dstMap := dm } = .ok w) :
    ((planOf i).runMap s).andThen (planOf i).runSeed = .going (s.setEng (s.eng.seeded sm dm w)) := by
  have hmap : (planOf i).runMap s = .going (s.setEng { s.eng with srcMap := sm, dstMap := dm }) := by
    rw [Plan.runMap, planOf_moves, decide_eq_true hop, if_pos rfl, planOf_total, planOf_sg, hsm]
    dsimp only
    by_cases hi : i.fields.op = 2
    · rw [if_pos hi] at hdm
      rw [if_pos ((planOf_stores_iff i).mpr hi), hdm]
    · rw [if_neg hi] at hdm
      obtain ⟨_, _, _, hdst, _⟩ := s.eng.accepted_iff.mp hacc
      rw [if_neg (mt (planOf_stores_iff i).mp hi), hdm, ← hdst]
  rw [hmap, Run.andThen_going, Plan.runSeed, planOf_draws_data hop]
  simp only [Bool.false_eq_true, if_false, State.setEng_eng, hw]
  rfl

/-- The work of a command whose maps are built, on its platform and on one that refuses nothing. -/
theorem planOf_runWork_maps {s : State} {sm dm : List Segment} (hacc : s.eng.accepted = true)
    (hl : lengthRule i s.eng.latch = none)
    (hsm : s.buildMap i.fields.sg s.eng.latch.src (bytesRead i s.eng.latch) = .ok sm)
    (hdm : if i.fields.op = 2 then s.buildMap i.fields.sg s.eng.latch.dst (bytesRead i s.eng.latch) = .ok dm
      else dm = []) :
    ∃ w, (planOf i).runWork s = (planOf i).runUnits (bulkBytes i s.eng.reqLen) (unitsOf i s.eng.latch)
        (s.setEng (s.eng.seeded sm dm w)) ∧
      (planOf i).runWork s.noRefusals = (planOf i).runUnits (bulkBytes i s.eng.reqLen) (unitsOf i s.eng.latch)
        (s.setEng (s.eng.seeded sm dm w)).noRefusals ∧
      (s.eng.seeded sm dm w).Transferring s.eng.latch sm dm 0 := by
  obtain ⟨_, h0⟩ := Engine.accepted_between hacc
  obtain ⟨w, hw⟩ := planOf_seed_ok hop { s.eng with srcMap := sm, dstMap := dm }
  obtain ⟨hpos, _⟩ := planOf_seed (hw false)
  have hdm' : if i.fields.op = 2 then
      s.noRefusals.buildMap i.fields.sg s.eng.latch.dst (bytesRead i s.eng.latch) = .ok dm else dm = [] := by
    split
    · rw [if_pos ‹_›] at hdm
      exact State.buildMap_noRefusals hdm
    · rwa [if_neg ‹_›] at hdm
  refine ⟨w, ?_, ?_, rfl, rfl, rfl, hpos.trans h0⟩
  · rw [planOf_runWork_eq hl h0, planOf_runMapSeed hop hacc hsm hdm hw]
    rfl
  · rw [planOf_runWork_eq (s := s.noRefusals) hl h0,
      planOf_runMapSeed hop (s := s.noRefusals) hacc (State.buildMap_noRefusals hsm) hdm' hw]
    rfl

end

/-! ### The refused access -/

/-- What a command whose checks pass leaves in memory is what its work leaves there. -/
theorem runCommand_mem {p : Plan} {s : State} (hc : p.checkError s.eng = none) :
    (runCommand p s).mem = (p.runWork s).state.mem := by
  unfold runCommand
  rw [hc]
  cases p.runWork s <;> rfl

section
variable {i : Instr} {l : Latch} {sm dm : List Segment} (hc : Covers i l sm dm) {pos u b : Nat}
  {later : List (Nat × Nat)} (hq : (pos, u) ∈ unitsOf i l) (hlater : Abut (pos + u) later b) {s : State}
  (hs : s.eng.Transferring l sm dm pos)
  (hinj : ∀ j k, j < mapLen dm → k < mapLen dm → mapAddr dm j = mapAddr dm k → j = k)
  {before after : List (Nat × Nat)} {a n : Nat}
include hc hq hlater hs hinj

/-- Where a read piece of a unit is refused, what was written before the unit is what the other platform leaves
there. -/
theorem Covers.read_refused (hps : pieces sm pos u = before ++ (a, n) :: after) (hb : s.performs before .read)
    (hn : s.accessOk a n .read = false) :
    (planOf i).runUnits (bulkBytes i l.len.toNat) ((pos, u) :: later) s =
        .raised .bufferIoFailure (refusedAddr a) s ∧
      ∀ j, i.fields.op = 2 → j < pos →
        ((planOf i).runUnits (bulkBytes i l.len.toNat) ((pos, u) :: later) s.noRefusals).state.mem.read (mapAddr dm j) =
          s.mem.read (mapAddr dm j) := by
  refine ⟨?_, fun j hi hj => ?_⟩
  · rw [Plan.runUnits, Plan.runUnit_read_refused (by rw [hs.srcMap, hs.pos]; exact hps) hb hn]
    rfl
  · have hle := mem_unitsOf_le hq
    have hdl := hc.destination hi
    refine Plan.runUnits_frame (s := s.noRefusals) (planOf_keepsPos i) (us := (pos, u) :: later) ⟨rfl, hlater⟩
      ⟨hs.latch, hs.srcMap, hs.dstMap, hs.pos⟩ fun k hk hk' he => ?_
    have := hinj k j hk' (by omega) he
    omega

/-- Where a write piece of a unit is refused, what was written before it is what the other platform leaves there, and
nothing else changed. -/
theorem Covers.write_refused (hi : i.fields.op = 2) (hps : pieces dm pos u = before ++ (a, n) :: after)
    (hr : s.performs (pieces sm pos u) .read) (hb : s.performs before .write) (hn : s.accessOk a n .write = false) :
    ∃ t, (planOf i).runUnits (bulkBytes i l.len.toNat) ((pos, u) :: later) s =
        .raised .bufferIoFailure (refusedAddr a) t ∧
      (∀ j, j < pos + (before.map (·.2)).sum →
        ((planOf i).runUnits (bulkBytes i l.len.toNat) ((pos, u) :: later) s.noRefusals).state.mem.read (mapAddr dm j) =
          t.mem.read (mapAddr dm j)) ∧
      ∀ x, (∀ j, j < pos + (before.map (·.2)).sum → mapAddr dm j ≠ x) → t.mem.read x = s.mem.read x := by
  have hst := (planOf_stores_iff i).mpr hi
  have hle : pos + u ≤ bytesRead i l := mem_unitsOf_le hq
  have hdl := hc.destination hi
  have hlen := hc.length_unitBytes hi hq s
  have hsum := sum_pieces_le dm pos u
  rw [hps, List.map_append, List.sum_append] at hsum
  obtain ⟨hbefore, hrest⟩ := pieces_eq_append hps
  have hread : s.performs (pieces s.eng.srcMap s.eng.work.pos u) .read := by rwa [hs.srcMap, hs.pos]
  have hsl : s.eng.work.pos + u ≤ mapLen s.eng.srcMap := by rwa [hs.srcMap, hs.pos, hc.source]
  have hdst : pieces s.eng.dstMap s.eng.work.pos u = before ++ (a, n) :: after := by rwa [hs.dstMap, hs.pos]
  refine ⟨_, by rw [Plan.runUnits, Plan.runUnit_write_refused hread hsl hst hlen hdst hb hn]; rfl,
    fun j hj => ?_, fun x hx => ?_⟩
  · have hfirst := Plan.runUnit_write_frame (s := s.noRefusals) (x := mapAddr dm j) (State.performs_noRefusals hread)
      hsl hst hlen hdst (State.performs_noRefusals hb) fun a' k' hm ⟨h1, h2⟩ => by
        rw [hrest] at hm
        obtain ⟨k, hk, _, hk', he⟩ := pieces_mem hm _ h1 h2
        have := hinj k j hk' (by omega) he
        omega
    unfold Plan.runUnits
    cases hu : (planOf i).runUnit (decide (bulkBytes i l.len.toNat ≤ pos)) u s.noRefusals with
    | raised k e t => rwa [hu] at hfirst
    | going t =>
      rw [hu] at hfirst
      have hts : t.eng.Transferring l sm dm (pos + u) := Plan.runUnit_transferring (planOf_keepsPos i)
        (s := s.noRefusals) ⟨hs.latch, hs.srcMap, hs.dstMap, hs.pos⟩ hu
      refine (Plan.runUnits_frame (planOf_keepsPos i) hlater hts fun k hk hk' he => ?_).trans hfirst
      have := hinj k j hk' (by omega) he
      omega
  · dsimp only
    rw [hbefore, storePieces_pieces _ (by rw [hlen]; omega) (by omega)]
    refine read_streamStore_other fun j hj => hx _ ?_
    rw [List.length_take] at hj
    omega

end

/-! ### CRYPT.ECB.ENC -/

/-- The first `n` BULK units of a command that stores, their accesses performed, no destination address used twice, and
a destination address that is a source address being the one of the same offset. -/
theorem Plan.runBlocks_performs {p : Plan} {s : State} {n N : Nat} (hst : p.stores = true)
    (hp : ∀ e b, (p.block e b).2.pos = e.work.pos) (h0 : s.eng.work.pos = 0) (hb : s.eng.betweenUnits)
    (hr : ∀ q, q < n → s.performs (pieces s.eng.srcMap (16 * q) 16) .read)
    (hw : ∀ q, q < n → s.performs (pieces s.eng.dstMap (16 * q) 16) .write)
    (hsl : mapLen s.eng.srcMap = N) (hdl : mapLen s.eng.dstMap = N)
    (hinj : ∀ i j, i < N → j < N → mapAddr s.eng.dstMap i = mapAddr s.eng.dstMap j → i = j)
    (hsd : ∀ i j, i < N → j < N → mapAddr s.eng.srcMap i = mapAddr s.eng.dstMap j → i = j)
    (hn : 16 * n ≤ N) :
    ∃ mem, p.runBlocks n s =
        .going (s.withWork mem (p.workAt s.eng (streamBlock s.mem s.eng.srcMap) n)) ∧
      StoredBlocks s.mem mem s.eng.dstMap n (p.outAt s.eng (streamBlock s.mem s.eng.srcMap)) := by
  induction n with
  | zero => exact ⟨s.mem, rfl, ⟨by omega, fun _ _ => rfl⟩⟩
  | succ n ih =>
    obtain ⟨mem, hrun, hstored⟩ := ih (fun q hq => hr q (by omega)) (fun q hq => hw q (by omega)) (by omega)
    set W := p.workAt s.eng (streamBlock s.mem s.eng.srcMap) n with hW
    have hpos : W.pos = 16 * n := by rw [hW, Plan.workAt_pos hp, h0, Nat.zero_add]
    have hbytes : streamBytes mem s.eng.srcMap (16 * n) 16 = streamBytes s.mem s.eng.srcMap (16 * n) 16 :=
      hstored.source hsd (by omega)
    have hunit := Plan.runUnit_performs (p := p) (s := s.withWork mem W) (inTail := false) (u := 16)
      (by rw [State.withWork_eng]; dsimp only; rw [hpos]; exact hr n (by omega))
      (by rw [State.withWork_eng]; dsimp only; omega)
      fun _ => ⟨by rw [State.withWork_eng]; dsimp only; rw [hpos]; exact hw n (by omega),
        by rw [State.withWork_eng]; dsimp only; omega, length_blockBytes _⟩
    refine ⟨_, ?_, hstored.succ hinj hn⟩
    have hcomp : p.compute { s.eng with work := W } false (streamBytes s.mem s.eng.srcMap (16 * n) 16) =
        (blockBytes (p.outAt s.eng (streamBlock s.mem s.eng.srcMap) n),
          (p.block { s.eng with work := W } (streamBlock s.mem s.eng.srcMap n)).2) := rfl
    rw [Plan.runBlocks_last, hrun, Run.andThen_going, hunit, Plan.unitDone, Plan.unitBytes, if_pos hst]
    simp only [State.withWork_eng, State.withWork_mem, hpos, hbytes, Plan.afterUnit_eq hb hcomp (hp _ _), hcomp,
      Plan.workAt_succ, hp, ← hW]
    rfl

/-- The units of a CRYPT.ECB are its blocks; this is the list of them around block `k`. -/
theorem unitsOf_ecb (sg : Bool) {l : Latch} {k : Nat} (hk : k < l.len.toNat / 16) :
    ∃ later, unitsOf (.cryptEcbEnc sg) l = (List.range k).map (fun j => (16 * j, 16)) ++ (16 * k, 16) :: later := by
  have hbulk : bulkBytes (.cryptEcbEnc sg) l.len.toNat = l.len.toNat := rfl
  have hread : bytesRead (.cryptEcbEnc sg) l = l.len.toNat := rfl
  obtain ⟨c, hc⟩ : ∃ c, l.len.toNat / 16 = k + (c + 1) := ⟨l.len.toNat / 16 - k - 1, by omega⟩
  rw [unitsOf, hbulk, hread, if_neg (lt_irrefl _), List.append_nil, hc, List.range_add, List.map_append,
    List.range_succ_eq_map]
  exact ⟨_, rfl⟩

/-- A CRYPT.ECB.ENC whose write of block `k` is refused at its first piece leaves the blocks before it enciphered. -/
theorem ecbEnc_write_refused {sg : Bool} {s : State} {sm dm : List Segment} {k a n : Nat} {rest : List (Nat × Nat)}
    (hacc : s.eng.accepted = true) (hkey : s.eng.keyFor .plain) (hmod : s.eng.reqLen % 16 = 0)
    (hk : k < s.eng.reqLen / 16) (hsm : s.buildMap sg s.eng.latch.src s.eng.reqLen = .ok sm)
    (hdm : s.buildMap sg s.eng.latch.dst s.eng.reqLen = .ok dm) (hadm : s.admits sm .read)
    (hinj : ∀ i j, i < s.eng.reqLen → j < s.eng.reqLen → mapAddr dm i = mapAddr dm j → i = j)
    (hsd : ∀ i j, i < s.eng.reqLen → j < s.eng.reqLen → mapAddr sm i = mapAddr dm j → i = j)
    (hw : ∀ q, q < k → s.performs (pieces dm (16 * q) 16) .write)
    (hps : pieces dm (16 * k) 16 = (a, n) :: rest) (hn : s.accessOk a n .write = false) :
    ∃ t, exec (.cryptEcbEnc sg) s = .next t ∧ t.eng.failedWith .bufferIoFailure (refusedAddr a) ∧
      StoredBlocks s.mem t.mem dm k (fun i => aesE s.eng.slot.data (streamBlock s.mem sm i)) := by
  have hcheck := planOf_checkError_none (i := .cryptEcbEnc sg) (e := s.eng)
    ⟨fun _ => hkey, fun h => absurd h (show ¬ 2 ∈ [4, 5] by decide)⟩ (if_pos hmod)
  obtain ⟨w, hwork, _, hlatch, hsrc, hdst, hpos⟩ :=
    planOf_runWork_maps (i := .cryptEcbEnc sg) (show 2 ∈ [2, 4, 5] by decide) hacc (if_pos hmod) hsm hdm
  obtain ⟨later, hunits⟩ := unitsOf_ecb sg hk
  obtain ⟨hbetween, _⟩ := Engine.accepted_between hacc
  have hsl := State.buildMap_mapLen hsm
  have hdl := State.buildMap_mapLen hdm
  obtain ⟨mem, hblocks, hstored⟩ := Plan.runBlocks_performs (p := planOf (.cryptEcbEnc sg))
    (s := s.setEng (s.eng.seeded sm dm w)) (n := k) rfl (fun _ _ => rfl) hpos hbetween
    (fun q _ => State.performs_of_admits (s := s) hadm _ _) hw hsl hdl hinj hsd (by omega)
  set W := (planOf (.cryptEcbEnc sg)).workAt (s.setEng (s.eng.seeded sm dm w)).eng
    (streamBlock (s.setEng (s.eng.seeded sm dm w)).mem (s.setEng (s.eng.seeded sm dm w)).eng.srcMap) k with hW
  have hWpos : W.pos = 16 * k := by
    rw [hW, Plan.workAt_pos fun _ _ => rfl]
    exact (congrArg (· + 16 * k) hpos).trans (Nat.zero_add _)
  have hB : decide (bulkBytes (.cryptEcbEnc sg) s.eng.reqLen ≤ 16 * k) = false :=
    decide_eq_false (show ¬ s.eng.reqLen ≤ 16 * k by omega)
  have hrefused := Plan.runUnit_write_refused (p := planOf (.cryptEcbEnc sg))
    (s := (s.setEng (s.eng.seeded sm dm w)).withWork mem W) (inTail := false) (u := 16) (before := []) (after := rest)
    (State.performs_of_admits (s := s) hadm _ _) (show W.pos + 16 ≤ mapLen sm by omega) rfl (length_blockBytes _)
    (show pieces dm W.pos 16 = _ by rw [hWpos]; exact hps) (by simp [State.performs]) hn
  rw [hunits, Plan.runUnits_append, ← Plan.runBlocks_eq_units (B := bulkBytes (.cryptEcbEnc sg) s.eng.reqLen) _
    (show 16 * k ≤ s.eng.reqLen by omega), hblocks, Run.andThen_going, Plan.runUnits, hB, hrefused] at hwork
  obtain ⟨hfail, hmem⟩ := runCommand_raised hcheck hwork
  exact ⟨_, exec_eq _ s, hfail, by rw [hmem]; exact hstored⟩

/-- Settles O31: a refused access by the unit it belongs to, with the units before it performed; and a refused block of
CRYPT.ECB.ENC by the blocks stored before it. -/
theorem refusedWriteKeepsEarlierBlocks : Obligations.RefusedWriteKeepsEarlierBlocks := by
  refine ⟨?units, ?ecb⟩
  case units =>
    intro i s full sm dm done later pos u before after a n hop hacc hkey hlen hsm hdm hinj hunits hdone hfull
    have hc : Covers i s.eng.latch sm dm := {
      length := hlen
      source := State.buildMap_mapLen hsm
      destination := fun hi => State.buildMap_mapLen (by rwa [if_pos hi] at hdm)
      none := fun hi => by rwa [if_neg hi] at hdm }
    have hcheck := planOf_checkError_none hkey hlen
    obtain ⟨w, hwork, hfree, hs⟩ := planOf_runWork_maps hop hacc hlen hsm hdm
    have hmem : ∀ q ∈ done ++ (pos, u) :: later, q ∈ unitsOf i s.eng.latch := fun q hq => hunits ▸ hq
    have habut := unitsOf_abut hlen
    rw [hunits] at habut
    obtain ⟨b, hb, rfl, hlater⟩ := habut.of_append
    obtain ⟨t, ht, htfree, hts, hplat, hframe⟩ := hc.runUnits_performs hb
      (fun q hq => hmem q (List.mem_append_left _ hq)) (s := s.setEng (s.eng.seeded sm dm w)) hs hdone
    rw [hunits, Plan.runUnits_append, Engine.reqLen] at hwork hfree
    rw [ht, Run.andThen_going] at hwork
    rw [htfree, Run.andThen_going] at hfree
    have hq := hmem (pos, u) (by simp)
    have hfullmem : full.mem = ((planOf i).runUnits (bulkBytes i s.eng.latch.len.toNat) ((pos, u) :: later)
        t.noRefusals).state.mem := by
      rw [exec_next hfull, runCommand_mem (s := s.noRefusals) hcheck, hfree]
    have hok (a n : Nat) (k : Access) : t.accessOk a n k = s.accessOk a n k := State.accessOk_congr hplat a n k
    have hperf {ps : List (Nat × Nat)} {k : Access} (h : s.performs ps k) : t.performs ps k :=
      fun q hq => (hok _ _ _).trans (h q hq)
    refine ⟨fun hps hb hn => ?_, fun hps hr hb hn => ?_⟩
    · obtain ⟨hrun, hsame⟩ := hc.read_refused hq hlater hts hinj hps (hperf hb) ((hok _ _ _).trans hn)
      obtain ⟨hfail, htmem⟩ := runCommand_raised hcheck (hwork.trans hrun)
      refine ⟨_, exec_eq i s, hfail, ?_⟩
      rw [htmem, hfullmem]
      by_cases hi : i.fields.op = 2
      · rw [if_pos hi]
        exact ⟨fun j hj => (hsame j hi hj).symm, fun x hx => hframe x fun j hj _ => hx j hj⟩
      · have hnil := hc.none hi
        rw [if_neg hi]
        refine ⟨fun j hj => absurd hj (Nat.not_lt_zero j), fun x _ => hframe x fun j _ hj => ?_⟩
        rw [hnil] at hj
        exact absurd hj (Nat.not_lt_zero j)
    · have hi : i.fields.op = 2 := by
        by_contra hi
        rw [hc.none hi] at hps
        simp [pieces] at hps
      obtain ⟨r, hrun, hsame, hother⟩ :=
        hc.write_refused hq hlater hts hinj hi hps (hperf hr) (hperf hb) ((hok _ _ _).trans hn)
      obtain ⟨hfail, htmem⟩ := runCommand_raised hcheck (hwork.trans hrun)
      refine ⟨_, exec_eq i s, hfail, ?_⟩
      rw [htmem, hfullmem]
      refine ⟨fun j hj => (hsame j hj).symm, fun x hx => (hother x hx).trans (hframe x fun j hj _ => hx j ?_)⟩
      have hj : j < pos := hj
      omega
  case ecb =>
    intro sg s sm dm k a n rest L hacc hkey hmod hk hsm hdm hadm hinj hsd hw hps hn
    obtain ⟨t, ht, hfail, hstored⟩ := ecbEnc_write_refused hacc hkey hmod hk hsm hdm hadm hinj hsd
      (fun q hq ⟨x, m⟩ hm => hw (16 * q) 16 x m (by omega) hm) hps hn
    exact ⟨t, ht, hfail, hstored.blocks, hstored.other⟩

end Sys2Proof.Machine
end

section
/-! PROOFS. Two runs of a flat command on memories that agree on its source buffer (20_memory.md R62, R69; O56). -/

namespace Sys2Proof.Machine

/-! ### The flat map -/

/-- The map of a flat buffer (R62). -/
def flatBuffer (a : Addr) (n : Nat) : List Segment := if n = 0 then [] else [⟨a.toNat, n⟩]

theorem State.buildMap_eq_flatBuffer (s : State) (a : Addr) (n : Nat) : s.buildMap false a n = .ok (flatBuffer a n) := by
  unfold State.buildMap flatBuffer
  split <;> rfl

theorem mapLen_flatBuffer (a : Addr) (n : Nat) : mapLen (flatBuffer a n) = n := by
  unfold flatBuffer
  split
  · simp [mapLen, *]
  · rfl

theorem mapAddr_flatBuffer (a : Addr) {n j : Nat} (h : j < n) : mapAddr (flatBuffer a n) j = a.toNat + j := by
  rw [flatBuffer, if_neg (by omega), mapAddr_flat h]

/-- The bytes of a piece of a flat buffer are bytes of the buffer. -/
theorem pieces_flatBuffer {a : Addr} {n off u : Nat} {q : Nat × Nat} (hq : q ∈ pieces (flatBuffer a n) off u) {x : Nat}
    (h1 : q.1 ≤ x) (h2 : x < q.1 + q.2) : ∃ j, j < n ∧ x = a.toNat + j := by
  obtain ⟨j, _, _, hj, he⟩ := pieces_mem hq x h1 h2
  rw [mapLen_flatBuffer] at hj
  exact ⟨j, hj, by rw [← he, mapAddr_flatBuffer a hj]⟩

/-! ### Memories that agree where the command has written or read -/

/-- Of two runs that started from `m0` and `m0'`, the memories `m` and `m'` agree but where both are as they started. -/
def Agree (m0 m0' m m' : Memory) : Prop :=
  ∀ x, m'.read x = m.read x ∨ m'.read x = m0'.read x ∧ m.read x = m0.read x

section
variable {m0 m0' m m' : Memory}

theorem Agree.start (m0 m0' : Memory) : Agree m0 m0' m0 m0' := fun _ => .inr ⟨rfl, rfl⟩

/-- Where the starting memories agree, the memories do. -/
theorem Agree.read_eq (h : Agree m0 m0' m m') {x : Nat} (h0 : m0'.read x = m0.read x) : m'.read x = m.read x := by
  rcases h x with h | ⟨h1, h2⟩
  · exact h
  · rw [h1, h2, h0]

theorem Agree.writeBytes (h : Agree m0 m0' m m') (a : Nat) (v : Bytes) :
    Agree m0 m0' (m.writeBytes a v) (m'.writeBytes a v) := by
  intro x
  rw [Memory.read_writeBytes, Memory.read_writeBytes]
  split
  · exact .inl rfl
  · exact h x

theorem Agree.storePieces (h : Agree m0 m0' m m') (ps : List (Nat × Nat)) (v : Bytes) :
    Agree m0 m0' (storePieces m ps v) (storePieces m' ps v) := by
  induction ps generalizing m m' v with
  | nil => exact h
  | cons q ps ih => exact ih (h.writeBytes _ _) _

end

/-- A stream store makes memories agree at the addresses of its offsets, and keeps them agreeing elsewhere. -/
theorem read_streamStore_congr {m m' : Memory} {dm : List Segment} {off : Nat} {v : Bytes} {x : Nat}
    (h : m'.read x = m.read x ∨ ∃ j, j < v.length ∧ mapAddr dm (off + j) = x) :
    (streamStore m' dm off v).read x = (streamStore m dm off v).read x := by
  induction v generalizing m m' off with
  | nil => exact h.resolve_right fun ⟨j, hj, _⟩ => Nat.not_lt_zero j hj
  | cons y v ih =>
    refine ih ?_
    rw [Memory.read_set, Memory.read_set]
    by_cases hx : x = mapAddr dm off
    · rw [if_pos hx, if_pos hx]
      exact .inl rfl
    · rw [if_neg hx, if_neg hx]
      refine h.imp_right fun ⟨j, hj, he⟩ => ?_
      cases j with
      | zero => exact absurd he.symm hx
      | succ j => exact ⟨j, by simpa using hj, by rw [← he]; congr 1; omega⟩

/-- The state with another memory. -/
def State.withMem (s : State) (m : Memory) : State := { s with mem := m }

@[simp] theorem State.withMem_eng (s : State) (m : Memory) : (s.withMem m).eng = s.eng := rfl
@[simp] theorem State.withMem_mem (s : State) (m : Memory) : (s.withMem m).mem = m := rfl

/-- Two runs of a part of a command that started from `m0` and `m0'` end alike, with memories that agree and, where they
go on, agree at the first `n` destination offsets. -/
inductive Twin (m0 m0' : Memory) (dm : List Segment) (n : Nat) : Run → Run → Prop where
  | going {s : State} {m' : Memory} (ha : Agree m0 m0' s.mem m')
      (hd : ∀ j, j < n → j < mapLen dm → m'.read (mapAddr dm j) = s.mem.read (mapAddr dm j)) :
      Twin m0 m0' dm n (.going s) (.going (s.withMem m'))
  | raised {s : State} {m' : Memory} (k : ErrorKind) (a : Addr) (ha : Agree m0 m0' s.mem m') :
      Twin m0 m0' dm n (.raised k a s) (.raised k a (s.withMem m'))

/-! ### One unit -/

section
variable {m0 m0' m' : Memory} {s : State}

theorem State.readPieces_congr {ps : List (Nat × Nat)}
    (h : ∀ q ∈ ps, m'.readBytes q.1 q.2 = s.mem.readBytes q.1 q.2) :
    (s.withMem m').readPieces ps = s.readPieces ps := by
  induction ps with
  | nil => rfl
  | cons q ps ih =>
    have hq : (s.withMem m').memRead q.1 q.2 = s.memRead q.1 q.2 := by
      rw [State.memRead_eq, State.memRead_eq, ← h q List.mem_cons_self]
      rfl
    unfold State.readPieces
    rw [hq, ih fun q' hq' => h q' (List.mem_cons_of_mem _ hq')]

/-- A read that succeeds had every piece performed. -/
theorem State.performs_of_readPieces {ps : List (Nat × Nat)} {b : Bytes} (h : s.readPieces ps = .ok b) :
    s.performs ps .read := by
  induction ps generalizing b with
  | nil => intro q hq; cases hq
  | cons q ps ih =>
    unfold State.readPieces at h
    split at h
    · cases h
    · rename_i hq
      split at h
      · cases h
      · rename_i hps
        exact State.performs_cons.mpr ⟨(State.memRead_ok hq).1, ih hps⟩

theorem State.length_streamRead {m : List Segment} {off n : Nat} {b : Bytes} (h : s.streamRead m off n = .ok b)
    (hle : off + n ≤ mapLen m) : b.length = n := by
  rw [State.streamRead_performs (State.performs_of_readPieces h) hle] at h
  obtain rfl := Except.ok.inj h
  exact length_streamBytes _ _ _ _

/-- The same pieces are refused, and what is stored is the same. -/
theorem State.writePieces_twin (h : Agree m0 m0' s.mem m') (ps : List (Nat × Nat)) (v : Bytes) :
    s.writePieces ps v = .going (s.withMem (storePieces s.mem ps v)) ∧
        (s.withMem m').writePieces ps v = .going (s.withMem (storePieces m' ps v)) ∨
      ∃ a m1 m1', s.writePieces ps v = .raised .bufferIoFailure a (s.withMem m1) ∧
        (s.withMem m').writePieces ps v = .raised .bufferIoFailure a (s.withMem m1') ∧ Agree m0 m0' m1 m1' := by
  induction ps generalizing s m' v with
  | nil => exact .inl ⟨rfl, rfl⟩
  | cons q ps ih =>
    have hok : (s.withMem m').accessOk q.1 (v.take q.2).length .write =
      s.accessOk q.1 (v.take q.2).length .write := rfl
    unfold State.writePieces State.memWrite
    rw [hok]
    cases s.accessOk q.1 (v.take q.2).length .write with
    | true => exact ih (s := s.withMem (s.mem.writeBytes q.1 (v.take q.2))) (h.writeBytes _ _) (v.drop q.2)
    | false => exact .inr ⟨_, s.mem, m', rfl, rfl, h⟩

variable {p : Plan} {l : Latch} {sm dm : List Segment} {pos u : Nat} {inTail : Bool}

/-- A unit reads the same bytes where the source bytes agreed at the start, so it stores the same. -/
theorem Plan.runUnit_twin (hs : s.eng.Transferring l sm dm pos)
    (hsrc : ∀ q ∈ pieces sm pos u, ∀ x, q.1 ≤ x → x < q.1 + q.2 → m0'.read x = m0.read x) (hsl : pos + u ≤ mapLen sm)
    (hnone : p.stores = false → dm = []) (hout : p.stores = true → pos + u ≤ mapLen dm ∧
      ∀ b : Bytes, b.length = u → (p.compute s.eng inTail b).1.length = u)
    (ha : Agree m0 m0' s.mem m')
    (hd : ∀ j, j < pos → j < mapLen dm → m'.read (mapAddr dm j) = s.mem.read (mapAddr dm j)) :
    Twin m0 m0' dm (pos + u) (p.runUnit inTail u s) (p.runUnit inTail u (s.withMem m')) := by
  have hread : (s.withMem m').streamRead sm pos u = s.streamRead sm pos u := by
    refine State.readPieces_congr fun q hq => ?_
    rw [Memory.readBytes_eq_map, Memory.readBytes_eq_map]
    refine List.map_congr_left fun j hj => ha.read_eq (hsrc q hq _ (Nat.le_add_right _ _) ?_)
    have := List.mem_range.mp hj
    omega
  unfold Plan.runUnit
  rw [State.withMem_eng, hs.srcMap, hs.dstMap, hs.pos, hread]
  cases hr : s.streamRead sm pos u with
  | error a => exact .raised _ _ ha
  | ok b =>
    dsimp only
    cases hst : p.stores with
    | false =>
      refine .going (s := (s.setWork _).setEng _) ha fun j _ hj => ?_
      rw [hnone hst] at hj
      cases hj
    | true =>
      obtain ⟨hdl, hlen⟩ := hout hst
      have hlen := hlen b (State.length_streamRead hr hsl)
      rw [if_pos rfl, if_pos rfl, State.streamWrite, State.streamWrite, hlen]
      rcases State.writePieces_twin (s := s.setWork (p.compute s.eng inTail b).2) ha (pieces dm pos u)
        (p.compute s.eng inTail b).1 with ⟨h1, h2⟩ | ⟨a, m1, m1', h1, h2, hm⟩
      · rw [h1]
        change Twin m0 m0' dm (pos + u) _ ((((s.setWork _).withMem m').writePieces _ _).andThen _)
        rw [h2]
        refine .going (s := ((s.setWork _).withMem _).setEng _) (ha.storePieces _ _) fun j hj hjl => ?_
        dsimp only [State.setEng_mem, State.withMem_mem, State.setWork_mem]
        rw [storePieces_pieces _ hlen.ge hdl, storePieces_pieces _ hlen.ge hdl]
        refine read_streamStore_congr ?_
        rw [List.take_of_length_le hlen.le, hlen]
        by_cases hp : j < pos
        · exact .inl (hd j hp hjl)
        · exact .inr ⟨j - pos, by omega, by congr 1; omega⟩
      · rw [h1]
        change Twin m0 m0' dm (pos + u) _ ((((s.setWork _).withMem m').writePieces _ _).andThen _)
        rw [h2]
        exact .raised (s := (s.setWork _).withMem m1) _ _ hm

end

/-! ### A whole command -/

section
variable {i : Instr} {l : Latch} {m0 m0' : Memory}

/-- The destination map of a flat command. -/
def flatDestination (i : Instr) (l : Latch) : List Segment :=
  if i.fields.op = 2 then flatBuffer l.dst (bytesRead i l) else []

/-- The units of a flat command. -/
theorem planOf_runUnits_twin (hl : lengthRule i l = none)
    (hsrc : ∀ j, j < bytesRead i l → m0'.read (l.src.toNat + j) = m0.read (l.src.toNat + j))
    {us : List (Nat × Nat)} {a b : Nat} (hus : Abut a us b) (hmem : ∀ q ∈ us, q ∈ unitsOf i l) {s : State}
    (hs : s.eng.Transferring l (flatBuffer l.src (bytesRead i l)) (flatDestination i l) a) {m' : Memory}
    (ha : Agree m0 m0' s.mem m') (hd : ∀ j, j < a → j < mapLen (flatDestination i l) →
      m'.read (mapAddr (flatDestination i l) j) = s.mem.read (mapAddr (flatDestination i l) j)) :
    Twin m0 m0' (flatDestination i l) b ((planOf i).runUnits (bulkBytes i l.len.toNat) us s)
      ((planOf i).runUnits (bulkBytes i l.len.toNat) us (s.withMem m')) := by
  induction us generalizing a s m' with
  | nil =>
    obtain rfl : a = b := hus
    exact .going ha hd
  | cons q us ih =>
    obtain ⟨rfl, hus⟩ := hus
    have hq := hmem q List.mem_cons_self
    have hle := mem_unitsOf_le hq
    have hunit := Plan.runUnit_twin (p := planOf i) (u := q.2) (inTail := decide (bulkBytes i l.len.toNat ≤ q.1)) hs
      (fun q' hq' x h1 h2 => by
        obtain ⟨j, hj, rfl⟩ := pieces_flatBuffer hq' h1 h2
        exact hsrc j hj)
      (by rwa [mapLen_flatBuffer])
      (fun hst => if_neg fun hi => by rw [(planOf_stores_iff i).mpr hi] at hst; cases hst)
      (fun hst => by
        have hi := (planOf_stores_iff i).mp hst
        refine ⟨?_, fun b hb => planOf_compute_length hi hl hq _ hb⟩
        rwa [flatDestination, if_pos hi, mapLen_flatBuffer])
      ha hd
    unfold Plan.runUnits
    generalize hr : (planOf i).runUnit (decide (bulkBytes i l.len.toNat ≤ q.1)) q.2 s = r at hunit ⊢
    generalize (planOf i).runUnit (decide (bulkBytes i l.len.toNat ≤ q.1)) q.2 (s.withMem m') = r' at hunit ⊢
    cases hunit with
    | going ha' hd' =>
      exact ih hus (fun q' hq' => hmem q' (List.mem_cons_of_mem _ hq'))
        (Plan.runUnit_transferring (planOf_keepsPos i) hs hr) ha' hd'
    | raised k a ha' => exact .raised k a ha'

/-- The engine of a flat command after MAP. -/
def Engine.flatMapped (i : Instr) (e : Engine) : Engine :=
  { e with srcMap := flatBuffer e.latch.src (bytesRead i e.latch), dstMap := flatDestination i e.latch }

/-- MAP of a flat command reads nothing (R62). -/
theorem planOf_runMap_flat {s : State} (hsg : i.fields.sg = false) (hacc : s.eng.accepted = true) :
    (planOf i).runMap s = .going (s.setEng (s.eng.flatMapped i)) := by
  obtain ⟨_, _, hsrc, hdst, _⟩ := s.eng.accepted_iff.mp hacc
  have hnone (hi : i.fields.op ≠ 2) : flatDestination i s.eng.latch = s.eng.dstMap := by
    rw [flatDestination, if_neg hi, hdst]
  unfold Engine.flatMapped
  rw [Plan.runMap, planOf_total, planOf_sg, hsg, State.buildMap_eq_flatBuffer, State.buildMap_eq_flatBuffer, planOf_moves]
  by_cases hop : i.fields.op.toNat ∈ [2, 4, 5]
  · rw [decide_eq_true hop, if_pos rfl]
    dsimp only
    by_cases hi : i.fields.op = 2
    · rw [if_pos ((planOf_stores_iff i).mpr hi), flatDestination, if_pos hi]
    · rw [if_neg (mt (planOf_stores_iff i).mp hi), hnone hi]
  · have hread : bytesRead i s.eng.latch = 0 := by
      unfold bytesRead
      split <;> simp_all
    rw [decide_eq_false hop, if_neg Bool.false_ne_true, hnone (fun hi => hop (by rw [hi]; decide)), hread, flatBuffer,
      if_pos rfl, ← hsrc]
    rfl

/-- SEED takes nothing from memory, and changes the working registers and the count of draws only. -/
theorem planOf_runSeed_withMem (i : Instr) (s : State) (m' : Memory) :
    (∃ d w, (planOf i).runSeed s = .going { s with draws := d, eng := { s.eng with work := w } } ∧
      (planOf i).runSeed (s.withMem m') = .going ({ s with draws := d, eng := { s.eng with work := w } }.withMem m') ∧
      w.pos = s.eng.work.pos) ∨
    ∃ k d, (planOf i).runSeed s = .raised k 0 { s with draws := d } ∧
      (planOf i).runSeed (s.withMem m') = .raised k 0 ({ s with draws := d }.withMem m') := by
  unfold Plan.runSeed
  have hd : (s.withMem m').draws = s.draws := rfl
  rw [State.withMem_eng, hd]
  cases hs : (planOf i).seed (Config.hashFail s.draws) s.eng with
  | error k => cases (planOf i).draws <;> exact .inr ⟨k, _, rfl, rfl⟩
  | ok w =>
    obtain ⟨hpos, _⟩ := planOf_seed hs
    cases (planOf i).draws <;> exact .inl ⟨_, w, rfl, rfl, hpos⟩

/-- The work of a flat command. -/
theorem planOf_runWork_twin {s : State} {m' : Memory} (hsg : i.fields.sg = false) (hacc : s.eng.accepted = true)
    (hl : lengthRule i s.eng.latch = none) (hsrc : ∀ j, j < bytesRead i s.eng.latch →
      m'.read (s.eng.latch.src.toNat + j) = s.mem.read (s.eng.latch.src.toNat + j)) :
    Twin s.mem m' (flatDestination i s.eng.latch) (bytesRead i s.eng.latch) ((planOf i).runWork s)
      ((planOf i).runWork (s.withMem m')) := by
  obtain ⟨_, h0⟩ := Engine.accepted_between hacc
  have hmap' : (planOf i).runMap (s.withMem m') = .going ((s.setEng (s.eng.flatMapped i)).withMem m') :=
    planOf_runMap_flat (s := s.withMem m') hsg hacc
  rw [planOf_runWork_eq hl h0, planOf_runWork_eq (s := s.withMem m') hl h0, planOf_runMap_flat hsg hacc, hmap',
    Run.andThen_going, Run.andThen_going]
  rcases planOf_runSeed_withMem i (s.setEng (s.eng.flatMapped i)) m' with ⟨d, w, h1, h2, hpos⟩ | ⟨k, d, h1, h2⟩
  · rw [h1, h2]
    exact planOf_runUnits_twin (s := { s with draws := d, eng := { s.eng.flatMapped i with work := w } }) hl hsrc
      (unitsOf_abut hl) (fun _ => id) ⟨rfl, rfl, rfl, hpos.trans h0⟩ (.start _ _)
      fun j hj => absurd hj (Nat.not_lt_zero j)
  · rw [h1, h2]
    exact .raised (s := { s.setEng (s.eng.flatMapped i) with draws := d }) k 0 (.start _ _)

end

theorem ErrorKind.code_ne_zero (k : ErrorKind) : k.code ≠ 0 := by
  cases k <;> decide

/-- Settles O56: the two runs go through the same units, which read the same bytes and store the same. -/
theorem flatCommandsReadOnlyTheirSource : Obligations.FlatCommandsReadOnlyTheirSource := by
  intro i s t mem hsg hacc hsrc ht
  obtain rfl := exec_next ht
  refine ⟨_, exec_eq i (s.withMem mem), ?_⟩
  have hfail (k : ErrorKind) (a : Addr) (e : Engine) (hi : i.fields.op = 2) :
      (((planOf i).onError e).fail k a).errCode ≠ 0 := k.code_ne_zero
  have hcheck : (planOf i).checkError (s.withMem mem).eng = (planOf i).checkError s.eng := rfl
  unfold runCommand
  rw [hcheck]
  cases hc : (planOf i).checkError s.eng with
  | some k => exact ⟨rfl, rfl, Agree.start _ _, fun hi h0 => absurd h0 (hfail k 0 _ hi)⟩
  | none =>
    have hl := lengthRule_of_checkError hc
    have htwin := planOf_runWork_twin hsg hacc hl hsrc
    generalize (planOf i).runWork s = r at htwin ⊢
    generalize (planOf i).runWork (s.withMem mem) = r' at htwin ⊢
    cases htwin with
    | raised k a ha => exact ⟨rfl, rfl, ha, fun hi h0 => absurd h0 (hfail k a _ hi)⟩
    | going ha hd =>
      refine ⟨rfl, rfl, ha, fun hi _ j hj => ?_⟩
      have hread : bytesRead i s.eng.latch = s.eng.reqLen := by
        rw [bytesRead, hi]
        rfl
      have := hd j (by rwa [hread]) (by rwa [flatDestination, if_pos hi, mapLen_flatBuffer, hread])
      rwa [flatDestination, if_pos hi, mapAddr_flatBuffer _ (by rwa [hread])] at this

end Sys2Proof.Machine
end

section
/-! PROOFS. What instances share and what they do not: the values a racing byte has for each agent after a write, at the
start and at the end of a command (20_memory.md R78 to R81, R85; 60_exceptions.md R276; O21). -/

namespace Sys2Proof.Machine

/-! ### The records of one byte -/

/-- The records of the byte at `a`. -/
def recordsAt (rs : List Race) (a : Addr) : List Race := rs.filter (·.addr == a)

theorem mem_recordsAt {rs : List Race} {a : Addr} {r : Race} : r ∈ recordsAt rs a ↔ r ∈ rs ∧ r.addr = a := by
  simp [recordsAt]

theorem State.raceValues_eq (s : State) (x : Agent) (a : Addr) :
    s.raceValues x a = (recordsAt s.races a).flatMap (·.values x) := rfl

theorem State.mem_raceValues {s : State} {x : Agent} {a : Addr} {v : Byte} :
    v ∈ s.raceValues x a ↔ ∃ r ∈ s.races, r.addr = a ∧ v ∈ r.values x := by
  simp [State.raceValues_eq, mem_recordsAt, and_assoc]

/-- Where each byte has one record at most, the records of a byte are none or one. -/
theorem recordsAt_of_nodup {rs : List Race} (h : (rs.map (·.addr)).Nodup) (a : Addr) :
    recordsAt rs a = [] ∨ ∃ q ∈ rs, q.addr = a ∧ recordsAt rs a = [q] := by
  induction rs with
  | nil => exact .inl rfl
  | cons r rs ih =>
    obtain ⟨hr, h⟩ := List.nodup_cons.mp h
    by_cases ha : r.addr = a
    · have hrest : recordsAt rs a = [] := by
        refine List.filter_eq_nil_iff.mpr fun q hq he => hr ?_
        exact List.mem_map.mpr ⟨q, hq, (eq_of_beq he).trans ha.symm⟩
      refine .inr ⟨r, List.mem_cons_self, ha, ?_⟩
      rw [recordsAt, List.filter_cons, if_pos (beq_iff_eq.mpr ha)]
      exact congrArg _ hrest
    · have hskip : recordsAt (r :: rs) a = recordsAt rs a := by
        rw [recordsAt, List.filter_cons, if_neg (by simpa using ha)]
        rfl
      rw [hskip]
      exact (ih h).imp_right fun ⟨q, hq, he⟩ => ⟨q, List.mem_cons_of_mem _ hq, he⟩

theorem recordsAt_noteWrite (x : Agent) (v : Byte) (fresh : Race) (rs : List Race) :
    recordsAt (noteWrite x v fresh rs) fresh.addr = noteWrite x v fresh (recordsAt rs fresh.addr) := by
  induction rs with
  | nil => simp [recordsAt, noteWrite]
  | cons r rs ih =>
    unfold recordsAt at ih ⊢
    by_cases h : r.addr = fresh.addr
    · simp [noteWrite, h]
    · simp [noteWrite, h, ih]

theorem recordsAt_noteWrite_other (x : Agent) (v : Byte) {fresh : Race} {a : Addr} (h : fresh.addr ≠ a)
    (rs : List Race) : recordsAt (noteWrite x v fresh rs) a = recordsAt rs a := by
  induction rs with
  | nil => simp [recordsAt, noteWrite, h]
  | cons r rs ih =>
    unfold recordsAt at ih ⊢
    by_cases hr : r.addr = fresh.addr
    · simp [noteWrite, hr, h]
    · simp [noteWrite, hr, List.filter_cons, ih]

/-! ### A shared write -/

section
variable {s : State} {x : Agent} {addr : Nat} {b : Bytes}

/-- A write leaves the records of the bytes it does not write. -/
theorem State.recordsAt_sharedWrite_other {a : Addr} (h : ∀ j, j < b.length → BitVec.ofNat 64 (addr + j) ≠ a) :
    recordsAt (s.sharedWrite x addr b).races a = recordsAt s.races a := by
  induction b generalizing s addr with
  | nil => rfl
  | cons v vs ih =>
    rw [State.sharedWrite, ih fun j hj => by
      rw [Nat.add_assoc, Nat.add_comm 1 j]
      exact h (j + 1) (by simpa using hj)]
    dsimp only
    split
    · rfl
    · exact recordsAt_noteWrite_other x v (h 0 (Nat.succ_pos _)) s.races

/-- While a command is in progress a write goes on record at each byte it writes. -/
theorem State.recordsAt_sharedWrite (hbusy : s.busyInstances ≠ []) (hle : addr + b.length ≤ 2 ^ 64) {j : Nat} {v : Byte}
    (hv : b[j]? = some v) :
    recordsAt (s.sharedWrite x addr b).races (BitVec.ofNat 64 (addr + j)) =
      noteWrite x v ⟨BitVec.ofNat 64 (addr + j), [⟨s.mem.read (addr + j), s.agents, []⟩]⟩
        (recordsAt s.races (BitVec.ofNat 64 (addr + j))) := by
  have apart {m n : Nat} (hm : m < 2 ^ 64) (hn : n < 2 ^ 64) (h : m ≠ n) : BitVec.ofNat 64 m ≠ BitVec.ofNat 64 n := by
    intro he
    have := congrArg BitVec.toNat he
    rw [BitVec.toNat_ofNat, BitVec.toNat_ofNat, Nat.mod_eq_of_lt hm, Nat.mod_eq_of_lt hn] at this
    exact h this
  induction b generalizing s addr j with
  | nil => simp at hv
  | cons y ys ih =>
    rw [List.length_cons] at hle
    rw [State.sharedWrite, if_neg hbusy]
    cases j with
    | zero =>
      obtain rfl : y = v := by simpa using hv
      rw [State.recordsAt_sharedWrite_other fun i hi => apart (by omega) (by omega) (by omega)]
      exact recordsAt_noteWrite x y ⟨BitVec.ofNat 64 addr, _⟩ s.races
    | succ j =>
      rw [List.getElem?_cons_succ] at hv
      obtain ⟨hj, _⟩ := List.getElem?_eq_some_iff.mp hv
      rw [show addr + (j + 1) = addr + 1 + j by omega]
      refine (ih (s := { s with races := _, mem := s.mem.set addr y }) hbusy (by omega) hv).trans ?_
      dsimp only
      rw [recordsAt_noteWrite_other x y (apart (by omega) (by omega) (by omega)), Memory.read_set, if_neg (by omega)]
      rfl

/-- After its write of a byte a writer finds there that value or one of a write it does not know (R80). -/
theorem State.raceValues_sharedWrite (hn : (s.races.map (·.addr)).Nodup) (hx : x ∈ s.agents)
    (hbusy : s.busyInstances ≠ []) (hle : addr + b.length ≤ 2 ^ 64) {a : Addr} {j : Nat} {v : Byte}
    (ha : BitVec.ofNat 64 (addr + j) = a) (hv : b[j]? = some v) :
    v ∈ (s.sharedWrite x addr b).raceValues x a ∧
      ∀ o ∈ (s.sharedWrite x addr b).raceValues x a, o = v ∨
        ∃ q ∈ s.races, q.addr = a ∧ ∃ w ∈ q.writes, w.value = o ∧ x ∉ w.known := by
  have hrec := State.recordsAt_sharedWrite (x := x) hbusy hle hv
  rw [ha] at hrec
  rw [State.raceValues_eq, hrec]
  rcases recordsAt_of_nodup hn a with hnone | ⟨q, hq, hqa, hone⟩
  · rw [hnone]
    simp [noteWrite, Race.mem_values_write, hx]
  · rw [hone]
    simp only [noteWrite, hqa, if_true, List.flatMap_cons, List.flatMap_nil, List.append_nil, Race.mem_values_write,
      true_or, true_and]
    rintro o (rfl | ⟨w, hw, hwo, hk, _⟩)
    · exact .inl rfl
    · exact .inr ⟨q, hq, hqa, w, hw, hwo, hk⟩

/-- A byte without a record that the host stores: a command finds it as it was or as it was stored, the host as it was
stored. -/
theorem State.raceValues_hostStore (hr : s.races = []) (hbusy : s.busyInstances ≠ []) (hle : addr + b.length ≤ 2 ^ 64)
    {j : Nat} {v : Byte} (hv : b[j]? = some v) (k : Nat) :
    (s.sharedWrite .host addr b).raceValues (.engine k) (BitVec.ofNat 64 (addr + j)) = [s.mem.read (addr + j), v] ∧
      (s.sharedWrite .host addr b).raceValues .host (BitVec.ofNat 64 (addr + j)) = [v] := by
  have hrec := State.recordsAt_sharedWrite (x := .host) hbusy hle hv
  have hhost : Agent.host ∈ s.agents := State.mem_agents.mpr (.inl rfl)
  rw [State.raceValues_eq, State.raceValues_eq, hrec, hr]
  simp [noteWrite, recordsAt, Race.values, Race.found, Race.write, hhost]

end

/-! ### The start of a command -/

/-- A command that has just started finds what the host finds (R78). -/
theorem State.startRaces_raceValues (s : State) (a : Addr) :
    s.startRaces.raceValues (.engine s.before.length) a = s.startRaces.raceValues .host a := by
  unfold State.startRaces
  rw [State.raceValues_eq, State.raceValues_eq]
  dsimp only
  split
  · rfl
  · refine List.flatMap_congr fun r hr => ?_
    obtain ⟨q, _, rfl⟩ := List.mem_map.mp (mem_recordsAt.mp hr).1
    exact q.start_values _

/-! ### The end of a command -/

/-- Settling records: each byte gets a content the host may know of it, or keeps its own where there is none. -/
theorem State.settleRaces_read (qs : List Race) (s : State) (a : Addr) :
    (∃ q ∈ qs, q.addr = a ∧ ∃ w ∈ q.candidates, (qs.foldl State.settleRace s).mem.read a.toNat = w.value) ∨
      (∀ q ∈ qs, q.addr = a → q.candidates = []) ∧
        (qs.foldl State.settleRace s).mem.read a.toNat = s.mem.read a.toNat := by
  induction qs generalizing s with
  | nil => exact .inr ⟨by simp, rfl⟩
  | cons q qs ih =>
    rw [List.foldl_cons]
    rcases ih (s.settleRace q) with ⟨p, hp, h⟩ | ⟨hrest, hread⟩
    · exact .inl ⟨p, List.mem_cons_of_mem _ hp, h⟩
    · obtain ⟨mem, d, q', hs, _, _, _, hq⟩ := s.settleRace_eq q
      have hmem : (s.settleRace q).mem = mem := by rw [hs]
      rw [hread, hmem]
      rcases hq with ⟨_, hnone, rfl⟩ | ⟨w, hw, _, hset, _⟩
      · exact .inr ⟨List.forall_mem_cons.mpr ⟨fun _ => hnone, hrest⟩, rfl⟩
      · by_cases ha : a = q.addr
        · exact .inl ⟨q, List.mem_cons_self, ha.symm, w, hw, by rw [hset, if_pos ha]⟩
        · exact .inr ⟨List.forall_mem_cons.mpr ⟨fun h => absurd h.symm ha, hrest⟩, by rw [hset, if_neg ha]⟩

/-- Settling records of distinct bytes: each is as it was where the host knows no content of its byte, else settled on
the content that memory holds. -/
theorem State.mem_settleRaces_read {qs : List Race} {s : State} (hn : (qs.map (·.addr)).Nodup) {r : Race}
    (h : r ∈ (qs.foldl State.settleRace s).races) :
    r ∈ s.races ∨ ∃ q ∈ qs, r = q ∧ q.candidates = [] ∨
      ∃ w ∈ q.candidates, r = q.settleOn w ∧ (qs.foldl State.settleRace s).mem.read q.addr.toNat = w.value := by
  induction qs generalizing s with
  | nil => exact .inl h
  | cons q qs ih =>
    obtain ⟨hfresh, hn⟩ := List.nodup_cons.mp hn
    rw [List.foldl_cons] at h ⊢
    rcases ih hn h with h | ⟨p, hp, hr⟩
    · obtain ⟨mem, d, q', hs, _, _, _, hq⟩ := s.settleRace_eq q
      have hraces : (s.settleRace q).races = s.races ++ [q'] := by rw [hs]
      rcases List.mem_append.mp (hraces ▸ h) with h | h
      · exact .inl h
      · obtain rfl := List.mem_singleton.mp h
        rcases hq with ⟨e, hnone, _⟩ | ⟨w, hw, e, hset, _⟩
        · exact .inr ⟨q, List.mem_cons_self, .inl ⟨e, hnone⟩⟩
        · refine .inr ⟨q, List.mem_cons_self, .inr ⟨w, hw, e, ?_⟩⟩
          rcases State.settleRaces_read qs (s.settleRace q) q.addr with ⟨p, hp, hpa, _⟩ | ⟨_, hread⟩
          · exact absurd (List.mem_map.mpr ⟨p, hp, hpa⟩) hfresh
          · rw [hread, hs]
            exact (hset q.addr).trans (if_pos rfl)
    · exact .inr ⟨p, List.mem_cons_of_mem _ hp, hr⟩

theorem State.dropRaces_mem (s : State) : s.dropRaces.mem = s.mem := by
  unfold State.dropRaces
  split <;> rfl

theorem State.mem_dropRaces {s : State} {r : Race} (h : r ∈ s.dropRaces.races) : r ∈ s.races := by
  unfold State.dropRaces at h
  split at h
  · simp at h
  · exact h

/-- What the host does not know when a command ends, neither the host nor the command knew. -/
theorem Race.mem_writes_finish {r : Race} {k : Nat} {x : RaceWrite} (hx : x ∈ (r.finish k).writes)
    (hk : Agent.host ∉ x.known) :
    ∃ w ∈ r.writes, w.value = x.value ∧ Agent.host ∉ w.known ∧ Agent.engine k ∉ w.known := by
  obtain ⟨w, hw, rfl⟩ := List.mem_map.mp hx
  have hnot : ¬ (Agent.host ∈ w.known ∨ Agent.engine k ∈ w.known) := by simpa using hk
  exact ⟨w, hw, rfl, not_or.mp hnot⟩

section
variable (s : State) (a : Addr)

/-- The content of each byte at the end of a command (R79, R81). -/
theorem State.finishRaces_read :
    if ∃ q ∈ s.races, q.addr = a ∧ q.finalValues s.before.length ≠ [] then
      ∃ q ∈ s.races, q.addr = a ∧ s.finishRaces.mem.read a.toNat ∈ q.finalValues s.before.length
    else s.finishRaces.mem.read a.toNat = s.mem.read a.toNat := by
  rw [State.finishRaces, State.dropRaces_mem]
  rcases State.settleRaces_read (s.races.map (·.finish s.before.length)) { s with races := [] } a with
    ⟨p, hp, ha, w, hw, hread⟩ | ⟨hnone, hread⟩
  · obtain ⟨q, hq, rfl⟩ := List.mem_map.mp hp
    have hmem : w.value ∈ q.finalValues s.before.length := List.mem_map_of_mem hw
    rw [if_pos ⟨q, hq, ha, List.ne_nil_of_mem hmem⟩]
    exact ⟨q, hq, ha, hread ▸ hmem⟩
  · rw [if_neg]
    · exact hread
    · rintro ⟨q, hq, ha, hv⟩
      exact hv (List.map_eq_nil_iff.mpr (hnone _ (List.mem_map_of_mem hq) ha))

/-- The host finds that content, or the value of a write that neither it nor the command knew (R79). -/
theorem State.finishRaces_raceValues (hn : (s.races.map (·.addr)).Nodup) {v : Byte}
    (hv : v ∈ s.finishRaces.raceValues .host a) :
    v = s.finishRaces.mem.read a.toNat ∨ ∃ q ∈ s.races, q.addr = a ∧
      ∃ w ∈ q.writes, w.value = v ∧ Agent.host ∉ w.known ∧ Agent.engine s.before.length ∉ w.known := by
  obtain ⟨r, hr, ha, hv⟩ := State.mem_raceValues.mp hv
  obtain ⟨x, hx, rfl⟩ := List.mem_map.mp hv
  rw [State.finishRaces, State.dropRaces_mem]
  have hn' : ((s.races.map (·.finish s.before.length)).map (·.addr)).Nodup := by
    rw [List.map_map]
    exact hn
  obtain ⟨p, hp, hcase⟩ := (State.mem_settleRaces_read hn' (State.mem_dropRaces hr)).resolve_left (by simp)
  obtain ⟨q, hq, rfl⟩ := List.mem_map.mp hp
  have unknown (hw : x ∈ (q.finish s.before.length).writes) (hk : Agent.host ∉ x.known) (hqa : q.addr = a) :
      ∃ q ∈ s.races, q.addr = a ∧ ∃ w ∈ q.writes, w.value = x.value ∧ Agent.host ∉ w.known ∧
        Agent.engine s.before.length ∉ w.known := ⟨q, hq, hqa, Race.mem_writes_finish hw hk⟩
  rcases hcase with ⟨rfl, hnone⟩ | ⟨w, hw, rfl, hread⟩
  · refine .inr (unknown (List.mem_filter.mp hx).1 (fun hk => ?_) ha)
    have : x ∈ (q.finish s.before.length).candidates := List.mem_filter.mpr ⟨hx, by simpa using hk⟩
    rw [hnone] at this
    simp at this
  · rcases Race.mem_found_settleOn hw hx with rfl | ⟨hmem, hk⟩
    · exact .inl (ha ▸ hread.symm)
    · exact .inr (unknown hmem hk ha)

end

/-! ### One engine step -/

/-- A write piece that is performed does not complete the command. -/
theorem Plan.writeStep_busy (p : Plan) {s : State} {out : Bytes} {a n : Nat} {ps : List (Nat × Nat)}
    (hph : s.eng.phase = .bulk ∨ s.eng.phase = .tail)
    (hps : pieces s.eng.dstMap (s.eng.work.pos + (p.unitLen s.eng - out.length)) out.length = (a, n) :: ps)
    (hok : s.accessOk a (out.take n).length .write = true) : (p.writeStep s out).eng.busy = true := by
  simp only [Plan.writeStep, hps, State.memWrite, if_pos hok]
  split
  · have hadv : (s.eng.advance (p.unitLen s.eng)).phase = .bulk ∨ (s.eng.advance (p.unitLen s.eng)).phase = .tail := hph
    refine Engine.busy_iff.mpr ?_
    rcases p.settle_phase_late hadv with ⟨h, _⟩ | h | h
    all_goals exact fun hi => by cases h.symm.trans hi
  · refine Engine.busy_iff.mpr ?_
    rcases hph with h | h
    all_goals exact fun hi => by cases h.symm.trans hi

/-- What an engine step writes, if anything, is a write piece of a unit. -/
theorem Plan.nextWrite_eq_some {p : Plan} {s : State} {w : Nat × Bytes} (h : p.nextWrite s = some w) :
    (s.eng.phase = .bulk ∨ s.eng.phase = .tail) ∧ ∃ out a n ps, p.pendingOut s.eng = some out ∧
      pieces s.eng.dstMap (s.eng.work.pos + (p.unitLen s.eng - out.length)) out.length = (a, n) :: ps ∧
      s.accessOk a (out.take n).length .write = true := by
  unfold Plan.nextWrite at h
  split at h
  · cases h
  · rename_i out hout
    split at h
    · cases h
    · rename_i a n ps hps
      split at h
      · rename_i hok
        refine ⟨?_, out, a, n, ps, hout, hps, hok⟩
        by_contra hph
        simp [Plan.pendingOut, not_or.mp hph] at hout
      · cases h

/-- An engine step that writes leaves its command in progress. -/
theorem Plan.engineStep_busy {p : Plan} (hp : p.keepsPos) {s : State} {w : Nat × Bytes} (h : p.nextWrite s = some w) :
    (engineStep p s).eng.busy = true := by
  obtain ⟨hph, out, a, n, ps, hout, hps, hok⟩ := Plan.nextWrite_eq_some h
  have hstep : engineStep p s = p.transferStep s := by
    unfold engineStep
    rcases hph with h | h <;> rw [h]
  have htail : (s.eng.phase == .bulk || s.eng.phase == .tail) = true := by simpa using hph
  rw [hstep, Plan.transferStep]
  rw [Plan.pendingOut, if_pos htail] at hout
  cases hu : s.eng.unitOut with
  | some o =>
    obtain rfl : o = out := by simpa [hu] using hout
    exact p.writeStep_busy hph hps hok
  | none =>
    simp only [hu] at hout ⊢
    split at hout
    · cases hout
    · rename_i hn
      obtain ⟨hlen, hst⟩ := not_or.mp hn
      rw [if_neg hlen]
      simp only [Plan.computeUnit, eq_true_of_ne_false hst, if_true, State.setEng_eng, Option.some.inj hout]
      refine p.writeStep_busy (a := a) (n := n) (ps := ps) hph ?_ hok
      have hpos := hp s.eng (s.eng.phase == .tail) s.eng.unitIn
      simp only [State.setEng_eng, Plan.unitLen, Plan.total, Engine.reqLen, hpos] at hps ⊢
      exact hps

/-- Only a busy instance writes. -/
theorem State.nextWrite_busy {s : State} {w : Nat × Bytes} (h : s.nextWrite = some w) : s.eng.busy = true := by
  unfold State.nextWrite at h
  split at h
  · assumption
  · cases h

/-- An engine step that ends its command writes nothing. -/
theorem State.nextWrite_of_ended {s : State} (h : (microStep s).eng.busy = false) : s.nextWrite = none := by
  by_contra hn
  obtain ⟨w, hw⟩ := Option.ne_none_iff_exists'.mp hn
  have hb := State.nextWrite_busy hw
  unfold State.nextWrite at hw
  unfold microStep at h
  rw [if_pos hb] at hw h
  cases hd : decode s.eng.latch.cmd with
  | error x => simp [hd] at hw
  | ok i =>
    simp only [hd] at hw h
    simp [Plan.engineStep_busy (planOf_keepsPos i) hw] at h

/-- An engine step among other agents: the instance acts on memory as it finds it, what it writes goes on record, and
the ordering point follows. -/
theorem racedStep_seen (s : State) :
    ∃ (view : Memory) (d d1 : Nat),
      (∀ a : Addr, if s.raceValues (.engine s.before.length) a = [] then view.read a.toNat = s.mem.read a.toNat
        else view.read a.toNat ∈ s.raceValues (.engine s.before.length) a) ∧
      racedStep s = (({ s with draws := d1, eng := (microStep { s with mem := view, draws := d }).eng } :
        State).sharedWrites (.engine s.before.length)
          ({ s with mem := view, draws := d } : State).nextWrite).ordered s.eng.busy := by
  obtain ⟨view, d, hv, _, hview⟩ := s.seenBy_eq (.engine s.before.length)
  obtain ⟨_, d1, e, hm, _⟩ := microStep_eq { s with mem := view, draws := d }
  refine ⟨view, d, d1, hview, ?_⟩
  unfold racedStep
  dsimp only
  rw [hv, hm]

/-- Nothing but memory, the count of draws and the records differs at the end of a turn of an instance. -/
theorem State.sharedWrites_ordered_eq (s : State) (x : Agent) (w : Option (Nat × Bytes)) (was : Bool) :
    ∃ mem d rs, (s.sharedWrites x w).ordered was = { s with mem := mem, draws := d, races := rs } := by
  obtain ⟨rs, hs⟩ := s.sharedWrites_eq x w
  obtain ⟨mem, d, rs', h, _⟩ := (s.sharedWrites x w).ordered_eq was
  exact ⟨mem, d, rs', h.trans (by rw [hs])⟩

/-- With its command in progress before and after, an instance has reached no ordering point. -/
theorem State.ordered_of_busy {s : State} (h : s.eng.busy = true) : s.ordered true = s := by
  simp [State.ordered, h]

theorem State.ordered_of_ended {s : State} (h : s.eng.busy = false) : s.ordered true = s.finishRaces := by
  simp [State.ordered, h]

theorem State.ordered_of_started {s : State} (h : s.eng.busy = true) : s.ordered false = s.startRaces := by
  simp [State.ordered, h]

/-! ### The turns -/

section
variable {s : State} {k : Nat} {e : Engine}

/-- A turn of an instance: its engine moves on memory as it finds it, the other instances stay, and so do the platform
and what the host saw. -/
theorem racedStep_focusOn (h : s.engines[k]? = some e) :
    ∃ (view : Memory) (d d1 : Nat),
      (∀ a : Addr, if s.raceValues (.engine k) a = [] then view.read a.toNat = s.mem.read a.toNat
        else view.read a.toNat ∈ s.raceValues (.engine k) a) ∧
      (racedStep (s.focusOn k e) = (({ s.focusOn k e with
          draws := d1, eng := (microStep { s.focusOn k e with mem := view, draws := d }).eng } : State).sharedWrites
        (.engine k) ({ s.focusOn k e with mem := view, draws := d } : State).nextWrite).ordered e.busy) ∧
      (racedStep (s.focusOn k e)).engines =
        s.engines.set k (microStep { s.focusOn k e with mem := view, draws := d }).eng ∧
      (racedStep (s.focusOn k e)).platform = s.platform ∧ (racedStep (s.focusOn k e)).seen = s.seen ∧
      (racedStep (s.focusOn k e)).turns = s.turns := by
  have hlen := State.focusOn_before_length h
  obtain ⟨view, d, d1, hview, hstep⟩ := racedStep_seen (s.focusOn k e)
  rw [hlen] at hview hstep
  refine ⟨view, d, d1, hview, hstep, ?_⟩
  obtain ⟨_, _, _, heq⟩ := State.sharedWrites_ordered_eq { s.focusOn k e with
      draws := d1, eng := (microStep { s.focusOn k e with mem := view, draws := d }).eng } (.engine k)
    ({ s.focusOn k e with mem := view, draws := d } : State).nextWrite e.busy
  rw [hstep.trans heq]
  exact ⟨State.setEng_focusOn_engines h _, rfl, rfl, rfl⟩

/-- The instance in focus is the one that its number names. -/
theorem State.busyAt_of_before_length (h : s.before.length = k) : s.busyAt k = s.eng.busy := by
  unfold State.busyAt
  rw [← h, State.getElem?_engines_focus]
  rfl

/-- What a command that stays in progress finds after the write of its turn. -/
theorem State.raceValues_sharedWrites {t : State} {addr : Nat} {b : Bytes}
    (ht : t = (s.sharedWrites (.engine k) (some (addr, b))).ordered true) (hlen : s.before.length = k)
    (hb : s.eng.busy = true) (hn : (s.races.map (·.addr)).Nodup) (hle : addr + b.length ≤ 2 ^ 64) {a : Addr} {j : Nat}
    {v : Byte}
    (ha : BitVec.ofNat 64 (addr + j) = a) (hv : b[j]? = some v) :
    v ∈ t.raceValues (.engine k) a ∧ ∀ o ∈ t.raceValues (.engine k) a, o = v ∨
      ∃ q ∈ s.races, q.addr = a ∧ ∃ w ∈ q.writes, w.value = o ∧ Agent.engine k ∉ w.known := by
  have hbusy : s.busyInstances ≠ [] :=
    List.ne_nil_of_mem (State.mem_busyInstances.mpr ((State.busyAt_of_before_length hlen).trans hb))
  rw [ht, State.sharedWrites, State.ordered_of_busy (by simpa using hb)]
  exact State.raceValues_sharedWrite hn (hlen ▸ State.mem_agents_focus.mpr hb) hbusy hle ha hv

/-- A turn that ends its command writes nothing, and settles the records. -/
theorem racedStep_ended (hb : s.eng.busy = true) (h : (racedStep s).eng.busy = false) :
    ∃ d f, racedStep s = ({ s with draws := d, eng := f } : State).finishRaces := by
  obtain ⟨view, d, d1, _, hstep⟩ := racedStep_seen s
  obtain ⟨_, _, _, heq⟩ := State.sharedWrites_ordered_eq { s with
      draws := d1, eng := (microStep { s with mem := view, draws := d }).eng } (.engine s.before.length)
    ({ s with mem := view, draws := d } : State).nextWrite s.eng.busy
  have hended : (microStep { s with mem := view, draws := d }).eng.busy = false := by
    rw [hstep.trans heq] at h
    exact h
  rw [State.nextWrite_of_ended hended, hb] at hstep
  exact ⟨d1, _, hstep.trans (State.ordered_of_ended (s := { s with draws := d1, eng := _ }) hended)⟩

/-- A reset that ends a command settles the records. -/
theorem State.hostTurn_ended (hb : s.eng.busy = true) (h : e.busy = false) :
    s.hostTurn e = (s.setEng e).finishRaces := by
  rw [State.hostTurn, hb]
  exact State.ordered_of_ended h

end

/-- A turn that ends the command of instance `k` settles the records as they were. -/
theorem step_ended {s t : State} {k : Nat} {ts : List Turn} (h : s.turns = .engine k :: ts ∨ s.turns = .hardReset k :: ts)
    (ht : step s = .next t) (hs : s.busyAt k = true) (hk : t.busyAt k = false) :
    ∃ u : State, t = u.finishRaces ∧ u.races = s.races ∧ u.mem = s.mem ∧ u.before.length = k := by
  obtain ⟨e, he, hb⟩ := State.busyAt_iff.mp hs
  have hlen : (({ s with turns := ts } : State).focusOn k e).before.length = k := State.focusOn_before_length he
  rcases h with h | h
  · rw [step_of_turns h] at ht
    obtain ⟨e', he', hf⟩ := State.onEngine_eq_next ht
    obtain rfl : e = e' := Option.some.inj (he.symm.trans he')
    obtain rfl := Host.Outcome.next.inj hf
    have hbefore := (racedStep_steps (({ s with turns := ts } : State).focusOn k e)).1
    rw [State.busyAt_of_before_length (hbefore ▸ hlen)] at hk
    obtain ⟨d, f, hr⟩ := racedStep_ended hb hk
    exact ⟨_, hr, rfl, rfl, hlen⟩
  · rw [step_of_turns h] at ht
    obtain ⟨e', he', hf⟩ := State.onEngine_eq_next ht
    obtain rfl : e = e' := Option.some.inj (he.symm.trans he')
    obtain rfl := Host.Outcome.next.inj hf
    exact ⟨_, State.hostTurn_ended (s := ({ s with turns := ts } : State).focusOn k e) hb rfl, rfl, rfl, hlen⟩

/-- A CMD write that starts a command of instance `k` is its ordering point (R78). -/
theorem step_started {s t : State} {addr k : Nat} {v : Word} {ts : List Turn} (h : s.turns = .write addr 4 v :: ts)
    (ht : step s = .next t) (hs : s.busyAt k = false) (hk : t.busyAt k = true) :
    ∃ u : State, t = u.startRaces ∧ u.before.length = k := by
  rw [step_of_turns h] at ht
  obtain ⟨n, e, r, he, hf⟩ := State.onRegister_eq_next ht
  set u : State := ({ s with turns := ts } : State).focusOn n e with hu
  obtain rfl := Host.Outcome.next.inj hf
  have hlen : u.before.length = n := State.focusOn_before_length he
  have hengines : u.engines = s.engines := State.focusOn_engines (s := { s with turns := ts }) he
  obtain ⟨hb, ha, heng⟩ := u.hostTurn_eq (u.eng.hostWrite r v)
  have hsame : u.busyAt k = false := by
    unfold State.busyAt at hs ⊢
    rw [hengines]
    exact hs
  obtain rfl : k = n := by
    by_contra hne
    rw [State.busyAt_other hb ha (hlen ▸ hne), hsame] at hk
    cases hk
  rw [State.busyAt_of_before_length hlen] at hsame
  rw [State.busyAt_of_before_length (hb ▸ hlen), heng] at hk
  refine ⟨u.setEng (u.eng.hostWrite r v), ?_, hlen⟩
  rw [State.hostTurn, hsame]
  exact State.ordered_of_started (s := u.setEng (u.eng.hostWrite r v)) hk

/-- Settles O21: an engine turn by what its instance finds, a store and a write by the record of each byte they write,
the start and the end of a command by what they do to the records. -/
theorem engineTurnStaysOnItsInstance : Obligations.EngineTurnStaysOnItsInstance := by
  refine ⟨?engine, ?store, ?load, ?start, ?ends⟩
  case engine =>
    intro s k ts hts hk
    have he : ({ s with turns := ts } : State).engines[k]? = some s.engines[k] := List.getElem?_eq_getElem hk
    obtain ⟨view, d, d1, hview, hstep, hengines, hplatform, hseen, hturns⟩ := racedStep_focusOn he
    have hself := (congrArg (·[k]?) hengines).trans (List.getElem?_set_self hk)
    refine ⟨_, ?_, ?_, hplatform, hseen, hturns, fun j hj => ?_, _, view, d, State.focus_eq he, hview, hself,
      ?_⟩
    · rw [step_of_turns hts, takeTurn, State.onEngine, State.focus_eq he]
    · rw [hengines, List.length_set]
      rfl
    · rw [hengines, List.getElem?_set_ne hj.symm]
      rfl
    · intro x b hwf hnext hbusy a j v ha hv
      have hb : s.engines[k].busy = true := State.nextWrite_busy hnext
      rw [hnext, hb] at hstep
      dsimp only at hself
      rw [State.busyAt, hself, Option.any_some] at hbusy
      exact State.raceValues_sharedWrites hstep (State.focusOn_before_length he) hbusy
        (State.racesWf_iff.mp hwf).1.nodup (State.nextWrite_le hnext)
        (by rw [← ha, BitVec.ofNat_toNat, BitVec.setWidth_eq]) hv
  case store =>
    intro s addr b ts hts hle
    refine ⟨_, (step_of_turns hts).trans (if_pos hle), by simp, ?_, by simp, by simp, ?_⟩
    · simp [State.engines]
    · intro hr k v j hk hv
      exact State.raceValues_hostStore (s := { s with turns := ts }) hr
        (List.ne_nil_of_mem (State.mem_busyInstances.mpr hk)) hle hv k
  case load =>
    intro s addr n ts hts hle
    obtain ⟨view, d, hview, _, hread⟩ := ({ s with turns := ts } : State).seenBy_eq .host
    refine ⟨_, view.readBytes addr n, (step_of_turns hts).trans (if_pos hle), rfl, rfl, rfl, rfl, ?_, by simp,
      fun j hj => ?_⟩
    · dsimp only
      rw [hview]
    · have hb : (view.readBytes addr n)[j]? = some (view.read (addr + j)) := by
        simp [Memory.readBytes_eq_map, hj]
      have hfound := hread (BitVec.ofNat 64 (addr + j))
      rw [BitVec.toNat_ofNat, Nat.mod_eq_of_lt (by omega)] at hfound
      rw [hb]
      dsimp only
      split
      · rename_i hnone
        exact congrArg some ((if_pos hnone).mp hfound)
      · rename_i hsome
        exact ⟨_, (if_neg hsome).mp hfound, rfl⟩
  case start =>
    intro s t addr k v ts hts ht hs hk a
    obtain ⟨u, rfl, rfl⟩ := step_started hts ht hs hk
    exact u.startRaces_raceValues a
  case ends =>
    intro s t k ts hts ht hs hk a
    obtain ⟨u, rfl, hraces, hmem, rfl⟩ := step_ended hts ht hs hk
    rw [← hraces, ← hmem]
    refine ⟨u.finishRaces_read a, fun hwf v hv => ?_⟩
    have hn : (u.races.map (·.addr)).Nodup := hraces ▸ (State.racesWf_iff.mp hwf).1.nodup
    exact u.finishRaces_raceValues a hn hv

end Sys2Proof.Machine
end

section
/-! PROOFS. The command word: the decoder is inverse to the encoder, the legal words are the table of R98, and the rows
of the opcode map match the words of their commands (30_encoding.md R90 to R103; O1 to O4). -/

namespace Sys2Proof.Laws.TableRow

/-- Every command is legal, its word matches its row, and the word decodes to it. -/
theorem holds (i : Instr) : Statement i := by
  cases i
  exacts [nop, setkeyEcb, setkeyCbc, setkeyCts, setkeyEssiv, setkeyCtr, setkeyXctr, setkeyXts, setkeyCbcmac, setkeyCmac,
    setkeyXcbc, cryptEcbEnc _, cryptEcbDec _, cryptCbcEnc _, cryptCbcDec _, cryptCtsEnc _, cryptCtsDec _,
    cryptEssivEnc _, cryptEssivDec _, cryptCtrEnc _, cryptCtrDec _, cryptXctrEnc _, cryptXctrDec _, cryptXtsEnc _ _,
    cryptXtsDec _ _, macInitCbcmac, macInitCmac, macInitXcbc, macUpdateCbcmac _, macUpdateCmac _, macUpdateXcbc _,
    macFinupCbcmac _, macFinupCmac _, macFinupXcbc _]

end Sys2Proof.Laws.TableRow

namespace Sys2Proof

/-! ### The table of R98 -/

/-- The checks of `Fields.legal`, one a column, are the rows of the table of R98. -/
theorem Fields.legal_iff {f : Fields} :
    f.legal = true ↔ f.rsvd = 0 ∧
      ((f.op.toNat = 0 ∧ f.mode.toNat = 0 ∧ f.dir = false ∧ f.first = false ∧ f.sg = false) ∨
       (f.op.toNat = 1 ∧ (f.mode.toNat ≤ 6 ∨ 8 ≤ f.mode.toNat ∧ f.mode.toNat ≤ 10) ∧
         f.dir = false ∧ f.first = false ∧ f.sg = false) ∨
       (f.op.toNat = 2 ∧ f.mode.toNat ≤ 5 ∧ f.first = false) ∨
       (f.op.toNat = 2 ∧ f.mode.toNat = 6) ∨
       (f.op.toNat = 3 ∧ 8 ≤ f.mode.toNat ∧ f.mode.toNat ≤ 10 ∧ f.dir = false ∧ f.first = false ∧ f.sg = false) ∨
       (f.op.toNat = 4 ∧ 8 ≤ f.mode.toNat ∧ f.mode.toNat ≤ 10 ∧ f.dir = false ∧ f.first = false) ∨
       (f.op.toNat = 5 ∧ 8 ≤ f.mode.toNat ∧ f.mode.toNat ≤ 10 ∧ f.dir = false ∧ f.first = false)) := by
  simp only [Fields.legal, Fields.reservedOk, Fields.opOk, Fields.modeOk, Fields.cipherMode, Fields.macModeValue,
    Fields.dirOk, Fields.firstOk, Fields.sgOk, Bool.and_eq_true, Bool.or_eq_true, beq_iff_eq, decide_eq_true_eq,
    ← BitVec.toNat_inj, Bool.not_eq_true', and_assoc]
  refine and_congr_right fun _ => ?_
  rcases h : f.op.toNat with _ | _ | _ | _ | _ | _ | n <;> simp [and_assoc]
  case zero => exact fun _ _ _ => by bv_omega
  case succ.succ.zero => cases f.first <;> simp <;> omega

/-! ### Illegal fields -/

section
variable {f : Fields}

theorem Fields.illegal_of_rsvd (h : f.rsvd ≠ 0#21) : f.legal = false := by
  simp [Fields.legal, Fields.reservedOk, h]

theorem Fields.illegal_of_op (h : 5 < f.op.toNat) : f.legal = false := by
  simp [Fields.legal, Fields.opOk, h]

theorem Fields.illegal_of_mode (h : f.modeOk = false) : f.legal = false := by
  simp [Fields.legal, h]

/-- MODE is in no row of a MAC operation. -/
theorem Fields.illegal_of_macMode (hop : f.op = 3#4 ∨ f.op = 4#4 ∨ f.op = 5#4) (h8 : f.mode.toNat ≠ 8)
    (h9 : f.mode.toNat ≠ 9) (h10 : f.mode.toNat ≠ 10) : f.legal = false := by
  refine Fields.illegal_of_mode ?_
  rcases hop with hop | hop | hop <;> simp [Fields.modeOk, hop, Fields.macModeValue] <;> omega

theorem Fields.illegal_of_dir (hd : f.dir = true) (h : f.op ≠ 2#4) : f.legal = false := by
  simp [Fields.legal, Fields.dirOk, hd, h]

theorem Fields.illegal_of_first (hf : f.first = true) (h : f.op = 2#4 → f.mode ≠ 6#4) : f.legal = false := by
  have hfirst : f.firstOk = false := by simpa [Fields.firstOk, hf] using h
  simp [Fields.legal, hfirst]

theorem Fields.illegal_of_sg (hs : f.sg = true) (h : f.op ≠ 2#4 ∧ f.op ≠ 4#4 ∧ f.op ≠ 5#4) : f.legal = false := by
  simp [Fields.legal, Fields.sgOk, hs, h]

end

/-! ### What the decoder answers -/

/-- What the decoder may answer for these fields: a command with these fields, or a reason where they are not legal. -/
def Fields.Admits (f : Fields) : Except Reject Instr → Prop
  | .ok i => i.fields = f
  | .error _ => f.legal = false

section
variable {f : Fields} {op : BitVec 4} {m : Nat} (hr : f.rsvd = 0) (hop : f.op = op) (hm : f.mode.toNat = m)
include hr hop hm

/-- The fields of a word whose OP, MODE and reserved bits are known. -/
theorem Fields.withBits_eq : .withBits op (BitVec.ofNat 4 m) f.dir f.first f.sg = f := by
  rw [← hop, ← hm, BitVec.ofNat_toNat, BitVec.setWidth_eq, Fields.withBits, ← hr]

theorem Fields.admits_plain {i : Instr} (hi : i.fields = .fixed op (BitVec.ofNat 4 m))
    (ho : op ≠ 2#4 ∧ op ≠ 4#4 ∧ op ≠ 5#4) : f.Admits (f.plain i) := by
  have hf := Fields.withBits_eq hr hop hm
  rw [← hop] at ho
  unfold Fields.plain
  cases hd : f.dir
  case true => exact Fields.illegal_of_dir hd ho.1
  cases h1 : f.first
  case true => exact Fields.illegal_of_first h1 fun h => absurd h ho.1
  cases hs : f.sg
  case true => exact Fields.illegal_of_sg hs ho
  rw [hd, h1, hs] at hf
  exact hi.trans hf

theorem Fields.admits_macWithSg {c : Bool → Instr}
    (hi : ∀ sg, (c sg).fields = .withBits op (BitVec.ofNat 4 m) false false sg) (ho : op ≠ 2#4) :
    f.Admits (f.macWithSg c) := by
  have hf := Fields.withBits_eq hr hop hm
  rw [← hop] at ho
  unfold Fields.macWithSg
  cases hd : f.dir
  case true => exact Fields.illegal_of_dir hd ho
  cases h1 : f.first
  case true => exact Fields.illegal_of_first h1 fun h => absurd h ho
  rw [hd, h1] at hf
  exact (hi f.sg).trans hf

theorem Fields.admits_crypt {enc dec : Bool → Instr}
    (henc : ∀ sg, (enc sg).fields = .withBits op (BitVec.ofNat 4 m) false false sg)
    (hdec : ∀ sg, (dec sg).fields = .withBits op (BitVec.ofNat 4 m) true false sg) (hx : m ≠ 6) :
    f.Admits (f.crypt enc dec) := by
  have hf := Fields.withBits_eq hr hop hm
  unfold Fields.crypt
  cases h1 : f.first
  case true => exact Fields.illegal_of_first h1 fun _ h => hx (by rw [← hm, h]; rfl)
  rw [h1] at hf
  cases hd : f.dir <;> rw [hd] at hf
  · exact (henc f.sg).trans hf
  · exact (hdec f.sg).trans hf

end

section
variable {f : Fields} (hr : f.rsvd = 0)
include hr

theorem Fields.admits_decodeSetkey (hop : f.op = 1#4) : f.Admits f.decodeSetkey := by
  unfold Fields.decodeSetkey
  split
  case h_11 =>
    simp only [imp_false] at *
    exact Fields.illegal_of_mode (by simp [Fields.modeOk, hop, Fields.cipherMode, Fields.macModeValue]; omega)
  all_goals exact Fields.admits_plain hr hop ‹_› rfl (by decide)

theorem Fields.admits_decodeCrypt (hop : f.op = 2#4) : f.Admits f.decodeCrypt := by
  unfold Fields.decodeCrypt
  split
  case h_7 hm =>
    have hf := Fields.withBits_eq hr hop hm
    cases hd : f.dir <;> rw [hd] at hf <;> exact hf
  case h_8 =>
    simp only [imp_false] at *
    exact Fields.illegal_of_mode (by simp [Fields.modeOk, hop, Fields.cipherMode]; omega)
  all_goals exact Fields.admits_crypt hr hop ‹_› (fun _ => rfl) (fun _ => rfl) (by decide)

theorem Fields.admits_decodeMacInit (hop : f.op = 3#4) : f.Admits f.decodeMacInit := by
  unfold Fields.decodeMacInit
  split
  case h_4 h8 h9 h10 => exact Fields.illegal_of_macMode (.inl hop) h8 h9 h10
  all_goals exact Fields.admits_plain hr hop ‹_› rfl (by decide)

theorem Fields.admits_decodeMacUpdate (hop : f.op = 4#4) : f.Admits f.decodeMacUpdate := by
  unfold Fields.decodeMacUpdate
  split
  case h_4 h8 h9 h10 => exact Fields.illegal_of_macMode (.inr (.inl hop)) h8 h9 h10
  all_goals exact Fields.admits_macWithSg hr hop ‹_› (fun _ => rfl) (by decide)

theorem Fields.admits_decodeMacFinup (hop : f.op = 5#4) : f.Admits f.decodeMacFinup := by
  unfold Fields.decodeMacFinup
  split
  case h_4 h8 h9 h10 => exact Fields.illegal_of_macMode (.inr (.inr hop)) h8 h9 h10
  all_goals exact Fields.admits_macWithSg hr hop ‹_› (fun _ => rfl) (by decide)

end

/-- The decoder follows the checks of R98 (R101). -/
theorem Fields.admits_decode (f : Fields) : f.Admits f.decode := by
  have op {n : Nat} (h : f.op.toNat = n) : f.op = BitVec.ofNat 4 n := by rw [← h]; simp
  unfold Fields.decode
  split
  case isTrue hr => exact Fields.illegal_of_rsvd (by simpa using hr)
  rename_i hr
  have hr : f.rsvd = 0 := by simpa using hr
  split
  case h_1 h =>
    split
    case isTrue hm => exact Fields.admits_plain (m := 0) hr (op h) (by simp [eq_of_beq hm]) rfl (by decide)
    case isFalse hm => exact Fields.illegal_of_mode (by simpa [Fields.modeOk, h] using hm)
  case h_2 h => exact Fields.admits_decodeSetkey hr (op h)
  case h_3 h => exact Fields.admits_decodeCrypt hr (op h)
  case h_4 h => exact Fields.admits_decodeMacInit hr (op h)
  case h_5 h => exact Fields.admits_decodeMacUpdate hr (op h)
  case h_6 h => exact Fields.admits_decodeMacFinup hr (op h)
  case h_7 =>
    simp only [imp_false] at *
    exact Fields.illegal_of_op (by omega)

/-- Fields decode exactly where they are legal. -/
theorem Fields.exists_decode_iff {f : Fields} : (∃ i, f.decode = .ok i) ↔ f.legal = true := by
  have h := f.admits_decode
  constructor
  · rintro ⟨i, hi⟩
    rw [hi] at h
    obtain rfl : i.fields = f := h
    exact (Laws.TableRow.holds i).1
  · intro hl
    cases hd : f.decode with
    | ok i => exact ⟨i, rfl⟩
    | error x =>
      rw [hd] at h
      exact absurd hl (Bool.eq_false_iff.mp h)

/-! ### Words -/

theorem Fields.toWord_ofWord (w : Word) : (Fields.ofWord w).toWord = w := by
  have bit (i : Nat) : BitVec.ofBool (w.getLsbD i) = w.extractLsb' i 1 := by
    ext j hj
    obtain rfl : j = 0 := by omega
    simp
  simp only [Fields.toWord, Fields.ofWord, bit, BitVec.extractLsb'_append_extractLsb'_eq_extractLsb',
    BitVec.extractLsb'_eq_self]

/-- Settles O1: a command has the fields of the words that decode to it, and a word is made of its fields. -/
theorem decodeInvertsEncodeExactly : Obligations.DecodeInvertsEncodeExactly := by
  intro w i
  constructor
  · intro h
    have hf : (Fields.ofWord w).Admits (decode w) := Fields.admits_decode _
    rw [h] at hf
    calc encode i
        = (Fields.ofWord w).toWord := congrArg Fields.toWord hf
      _ = w := Fields.toWord_ofWord w
  · rintro rfl
    exact (Laws.TableRow.holds i).2.2

/-- Settles O2: a word decodes where its fields are legal, which they are in the rows of the table; and the commands
are counted. -/
theorem legalWordsAreTheTable : Obligations.LegalWordsAreTheTable := by
  refine ⟨fun w => Fields.exists_decode_iff.trans Fields.legal_iff, fun i => ?_, by decide, by decide, by decide⟩
  cases i
  case cryptXtsEnc first sg | cryptXtsDec first sg => cases first <;> cases sg <;> simp [Instr.all]
  all_goals simp [Instr.all]

/-! ### The opcode map (R102) -/

/-- The bits of a word that are FIRST and SG. -/
def freeBits (first sg : Bool) : Word := (if first then 0x200 else 0) ||| if sg then 0x400 else 0

theorem and_freeBits (w : Word) : w &&& 0x600 = freeBits (w.getLsbD 9) (w.getLsbD 10) := by
  have h : (0x600 : Word) = .twoPow 32 9 ||| .twoPow 32 10 := by decide
  rw [h, BitVec.and_or_distrib_left, BitVec.and_twoPow, BitVec.and_twoPow]
  rfl

/-- Only FIRST and SG can be free in a row. -/
theorem Instr.not_mask (i : Instr) : ~~~i.row.mask = 0x600 &&& ~~~i.row.mask := by
  cases i <;> dsimp only [Instr.row] <;> decide

/-- The value of a row, with any of its free bits set, decodes to a command of the row. -/
theorem Instr.decode_value_or (i : Instr) (first sg : Bool) :
    (decode (i.row.value ||| freeBits first sg &&& ~~~i.row.mask)).map Instr.row = .ok i.row := by
  cases i <;> dsimp only [Instr.row] <;> cases first <;> cases sg <;> decide

/-- A word that matches a row is the row's value but for its free bits. -/
theorem Instr.eq_of_matches {i : Instr} {w : Word} (h : i.row.matches w = true) :
    w = i.row.value ||| freeBits (w.getLsbD 9) (w.getLsbD 10) &&& ~~~i.row.mask := by
  have hv : w &&& i.row.mask = i.row.value := by simpa [TableRow.matches] using h
  calc w
      = w &&& (i.row.mask ||| ~~~i.row.mask) := by rw [BitVec.or_not_self, BitVec.and_allOnes]
    _ = i.row.value ||| w &&& ~~~i.row.mask := by rw [BitVec.and_or_distrib_left, hv]
    _ = i.row.value ||| freeBits (w.getLsbD 9) (w.getLsbD 10) &&& ~~~i.row.mask := by
      rw [← and_freeBits, BitVec.and_assoc, ← i.not_mask]

/-- Settles O3: a word that matches has the value of the row but for its free bits, so it decodes to a command of the
row; and the word of every command matches its row. -/
theorem wordsMatchTheirRow : Obligations.WordsMatchTheirRow := by
  intro w i
  constructor
  · intro h
    have hd := i.decode_value_or (w.getLsbD 9) (w.getLsbD 10)
    rw [← Instr.eq_of_matches h] at hd
    cases hw : decode w with
    | error x => rw [hw] at hd; cases hd
    | ok j =>
      rw [hw] at hd
      exact ⟨j, rfl, Except.ok.inj hd⟩
  · rintro ⟨j, hj, hrow⟩
    rw [← hrow, ← (decodeInvertsEncodeExactly w j).mp hj]
    exact (Laws.TableRow.holds j).2.1

/-- Settles O4: each word is the encoded command. -/
theorem specWordsDecode : Obligations.SpecWordsDecode := by
  refine ⟨?_, ?_, ?_, ?_, ?_, ?_, ?_, ?_, ?_, ?_⟩
  all_goals exact (decodeInvertsEncodeExactly _ _).mpr (by decide)

end Sys2Proof
end

section
/-! PROOFS. How an accepted word comes to run: a step with no turn listed runs the command that the word decodes to, an
engine turn takes one engine step of it, and an illegal word completes with IllegalCommand (30_encoding.md R99, R100;
40_control.md R112, R121; O18, O19). -/

namespace Sys2Proof.Machine

/-! ### With no turn listed -/

section
variable {s : State}

/-- With no turn listed a busy instance in focus moves. -/
theorem step_of_busy (ht : s.turns = []) (hb : s.eng.busy = true) : step s = engineTurn s := by
  simp only [step, ht, unscheduled, if_pos hb]

theorem Engine.busy_of_check {e : Engine} (h : e.phase = .check) : e.busy = true :=
  Engine.busy_iff.mpr (by rw [h]; decide)

/-- The command just accepted runs whole where nothing races with it (log entry 6). -/
theorem step_accepted {i : Instr} (ht : s.turns = []) (hph : s.eng.phase = .check)
    (hd : decode s.eng.latch.cmd = .ok i) (hq : s.quiet = true) : step s = exec i s := by
  rw [step_of_busy ht (Engine.busy_of_check hph)]
  simp only [engineTurn, hph, hd, if_pos hq]

/-- An illegal word just accepted completes, and its races end (40_control.md R112). -/
theorem step_illegal (ht : s.turns = []) (hph : s.eng.phase = .check)
    (hl : (Fields.ofWord s.eng.latch.cmd).legal = false) : step s = .next (illegalCommand s).finishRaces := by
  rw [step_of_busy ht (Engine.busy_of_check hph), ← State.ordered_of_ended (s := illegalCommand s) rfl]
  cases hd : decode s.eng.latch.cmd with
  | ok i =>
    have hlegal := Fields.exists_decode_iff.mp ⟨i, hd⟩
    rw [hl] at hlegal
    cases hlegal
  | error x => simp only [engineTurn, hph, hd]

/-- Placed where no other command is in progress, a command has nothing that races with it. -/
theorem State.quiet_placeCommand (h : ∀ e ∈ s.before ++ s.after, e.busy = false) (w : Word) :
    (s.placeCommand w).quiet = true := by
  have hall : (s.before ++ s.after).all (!·.busy) = true := List.all_eq_true.mpr fun e he => by rw [h e he]; rfl
  simp only [State.quiet, State.placeCommand_before, State.placeCommand_after, State.placeCommand_races, hall, if_true,
    List.isEmpty_nil, Bool.and_self]

/-! ### A turn of an instance -/

theorem step_engine {k : Nat} {e : Engine} {ts : List Turn} (ht : s.turns = .engine k :: ts)
    (he : s.engines[k]? = some e) : step s = .next (racedStep (({ s with turns := ts } : State).focusOn k e)) := by
  rw [step_of_turns ht, takeTurn, State.onEngine, State.focus_eq (s := { s with turns := ts }) he]

/-- An engine step that writes leaves its command in progress. -/
theorem microStep_busy_of_nextWrite {w : Nat × Bytes} (h : s.nextWrite = some w) : (microStep s).eng.busy = true := by
  by_contra hn
  rw [State.nextWrite_of_ended (eq_false_of_ne_true hn)] at h
  cases h

/-- With no record an engine turn is one engine step, but for the record of what it writes: a step that writes reaches
no ordering point, and any other finds no record to settle. -/
theorem racedStep_quiet (h : s.races = []) : ∃ rs, racedStep s = { microStep s with races := rs } := by
  have hraces : (microStep s).races = [] := by
    obtain ⟨_, _, _, hm, _⟩ := microStep_eq s
    rw [hm]
    exact h
  have hmem := microStep_mem s
  have hbusy (w) (hw : s.nextWrite = some w) := microStep_busy_of_nextWrite hw
  unfold racedStep
  dsimp only
  rw [State.seenBy_quiet h]
  generalize microStep s = t at *
  cases hw : s.nextWrite with
  | none =>
    simp only [hw] at hmem
    rw [State.sharedWrites, ← hmem, State.ordered_quiet hraces]
    exact ⟨t.races, rfl⟩
  | some w =>
    simp only [hw] at hmem
    obtain ⟨rs, hs⟩ := { t with mem := s.mem }.sharedWrite_eq (.engine s.before.length) w.1 w.2
    rw [State.sharedWrites, hs, State.nextWrite_busy hw, hmem]
    exact ⟨rs, State.ordered_of_busy (hbusy w hw)⟩

end

/-- Settles O18: an accepted command runs by its decoding, a placed one is accepted with nothing that races with it, and
an engine turn with no record is an engine step. -/
theorem stepRunsTheAcceptedCommand : Obligations.StepRunsTheAcceptedCommand := by
  refine ⟨fun s i => step_accepted, fun s i h => ?placed, ?turn⟩
  case placed =>
    exact step_accepted rfl rfl ((decodeInvertsEncodeExactly _ i).mpr rfl) (State.quiet_placeCommand h _)
  case turn =>
    intro s k e ts ht he hr
    have he : ({ s with turns := ts } : State).engines[k]? = some e := he
    obtain ⟨rs, hstep⟩ := racedStep_quiet (s := ({ s with turns := ts } : State).focusOn k e) hr
    obtain ⟨_, _, _, hm, _⟩ := microStep_eq (({ s with turns := ts } : State).focusOn k e)
    refine ⟨_, _, State.focus_eq he, rfl, State.focusOn_engines he, step_engine ht he, ?_⟩
    rw [hstep]
    exact ⟨rfl, rfl, rfl, by rw [hm], by rw [hm]⟩

/-- Settles O19: a write of CMD is an acceptance, and an illegal word completes with an error and the end of its races,
which change memory and the draws only where a byte on record is open. -/
theorem illegalWordCompletes : Obligations.IllegalWordCompletes := by
  refine ⟨fun e w he => ?accepted, fun s ht hph hl => ?completes⟩
  case accepted => exact congrArg Engine.busy (Engine.operandWrite_idle (f := e.accept w) he)
  case completes =>
    obtain ⟨mem, d, rs, hf, _, _, hmem, hdraws⟩ := (illegalCommand s).finishRaces_eq
    refine ⟨_, step_illegal ht hph hl, ?_⟩
    rw [hf]
    exact ⟨⟨rfl, rfl, rfl, rfl, rfl, rfl, rfl⟩, ⟨rfl, rfl, rfl, rfl, rfl⟩, ⟨rfl, rfl, rfl, rfl, rfl, rfl, rfl, rfl⟩,
      ⟨rfl, rfl, rfl⟩, rfl, rfl, rfl, rfl, rfl, hmem, hdraws⟩

end Sys2Proof.Machine
end

section
/-! PROOFS. What the host reads of a command that has been accepted or is under way (10_state.md R43;
40_control.md R111, R116; O17, O22). -/

namespace Sys2Proof.Machine

/-- Only STATUS shows that a word was accepted. -/
theorem Engine.hostRead_accept {r : Reg} (hr : r ≠ .status) (e : Engine) (w : Word) :
    (e.accept w).hostRead r = e.hostRead r := by
  cases r with
  | status => exact absurd rfl hr
  | _ => rfl

/-- Settles O17: while busy the write only flags itself; while idle it is the acceptance, field by field. -/
theorem acceptanceLatches : Obligations.AcceptanceLatches := by
  intro e w
  refine ⟨fun hb => Engine.operandWrite_busy hb _, fun hi => ?accepted⟩
  case accepted =>
    have hw : e.hostWrite .cmd w = e.accept w := Engine.operandWrite_idle hi
    obtain ⟨⟨hbusy, _⟩, _⟩ := statusFields (e.accept w) 0
    rw [hw]
    exact ⟨rfl, rfl, rfl, rfl, rfl, hbusy, Engine.accept_accepted e w, fun r hr => Engine.hostRead_accept hr e w,
      rfl, ⟨rfl, rfl, rfl⟩, rfl, rfl, rfl, rfl, rfl⟩

/-- A step that leaves its instance busy is one further on in the command: an error and COMMIT end it. -/
theorem Plan.Moves.onward {p : Plan} {e f : Engine} (h : p.Moves e f) (hb : f.busy = true) : e.Onward f := by
  cases h with
  | checked => exact Engine.Onward.trans ⟨_, _, _, _, _, _, _, rfl⟩ (p.settle_onward _)
  | mapped => exact Engine.Onward.trans ⟨_, _, _, _, _, _, _, rfl⟩ (p.settle_onward _)
  | seeded => exact Engine.Onward.trans ⟨_, _, _, _, _, _, _, rfl⟩ (p.settle_onward _)
  | accessed _ hf => exact hf.onward
  | unitEnded _ hf => exact (hf.onward.trans ⟨_, _, _, _, _, _, _, rfl⟩).trans (p.settle_onward _)
  | failed | committed => cases hb

theorem Engine.Steps.onward {e f : Engine} (h : e.Steps f) (hb : f.busy = true) : e.Onward f := by
  cases h with
  | idle hi => rw [hi] at hb; cases hb
  | illegal => cases hb
  | moves _ _ hf => exact hf.onward hb

/-- Inside a command the host reads the same of every register. -/
theorem Engine.Onward.hostRead {e f : Engine} (h : e.Onward f) (hbusy : f.busy = e.busy) (r : Reg) :
    f.hostRead r = e.hostRead r := by
  obtain ⟨_, _, _, _, _, _, _, rfl⟩ := h
  cases r with
  | status =>
    simp only [Engine.hostRead, Engine.statusWord, hbusy]
    rfl
  | _ => rfl

/-- Settles O22: such a step changes the phase, the working registers, the maps and the transfer only. -/
theorem busyStepsKeepRegisters : Obligations.BusyStepsKeepRegisters := by
  intro s hb
  obtain ⟨mem, d, f, hm, hf⟩ := microStep_eq s
  rw [hm] at hb ⊢
  refine ⟨(hf.onward hb).hostRead (hb.trans (hf.busy hb).symm), ?_⟩
  obtain ⟨_, _, _, _, _, _, _, rfl⟩ := hf.onward hb
  exact ⟨rfl, ⟨rfl, rfl, rfl⟩, rfl, rfl, rfl, rfl, rfl, rfl, rfl, rfl⟩

end Sys2Proof.Machine
end

section
/-! PROOFS. How a command completes: the errors its phases can raise, and that it ends with an error of its checks, with
one of its phases, or with success (40_control.md R113, R114, R117, R118; 60_exceptions.md R261, R265, R266; O24, O25,
O26, O32). -/

namespace Sys2Proof.Machine

/-! ### The errors of the phases -/

/-- What a part of a command raises, if anything, is such an error. -/
def Run.RaisesOnly (P : ErrorKind → Addr → Prop) : Run → Prop
  | .going _ => True
  | .raised k a _ => P k a

theorem Run.RaisesOnly.andThen {P : ErrorKind → Addr → Prop} {r : Run} {f : State → Run} (h : r.RaisesOnly P)
    (hf : ∀ t, (f t).RaisesOnly P) : (r.andThen f).RaisesOnly P := by
  cases r with
  | going t => exact hf t
  | raised => exact h

/-- The error of a refused access. -/
def ErrorKind.ofAccess (k : ErrorKind) (_ : Addr) : Prop := k = .bufferIoFailure

section
variable (p : Plan) (s : State)

theorem State.writePieces_raises (ps : List (Nat × Nat)) (v : Bytes) :
    (s.writePieces ps v).RaisesOnly ErrorKind.ofAccess := by
  induction ps generalizing s v with
  | nil => trivial
  | cons q ps ih =>
    unfold State.writePieces
    cases s.memWrite q.1 (v.take q.2) with
    | error a => exact rfl
    | ok t => exact ih t _

theorem Plan.runUnit_raises (inTail : Bool) (u : Nat) : (p.runUnit inTail u s).RaisesOnly ErrorKind.ofAccess := by
  unfold Plan.runUnit
  split
  · exact rfl
  · refine Run.RaisesOnly.andThen ?_ fun _ => trivial
    split
    · exact State.writePieces_raises _ _ _
    · trivial

theorem Plan.runBlocks_raises (n : Nat) : (p.runBlocks n s).RaisesOnly ErrorKind.ofAccess := by
  induction n generalizing s with
  | zero => trivial
  | succ n ih => exact (p.runUnit_raises s false 16).andThen ih

theorem Plan.runTail_raises : (p.runTail s).RaisesOnly ErrorKind.ofAccess := by
  unfold Plan.runTail
  split
  · exact p.runUnit_raises s true _
  · trivial

theorem Plan.runMap_raises : (p.runMap s).RaisesOnly ErrorKind.ofAccess := by
  unfold Plan.runMap
  split
  · split
    · exact rfl
    · split
      · split
        · exact rfl
        · trivial
      · trivial
  · trivial

end

section
variable {i : Instr}

/-- A command that moves no data reads nothing. -/
theorem bytesRead_eq_zero (h : i.fields.op.toNat ∉ [2, 4, 5]) (l : Latch) : bytesRead i l = 0 := by
  unfold bytesRead
  split <;> simp_all

/-- The work of a command that moves no data is its SEED. -/
theorem planOf_runWork_eq_runSeed (h : i.fields.op.toNat ∉ [2, 4, 5]) (s : State) :
    (planOf i).runWork s = (planOf i).runSeed s := by
  refine Plan.runWork_noData (by rw [planOf_moves, decide_eq_false h]) (fun e => ?_) (fun e => ?_) s
  · rw [planOf_bulk]
    exact Nat.le_zero.mp ((bulkBytes_le i e.latch).trans_eq (bytesRead_eq_zero h _))
  · rw [planOf_total, bytesRead_eq_zero h]

/-- Only SETKEY.ESSIV raises an error in SEED, where its digest fails (41_setkey.md R135). -/
theorem planOf_seed_error {b : Bool} {e : Engine} {k : ErrorKind} (h : (planOf i).seed b e = .error k) :
    i = .setkeyEssiv ∧ k = .essivHashFailure := by
  cases i
  case setkeyEssiv =>
    cases b
    · cases h
    · exact ⟨rfl, (Except.error.inj h).symm⟩
  all_goals cases h

/-- What the phases MAP to TAIL of a command raise: a refused access where it moves data, a failed digest under
SETKEY.ESSIV. -/
theorem planOf_runWork_raises (i : Instr) (s : State) : ((planOf i).runWork s).RaisesOnly fun k a =>
    i.fields.op.toNat ∈ [2, 4, 5] ∧ k = .bufferIoFailure ∨ i = .setkeyEssiv ∧ k = .essivHashFailure ∧ a = 0 := by
  by_cases hop : i.fields.op.toNat ∈ [2, 4, 5]
  · have hseed (t : State) : ((planOf i).runSeed t).RaisesOnly ErrorKind.ofAccess := by
      obtain ⟨w, hw⟩ := planOf_seed_ok hop t.eng
      unfold Plan.runSeed
      rw [hw]
      trivial
    have hwork : ((planOf i).runWork s).RaisesOnly ErrorKind.ofAccess :=
      ((((planOf i).runMap_raises s).andThen hseed).andThen fun t => Plan.runBlocks_raises _ t _).andThen
        (planOf i).runTail_raises
    cases hr : (planOf i).runWork s with
    | going t => trivial
    | raised k a t =>
      rw [hr] at hwork
      exact .inl ⟨hop, hwork⟩
  · rw [planOf_runWork_eq_runSeed hop]
    unfold Plan.runSeed
    cases hs : (planOf i).seed (Config.hashFail s.draws) s.eng with
    | ok w => trivial
    | error k =>
      obtain ⟨hi, hk⟩ := planOf_seed_error hs
      exact .inr ⟨hi, hk, rfl⟩

/-! ### The completion -/

/-- COMMIT leaves the error report (60_exceptions.md R266). -/
theorem planOf_commit_err (i : Instr) (e : Engine) :
    ((planOf i).commit e).err = e.err ∧ ((planOf i).commit e).errAddr = e.errAddr := by
  cases i
  case cryptEssivEnc | cryptEssivDec =>
    change (commitEssiv e).err = e.err ∧ (commitEssiv e).errAddr = e.errAddr
    unfold commitEssiv
    split <;> exact ⟨rfl, rfl⟩
  all_goals exact ⟨rfl, rfl⟩

/-- How the command `i` takes an engine from `e` to its completion `f`. -/
inductive Engine.Completes (i : Instr) (e f : Engine) : Prop where
  /-- A check fails. -/
  | checked {k : ErrorKind} (hc : (planOf i).checkError e = some k) (hf : f.failedWith k 0)
  /-- An access is refused. -/
  | refused (hc : (planOf i).checkError e = none) (hop : i.fields.op.toNat ∈ [2, 4, 5]) {a : Addr}
      (hf : f.failedWith .bufferIoFailure a)
  /-- The digest fails. -/
  | digestFailed (hc : (planOf i).checkError e = none) (hi : i = .setkeyEssiv)
      (hf : f.failedWith .essivHashFailure 0)
  /-- The command is done. -/
  | succeeded (hc : (planOf i).checkError e = none) (hf : f.succeededFrom e)

/-- A failed check ends its command, and touches no memory (R113, R114). -/
theorem runCommand_checkError {p : Plan} {s : State} {k : ErrorKind} (h : p.checkError s.eng = some k) :
    (runCommand p s).eng.failedWith k 0 ∧ (runCommand p s).mem = s.mem := by
  have he : runCommand p s = s.setEng ((p.onError s.eng).fail k 0) := by
    simp only [runCommand, h, Plan.failStep]
  rw [he]
  exact ⟨⟨rfl, rfl, rfl, rfl, rfl, rfl, rfl⟩, rfl⟩

/-- Every command completes (R117). -/
theorem runCommand_completes (i : Instr) (s : State) : s.eng.Completes i (runCommand (planOf i) s).eng := by
  rcases runCommand_cases (planOf i) s with ⟨k, hc, _⟩ | ⟨k, a, t, hc, hw, _⟩ | ⟨t, hc, _, hr, he⟩
  · exact .checked hc (runCommand_checkError hc).1
  · obtain ⟨hf, _⟩ := runCommand_raised hc hw
    have hraises := planOf_runWork_raises i s
    rw [hw] at hraises
    rcases hraises with ⟨hop, rfl⟩ | ⟨hi, rfl, rfl⟩
    · exact .refused hc hop hf
    · exact .digestFailed hc hi hf
  · obtain ⟨herr, haddr⟩ := planOf_commit_err i t.eng
    obtain ⟨_, _, _, _, _, _, _, rfl, _⟩ := hr
    rw [he]
    exact .succeeded hc ⟨rfl, rfl, rfl, herr, haddr, rfl, rfl⟩

/-! ### The kinds of errors -/

theorem lengthRule_kind {l : Latch} {k : ErrorKind} (h : lengthRule i l = some k) :
    k ∈ errorKinds i ∧ k ∈ [ErrorKind.invalidKeyLength, .invalidRequestLength, .unsupportedLength] := by
  unfold lengthRule at h
  unfold errorKinds
  split at h <;> grind

theorem keyNotSet_mem_errorKinds (h : i.fields.op.toNat ∈ [2, 3, 4, 5]) : .keyNotSet ∈ errorKinds i := by
  unfold errorKinds
  grind

theorem sequenceError_mem_errorKinds (h : i.fields.op.toNat ∈ [4, 5]) : .sequenceError ∈ errorKinds i := by
  unfold errorKinds
  grind

theorem bufferIoFailure_mem_errorKinds (h : i.fields.op.toNat ∈ [2, 4, 5]) : .bufferIoFailure ∈ errorKinds i := by
  unfold errorKinds
  grind

/-- The checks report errors of the command's row, in the order KeyNotSet, SequenceError, length (R267). -/
theorem checkError_mem_errorKinds {e : Engine} {k : ErrorKind} (h : (planOf i).checkError e = some k) :
    k ∈ errorKinds i := by
  obtain ⟨hkey, hmac, hlen⟩ := planOf_checkError i e
  by_cases h1 : i.fields.op.toNat ∈ [2, 3, 4, 5] → e.keyFor (modeClass i.fields.mode)
  · by_cases h2 : i.fields.op.toNat ∈ [4, 5] → e.macActive = true ∧ e.macMode = i.fields.mode
    · obtain ⟨hk, _⟩ := lengthRule_kind ((hlen ⟨h1, h2⟩).symm.trans h)
      exact hk
    · obtain ⟨hop, hm⟩ := Classical.not_imp.mp h2
      obtain rfl := Option.some.inj ((hmac h1 hop hm).symm.trans h)
      exact sequenceError_mem_errorKinds hop
  · obtain ⟨hop, hk⟩ := Classical.not_imp.mp h1
    obtain rfl := Option.some.inj ((hkey ⟨hop, hk⟩).symm.trans h)
    exact keyNotSet_mem_errorKinds hop

end

/-- Settles O24: a failed check, a refused access and a failed digest are errors of the command's row. -/
theorem commandsCompleteWithTheirKinds : Obligations.CommandsCompleteWithTheirKinds := by
  intro i s
  refine ⟨_, exec_eq i s, ?_⟩
  cases runCommand_completes i s with
  | checked hc hf => exact .inr ⟨_, checkError_mem_errorKinds hc, 0, hf, fun _ => rfl⟩
  | refused _ hop hf => exact .inr ⟨_, bufferIoFailure_mem_errorKinds hop, _, hf, fun h => absurd rfl h⟩
  | digestFailed _ hi hf => exact .inr ⟨_, by rw [hi]; decide, 0, hf, fun _ => rfl⟩
  | succeeded _ hf => exact .inl hf

theorem Engine.failedWith.code {e : Engine} {k : ErrorKind} {a : Addr} (h : e.failedWith k a) :
    e.errCode = k.code := by
  obtain ⟨_, _, _, hcode, _⟩ := h
  exact hcode

theorem Engine.succeededFrom.code {e f : Engine} (h : f.succeededFrom e) : f.errCode = 0 := by
  obtain ⟨_, _, hcode, _⟩ := h
  exact hcode

/-- Settles O25: a check that fails ends the command at once, and with check 2 passed the errors left have other
codes. -/
theorem keyAndSequenceChecks : Obligations.KeyAndSequenceChecks := by
  intro i s
  obtain ⟨hkey, hmac, hlen⟩ := planOf_checkError i s.eng
  refine ⟨fun hop hk => ⟨_, exec_eq i s, runCommand_checkError (hkey ⟨hop, hk⟩)⟩, fun hop hk hm => ?sequence,
    fun hok t ht => ?other⟩
  case sequence =>
    exact ⟨_, exec_eq i s, runCommand_checkError (hmac (fun _ => hk) hop (by grind))⟩
  case other =>
    obtain rfl := exec_next ht
    cases runCommand_completes i s with
    | checked hc hf =>
      obtain ⟨_, hkind⟩ := lengthRule_kind ((hlen hok).symm.trans hc)
      rw [hf.code]
      simp only [List.mem_cons, List.not_mem_nil, or_false] at hkind
      rcases hkind with rfl | rfl | rfl <;> decide
    | refused _ _ hf => rw [hf.code]; decide
    | digestFailed _ _ hf => rw [hf.code]; decide
    | succeeded _ hf => rw [hf.code]; decide

/-- Settles O26: with check 2 passed check 3 is the length rule, and once it passes the errors left have other codes. -/
theorem lengthChecks : Obligations.LengthChecks := by
  intro i s hok
  obtain ⟨_, _, hlen⟩ := planOf_checkError i s.eng
  refine ⟨fun k hk => ⟨_, exec_eq i s, runCommand_checkError ((hlen hok).trans hk)⟩, fun hnone t ht => ?other⟩
  obtain rfl := exec_next ht
  cases runCommand_completes i s with
  | checked hc => rw [hlen hok, hnone] at hc; cases hc
  | refused _ _ hf => rw [hf.code]; decide
  | digestFailed _ _ hf => rw [hf.code]; decide
  | succeeded _ hf => rw [hf.code]; decide

/-- NOP as a whole (R118). -/
theorem runCommand_nop (s : State) : runCommand (planOf .nop) s = s.setEng { s.eng with result := 0 }.succeed :=
  runCommand_noData rfl rfl rfl (fun _ => rfl) rfl rfl

/-- Settles O32: NOP is a completion that writes RESULT; from reset, where nothing races with it, it is the next
step. -/
theorem nopCompletes : Obligations.NopCompletes := by
  refine ⟨fun s => ⟨_, (exec_eq .nop s).trans (congrArg _ (runCommand_nop s)), ?frame⟩, ?reset⟩
  case frame =>
    exact ⟨⟨rfl, rfl, rfl, rfl, rfl, rfl, rfl⟩, rfl, ⟨rfl, rfl, rfl, rfl, rfl, rfl, rfl, rfl⟩, ⟨rfl, rfl, rfl⟩, rfl,
      rfl, rfl, rfl, rfl, rfl, rfl, rfl, rfl, rfl⟩
  case reset =>
    exact ⟨_, (step_accepted rfl rfl (by decide) (State.quiet_placeCommand (by decide) _)).trans (exec_eq .nop _),
      by decide⟩

end Sys2Proof.Machine
end

section
/-! PROOFS. What a MAC command leaves as it was (40_control.md R122; 46_mac.md R230; O54). -/

namespace Sys2Proof.Machine

/-! ### Memory -/

section
variable {p : Plan} (hst : p.stores = false) {m : Memory}
include hst

theorem Plan.runUnit_mem (inTail : Bool) (u : Nat) {s : State} (h : s.mem = m) :
    (p.runUnit inTail u s).state.mem = m := by
  unfold Plan.runUnit
  rw [hst]
  split <;> exact h

theorem Plan.runBlocks_mem (n : Nat) {s : State} (h : s.mem = m) : (p.runBlocks n s).state.mem = m := by
  induction n generalizing s with
  | zero => exact h
  | succ n ih =>
    exact Run.andThen_holds (P := fun t => t.mem = m) (Plan.runUnit_mem hst false 16 h) (fun _ => id) fun _ => ih

theorem Plan.runTail_mem {s : State} (h : s.mem = m) : (p.runTail s).state.mem = m := by
  unfold Plan.runTail
  split
  · exact Plan.runUnit_mem hst true _ h
  · exact h

theorem Plan.runMap_mem {s : State} (h : s.mem = m) : (p.runMap s).state.mem = m := by
  unfold Plan.runMap
  rw [hst]
  split
  · split <;> exact h
  · exact h

/-- The phases of a command that stores nothing leave memory as it was, not only as it reads. -/
theorem Plan.runWork_mem (s : State) : (p.runWork s).state.mem = s.mem := by
  have seeded : ((p.runMap s).andThen p.runSeed).state.mem = s.mem :=
    Run.andThen_holds (P := fun t => t.mem = s.mem) (Plan.runMap_mem hst rfl) (fun _ => id)
      fun t ht => (p.runSeed_same t).1.trans ht
  have bulk : (((p.runMap s).andThen p.runSeed).andThen p.runBulk).state.mem = s.mem :=
    Run.andThen_holds (P := fun t => t.mem = s.mem) seeded (fun _ => id) fun _ => Plan.runBlocks_mem hst _
  exact Run.andThen_holds (P := fun t => t.mem = s.mem) bulk (fun _ => id) fun _ => Plan.runTail_mem hst

theorem runCommand_mem_of_stores (s : State) : (runCommand p s).mem = s.mem := by
  cases hc : p.checkError s.eng with
  | some k =>
    obtain ⟨_, hm⟩ := runCommand_checkError hc
    exact hm
  | none => rw [runCommand_mem hc, Plan.runWork_mem hst]

end

/-! ### The engine -/

/-- `f` is `e` but for what a MAC command may change: the MAC computation, its mode where `init` holds, the result, the
status, and what a completion empties. -/
structure Engine.MacFrame (init : Prop) (e f : Engine) : Prop where
  slot : f.slot = e.slot
  iv : f.iv = e.iv
  xctr : f.xctr = e.xctr
  operands : f.sameOperands e
  macMode : ¬ init → f.macMode = e.macMode

section
variable {i : Instr} (hi : i.fields.op.toNat ∈ [3, 4, 5]) (e : Engine)
include hi

theorem planOf_onError_macFrame (k : ErrorKind) (a : Addr) :
    e.MacFrame (i.fields.op = 3) (((planOf i).onError e).fail k a) := by
  have hop : i.fields.op.toNat ≠ 1 := by
    intro h
    rw [h] at hi
    exact absurd hi (by decide)
  rw [planOf_onError, if_neg hop, if_pos hi]
  exact ⟨rfl, rfl, rfl, ⟨rfl, rfl, rfl, rfl, rfl, rfl, rfl, rfl⟩, fun _ => rfl⟩

theorem planOf_commit_macFrame : e.MacFrame (i.fields.op = 3) ((planOf i).commit e).succeed := by
  cases i
  case macInitCbcmac | macInitCmac | macInitXcbc =>
    exact ⟨rfl, rfl, rfl, ⟨rfl, rfl, rfl, rfl, rfl, rfl, rfl, rfl⟩, fun h => absurd rfl h⟩
  case macUpdateCbcmac | macUpdateCmac | macUpdateXcbc | macFinupCbcmac | macFinupCmac | macFinupXcbc =>
    exact ⟨rfl, rfl, rfl, ⟨rfl, rfl, rfl, rfl, rfl, rfl, rfl, rfl⟩, fun _ => rfl⟩
  all_goals simp [Instr.fields, Fields.fixed, Fields.withBits] at hi

end

/-- Settles O54: these commands store nothing and draw nothing, and their COMMIT and their errors change the MAC
computation only. -/
theorem macFrame : Obligations.MacFrame := by
  intro i s t hi ht
  obtain rfl := exec_next ht
  obtain ⟨hb, ha, hp, hturns, hseen, _⟩ := runCommand_frame (planOf i) s
  have hst : (planOf i).stores = false := by
    rw [planOf_stores, decide_eq_false]
    intro h
    rw [h] at hi
    exact absurd hi (by decide)
  have hdraws : (planOf i).draws = false := by
    obtain ⟨_, _, _, hd⟩ := planOf_shape i
    rw [hd, decide_eq_false]
    rintro rfl
    exact absurd hi (by decide)
  have heng : s.eng.MacFrame (i.fields.op = 3) (runCommand (planOf i) s).eng := by
    rcases runCommand_cases (planOf i) s with ⟨k, _, he⟩ | ⟨k, a, t, _, _, hr, he⟩ | ⟨t, _, _, hr, he⟩
    · rw [he]
      exact planOf_onError_macFrame hi s.eng k 0
    · have hf := planOf_onError_macFrame hi t.eng k a
      obtain ⟨_, _, _, _, _, _, _, rfl, _⟩ := hr
      rw [he]
      exact ⟨hf.slot, hf.iv, hf.xctr, hf.operands, hf.macMode⟩
    · have hf := planOf_commit_macFrame hi t.eng
      obtain ⟨_, _, _, _, _, _, _, rfl, _⟩ := hr
      rw [he]
      exact ⟨hf.slot, hf.iv, hf.xctr, hf.operands, hf.macMode⟩
  exact ⟨runCommand_mem_of_stores hst s, heng.slot, heng.iv, heng.xctr, heng.operands, ⟨hb, ha, hp, hturns, hseen⟩,
    runCommand_draws hdraws s, runCommand_races (planOf i) s, heng.macMode⟩

end Sys2Proof.Machine
end

section
/-! PROOFS. The engine steps of a command, counted; the phase of a command, which its position tells and its computations
do not ask for (40_control.md R110, R121; log entry 9). -/

namespace Sys2Proof.Machine

/-! ### The step of each phase -/

section
variable {p : Plan} {s : State}

theorem engineStep_idle (h : s.eng.phase = .idle) : engineStep p s = s := by simp only [engineStep, h]

theorem engineStep_check (h : s.eng.phase = .check) : engineStep p s = p.checkStep s := by simp only [engineStep, h]

theorem engineStep_map (h : s.eng.phase = .map) : engineStep p s = p.mapStep s := by simp only [engineStep, h]

theorem engineStep_seed (h : s.eng.phase = .seed) : engineStep p s = p.seedStep s := by simp only [engineStep, h]

theorem engineStep_transfer (h : s.eng.phase = .bulk ∨ s.eng.phase = .tail) :
    engineStep p s = p.transferStep s := by
  rcases h with h | h <;> simp only [engineStep, h]

theorem engineStep_commit (h : s.eng.phase = .commit) : engineStep p s = p.commitStep s := by
  simp only [engineStep, h]

end

/-! ### Numbers of steps -/

/-- At most `n` engine steps lead from `s` to `t`. -/
def Plan.Within (p : Plan) (n : Nat) (s t : State) : Prop := ∃ m ≤ n, (engineStep p)^[m] s = t

section
variable {p : Plan} {m n : Nat} {s t u : State}

theorem Plan.Within.refl (s : State) : p.Within 0 s s := ⟨0, le_rfl, rfl⟩

theorem Plan.Within.mono (h : p.Within m s t) (hmn : m ≤ n) : p.Within n s t := by
  obtain ⟨k, hk, rfl⟩ := h
  exact ⟨k, hk.trans hmn, rfl⟩

theorem Plan.Within.trans (h : p.Within m s t) (k : p.Within n t u) : p.Within (m + n) s u := by
  obtain ⟨a, ha, rfl⟩ := h
  obtain ⟨b, hb, rfl⟩ := k
  exact ⟨b + a, by omega, Function.iterate_add_apply _ b a s⟩

theorem Plan.Within.step (h : p.Within n (engineStep p s) t) : p.Within (n + 1) s t := by
  obtain ⟨k, hk, rfl⟩ := h
  exact ⟨k + 1, by omega, Function.iterate_succ_apply _ k s⟩

theorem Plan.Within.of_eq (h : engineStep p s = t) : p.Within 1 s t := ⟨1, le_rfl, h⟩

/-- A command that has come to rest in time is there for good. -/
theorem Plan.Within.iterate (h : p.Within n s t) (hi : t.eng.phase = .idle) : (engineStep p)^[n] s = t := by
  obtain ⟨k, hk, rfl⟩ := h
  rw [show n = (n - k) + k by omega, Function.iterate_add_apply, Function.iterate_fixed (engineStep_idle hi)]

/-- The steps from `s` do what the part `r` of the command does: in `n` steps they come to `f` of the state in which it
goes on, and in one more at most to the completion with the error it raises. -/
def Plan.Leads (p : Plan) (n : Nat) (s : State) (f : State → State) : Run → Prop
  | .going t => p.Within n s (f t)
  | .raised k a t => p.Within (n + 1) s (p.failStep k a t)

theorem Plan.Leads.mono {f : State → State} {r : Run} (h : p.Leads m s f r) (hmn : m ≤ n) : p.Leads n s f r := by
  cases r with
  | going => exact Plan.Within.mono h hmn
  | raised => exact Plan.Within.mono h (Nat.succ_le_succ hmn)

theorem Plan.Leads.step {f : State → State} {r : Run} (h : p.Leads n (engineStep p s) f r) : p.Leads (n + 1) s f r := by
  cases r with
  | going => exact Plan.Within.step h
  | raised => exact Plan.Within.step h

theorem Plan.Within.leads {f : State → State} {r : Run} (h : p.Within m s t) (hr : p.Leads n t f r) :
    p.Leads (m + n) s f r := by
  cases r with
  | going => exact h.trans hr
  | raised => exact h.trans hr

theorem Plan.Leads.andThen_going {f g : State → State} {r : Run} (h : p.Leads n s (fun t => f (g t)) r) :
    p.Leads n s f (r.andThen fun t => .going (g t)) := by
  cases r <;> exact h

theorem Plan.Leads.andThen {f h : State → State} {r : Run} {g : State → Run} (hr : p.Leads m s f r)
    (hg : ∀ t, r = .going t → p.Leads n (f t) h (g t)) : p.Leads (m + n) s h (r.andThen g) := by
  cases r with
  | raised k a t => exact Plan.Within.mono hr (by omega)
  | going t =>
    have ht := hg t rfl
    rw [Run.andThen_going]
    have first : p.Within m s (f t) := hr
    cases hgt : g t with
    | going v =>
      rw [hgt] at ht
      exact first.trans ht
    | raised k a v =>
      rw [hgt] at ht
      exact first.trans ht

end

/-! ### Phases -/

/-- The state with the command in another phase. -/
def State.inPhase (s : State) (ph : Phase) : State := s.setEng { s.eng with phase := ph }

/-- The state with the command inside a unit. -/
def State.inUnit (s : State) (ph : Phase) (ui : Bytes) (uo : Option Bytes) : State :=
  s.setEng { s.eng with phase := ph, unitIn := ui, unitOut := uo }

theorem State.inUnit_of_between {s : State} (h : s.eng.betweenUnits) (ph : Phase) :
    s.inUnit ph [] none = s.inPhase ph := by
  obtain ⟨hi, ho⟩ := h
  rw [State.inUnit, ← hi, ← ho]
  rfl

/-- An error completion empties the maps and the transfer. -/
theorem planOf_failStep_setEng (i : Instr) (k : ErrorKind) (a : Addr) (s : State) (ph : Phase) (sm dm : List Segment)
    (d : Nat) (ui : Bytes) (uo : Option Bytes) :
    (planOf i).failStep k a (s.setEng { s.eng with
      phase := ph, srcMap := sm, dstMap := dm, descIndex := d, unitIn := ui, unitOut := uo }) =
      (planOf i).failStep k a s := by
  unfold Plan.failStep
  rw [planOf_onError]
  split
  · rfl
  · split <;> rfl

theorem planOf_failStep_inUnit (i : Instr) (k : ErrorKind) (a : Addr) (s : State) (ph : Phase) (ui : Bytes)
    (uo : Option Bytes) : (planOf i).failStep k a (s.inUnit ph ui uo) = (planOf i).failStep k a s :=
  planOf_failStep_setEng i k a s ph s.eng.srcMap s.eng.dstMap s.eng.descIndex ui uo

theorem planOf_failStep_inPhase (i : Instr) (k : ErrorKind) (a : Addr) (s : State) (ph : Phase) :
    (planOf i).failStep k a (s.inPhase ph) = (planOf i).failStep k a s :=
  planOf_failStep_inUnit i k a s ph s.eng.unitIn s.eng.unitOut

/-- The computation of a unit does not ask how far the command is. -/
theorem planOf_compute_inUnit (i : Instr) (e : Engine) (ph : Phase) (ui : Bytes) (uo : Option Bytes) (t : Bool)
    (b : Bytes) : (planOf i).compute { e with phase := ph, unitIn := ui, unitOut := uo } t b =
      (planOf i).compute e t b := by
  cases i <;> cases t <;> rfl

theorem planOf_seed_inPhase (i : Instr) (b : Bool) (e : Engine) (ph : Phase) :
    (planOf i).seed b { e with phase := ph } = (planOf i).seed b e := by
  cases i <;> rfl

theorem commitEssiv_inPhase (e : Engine) (ph : Phase) :
    (commitEssiv { e with phase := ph }).succeed = (commitEssiv e).succeed := by
  by_cases h : e.latch.len.toNat = 0 <;> simp only [commitEssiv, Engine.reqLen, h] <;> rfl

theorem planOf_commitStep_inPhase (i : Instr) (s : State) (ph : Phase) :
    (planOf i).commitStep (s.inPhase ph) = (planOf i).commitStep s := by
  cases i
  case cryptEssivEnc | cryptEssivDec => exact congrArg s.setEng (commitEssiv_inPhase s.eng ph)
  all_goals rfl

/-- The phase of a command whose units are done up to the position (R110, R120). -/
def Plan.phaseAt (p : Plan) (e : Engine) : Phase :=
  if e.work.pos < p.bulk e then .bulk else if e.work.pos < p.total e then .tail else .commit

/-- The state in which the unit at the position begins, or COMMIT where no unit remains. -/
def Plan.atUnit (p : Plan) (s : State) : State := s.inPhase (p.phaseAt s.eng)

section
variable (p : Plan) {e : Engine}

theorem Plan.settle_tail (h : e.phase = .tail) (hb : p.bulk e ≤ e.work.pos) :
    p.settle e = { e with phase := p.phaseAt e } := by
  have hm : p.settleMap e = e := by simp [Plan.settleMap, h]
  have hk : p.settleBulk e = e := by simp [Plan.settleBulk, h]
  rw [Plan.settle, hm, hk, Plan.settleTail, Plan.phaseAt, if_neg (Nat.not_lt.mpr hb)]
  by_cases ht : e.work.pos < p.total e
  · rw [if_neg (by simp [h, ht]), if_pos ht, ← h]
  · rw [if_pos (by simp [h, Nat.not_lt.mp ht]), if_neg ht]

theorem Plan.settle_bulk (h : e.phase = .bulk) : p.settle e = { e with phase := p.phaseAt e } := by
  have hm : p.settleMap e = e := by simp [Plan.settleMap, h]
  by_cases hb : e.work.pos < p.bulk e
  · have hk : p.settleBulk e = e := by simp [Plan.settleBulk, h, hb]
    have ht : p.settleTail e = e := by simp [Plan.settleTail, h]
    rw [Plan.settle, hm, hk, ht, Plan.phaseAt, if_pos hb, ← h]
  · have hk : p.settleBulk e = { e with phase := .tail } := by simp [Plan.settleBulk, h, Nat.not_lt.mp hb]
    have ht : p.settle e = p.settle { e with phase := .tail } := by
      rw [Plan.settle, hm, hk]
      rfl
    rw [ht]
    exact p.settle_tail (e := { e with phase := .tail }) rfl (Nat.not_lt.mp hb)

/-- After a unit the command is where its position says. -/
theorem Plan.settle_unit (h : e.phase = .bulk ∨ e.phase = .tail ∧ p.bulk e ≤ e.work.pos) :
    p.settle e = { e with phase := p.phaseAt e } := by
  rcases h with h | ⟨h, hb⟩
  · exact p.settle_bulk h
  · exact p.settle_tail h hb

end

end Sys2Proof.Machine
end

section
/-! PROOFS. BULK and TAIL in engine steps: a unit is read piece by piece, computed with its last read or its first
write, and written piece by piece (20_memory.md R66 to R68; 40_control.md R121). -/

namespace Sys2Proof.Machine

/-! ### The pieces of a unit -/

theorem pieces_ne_nil {m : List Segment} {off n : Nat} (hn : n ≠ 0) (h : off + n ≤ mapLen m) : pieces m off n ≠ [] := by
  intro he
  have hb := flatMap_readBytes_pieces [] h
  rw [he] at hb
  exact hn (by simpa using congrArg List.length hb.symm)

theorem length_pieces_le (m : List Segment) (off n : Nat) : (pieces m off n).length ≤ n := by
  induction m, off, n using pieces_induction with
  | nil | zero => simp [pieces]
  | skip seg m off n h ih => rwa [pieces_cons_ge h]
  | piece seg m off n hn h ih =>
    rw [pieces_cons_lt hn h, List.length_cons]
    omega

/-- The first piece of a range, and the pieces after it. -/
theorem pieces_eq_cons {m : List Segment} {off n a k : Nat} {rest : List (Nat × Nat)} (hle : off + n ≤ mapLen m)
    (h : pieces m off n = (a, k) :: rest) :
    0 < k ∧ k ≤ n ∧ rest = pieces m (off + k) (n - k) ∧ (rest = [] ↔ k = n) := by
  obtain ⟨_, hrest⟩ := pieces_eq_append (before := [(a, k)]) h
  have hsum := sum_pieces_le m off n
  obtain ⟨hk, _⟩ := pieces_within (h ▸ List.mem_cons_self : (a, k) ∈ pieces m off n)
  simp only [h, List.map_cons, List.sum_cons, List.map_nil, List.sum_nil, Nat.add_zero] at hrest hsum hk
  refine ⟨hk, by omega, hrest, fun he => ?_, fun he => by rw [hrest, he, Nat.sub_self, pieces_zero]⟩
  by_contra hkn
  exact pieces_ne_nil (by omega) (by omega) (hrest.symm.trans he)

/-! ### One unit -/

/-- The unit of `u` bytes at the position, in phase `ph`: it lies in the maps. -/
structure Plan.UnitAt (p : Plan) (ph : Phase) (u : Nat) (e : Engine) : Prop where
  phase : ph = .bulk ∨ ph = .tail
  length : p.unitLen { e with phase := ph } = u
  pos : 0 < u
  bulk : ph = .tail → p.bulk e ≤ e.work.pos
  source : e.work.pos + u ≤ mapLen e.srcMap
  destination : p.stores = true → e.work.pos + u ≤ mapLen e.dstMap

/-- The state after a unit whose last access is done. -/
def Plan.pastUnit (p : Plan) (u : Nat) (s : State) : State := p.atUnit (s.setEng (s.eng.advance u))

/-- A unit that is read has come to its writes, or to its end where the command stores nothing. -/
def Plan.readUnit (p : Plan) (ph : Phase) (u : Nat) (s : State) (b : Bytes) : State :=
  if p.stores then s.inUnit ph b none else p.pastUnit u (s.setWork (p.compute s.eng (ph == .tail) b).2)

theorem Plan.UnitAt.setWork {p : Plan} {ph : Phase} {u : Nat} {e : Engine} (h : p.UnitAt ph u e) {w : Work}
    (hw : w.pos = e.work.pos) : p.UnitAt ph u { e with work := w } := by
  obtain ⟨hph, hl, h0, hb, hs, hd⟩ := h
  refine ⟨hph, ?_, h0, fun ht => (hb ht).trans_eq hw.symm, by rwa [hw], fun hst => ?_⟩
  · rw [← hl]
    simp only [Plan.unitLen, hw]
    rfl
  · rw [hw]
    exact hd hst

section
variable {i : Instr} {ph : Phase} {u : Nat} {s : State} (h : (planOf i).UnitAt ph u s.eng)
include h

theorem Plan.UnitAt.endUnit (ui : Bytes) (uo : Option Bytes) :
    (planOf i).endUnit (s.inUnit ph ui uo) = (planOf i).pastUnit u s := by
  have hl : (planOf i).unitLen (s.inUnit ph ui uo).eng = u := h.length
  unfold Plan.endUnit
  rw [hl, Plan.settle_unit]
  · rfl
  · rcases h.phase with rfl | rfl
    · exact .inl rfl
    · exact .inr ⟨rfl, (h.bulk rfl).trans (Nat.le_add_right _ _)⟩

/-- Where nothing is stored, the computation ends the unit. -/
theorem Plan.UnitAt.computeUnit (hst : (planOf i).stores = false) (ui b : Bytes) :
    (planOf i).computeUnit (s.inUnit ph ui none) b = (planOf i).readUnit ph u s b := by
  have hc : (planOf i).compute (s.inUnit ph ui none).eng (ph == .tail) b = (planOf i).compute s.eng (ph == .tail) b :=
    planOf_compute_inUnit i s.eng ph ui none _ b
  have hend := (h.setWork (planOf_keepsPos i s.eng (ph == .tail) b)).endUnit
    (s := s.setWork ((planOf i).compute s.eng (ph == .tail) b).2) ui none
  rw [Plan.readUnit, hst, if_neg Bool.false_ne_true, ← hend, ← hc]
  unfold Plan.computeUnit
  rw [hst]
  rfl

section
variable {ui : Bytes} {a k : Nat} {rest : List (Nat × Nat)} (hlt : ui.length < u)
  (hps : pieces s.eng.srcMap (s.eng.work.pos + ui.length) (u - ui.length) = (a, k) :: rest)
include hlt

/-- While bytes of the unit are missing its step is a read piece. -/
theorem Plan.UnitAt.engineStep_reading :
    engineStep (planOf i) (s.inUnit ph ui none) = (planOf i).readStep (s.inUnit ph ui none) := by
  have hl : (planOf i).unitLen (s.inUnit ph ui none).eng = u := h.length
  rw [engineStep_transfer h.phase]
  exact if_pos (hlt.trans_eq hl.symm)

include hps

theorem Plan.UnitAt.engineStep_read_refused {x : Addr} (hr : s.memRead a k = .error x) :
    engineStep (planOf i) (s.inUnit ph ui none) = (planOf i).failStep .bufferIoFailure x s := by
  have hl : (planOf i).unitLen (s.inUnit ph ui none).eng = u := h.length
  have hpieces : pieces (s.inUnit ph ui none).eng.srcMap
      ((s.inUnit ph ui none).eng.work.pos + (s.inUnit ph ui none).eng.unitIn.length)
      (u - (s.inUnit ph ui none).eng.unitIn.length) = (a, k) :: rest := hps
  have hmem : (s.inUnit ph ui none).memRead a k = .error x := hr
  rw [h.engineStep_reading hlt, Plan.readStep]
  simp only [hl, hpieces, hmem]
  exact planOf_failStep_inUnit i _ x s ph ui none

/-- The last read piece computes where the command stores nothing. -/
theorem Plan.UnitAt.engineStep_read {b : Bytes} (hr : s.memRead a k = .ok b) :
    engineStep (planOf i) (s.inUnit ph ui none) =
      if rest = [] then (planOf i).readUnit ph u s (ui ++ b) else s.inUnit ph (ui ++ b) none := by
  have hl : (planOf i).unitLen (s.inUnit ph ui none).eng = u := h.length
  have hpieces : pieces (s.inUnit ph ui none).eng.srcMap
      ((s.inUnit ph ui none).eng.work.pos + (s.inUnit ph ui none).eng.unitIn.length)
      (u - (s.inUnit ph ui none).eng.unitIn.length) = (a, k) :: rest := hps
  have hmem : (s.inUnit ph ui none).memRead a k = .ok b := hr
  have hdone : ui.length + k = u ↔ rest = [] := by
    have hsrc := h.source
    obtain ⟨_, _, _, hlast⟩ := pieces_eq_cons (by omega) hps
    rw [hlast]
    omega
  rw [h.engineStep_reading hlt, Plan.readStep]
  simp only [hl, hpieces, hmem]
  cases hst : (planOf i).stores with
  | true =>
    have hgo : (planOf i).readUnit ph u s (ui ++ b) = s.inUnit ph (ui ++ b) none := if_pos hst
    rw [hgo, ite_self]
    exact if_neg fun hc => Bool.false_ne_true hc.2.symm
  | false =>
    by_cases he : rest = []
    · rw [if_pos he, ← h.computeUnit hst ui]
      exact if_pos ⟨hdone.mpr he, rfl⟩
    · rw [if_neg he]
      exact if_neg fun hc => he (hdone.mp hc.1)

end

/-- The read pieces of a unit, one step each (20_memory.md R66). -/
theorem Plan.UnitAt.reads {ps : List (Nat × Nat)} {ui : Bytes} (hlt : ui.length < u)
    (hps : pieces s.eng.srcMap (s.eng.work.pos + ui.length) (u - ui.length) = ps) :
    (∀ x, s.readPieces ps = .error x →
      (planOf i).Within ps.length (s.inUnit ph ui none) ((planOf i).failStep .bufferIoFailure x s)) ∧
    (∀ b, s.readPieces ps = .ok b →
      (planOf i).Within ps.length (s.inUnit ph ui none) ((planOf i).readUnit ph u s (ui ++ b))) := by
  have hsrc := h.source
  induction ps generalizing ui with
  | nil => exact absurd hps (pieces_ne_nil (by omega) (by omega))
  | cons q rest ih =>
    obtain ⟨a, k⟩ := q
    obtain ⟨_, hk, hrest, hlast⟩ := pieces_eq_cons (by omega) hps
    unfold State.readPieces
    cases hr : s.memRead a k with
    | error x =>
      refine ⟨fun y hy => ?_, fun b hb => nomatch hb⟩
      obtain rfl := Except.error.inj hy
      exact (Plan.Within.of_eq (h.engineStep_read_refused hlt hps hr)).mono (by simp)
    | ok b =>
      have hstep := h.engineStep_read hlt hps hr
      obtain ⟨_, rfl⟩ := State.memRead_ok hr
      have tail : (∀ x, s.readPieces rest = .error x → (planOf i).Within rest.length
            (engineStep (planOf i) (s.inUnit ph ui none)) ((planOf i).failStep .bufferIoFailure x s)) ∧
          (∀ bs, s.readPieces rest = .ok bs → (planOf i).Within rest.length
            (engineStep (planOf i) (s.inUnit ph ui none))
            ((planOf i).readUnit ph u s (ui ++ s.mem.readBytes a k ++ bs))) := by
        rw [hstep]
        by_cases he : rest = []
        · subst he
          refine ⟨fun x hx => (nomatch hx), fun bs hbs => ?_⟩
          obtain rfl := Except.ok.inj hbs
          rw [if_pos rfl, List.append_nil]
          exact .refl _
        · have hne : k ≠ u - ui.length := mt hlast.mpr he
          rw [if_neg he]
          exact ih (by rw [List.length_append, Memory.length_readBytes]; omega)
            (by rw [List.length_append, Memory.length_readBytes, hrest, Nat.add_assoc, Nat.sub_add_eq])
      obtain ⟨herror, hok⟩ := tail
      cases hr' : s.readPieces rest with
      | error x =>
        refine ⟨fun y hy => ?_, fun b hb => nomatch hb⟩
        obtain rfl := Except.error.inj hy
        exact .step (herror x hr')
      | ok bs =>
        refine ⟨fun x hx => (nomatch hx), fun b hb => ?_⟩
        obtain rfl := Except.ok.inj hb
        rw [← List.append_assoc]
        exact .step (hok bs hr')

end

/-! ### The writes of a unit -/

section
variable {i : Instr} {ph : Phase} {u : Nat}

/-- The step of a write piece of a unit whose bytes are computed. -/
theorem Plan.UnitAt.engineStep_write {s : State} (h : (planOf i).UnitAt ph u s.eng) (ui out : Bytes) :
    engineStep (planOf i) (s.inUnit ph ui (some out)) = (planOf i).writeStep (s.inUnit ph ui (some out)) out :=
  engineStep_transfer h.phase

/-- The write pieces of a unit, the first of them with the step at hand, one step each (20_memory.md R67). -/
theorem Plan.UnitAt.writes {ps : List (Nat × Nat)} {s : State} (h : (planOf i).UnitAt ph u s.eng)
    (hst : (planOf i).stores = true) {ui out : Bytes} (h0 : out ≠ []) (hle : out.length ≤ u)
    (hps : pieces s.eng.dstMap (s.eng.work.pos + (u - out.length)) out.length = ps) :
    (planOf i).Leads (ps.length - 1) ((planOf i).writeStep (s.inUnit ph ui (some out)) out)
      ((planOf i).pastUnit u) (s.writePieces ps out) := by
  induction ps generalizing s out with
  | nil =>
    have hdst := h.destination hst
    have hpos := List.length_pos_iff.mpr h0
    exact absurd hps (pieces_ne_nil (by omega) (by omega))
  | cons q rest ih =>
    obtain ⟨a, k⟩ := q
    have hdst := h.destination hst
    obtain ⟨_, hk, hrest, hlast⟩ := pieces_eq_cons (by omega) hps
    have hl : (planOf i).unitLen (s.inUnit ph ui (some out)).eng = u := h.length
    have hpieces : pieces (s.inUnit ph ui (some out)).eng.dstMap
        ((s.inUnit ph ui (some out)).eng.work.pos + (u - out.length)) out.length = (a, k) :: rest := hps
    have hacc : (s.inUnit ph ui (some out)).accessOk a (out.take k).length .write =
      s.accessOk a (out.take k).length .write := rfl
    unfold State.writePieces Plan.writeStep State.memWrite
    simp only [hl, hpieces, hacc]
    cases s.accessOk a (out.take k).length .write with
    | false => exact ⟨0, Nat.zero_le _, planOf_failStep_inUnit i _ _ s ph ui (some out)⟩
    | true =>
      simp only [if_true]
      have ht : (planOf i).UnitAt ph u ({ s with mem := s.mem.writeBytes a (out.take k) } : State).eng := h
      by_cases he : out.drop k = []
      · have hlen : k = out.length := by
          have := List.drop_eq_nil_iff.mp he
          omega
        rw [if_pos he, hlast.mpr hlen]
        exact ⟨0, Nat.zero_le _, ht.endUnit ui (some out)⟩
      · have hne : rest.length ≠ 0 := by
          intro hr
          exact he (List.drop_eq_nil_iff.mpr (hlast.mp (List.length_eq_zero_iff.mp hr)).ge)
        have hnext := ih ht he (by rw [List.length_drop]; omega)
          (by
            rw [hrest, List.length_drop]
            congr 1
            have := List.length_pos_iff.mpr he
            rw [List.length_drop] at this
            dsimp only
            omega)
        rw [← ht.engineStep_write] at hnext
        rw [if_neg he, show ((a, k) :: rest).length - 1 = rest.length - 1 + 1 by rw [List.length_cons]; omega]
        exact hnext.step

/-- Where the unit is read and its bytes are stored, the first write piece goes with its computation. -/
theorem Plan.UnitAt.engineStep_compute {s : State} (h : (planOf i).UnitAt ph u s.eng)
    (hst : (planOf i).stores = true) {b : Bytes} (hb : b.length = u) :
    engineStep (planOf i) (s.inUnit ph b none) = (planOf i).writeStep
      ((s.setWork ((planOf i).compute s.eng (ph == .tail) b).2).inUnit ph b
        (some ((planOf i).compute s.eng (ph == .tail) b).1))
      ((planOf i).compute s.eng (ph == .tail) b).1 := by
  have hread : ¬ (s.inUnit ph b none).eng.unitIn.length < (planOf i).unitLen (s.inUnit ph b none).eng :=
    Nat.not_lt.mpr (h.length.trans hb.symm).le
  have hcompute : (planOf i).computeUnit (s.inUnit ph b none) b =
      (s.setWork ((planOf i).compute s.eng (ph == .tail) b).2).inUnit ph b
        (some ((planOf i).compute s.eng (ph == .tail) b).1) := by
    rw [← planOf_compute_inUnit i s.eng ph b none]
    exact if_pos hst
  rw [engineStep_transfer h.phase]
  refine (if_neg hread).trans ?_
  change (match ((planOf i).computeUnit (s.inUnit ph b none) b).eng.unitOut with
    | some out => (planOf i).writeStep ((planOf i).computeUnit (s.inUnit ph b none) b) out
    | none => (planOf i).computeUnit (s.inUnit ph b none) b) = _
  rw [hcompute]
  rfl

/-- A unit takes at most two steps a byte (R121). -/
theorem Plan.UnitAt.runUnit {s : State} (h : (planOf i).UnitAt ph u s.eng) (hb : s.eng.betweenUnits)
    (hout : (planOf i).stores = true → ∀ b : Bytes, b.length = u →
      ((planOf i).compute s.eng (ph == .tail) b).1.length = u) :
    (planOf i).Leads (2 * u) (s.inPhase ph) (planOf i).atUnit ((planOf i).runUnit (ph == .tail) u s) := by
  have hpos := h.pos
  obtain ⟨herror, hok⟩ := h.reads (ui := []) (by simpa using hpos) rfl
  rw [List.length_nil, Nat.add_zero, Nat.sub_zero] at herror hok
  have hsteps := length_pieces_le s.eng.srcMap s.eng.work.pos u
  rw [← State.inUnit_of_between hb]
  unfold Plan.runUnit
  cases hr : s.streamRead s.eng.srcMap s.eng.work.pos u with
  | error x => exact (herror x hr).mono (by omega)
  | ok b =>
    have hread := hok b hr
    rw [List.nil_append] at hread
    dsimp only
    cases hst : (planOf i).stores with
    | false =>
      rw [Plan.readUnit, hst] at hread
      exact hread.mono (by omega)
    | true =>
      have hlen := State.length_streamRead hr h.source
      rw [Plan.readUnit, if_pos hst] at hread
      have hkeeps := planOf_keepsPos i s.eng (ph == .tail) b
      have hstep := h.engineStep_compute hst hlen
      have hout := hout hst b hlen
      generalize (planOf i).compute s.eng (ph == .tail) b = r at *
      have hw := Plan.UnitAt.writes (s := s.setWork r.2) (h.setWork hkeeps) hst (ui := b) (out := r.1)
        (List.length_pos_iff.mp (by omega)) hout.le rfl
      have hoff : (s.setWork r.2).eng.work.pos + (u - r.1.length) = s.eng.work.pos := by
        rw [hout, Nat.sub_self]
        exact hkeeps
      have hsteps' := length_pieces_le (s.setWork r.2).eng.dstMap s.eng.work.pos r.1.length
      rw [hoff, ← hstep] at hw
      have hend := Plan.Leads.andThen_going (f := (planOf i).atUnit) (g := fun t => t.setEng (t.eng.advance u)) hw.step
      exact (hread.leads hend).mono (by omega)

end

/-! ### The units of a command -/

section
variable {i : Instr} {l : Latch} {sm dm : List Segment} (hc : Covers i l sm dm)
include hc

/-- The position of a unit tells its phase. -/
theorem Covers.phaseAt {q : Nat × Nat} (hq : q ∈ unitsOf i l) {e : Engine} (he : e.Transferring l sm dm q.1) :
    ∃ ph, (planOf i).phaseAt e = ph ∧ (ph == .tail) = decide (bulkBytes i l.len.toNat ≤ q.1) ∧
      (planOf i).UnitAt ph q.2 e := by
  obtain ⟨hl, hsm, hdm, hpos⟩ := he
  have hbulk : (planOf i).bulk e = bulkBytes i l.len.toNat := by rw [planOf_bulk, Engine.reqLen, hl]
  have htotal : (planOf i).total e = bytesRead i l := by rw [planOf_total, hl]
  have hle := mem_unitsOf_le hq
  have hsource : e.work.pos + q.2 ≤ mapLen e.srcMap := by rwa [hpos, hsm, hc.source]
  have hdest (hst : (planOf i).stores = true) : e.work.pos + q.2 ≤ mapLen e.dstMap := by
    rwa [hpos, hdm, hc.destination ((planOf_stores_iff i).mp hst)]
  unfold Plan.phaseAt
  rw [hbulk, htotal, hpos]
  rcases mem_unitsOf hq with ⟨hlt, h16⟩ | ⟨heq, hu, hlt⟩
  · refine ⟨.bulk, if_pos (by omega), ?_, .inl rfl, h16.symm, by omega, fun h => (nomatch h), hsource, hdest⟩
    rw [decide_eq_false (by omega)]
    rfl
  · refine ⟨.tail, by rw [if_neg (by omega), if_pos (by omega)], ?_, .inr rfl, ?_, by omega, fun _ => ?_, hsource,
      hdest⟩
    · rw [decide_eq_true heq.ge]
      rfl
    · change (planOf i).total e - e.work.pos = q.2
      rw [htotal, hpos, heq, hu]
    · rw [hbulk, hpos, heq]

theorem Covers.runUnits_leads {us : List (Nat × Nat)} {a : Nat} (hus : Abut a us (bytesRead i l))
    (hmem : ∀ q ∈ us, q ∈ unitsOf i l) {s : State} (hs : s.eng.Transferring l sm dm a) (hb : s.eng.betweenUnits) :
    (planOf i).Leads (2 * (bytesRead i l - a)) ((planOf i).atUnit s) (·.inPhase .commit)
      ((planOf i).runUnits (bulkBytes i l.len.toNat) us s) := by
  induction us generalizing a s with
  | nil =>
    have hle := bulkBytes_le i l
    have ha : a = bytesRead i l := hus
    have hcommit : (planOf i).phaseAt s.eng = .commit := by
      rw [Plan.phaseAt, planOf_bulk, planOf_total, Engine.reqLen, hs.latch, hs.pos, ha, if_neg (by omega),
        if_neg (by omega)]
    have hat : (planOf i).atUnit s = s.inPhase .commit := by rw [Plan.atUnit, hcommit]
    rw [hat]
    exact Plan.Within.mono (.refl _) (Nat.zero_le _)
  | cons q us ih =>
    obtain ⟨rfl, hus⟩ := hus
    have hq := hmem q List.mem_cons_self
    have hle := hus.le
    obtain ⟨ph, hph, htail, hunit⟩ := hc.phaseAt hq hs
    have hlead := hunit.runUnit hb fun hst b hlen => by
      rw [htail]
      exact planOf_compute_length ((planOf_stores_iff i).mp hst) hc.length hq _ hlen
    rw [htail, ← hph] at hlead
    refine (Plan.Leads.andThen hlead fun t ht => ih hus (fun q' hq' => hmem q' (List.mem_cons_of_mem _ hq'))
      (Plan.runUnit_transferring (planOf_keepsPos i) hs ht) ?_).mono (by omega)
    obtain ⟨_, _, rfl⟩ := Plan.runUnit_going ht
    exact ⟨rfl, rfl⟩

end

end Sys2Proof.Machine
end

section
/-! PROOFS. MAP in engine steps: a list is walked descriptor by descriptor, the source list first, and a flat map takes no
step (20_memory.md R62, R65; 40_control.md R121; log entry 9). -/

namespace Sys2Proof.Machine

/-! ### MAP -/

section
variable (p : Plan) {e : Engine}

theorem Plan.settle_seed (h : e.phase = .seed) : p.settle e = e := by
  simp [Plan.settle, Plan.settleMap, Plan.settleBulk, Plan.settleTail, h]

/-- What MAP passes on to. -/
theorem Plan.settle_of_settleMap {f : Engine} (h : p.settleMap e = f) (hf : f.phase = .map ∨ f.phase = .seed) :
    p.settle e = f := by
  rw [Plan.settle, h]
  rcases hf with hf | hf <;> simp [Plan.settleBulk, Plan.settleTail, hf]

variable (h : e.phase = .map)
include h

/-- The flat maps take no step of their own (log entry 9). -/
theorem Plan.settle_flat (hsg : p.sg = false) : p.settle e =
    { e with
      srcMap := flatBuffer e.latch.src (p.total e)
      dstMap := if p.stores then flatBuffer e.latch.dst (p.total e) else []
      phase := .seed } := by
  refine p.settle_of_settleMap ?_ (.inr rfl)
  unfold Plan.settleMap flatBuffer
  simp only [h, hsg]
  cases p.stores <;> by_cases hn : p.total e = 0 <;> simp [hn]

variable (hsg : p.sg = true)
include hsg

theorem Plan.settleMap_lists : p.settleMap e =
    if mapLen e.srcMap = p.total e ∧ (p.stores = true → mapLen e.dstMap = p.total e) then { e with phase := .seed }
    else e := by
  simp [Plan.settleMap, h, hsg]

theorem Plan.settle_mapped (hs : mapLen e.srcMap = p.total e) (hd : p.stores = true → mapLen e.dstMap = p.total e) :
    p.settle e = { e with phase := .seed } :=
  p.settle_of_settleMap ((p.settleMap_lists h hsg).trans (if_pos ⟨hs, hd⟩)) (.inr rfl)

theorem Plan.settle_unmapped (hn : ¬ (mapLen e.srcMap = p.total e ∧ (p.stores = true → mapLen e.dstMap = p.total e))) :
    p.settle e = e :=
  p.settle_of_settleMap ((p.settleMap_lists h hsg).trans (if_neg hn)) (.inl h)

end

/-- A descriptor gives no more than the request lacks. -/
theorem State.mapLen_descriptorStep_le {s : State} {base n k : Nat} {m m' : List Segment} (hm : mapLen m ≤ n)
    (h : s.descriptorStep base n k m = .ok m') : mapLen m' ≤ n := by
  unfold State.descriptorStep at h
  cases hr : s.memRead (base + 16 * k) 16 with
  | error a =>
    rw [hr] at h
    cases h
  | ok d =>
    rw [hr] at h
    dsimp only at h
    have hle : mapLen (if le (slice d 8 12) > 0 then
        m ++ [Segment.mk (le (slice d 0 8)) (min (le (slice d 8 12)) (n - mapLen m))] else m) ≤ n := by
      split
      · rw [mapLen_concat]
        dsimp only
        omega
      · exact hm
    generalize (if le (slice d 8 12) > 0 then
      m ++ [Segment.mk (le (slice d 0 8)) (min (le (slice d 8 12)) (n - mapLen m))] else m) = m1 at h hle
    split at h
    · exact Except.ok.inj h ▸ hle
    · split at h
      · cases h
      · exact Except.ok.inj h ▸ hle

/-- The command in the walk of a list: of the source list where `src` holds, else of the destination list with the
source map `sm` built; `k` descriptors have given the map `m`. -/
def State.walking (s : State) (src : Bool) (sm m : List Segment) (k : Nat) : State :=
  s.setEng { s.eng with
    phase := .map, srcMap := if src then m else sm, dstMap := if src then [] else m, descIndex := k }

/-- The list of the walk. -/
def Engine.listBase (e : Engine) (src : Bool) : Addr := if src then e.latch.src else e.latch.dst

/-- A descriptor of the walk is done. -/
def Plan.walked (p : Plan) (s : State) (src : Bool) (sm m : List Segment) (k : Nat) : State :=
  s.setEng (p.settle (s.walking src sm m k).eng)

section
variable {i : Instr} (hsg : (planOf i).sg = true) {s : State} {src : Bool} {sm m : List Segment}
  (hsrc : src = false → mapLen sm = (planOf i).total s.eng ∧ (planOf i).stores = true)
  (hm : mapLen m < (planOf i).total s.eng)

theorem planOf_failStep_walking (i : Instr) (x : Addr) (s : State) (src : Bool) (sm m : List Segment) (k : Nat) :
    (planOf i).failStep .bufferIoFailure x (s.walking src sm m k) = (planOf i).failStep .bufferIoFailure x s :=
  planOf_failStep_setEng i _ x s .map _ _ k s.eng.unitIn s.eng.unitOut

include hsrc hm

/-- One step of MAP: one descriptor (20_memory.md R65). -/
theorem planOf_mapStep_walking (k : Nat) : (planOf i).mapStep (s.walking src sm m k) =
    if k = 0 ∧ (s.eng.listBase src).toNat % 16 ≠ 0 then
      (planOf i).failStep .bufferIoFailure (s.eng.listBase src) (s.walking src sm m k)
    else if k = s.platform.maxSegments then
      (planOf i).failStep .bufferIoFailure (refusedAddr ((s.eng.listBase src).toNat + 16 * k)) (s.walking src sm m k)
    else
      match s.descriptorStep (s.eng.listBase src).toNat ((planOf i).total s.eng) k m with
      | .error a => (planOf i).failStep .bufferIoFailure a (s.walking src sm m k)
      | .ok m' => (planOf i).walked s src sm m' (if mapLen m' = (planOf i).total s.eng then 0 else k + 1) := by
  have hin : decide (mapLen (s.walking src sm m k).eng.srcMap < (planOf i).total (s.walking src sm m k).eng) = src := by
    cases src with
    | true => exact decide_eq_true hm
    | false => exact decide_eq_false (hsrc rfl).1.ge.not_gt
  unfold Plan.mapStep
  simp only [hin]
  cases src <;> rfl

section
variable (hk : k < s.platform.maxSegments) (hal : k = 0 → (s.eng.listBase src).toNat % 16 = 0)
include hal

theorem planOf_engineStep_long (hk : k = s.platform.maxSegments) : engineStep (planOf i) (s.walking src sm m k) =
    (planOf i).failStep .bufferIoFailure (refusedAddr ((s.eng.listBase src).toNat + 16 * k)) s := by
  rw [engineStep_map rfl, planOf_mapStep_walking hsrc hm, if_neg fun h => h.2 (hal h.1), if_pos hk,
    planOf_failStep_walking]

include hk

theorem planOf_engineStep_descriptor_error {x : Addr}
    (hd : s.descriptorStep (s.eng.listBase src).toNat ((planOf i).total s.eng) k m = .error x) :
    engineStep (planOf i) (s.walking src sm m k) = (planOf i).failStep .bufferIoFailure x s := by
  rw [engineStep_map rfl, planOf_mapStep_walking hsrc hm, if_neg fun h => h.2 (hal h.1), if_neg hk.ne, hd]
  exact planOf_failStep_walking i x s src sm m k

theorem planOf_engineStep_descriptor {m' : List Segment}
    (hd : s.descriptorStep (s.eng.listBase src).toNat ((planOf i).total s.eng) k m = .ok m') :
    engineStep (planOf i) (s.walking src sm m k) =
      (planOf i).walked s src sm m' (if mapLen m' = (planOf i).total s.eng then 0 else k + 1) := by
  rw [engineStep_map rfl, planOf_mapStep_walking hsrc hm, if_neg fun h => h.2 (hal h.1), if_neg hk.ne, hd]

end

include hsg

/-- Where the request is not complete the walk goes on. -/
theorem planOf_walked_incomplete (k : Nat) : (planOf i).walked s src sm m k = s.walking src sm m k := by
  refine congrArg s.setEng ((planOf i).settle_unmapped rfl hsg ?_)
  rintro ⟨h1, h2⟩
  cases src with
  | true => exact hm.ne h1
  | false => exact hm.ne (h2 (hsrc rfl).2)

/-- The walk of a list takes a step for each descriptor, and one for an error. -/
theorem planOf_walk {fuel : Nat} (hk : k + fuel = s.platform.maxSegments)
    (hal : k = 0 → (s.eng.listBase src).toNat % 16 = 0) :
    (∀ x, s.walkList (s.eng.listBase src).toNat ((planOf i).total s.eng) fuel k m = .error x →
      (planOf i).Within (fuel + 1) (s.walking src sm m k) ((planOf i).failStep .bufferIoFailure x s)) ∧
    (∀ m', s.walkList (s.eng.listBase src).toNat ((planOf i).total s.eng) fuel k m = .ok m' →
      (planOf i).Within fuel (s.walking src sm m k) ((planOf i).walked s src sm m' 0)) := by
  induction fuel generalizing k m with
  | zero =>
    refine ⟨fun x hx => ?_, fun m' hm' => nomatch hm'⟩
    obtain rfl := Except.error.inj hx
    exact .of_eq (planOf_engineStep_long hsrc hm hal hk)
  | succ fuel ih =>
    have hlt : k < s.platform.maxSegments := by omega
    unfold State.walkList
    cases hd : s.descriptorStep (s.eng.listBase src).toNat ((planOf i).total s.eng) k m with
    | error a =>
      refine ⟨fun x hx => ?_, fun m' hm' => nomatch hm'⟩
      obtain rfl := Except.error.inj hx
      exact (Plan.Within.of_eq (planOf_engineStep_descriptor_error hsrc hm hlt hal hd)).mono (by omega)
    | ok m1 =>
      have hstep := planOf_engineStep_descriptor hsrc hm hlt hal hd
      dsimp only
      by_cases hn : mapLen m1 = (planOf i).total s.eng
      · rw [if_pos hn] at hstep ⊢
        refine ⟨fun x hx => (nomatch hx), fun m' hm' => ?_⟩
        obtain rfl := Except.ok.inj hm'
        exact (Plan.Within.of_eq hstep).mono (by omega)
      · have hm1 := lt_of_le_of_ne (State.mapLen_descriptorStep_le hm.le hd) hn
        rw [if_neg hn] at hstep ⊢
        rw [planOf_walked_incomplete hsg hsrc hm1] at hstep
        obtain ⟨herror, hok⟩ := ih hm1 (k := k + 1) (by omega) (fun h => nomatch h)
        exact ⟨fun x hx => .step (hstep ▸ herror x hx), fun m' hm' => .step (hstep ▸ hok m' hm')⟩

end

/-- `BuildMap` of a list, a step for each descriptor and one for an error. -/
theorem planOf_buildMap {i : Instr} (hsg : (planOf i).sg = true) {s : State} {src : Bool} {sm : List Segment}
    (hsrc : src = false → mapLen sm = (planOf i).total s.eng ∧ (planOf i).stores = true)
    (hn : (planOf i).total s.eng ≠ 0) :
    (∀ x, s.buildMap true (s.eng.listBase src) ((planOf i).total s.eng) = .error x →
      (planOf i).Within (s.platform.maxSegments + 1) (s.walking src sm [] 0)
        ((planOf i).failStep .bufferIoFailure x s)) ∧
    (∀ m', s.buildMap true (s.eng.listBase src) ((planOf i).total s.eng) = .ok m' →
      (planOf i).Within s.platform.maxSegments (s.walking src sm [] 0) ((planOf i).walked s src sm m' 0)) := by
  have hm : mapLen [] < (planOf i).total s.eng := Nat.pos_of_ne_zero hn
  by_cases hal : (s.eng.listBase src).toNat % 16 = 0
  · unfold State.buildMap
    rw [if_neg hn, if_pos rfl, if_neg (not_not.mpr hal)]
    exact planOf_walk hsg hsrc hm (Nat.zero_add _) fun _ => hal
  · rw [State.buildMap_misaligned s hn hal]
    refine ⟨fun x hx => ?_, fun m' hm' => nomatch hm'⟩
    obtain rfl := Except.error.inj hx
    have hstep : engineStep (planOf i) (s.walking src sm [] 0) =
        (planOf i).failStep .bufferIoFailure (s.eng.listBase src) s := by
      rw [engineStep_map rfl, planOf_mapStep_walking hsrc hm, if_pos ⟨rfl, hal⟩, planOf_failStep_walking]
    exact (Plan.Within.of_eq hstep).mono (by omega)

section
variable {i : Instr} {s : State}

/-- MAP, its maps built. -/
theorem planOf_runMap_built (hmv : (planOf i).moves = true) (hacc : s.eng.accepted = true) {sm dm : List Segment}
    (hsm : s.buildMap (planOf i).sg s.eng.latch.src ((planOf i).total s.eng) = .ok sm)
    (hdm : if (planOf i).stores then s.buildMap (planOf i).sg s.eng.latch.dst ((planOf i).total s.eng) = .ok dm
      else dm = []) :
    (planOf i).runMap s = .going (s.setEng { s.eng with srcMap := sm, dstMap := dm }) := by
  obtain ⟨_, _, _, hdst, _⟩ := s.eng.accepted_iff.mp hacc
  rw [Plan.runMap, if_pos hmv, hsm]
  dsimp only
  split at hdm
  · rw [if_pos ‹_›, hdm]
  · rw [if_neg ‹_›, hdm, ← hdst]

/-- MAP of a flat command is no step (R62). -/
theorem planOf_runMap_leads_flat (hsg : (planOf i).sg = false) (hacc : s.eng.accepted = true) :
    (planOf i).Leads 0 (s.setEng ((planOf i).settle { s.eng with phase := .map })) (·.inPhase .seed)
      ((planOf i).runMap s) := by
  have hdst : (if (planOf i).stores then flatBuffer s.eng.latch.dst ((planOf i).total s.eng) else []) =
      flatDestination i s.eng.latch := by
    simp only [flatDestination, planOf_total, planOf_stores_iff]
  rw [planOf_runMap_flat (by rwa [← planOf_sg]) hacc, (planOf i).settle_flat rfl hsg]
  change (planOf i).Within 0 (s.setEng { s.eng with
    srcMap := flatBuffer s.eng.latch.src ((planOf i).total s.eng)
    dstMap := if (planOf i).stores then flatBuffer s.eng.latch.dst ((planOf i).total s.eng) else []
    phase := .seed }) _
  rw [hdst, planOf_total]
  exact .refl _

/-- MAP is done when its maps are complete. -/
theorem planOf_settle_built (hsg : (planOf i).sg = true) (hacc : s.eng.accepted = true) {sm dm : List Segment}
    (hsm : mapLen sm = (planOf i).total s.eng) (hdm : (planOf i).stores = true → mapLen dm = (planOf i).total s.eng) :
    s.setEng ((planOf i).settle { s.eng with phase := .map, srcMap := sm, dstMap := dm, descIndex := 0 }) =
      (s.setEng { s.eng with srcMap := sm, dstMap := dm }).inPhase .seed := by
  obtain ⟨_, _, _, _, hk, _⟩ := s.eng.accepted_iff.mp hacc
  rw [(planOf i).settle_mapped rfl hsg hsm hdm, ← hk]
  rfl

section
variable (hmv : (planOf i).moves = true) (hsg : (planOf i).sg = true) (hacc : s.eng.accepted = true)
include hmv hsg hacc

/-- A request of no bytes reads no list. -/
theorem planOf_runMap_leads_empty (hn : (planOf i).total s.eng = 0) :
    (planOf i).Leads 0 ((planOf i).walked s true [] [] 0) (·.inPhase .seed) ((planOf i).runMap s) := by
  have hwalked := planOf_settle_built hsg hacc (sm := []) (dm := []) hn.symm fun _ => hn.symm
  rw [planOf_runMap_built hmv hacc (sm := []) (dm := []) (by rw [hn, State.buildMap_zero])
    (by rw [hn, State.buildMap_zero]; split <;> rfl)]
  exact ⟨0, le_rfl, hwalked⟩

/-- MAP of a request with descriptor lists: the source list, then the destination list (R65). -/
theorem planOf_runMap_leads_lists (hn : (planOf i).total s.eng ≠ 0) :
    (planOf i).Leads (2 * s.platform.maxSegments) (s.walking true [] [] 0) (·.inPhase .seed)
      ((planOf i).runMap s) := by
  obtain ⟨hsrcError, hsrcOk⟩ := planOf_buildMap hsg (src := true) (sm := []) (fun h => nomatch h) hn
  cases hs : s.buildMap (planOf i).sg s.eng.latch.src ((planOf i).total s.eng) with
  | error x =>
    rw [Plan.runMap_source_error hmv hs]
    rw [hsg] at hs
    exact (hsrcError x hs).mono (by omega)
  | ok sm =>
    have hsm := State.buildMap_mapLen hs
    have hwalk := hsrcOk sm (by rwa [hsg] at hs)
    cases hst : (planOf i).stores with
    | false =>
      have hend : (planOf i).walked s true [] sm 0 = _ :=
        planOf_settle_built hsg hacc (dm := []) hsm fun h => nomatch hst.symm.trans h
      rw [planOf_runMap_built hmv hacc hs (dm := []) (by rw [hst]; rfl)]
      rw [hend] at hwalk
      exact hwalk.mono (by omega)
    | true =>
      have hnext : (planOf i).walked s true [] sm 0 = s.walking false sm [] 0 :=
        planOf_walked_incomplete hsg (src := false) (m := []) (fun _ => ⟨hsm, hst⟩) (Nat.pos_of_ne_zero hn) 0
      rw [hnext] at hwalk
      obtain ⟨hdstError, hdstOk⟩ := planOf_buildMap hsg (src := false) (sm := sm) (fun _ => ⟨hsm, hst⟩) hn
      cases hd : s.buildMap (planOf i).sg s.eng.latch.dst ((planOf i).total s.eng) with
      | error x =>
        rw [Plan.runMap_destination_error hmv hst hs hd]
        rw [hsg] at hd
        exact (hwalk.trans (hdstError x hd)).mono (by omega)
      | ok dm =>
        have hend : (planOf i).walked s false sm dm 0 = _ :=
          planOf_settle_built hsg hacc hsm fun _ => State.buildMap_mapLen hd
        have hwalk' := hdstOk dm (by rwa [hsg] at hd)
        rw [planOf_runMap_built hmv hacc hs (dm := dm) (by rw [hst]; exact hd)]
        rw [hend] at hwalk'
        exact (hwalk.trans hwalk').mono (by omega)

end

/-- CHECK passed, MAP begins: a step for each descriptor, and one for an error. -/
theorem planOf_runMap_leads (hacc : s.eng.accepted = true) :
    (planOf i).Leads (2 * s.platform.maxSegments)
      (s.setEng ((planOf i).settle { s.eng with phase := if (planOf i).moves then .map else .seed }))
      (·.inPhase .seed) ((planOf i).runMap s) := by
  cases hmv : (planOf i).moves with
  | false =>
    rw [Plan.runMap, hmv]
    change (planOf i).Within _ (s.setEng ((planOf i).settle (s.inPhase .seed).eng)) (s.inPhase .seed)
    rw [(planOf i).settle_seed rfl]
    exact .mono (.refl _) (Nat.zero_le _)
  | true =>
    cases hsg : (planOf i).sg with
    | false => exact (planOf_runMap_leads_flat hsg hacc).mono (Nat.zero_le _)
    | true =>
      obtain ⟨_, _, hsrc, hdst, hk, _⟩ := s.eng.accepted_iff.mp hacc
      have hstart : s.inPhase .map = s.walking true [] [] 0 := by
        unfold State.inPhase State.walking
        simp [hsrc, hdst, hk]
      have hwalked : s.setEng ((planOf i).settle (s.inPhase .map).eng) = (planOf i).walked s true [] [] 0 := by
        rw [hstart]
        rfl
      change (planOf i).Leads _ (s.setEng ((planOf i).settle (s.inPhase .map).eng)) _ _
      rw [hwalked]
      by_cases hn : (planOf i).total s.eng = 0
      · exact (planOf_runMap_leads_empty hmv hsg hacc hn).mono (Nat.zero_le _)
      · have hempty : mapLen [] < (planOf i).total s.eng := Nat.pos_of_ne_zero hn
        rw [planOf_walked_incomplete hsg (src := true) (fun h => nomatch h) hempty]
        exact planOf_runMap_leads_lists hmv hsg hacc hn

end

end Sys2Proof.Machine
end

section
/-! PROOFS. The engine steps of a command, with nothing in between, are the whole command (40_control.md R110, R121; log
entries 6, 9; O23). -/

namespace Sys2Proof.Machine

/-! ### SEED -/

/-- SEED is one step (log entry 9). -/
theorem planOf_runSeed_leads (i : Instr) (s : State) :
    (planOf i).Leads 1 (s.inPhase .seed) (planOf i).atUnit ((planOf i).runSeed s) := by
  have hseed : (planOf i).seed (Config.hashFail s.draws) (s.inPhase .seed).eng =
      (planOf i).seed (Config.hashFail s.draws) s.eng := planOf_seed_inPhase i _ s.eng .seed
  have hstep : engineStep (planOf i) (s.inPhase .seed) = (planOf i).seedStep (s.inPhase .seed) := engineStep_seed rfl
  have hdraws : (s.inPhase .seed).draws = s.draws := rfl
  unfold Plan.seedStep Plan.runSeed at hstep
  rw [hdraws, hseed] at hstep
  unfold Plan.runSeed
  cases hs : (planOf i).seed (Config.hashFail s.draws) s.eng with
  | error k =>
    rw [hs] at hstep
    refine (Plan.Within.of_eq (hstep.trans ?_)).mono (Nat.le_succ 1)
    cases (planOf i).draws
    · exact planOf_failStep_inPhase i k 0 s .seed
    · exact planOf_failStep_inPhase i k 0 { s with draws := s.draws + 1 } .seed
  | ok w =>
    rw [hs] at hstep
    refine .of_eq (hstep.trans ?_)
    cases (planOf i).draws <;> exact congrArg (State.setEng _) ((planOf i).settle_bulk rfl)

/-! ### The whole command -/

section
variable {i : Instr} {s : State}

/-- What MAP leaves: its maps cover what the command reads and stores, and the units begin. -/
theorem planOf_runMap_going (hacc : s.eng.accepted = true) (hl : lengthRule i s.eng.latch = none) {t : State}
    (h : (planOf i).runMap s = .going t) :
    ∃ sm dm, Covers i s.eng.latch sm dm ∧ t.eng.Transferring s.eng.latch sm dm 0 ∧ t.eng.betweenUnits := by
  obtain ⟨_, h0, hsrc, hdst, _⟩ := s.eng.accepted_iff.mp hacc
  obtain ⟨hb, _⟩ := Engine.accepted_between hacc
  have hop : (planOf i).stores = true ↔ i.fields.op = 2 := planOf_stores_iff i
  cases hmv : (planOf i).moves with
  | false =>
    rw [Plan.runMap, hmv] at h
    obtain rfl := Run.going.inj h
    have hno : i.fields.op.toNat ∉ [2, 4, 5] := by rwa [planOf_moves, decide_eq_false_iff_not] at hmv
    exact ⟨[], [], ⟨hl, (bytesRead_eq_zero hno _).symm, fun hi => absurd (by rw [hi]; decide) hno, fun _ => rfl⟩,
      ⟨rfl, hsrc, hdst, h0⟩, hb⟩
  | true =>
    cases hs : s.buildMap (planOf i).sg s.eng.latch.src ((planOf i).total s.eng) with
    | error x =>
      rw [Plan.runMap_source_error hmv hs] at h
      cases h
    | ok sm =>
      have hsm := State.buildMap_mapLen hs
      rw [planOf_total] at hsm
      cases hst : (planOf i).stores with
      | false =>
        rw [planOf_runMap_built hmv hacc hs (dm := []) (by rw [hst]; rfl)] at h
        obtain rfl := Run.going.inj h
        have hop2 (hi : i.fields.op = 2) : False := nomatch hst.symm.trans (hop.mpr hi)
        exact ⟨sm, [], ⟨hl, hsm, fun hi => (hop2 hi).elim, fun _ => rfl⟩, ⟨rfl, rfl, rfl, h0⟩, hb⟩
      | true =>
        cases hd : s.buildMap (planOf i).sg s.eng.latch.dst ((planOf i).total s.eng) with
        | error x =>
          rw [Plan.runMap_destination_error hmv hst hs hd] at h
          cases h
        | ok dm =>
          have hdm := State.buildMap_mapLen hd
          rw [planOf_total] at hdm
          rw [planOf_runMap_built hmv hacc hs (dm := dm) (by rw [hst]; exact hd)] at h
          obtain rfl := Run.going.inj h
          exact ⟨sm, dm, ⟨hl, hsm, fun _ => hdm, fun hi => absurd (hop.mp hst) hi⟩, ⟨rfl, rfl, rfl, h0⟩, hb⟩

/-- SEED keeps the maps and the position. -/
theorem planOf_runSeed_going {l : Latch} {sm dm : List Segment} {pos : Nat} (hs : s.eng.Transferring l sm dm pos)
    (hb : s.eng.betweenUnits) {t : State} (h : (planOf i).runSeed s = .going t) :
    t.eng.Transferring l sm dm pos ∧ t.eng.betweenUnits := by
  obtain ⟨hl, hsm, hdm, hpos⟩ := hs
  unfold Plan.runSeed at h
  cases hseed : (planOf i).seed (Config.hashFail s.draws) s.eng with
  | error k => rw [hseed] at h; cases h
  | ok w =>
    obtain ⟨hw, _⟩ := planOf_seed hseed
    rw [hseed] at h
    obtain rfl := Run.going.inj h
    cases (planOf i).draws <;> exact ⟨⟨hl, hsm, hdm, hw.trans hpos⟩, hb⟩

/-- The phases MAP to TAIL: two steps for each descriptor that may be read, one for SEED, two for each byte. -/
theorem planOf_runWork_leads (hacc : s.eng.accepted = true) (hc : (planOf i).checkError s.eng = none) :
    (planOf i).Leads (2 * s.platform.maxSegments + 1 + 2 * bytesRead i s.eng.latch)
      (s.setEng ((planOf i).settle { s.eng with phase := if (planOf i).moves then .map else .seed }))
      (·.inPhase .commit) ((planOf i).runWork s) := by
  have hl := lengthRule_of_checkError hc
  obtain ⟨_, h0⟩ := Engine.accepted_between hacc
  rw [planOf_runWork_eq hl h0]
  refine ((planOf_runMap_leads hacc).andThen fun t _ => planOf_runSeed_leads i t).andThen fun u hu => ?_
  obtain ⟨t, ht, hu⟩ := Run.andThen_eq_going.mp hu
  obtain ⟨sm, dm, hcovers, htrans, hb⟩ := planOf_runMap_going hacc hl ht
  obtain ⟨htrans, hb⟩ := planOf_runSeed_going htrans hb hu
  exact hcovers.runUnits_leads (unitsOf_abut hl) (fun _ => id) htrans hb

/-- A whole command in engine steps: CHECK, the phases, COMMIT. -/
theorem planOf_runCommand_within (hacc : s.eng.accepted = true) :
    (planOf i).Within (3 + 2 * s.platform.maxSegments + 2 * bytesRead i s.eng.latch) s (runCommand (planOf i) s) := by
  obtain ⟨hph, _⟩ := s.eng.accepted_iff.mp hacc
  have hstep : engineStep (planOf i) s = (planOf i).checkStep s := engineStep_check hph
  unfold Plan.checkStep at hstep
  unfold runCommand
  cases hc : (planOf i).checkError s.eng with
  | some k =>
    rw [hc] at hstep
    exact (Plan.Within.of_eq hstep).mono (by omega)
  | none =>
    have hwork := planOf_runWork_leads hacc hc
    rw [hc] at hstep
    dsimp only at hstep
    rw [← hstep] at hwork
    cases hr : (planOf i).runWork s with
    | raised k a t =>
      rw [hr] at hwork
      exact (Plan.Within.step hwork).mono (by omega)
    | going t =>
      rw [hr] at hwork
      have hcommit : engineStep (planOf i) (t.inPhase .commit) = (planOf i).commitStep t :=
        (engineStep_commit rfl).trans (planOf_commitStep_inPhase i t .commit)
      exact ((Plan.Within.step hwork).trans (.of_eq hcommit)).mono (by omega)

end

/-- Settles O23: the steps come to the end of the whole command within the bound, and there the engine is idle. -/
theorem engineStepsRunTheCommand : Obligations.EngineStepsRunTheCommand := by
  intro i s n hacc hn
  obtain ⟨hidle, _⟩ := runCommand_idle (planOf i) s
  rw [exec_eq, ((planOf_runCommand_within hacc).mono hn).iterate hidle]

end Sys2Proof.Machine
end

section
/-! PROOFS. What SETKEY does as a whole: with a legal key length the new slot of its class is installed, unless the digest
of SETKEY.ESSIV fails; an error empties the slot; either way the MAC computation ends (41_setkey.md R131 to R139; O27, O33,
O34, O35, O36). -/

namespace Sys2Proof.Machine

/-! ### The slot -/

/-- The slot a SETKEY of class `c` makes (R132 to R138). -/
def Latch.newSlot (l : Latch) : KeyClass → KeySlot
  | .none => .empty
  | .plain => slotPlain l.rawKey
  | .essiv => slotEssiv l.rawKey
  | .xts => slotXts l.rawKey l.keylen.toNat
  | .cmac => slotCmac l.rawKey
  | .xcbc => slotXcbc l.rawKey

theorem Latch.newSlot_cls (l : Latch) (c : KeyClass) : (l.newSlot c).cls = c := by
  cases c <;> rfl

theorem Latch.newSlot_valid (l : Latch) {c : KeyClass} (h : c ≠ .none) : (l.newSlot c).valid = true := by
  cases c
  case none => exact absurd rfl h
  all_goals rfl

/-- The raw key is the first `L_KEYLEN` bytes of the staged key. -/
theorem Latch.rawKey_eq_take (l : Latch) : l.rawKey = (toLe l.key.toNat 64).take l.keylen.toNat := rfl

/-- The halves of the combined key are those of the staged key (R133). -/
theorem slotXts_rawKey (l : Latch) : slotXts l.rawKey l.keylen.toNat =
    ⟨true, .xts, (toLe l.key.toNat 64).take (l.keylen.toNat / 2),
      ((toLe l.key.toNat 64).drop (l.keylen.toNat / 2)).take (l.keylen.toNat / 2), [], [], [], []⟩ := by
  simp only [slotXts, slice, KeySlot.empty, Latch.rawKey_eq_take, List.drop_zero, List.drop_take, List.take_take]
  congr 2 <;> omega

/-- The CMAC subkeys come from the encrypted zero block (R137). -/
theorem slotCmac_eq (raw : Bytes) : slotCmac raw = ⟨true, .cmac, [], [], [], raw,
    blockBytes (gfDouble (aesE raw 0)), blockBytes (gfDouble (gfDouble (aesE raw 0)))⟩ := by
  have hzero : blockOf (zeros 16) = 0 := by decide
  rw [slotCmac, hzero]
  rfl

/-! ### The command -/

/-- The engine with slot `k` installed and the SETKEY done (R139; 40_control.md R116, R117). -/
def Engine.withKey (e : Engine) (k : KeySlot) : Engine :=
  (installSlot { e with work := { e.work with newSlot := k } }).succeed

section
variable {i : Instr} (hi : i.fields.op = 1) {s : State}
include hi

/-- What every SETKEY is: the class it makes a slot of, its SEED, its COMMIT, its errors. -/
theorem planOf_setkey : modeClass i.fields.mode ≠ .none ∧
    (∀ b e, ¬ (i = .setkeyEssiv ∧ b = true) →
      (planOf i).seed b e = .ok { e.work with newSlot := e.latch.newSlot (modeClass i.fields.mode) }) ∧
    (planOf i).commit = installSlot ∧ (planOf i).onError = Engine.dropKey := by
  cases i
  case setkeyEssiv =>
    refine ⟨by decide, fun b e hb => ?_, rfl, rfl⟩
    cases b
    · rfl
    · exact absurd ⟨rfl, rfl⟩ hb
  case setkeyEcb | setkeyCbc | setkeyCts | setkeyCtr | setkeyXctr | setkeyXts | setkeyCbcmac | setkeyCmac
    | setkeyXcbc => exact ⟨by decide, fun _ _ _ => rfl, rfl, rfl⟩
  all_goals exact absurd hi (by simp [Instr.fields, Fields.fixed, Fields.withBits])

/-- Check 2 does not concern a SETKEY (R113). -/
theorem keyAndMacOk_setkey (e : Engine) : keyAndMacOk i e := by
  rw [keyAndMacOk, hi]
  exact ⟨fun h => absurd h (by decide), fun h => absurd h (by decide)⟩

/-- An illegal key length (R131). -/
theorem runCommand_setkey_length {k : ErrorKind} (hl : lengthRule i s.eng.latch = some k) :
    runCommand (planOf i) s = s.setEng (s.eng.dropKey.fail k 0) := by
  obtain ⟨_, _, hlen⟩ := planOf_checkError i s.eng
  obtain ⟨_, _, _, herr⟩ := planOf_setkey hi
  rw [runCommand, hlen (keyAndMacOk_setkey hi _), hl]
  simp only [Plan.failStep, herr]

/-- A legal key length, and no failed digest: the slot is installed, and SETKEY.ESSIV has made its draw. -/
theorem runCommand_setkey (hl : lengthRule i s.eng.latch = none)
    (hd : ¬ (i = .setkeyEssiv ∧ Config.hashFail s.draws = true)) :
    runCommand (planOf i) s = { s with
      draws := if i = .setkeyEssiv then s.draws + 1 else s.draws
      eng := s.eng.withKey (s.eng.latch.newSlot (modeClass i.fields.mode)) } := by
  obtain ⟨_, hseed, hcommit, _⟩ := planOf_setkey hi
  have hmoves : i.fields.op.toNat ∉ [2, 4, 5] := by rw [hi]; decide
  obtain ⟨_, _, _, hdraws⟩ := planOf_shape i
  rw [runCommand, planOf_checkError_none (keyAndMacOk_setkey hi _) hl]
  simp only [planOf_runWork_eq_runSeed hmoves, Plan.runSeed, hseed _ _ hd, hdraws, Plan.commitStep, hcommit]
  by_cases he : i = .setkeyEssiv <;> simp only [he, decide_true, decide_false, if_true, if_false] <;> rfl

end

/-- A legal key length, but the digest fails (R135). -/
theorem runCommand_setkeyEssiv_failed {s : State} (hl : lengthRule .setkeyEssiv s.eng.latch = none)
    (hd : Config.hashFail s.draws = true) : runCommand (planOf .setkeyEssiv) s =
      { s with draws := s.draws + 1, eng := s.eng.dropKey.fail .essivHashFailure 0 } := by
  rw [runCommand, planOf_checkError_none (keyAndMacOk_setkey rfl _) hl]
  simp only [planOf_runWork_eq_runSeed (i := .setkeyEssiv) (by decide), Plan.runSeed, hd]
  rfl

/-- How a SETKEY ends: with an error and no key, or with its slot installed. -/
theorem runCommand_setkey_cases {i : Instr} (hi : i.fields.op = 1) (s : State) :
    (∃ k, (runCommand (planOf i) s).eng = s.eng.dropKey.fail k 0) ∨
    (runCommand (planOf i) s).eng = s.eng.withKey (s.eng.latch.newSlot (modeClass i.fields.mode)) := by
  cases hl : lengthRule i s.eng.latch with
  | some k => exact .inl ⟨k, congrArg State.eng (runCommand_setkey_length hi hl)⟩
  | none =>
    by_cases hd : i = .setkeyEssiv ∧ Config.hashFail s.draws = true
    · obtain ⟨rfl, hd⟩ := hd
      exact .inl ⟨_, congrArg State.eng (runCommand_setkeyEssiv_failed hl hd)⟩
    · exact .inr (congrArg State.eng (runCommand_setkey hi hl hd))

/-! ### The obligations -/

/-- Settles O27: either the key is dropped with an error, or the new slot is installed. -/
theorem setkeyReplacesTheSlot : Obligations.SetkeyReplacesTheSlot := by
  intro i s t hi ht
  obtain rfl := exec_next ht
  rcases runCommand_setkey_cases hi s with ⟨k, he⟩ | he
  · rw [he]
    exact ⟨fun h0 => absurd h0 k.code_ne_zero, fun _ => rfl, rfl, rfl⟩
  · obtain ⟨hcls, _⟩ := planOf_setkey hi
    rw [he]
    exact ⟨fun _ => ⟨Latch.newSlot_valid _ hcls, Latch.newSlot_cls _ _⟩, fun h => absurd rfl h, rfl, rfl⟩

/-- A SETKEY with a legal key length and no failed digest, as the host and the next command find it: the slot, the MAC
state, RESULT and STATUS (R139; 40_control.md R116). -/
theorem runCommand_setkey_installs {i : Instr} (hi : i.fields.op = 1) {s : State} {k : KeySlot}
    (hl : lengthRule i s.eng.latch = none) (hd : ¬ (i = .setkeyEssiv ∧ Config.hashFail s.draws = true))
    (hk : s.eng.latch.newSlot (modeClass i.fields.mode) = k) :
    let t := runCommand (planOf i) s
    t.eng.succeededFrom s.eng ∧ t.eng.slot = k ∧ t.eng.macActive = false ∧ t.eng.dg = 0 ∧ t.eng.result = 0 ∧
      t.mem = s.mem ∧ t.eng.statusKeyClass = (modeClass i.fields.mode).value := by
  obtain ⟨hcls, _⟩ := planOf_setkey hi
  rw [runCommand_setkey hi hl hd]
  refine ⟨⟨rfl, rfl, rfl, rfl, rfl, rfl, rfl⟩, hk, rfl, rfl, rfl, rfl, ?_⟩
  exact (if_pos (Latch.newSlot_valid _ hcls)).trans (congrArg _ (Latch.newSlot_cls _ _))

/-- Settles O33: such a SETKEY installs the slot of class PLAIN. -/
theorem setkeyPlain : Obligations.SetkeyPlain := by
  intro i s hi hl
  simp only [List.mem_cons, List.not_mem_nil, or_false] at hi
  rcases hi with rfl | rfl | rfl | rfl | rfl | rfl <;>
    exact ⟨_, exec_eq _ s, runCommand_setkey_installs rfl (if_pos hl) (nomatch ·.1) rfl⟩

/-- Settles O34: the slot of class XTS, and the halves it takes of the key. -/
theorem setkeyXts : Obligations.SetkeyXts := fun s hl =>
  ⟨_, exec_eq _ s, runCommand_setkey_installs (i := .setkeyXts) rfl (if_pos hl) (nomatch ·.1) (slotXts_rawKey _)⟩

/-- Settles O35: both outcomes of the draw. -/
theorem setkeyEssiv : Obligations.SetkeyEssiv := by
  intro s hl
  replace hl : lengthRule .setkeyEssiv s.eng.latch = none := if_pos hl
  refine ⟨_, exec_eq _ s, ?_⟩
  cases hd : Config.hashFail s.draws with
  | false =>
    have hok : ¬ (Instr.setkeyEssiv = .setkeyEssiv ∧ Config.hashFail s.draws = true) := by simp [hd]
    obtain ⟨hdone, hslot, hmac, hdg, hresult, hmem, hstatus⟩ := runCommand_setkey_installs rfl hl hok rfl
    have hdraws := congrArg State.draws (runCommand_setkey rfl hl hok)
    exact ⟨hdraws, hmem, hmac, hdg, fun _ => ⟨hdone, hresult, hslot, hstatus⟩, nofun⟩
  | true =>
    rw [runCommand_setkeyEssiv_failed hl hd]
    exact ⟨rfl, rfl, rfl, rfl, nofun, fun _ => ⟨⟨rfl, rfl, rfl, rfl, rfl, rfl, rfl⟩, rfl⟩⟩

/-- Settles O36: the slots of class CMAC and XCBC, and the zero block behind the CMAC subkeys. -/
theorem setkeyMacSubkeys : Obligations.SetkeyMacSubkeys := fun s hl =>
  ⟨⟨_, exec_eq _ s, runCommand_setkey_installs (i := .setkeyCmac) rfl (if_pos hl) (nomatch ·.1) (slotCmac_eq _)⟩,
    ⟨_, exec_eq _ s, runCommand_setkey_installs (i := .setkeyXcbc) rfl (if_pos hl) (nomatch ·.1) rfl⟩⟩

end Sys2Proof.Machine
end

section
/-! PROOFS. The arithmetic of blocks byte by byte: doubling in GF(2^128) shifts every byte and carries one bit from its
neighbour, in either byte order, and CTR_INC is the increment of the big-endian number (41_setkey.md R136; 44_ctr_xctr.md
R190; 45_xts.md R210; O57). -/

namespace Sys2Proof.Machine

/-! ### The bytes of a number -/

/-- Byte `j` of a number, the least significant one first: what `toLe` lists. -/
def byteAt (v j : Nat) : Byte := BitVec.ofNat 8 (v / 256 ^ j)

theorem getLsbD_byteAt (v j t : Nat) : (byteAt v j).getLsbD t = (decide (t < 8) && v.testBit (8 * j + t)) := by
  rw [byteAt, BitVec.getLsbD_ofNat, show 256 ^ j = 2 ^ (8 * j) by rw [pow_mul]; rfl, Nat.testBit_div_two_pow,
    Nat.add_comm t]

theorem getD_toLe (v : Nat) {w j : Nat} (h : j < w) : (toLe v w).getD j 0 = byteAt v j := by
  rw [List.getD_eq_getElem?_getD, getElem?_toLe v w j h]
  rfl

theorem getD_toBe (v : Nat) {w j : Nat} (h : j < w) : (toBe v w).getD j 0 = byteAt v (w - 1 - j) := by
  rw [List.getD_eq_getElem?_getD, toBe, List.getElem?_reverse (by rwa [length_toLe]), length_toLe,
    getElem?_toLe v w _ (by omega)]
  rfl

theorem byteAt_xor (m n j : Nat) : byteAt (m ^^^ n) j = byteAt m j ^^^ byteAt n j := by
  refine BitVec.eq_of_getLsbD_eq fun t ht => ?_
  simp only [BitVec.getLsbD_xor, getLsbD_byteAt, Nat.testBit_xor, ht, decide_true, Bool.true_and]

theorem byteAt_mod (v : Nat) {j : Nat} (h : j < 16) : byteAt (v % 2 ^ 128) j = byteAt v j := by
  refine BitVec.eq_of_getLsbD_eq fun t ht => ?_
  rw [getLsbD_byteAt, getLsbD_byteAt, Nat.testBit_mod_two_pow, decide_eq_true (show 8 * j + t < 128 by omega),
    Bool.true_and]

/-- The lowest byte of twice a number is shifted, and nothing comes in. -/
theorem byteAt_two_mul_zero (v : Nat) : byteAt (2 * v) 0 = byteAt v 0 <<< 1 := by
  apply BitVec.eq_of_toNat_eq
  simp only [byteAt, BitVec.toNat_ofNat, BitVec.toNat_shiftLeft, Nat.shiftLeft_eq, pow_zero, Nat.div_one]
  omega

/-- Every other byte of twice a number takes in the top bit of the byte below it. -/
theorem byteAt_two_mul_succ (v j : Nat) :
    byteAt (2 * v) (j + 1) = (byteAt v (j + 1) <<< 1) ||| (byteAt v j >>> 7) := by
  refine BitVec.eq_of_getLsbD_eq fun t ht => ?_
  have hbit (n : Nat) : (2 * v).testBit (n + 1) = v.testBit n := by
    rw [Nat.testBit_add_one, Nat.mul_div_cancel_left v (by decide)]
  rw [BitVec.getLsbD_or, BitVec.getLsbD_shiftLeft, BitVec.getLsbD_ushiftRight]
  simp only [getLsbD_byteAt]
  cases t with
  | zero => simp [show 8 * (j + 1) = (8 * j + 7) + 1 by omega, hbit]
  | succ t =>
    rw [show 8 * (j + 1) + (t + 1) = (8 * (j + 1) + t) + 1 by omega, hbit]
    simp [ht, show t < 8 by omega, show ¬ 7 + (t + 1) < 8 by omega]

/-! ### Doubling in GF(2^128) -/

/-- Twice a 128-bit number, reduced by the polynomial: the number that `gfDouble` and `mulxLe` write back. -/
def gfDoubleNat (v : Nat) : Nat := if v ≥ 2 ^ 127 then 2 * v % 2 ^ 128 ^^^ 0x87 else 2 * v % 2 ^ 128

theorem gfDouble_eq (x : Block) : gfDouble x = blockOf (toBe (gfDoubleNat (be (blockBytes x))) 16) := rfl

theorem mulxLe_eq (x : Block) : mulxLe x = blockOf (toLe (gfDoubleNat (le (blockBytes x))) 16) := rfl

/-- Doubling shifts, and reduces where the top bit goes out. -/
theorem gfDoubleNat_eq_xor (v : Nat) : gfDoubleNat v = 2 * v % 2 ^ 128 ^^^ if v ≥ 2 ^ 127 then 0x87 else 0 := by
  unfold gfDoubleNat
  split
  · rfl
  · rw [Nat.xor_zero]

/-- The top bit of a 128-bit number is that of its highest byte. -/
theorem top_byteAt {v : Nat} (h : v < 2 ^ 128) : 0x80#8 ≤ byteAt v 15 ↔ v ≥ 2 ^ 127 := by
  rw [BitVec.le_def, byteAt, BitVec.toNat_ofNat, BitVec.toNat_ofNat]
  omega

theorem byteAt_gfDoubleNat_zero {v : Nat} (h : v < 2 ^ 128) :
    byteAt (gfDoubleNat v) 0 = (byteAt v 0 <<< 1) ^^^ if 0x80#8 ≤ byteAt v 15 then 0x87#8 else 0 := by
  rw [gfDoubleNat_eq_xor, byteAt_xor, byteAt_mod _ (by decide), byteAt_two_mul_zero]
  congr 1
  rw [apply_ite (byteAt · 0)]
  exact if_congr (top_byteAt h).symm rfl rfl

theorem byteAt_gfDoubleNat_succ (v : Nat) {j : Nat} (h : j < 15) :
    byteAt (gfDoubleNat v) (j + 1) = (byteAt v (j + 1) <<< 1) ||| (byteAt v j >>> 7) := by
  have hlow : byteAt (if v ≥ 2 ^ 127 then 0x87 else 0) (j + 1) = 0#8 := by
    have : 256 ≤ 256 ^ (j + 1) := Nat.le_self_pow (by omega) 256
    rw [byteAt, Nat.div_eq_of_lt (by split <;> omega)]
  rw [gfDoubleNat_eq_xor, byteAt_xor, byteAt_mod _ (by omega), byteAt_two_mul_succ, hlow, BitVec.xor_zero]

/-! ### Blocks -/

theorem be_blockBytes_lt (x : Block) : be (blockBytes x) < 2 ^ 128 := by
  have := le_lt (blockBytes x).reverse
  rwa [List.length_reverse, length_blockBytes] at this

/-- A byte of a block read as a big-endian number. -/
theorem getD_blockBytes_be (x : Block) {j : Nat} (h : j < 16) :
    (blockBytes x).getD j 0 = byteAt (be (blockBytes x)) (15 - j) := by
  have hbytes : toBe (be (blockBytes x)) 16 = blockBytes x := toBe_be (blockBytes x)
  rw [← getD_toBe _ h, hbytes]

/-- A byte of a block read as a little-endian number. -/
theorem getD_blockBytes_le (x : Block) {j : Nat} (h : j < 16) : (blockBytes x).getD j 0 = byteAt x.toNat j :=
  getD_toLe x.toNat h

theorem getD_gfDouble (x : Block) {j : Nat} (h : j < 16) :
    (blockBytes (gfDouble x)).getD j 0 = byteAt (gfDoubleNat (be (blockBytes x))) (15 - j) := by
  rw [gfDouble_eq, blockBytes_blockOf (by simp [toBe]), getD_toBe _ h]

theorem getD_mulxLe (x : Block) {j : Nat} (h : j < 16) :
    (blockBytes (mulxLe x)).getD j 0 = byteAt (gfDoubleNat x.toNat) j := by
  rw [mulxLe_eq, blockBytes_blockOf (length_toLe _ _), getD_toLe _ h, le_blockBytes]

/-- Settles O57: both doublings are the doubling of a number, of which the block's bytes are the bytes, the first one
highest or the first one lowest; and CTR_INC writes back the number it has counted up. -/
theorem fieldArithmeticBytewise : Obligations.FieldArithmeticBytewise := by
  refine fun x => ⟨fun i => ?double, fun i => ?mulx, ?inc⟩
  case double =>
    simp only [getD_gfDouble x i.isLt, getD_blockBytes_be x i.isLt, getD_blockBytes_be x (show 15 < 16 by decide),
      getD_blockBytes_be x (show 0 < 16 by decide)]
    split
    case isTrue hi =>
      obtain ⟨j, hj⟩ : ∃ j, 15 - i.val = j + 1 := ⟨14 - i.val, by omega⟩
      rw [getD_blockBytes_be x (by omega), show 15 - (i.val + 1) = j by omega, hj,
        byteAt_gfDoubleNat_succ _ (by omega)]
    case isFalse hi =>
      rw [show 15 - i.val = 0 by omega]
      exact byteAt_gfDoubleNat_zero (be_blockBytes_lt x)
  case mulx =>
    simp only [getD_mulxLe x i.isLt, getD_blockBytes_le x i.isLt, getD_blockBytes_le x (show 15 < 16 by decide),
      getD_blockBytes_le x (show 0 < 16 by decide)]
    split
    case isTrue hi =>
      rw [hi]
      exact byteAt_gfDoubleNat_zero x.isLt
    case isFalse hi =>
      obtain ⟨j, hj⟩ : ∃ j, i.val = j + 1 := ⟨i.val - 1, by omega⟩
      rw [getD_blockBytes_le x (by omega), hj, Nat.add_sub_cancel, byteAt_gfDoubleNat_succ _ (by omega)]
  case inc =>
    rw [ctrInc, blockBytes_blockOf (by simp [toBe])]
    exact be_toBe _ 16 ((Nat.mod_lt _ (Nat.two_pow_pos 128)).trans_eq (by norm_num))

end Sys2Proof.Machine
end

section
/-! PROOFS. A CRYPT command of whole blocks: how it completes, what it stores block by block, and the chain of CBC and
ESSIV, in which each block meets the ciphertext block before it (42_ecb_cbc_essiv.md R150 to R155; O37, O38, O39, O40,
O41). -/

namespace Sys2Proof.Machine

/-! ### Completion -/

/-- COMMIT and the completion after it (40_control.md R117; 60_exceptions.md R266). -/
theorem planOf_commit_succeeds (i : Instr) (e : Engine) : ((planOf i).commit e).succeed.succeededFrom e := by
  obtain ⟨herr, haddr⟩ := planOf_commit_err i e
  exact ⟨rfl, rfl, rfl, herr, haddr, rfl, rfl⟩

section
variable {i : Instr} (hi : i.fields.op = 2)
include hi

/-- Check 2 of a CRYPT is the key (R113). -/
theorem keyAndMacOk_crypt {e : Engine} (h : e.keyFor (modeClass i.fields.mode)) : keyAndMacOk i e :=
  ⟨fun _ => h, fun hmac => absurd hmac (by rw [hi]; decide)⟩

/-- A CRYPT reads its whole request (R115). -/
theorem bytesRead_crypt (l : Latch) : bytesRead i l = l.len.toNat := by
  rw [bytesRead, hi]
  rfl

/-- COMMIT of every CRYPT writes RESULT 0 (R116). -/
theorem planOf_commit_result (e : Engine) : ((planOf i).commit e).result = 0 := by
  cases i
  case cryptEssivEnc | cryptEssivDec =>
    change (commitEssiv e).result = 0
    unfold commitEssiv
    split <;> rfl
  case cryptEcbEnc | cryptEcbDec | cryptCbcEnc | cryptCbcDec | cryptCtsEnc | cryptCtsDec | cryptCtrEnc | cryptCtrDec
    | cryptXctrEnc | cryptXctrDec | cryptXtsEnc | cryptXtsDec => rfl
  all_goals cases hi

/-! ### Whole blocks -/

/-- ECB, CBC and ESSIV take requests of whole blocks, and all of them in BULK (R114, R120). -/
theorem wholeBlocks_rules (hmode : i.fields.mode.toNat ∈ [0, 1, 3]) {l : Latch} (hmod : l.len.toNat % 16 = 0) :
    lengthRule i l = none ∧ bulkBytes i l.len.toNat = l.len.toNat := by
  simp only [List.mem_cons, List.not_mem_nil, or_false] at hmode
  unfold lengthRule bulkBytes
  rw [hi]
  rcases hmode with h | h | h <;> rw [h] <;> exact ⟨if_pos hmod, rfl⟩

/-- An ECB, CBC or ESSIV command, its request whole blocks: the engine that COMMIT leaves, and the blocks stored, as the
plan's unit computes them one after the other. -/
theorem exec_wholeBlocks (hmode : i.fields.mode.toNat ∈ [0, 1, 3]) {s : State} {sm dm : List Segment} {w : Work}
    (hready : s.cryptReady (modeClass i.fields.mode) i.fields.sg sm dm) (hmod : s.eng.reqLen % 16 = 0)
    (hseed : ∀ b, (planOf i).seed b { s.eng with srcMap := sm, dstMap := dm } = .ok w) :
    ∃ t, exec i s = .next t ∧ s.cryptDone t dm ∧
      t.eng = ((planOf i).commit (s.eng.seeded sm dm
        ((planOf i).workAt (s.eng.seeded sm dm w) (streamBlock s.mem sm) (s.eng.reqLen / 16)))).succeed ∧
      ∀ k, k < s.eng.reqLen / 16 →
        streamBlock t.mem dm k = (planOf i).outAt (s.eng.seeded sm dm w) (streamBlock s.mem sm) k := by
  obtain ⟨hacc, hkey, hstreams⟩ := hready
  obtain ⟨hlen, hbulk⟩ := wholeBlocks_rules hi hmode hmod
  obtain ⟨_, h0⟩ := Engine.accepted_between hacc
  obtain ⟨hpos, _⟩ := planOf_seed (hseed false)
  have hstores := (planOf_stores_iff i).mpr hi
  have hkeeps (e : Engine) (b : Block) : ((planOf i).block e b).2.pos = e.work.pos := by
    rw [← planOf_keepsPos i e false (blockBytes b), Plan.compute, if_neg Bool.false_ne_true, blockOf_blockBytes]
  obtain ⟨mem, hrun, hstored⟩ := runCommand_blocks (planOf_stores_moves i hstores) hstores (planOf_draws_crypt hi)
    (planOf_checkError_none (keyAndMacOk_crypt hi hkey) hlen)
    ((planOf_total i s.eng).trans (bytesRead_crypt hi _)) ((planOf_bulk i s.eng).trans hbulk) hseed hkeeps
    (hpos.trans h0) hacc (by rwa [planOf_sg]) hmod
  refine ⟨_, (exec_eq i s).trans (congrArg _ hrun), ⟨planOf_commit_succeeds i _, planOf_commit_result hi _, ?_⟩, rfl,
    hstored.blocks⟩
  exact fun a ha => hstored.other a fun j hj => ha j (by omega)

end

/-! ### The chain -/

/-- What block `k` of a chain meets: the IV before the first block, and then the block before. -/
def chainFrom (iv : Block) (c : Nat → Block) (k : Nat) : Block := if k = 0 then iv else c (k - 1)

/-- Up to its end a chain depends on the blocks before that only. -/
theorem chainFrom_congr {iv : Block} {c c' : Nat → Block} {n k : Nat} (h : ∀ j, j < n → c j = c' j) (hk : k ≤ n) :
    chainFrom iv c k = chainFrom iv c' k := by
  unfold chainFrom
  split
  · rfl
  · exact h _ (by omega)

section
variable {p : Plan} (e : Engine) (b : Nat → Block) (k : Nat)

/-- CBC encryption carries the ciphertext it has made (R152). -/
theorem Plan.workAt_chain_enc (hp : p.block = cbcEncBlock) :
    (p.workAt e b k).chain = chainFrom e.work.chain (p.outAt e b) k := by
  cases k with
  | zero => rfl
  | succ k =>
    rw [Plan.workAt_succ, chainFrom, if_neg (Nat.succ_ne_zero k), Nat.add_sub_cancel, Plan.outAt, hp]
    rfl

theorem Plan.outAt_enc (hp : p.block = cbcEncBlock) :
    p.outAt e b k = aesE e.slot.data (b k ^^^ chainFrom e.work.chain (p.outAt e b) k) := by
  rw [← Plan.workAt_chain_enc e b k hp]
  show (p.block _ _).1 = _
  rw [hp]
  rfl

/-- CBC decryption carries the ciphertext it has read (R153). -/
theorem Plan.workAt_chain_dec (hp : p.block = cbcDecBlock) :
    (p.workAt e b k).chain = chainFrom e.work.chain b k := by
  cases k with
  | zero => rfl
  | succ k =>
    rw [Plan.workAt_succ, chainFrom, if_neg (Nat.succ_ne_zero k), Nat.add_sub_cancel, hp]
    rfl

theorem Plan.outAt_dec (hp : p.block = cbcDecBlock) :
    p.outAt e b k = aesD e.slot.data (b k) ^^^ chainFrom e.work.chain b k := by
  rw [← Plan.workAt_chain_dec e b k hp]
  show (p.block _ _).1 = _
  rw [hp]
  rfl

end

section
variable {i : Instr} (hi : i.fields.op = 2) (hmode : i.fields.mode.toNat ∈ [0, 1, 3]) {s : State}
  {sm dm : List Segment} {w : Work} (hready : s.cryptReady (modeClass i.fields.mode) i.fields.sg sm dm)
  (hmod : s.eng.reqLen % 16 = 0)
  (hseed : ∀ b, (planOf i).seed b { s.eng with srcMap := sm, dstMap := dm } = .ok w)
include hi hmode hready hmod hseed

/-- A command that encrypts in a chain from the seeded `W_CHAIN`, CBC or ESSIV. -/
theorem exec_chainEnc (hblock : (planOf i).block = cbcEncBlock) :
    ∃ t W, exec i s = .next t ∧ s.cryptDone t dm ∧
      t.eng = ((planOf i).commit (s.eng.seeded sm dm W)).succeed ∧
      W.chain = chainFrom w.chain (streamBlock t.mem dm) (s.eng.reqLen / 16) ∧
      ∀ k, k < s.eng.reqLen / 16 → streamBlock t.mem dm k =
        aesE s.eng.slot.data (streamBlock s.mem sm k ^^^ chainFrom w.chain (streamBlock t.mem dm) k) := by
  obtain ⟨t, ht, hdone, heng, hblocks⟩ := exec_wholeBlocks hi hmode hready hmod hseed
  refine ⟨t, _, ht, hdone, heng, ?_, fun k hk => ?_⟩
  · rw [Plan.workAt_chain_enc _ _ _ hblock, chainFrom_congr hblocks le_rfl]
    rfl
  · rw [hblocks k hk, Plan.outAt_enc _ _ _ hblock, chainFrom_congr hblocks hk.le]
    rfl

/-- A command that decrypts in a chain from the seeded `W_CHAIN`, CBC or ESSIV. -/
theorem exec_chainDec (hblock : (planOf i).block = cbcDecBlock) :
    ∃ t W, exec i s = .next t ∧ s.cryptDone t dm ∧
      t.eng = ((planOf i).commit (s.eng.seeded sm dm W)).succeed ∧
      W.chain = chainFrom w.chain (streamBlock s.mem sm) (s.eng.reqLen / 16) ∧
      ∀ k, k < s.eng.reqLen / 16 → streamBlock t.mem dm k =
        aesD s.eng.slot.data (streamBlock s.mem sm k) ^^^ chainFrom w.chain (streamBlock s.mem sm) k := by
  obtain ⟨t, ht, hdone, heng, hblocks⟩ := exec_wholeBlocks hi hmode hready hmod hseed
  exact ⟨t, _, ht, hdone, heng, Plan.workAt_chain_dec _ _ _ hblock,
    fun k hk => (hblocks k hk).trans (Plan.outAt_dec _ _ _ hblock)⟩

end

/-! ### ESSIV -/

/-- SEED of a request of some bytes (R154). -/
theorem essivSeed_chain {e : Engine} (h : e.reqLen ≠ 0) : (essivSeed e).chain = aesE e.slot.essiv e.latch.iv := by
  rw [essivSeed, if_neg h]

theorem commitEssiv_empty {e : Engine} (h : e.reqLen = 0) : commitEssiv e = commitNoIv e := if_pos h

theorem commitEssiv_blocks {e : Engine} (h : e.reqLen ≠ 0) : commitEssiv e = commitChain e := if_neg h

/-- COMMIT writes where the chain has come to; a request of no bytes leaves IV (R154, R155). -/
theorem commitEssiv_iv {e : Engine} {sm dm : List Segment} {W : Work} {c : Nat → Block} (hmod : e.reqLen % 16 = 0)
    (hchain : W.chain = chainFrom (essivSeed e).chain c (e.reqLen / 16)) :
    (commitEssiv (e.seeded sm dm W)).iv =
      if e.reqLen / 16 = 0 then e.iv else chainFrom (aesE e.slot.essiv e.latch.iv) c (e.reqLen / 16) := by
  by_cases h0 : e.reqLen = 0
  · have hn : e.reqLen / 16 = 0 := by omega
    rw [if_pos hn, commitEssiv_empty (e := e.seeded sm dm W) h0]
    rfl
  · have hn : e.reqLen / 16 ≠ 0 := by omega
    rw [if_neg hn, ← essivSeed_chain h0, ← hchain, commitEssiv_blocks (e := e.seeded sm dm W) h0]
    rfl

/-! ### The obligations -/

/-- Settles O37: each unit is the cipher on its block, whatever units came before. -/
theorem ecbTransforms : Obligations.EcbTransforms := by
  intro sg s sm dm hready hmod
  constructor
  · obtain ⟨t, ht, hdone, heng, hblocks⟩ := exec_wholeBlocks (i := .cryptEcbEnc sg) rfl
      (show 0 ∈ [0, 1, 3] by decide) hready hmod fun _ => rfl
    exact ⟨t, ht, hdone, (congrArg Engine.iv heng).trans rfl, hblocks⟩
  · obtain ⟨t, ht, hdone, heng, hblocks⟩ := exec_wholeBlocks (i := .cryptEcbDec sg) rfl
      (show 0 ∈ [0, 1, 3] by decide) hready hmod fun _ => rfl
    exact ⟨t, ht, hdone, (congrArg Engine.iv heng).trans rfl, hblocks⟩

/-- Settles O38: the chain of the ciphertext stored, from L_IV; COMMIT writes where it has come to. -/
theorem cbcEncrypts : Obligations.CbcEncrypts := by
  intro sg s sm dm hready hmod n
  obtain ⟨t, W, ht, hdone, heng, hchain, hblocks⟩ := exec_chainEnc (i := .cryptCbcEnc sg) rfl
    (show 1 ∈ [0, 1, 3] by decide) hready hmod (fun _ => rfl) rfl
  exact ⟨t, ht, hdone, hblocks, (congrArg Engine.iv heng).trans hchain⟩

/-- Settles O39: the chain of the ciphertext read, from L_IV. -/
theorem cbcDecrypts : Obligations.CbcDecrypts := by
  intro sg s sm dm hready hmod n c chain
  obtain ⟨t, W, ht, hdone, heng, hchain, hblocks⟩ := exec_chainDec (i := .cryptCbcDec sg) rfl
    (show 1 ∈ [0, 1, 3] by decide) hready hmod (fun _ => rfl) rfl
  exact ⟨t, ht, hdone, hblocks, (congrArg Engine.iv heng).trans hchain⟩

/-- Settles O40: the chain of the ciphertext stored; where there is a block, SEED has encrypted L_IV for it. -/
theorem essivEncrypts : Obligations.EssivEncrypts := by
  intro sg s sm dm hready hmod n
  obtain ⟨t, W, ht, hdone, heng, hchain, hblocks⟩ := exec_chainEnc (i := .cryptEssivEnc sg) (w := essivSeed s.eng) rfl
    (show 3 ∈ [0, 1, 3] by decide) hready hmod (fun _ => rfl) rfl
  refine ⟨t, ht, hdone, fun k hk => ?_, (congrArg Engine.iv heng).trans (commitEssiv_iv hmod hchain)⟩
  have hblock := hblocks k hk
  rwa [essivSeed_chain (by omega)] at hblock

/-- Settles O41: the chain of the ciphertext read; where there is a block, SEED has encrypted L_IV for it. -/
theorem essivDecrypts : Obligations.EssivDecrypts := by
  intro sg s sm dm hready hmod n c chain
  obtain ⟨t, W, ht, hdone, heng, hchain, hblocks⟩ := exec_chainDec (i := .cryptEssivDec sg) (w := essivSeed s.eng) rfl
    (show 3 ∈ [0, 1, 3] by decide) hready hmod (fun _ => rfl) rfl
  refine ⟨t, ht, hdone, fun k hk => ?_, (congrArg Engine.iv heng).trans (commitEssiv_iv hmod hchain)⟩
  have hblock := hblocks k hk
  rwa [essivSeed_chain (by omega)] at hblock

end Sys2Proof.Machine
end

section
/-! PROOFS. CRYPT requests of no bytes, and what ECB, CBC and ESSIV decrypt of what they encrypted
(42_ecb_cbc_essiv.md R156, R157; 44_ctr_xctr.md R191, R193; O48, O59). -/

namespace Sys2Proof.Machine

/-! ### No bytes -/

/-- A CRYPT of no bytes has no unit. -/
theorem unitsOf_empty {i : Instr} (hi : i.fields.op = 2) {l : Latch} (h0 : l.len.toNat = 0) : unitsOf i l = [] := by
  have hread : bytesRead i l = 0 := (bytesRead_crypt hi l).trans h0
  have hbulk : bulkBytes i l.len.toNat = 0 := Nat.le_zero.mp (hread ▸ bulkBytes_le i l)
  rw [unitsOf, hread, hbulk]
  rfl

/-- A mode that admits a request of no bytes (R114). -/
theorem lengthRule_empty {i : Instr} (hi : i.fields.op = 2) (hmode : i.fields.mode.toNat ∈ [0, 1, 3, 4, 5]) {l : Latch}
    (h0 : l.len.toNat = 0) : lengthRule i l = none := by
  simp only [List.mem_cons, List.not_mem_nil, or_false] at hmode
  unfold lengthRule
  rw [hi, h0]
  rcases hmode with h | h | h | h | h <;> rw [h]
  case inr.inr.inr.inr => exact if_pos l.xctr.isLt.le
  all_goals rfl

/-- A CRYPT of no bytes is its SEED and its COMMIT. -/
theorem runCommand_empty {i : Instr} (hi : i.fields.op = 2) {s : State} {w : Work} (hacc : s.eng.accepted = true)
    (hkey : s.eng.keyFor (modeClass i.fields.mode)) (hlen : lengthRule i s.eng.latch = none) (h0 : s.eng.reqLen = 0)
    (hseed : ∀ b, (planOf i).seed b { s.eng with srcMap := [], dstMap := [] } = .ok w) :
    runCommand (planOf i) s = s.setEng ((planOf i).commit (s.eng.seeded [] [] w)).succeed := by
  have hread : bytesRead i s.eng.latch = 0 := (bytesRead_crypt hi _).trans h0
  obtain ⟨_, hpos⟩ := Engine.accepted_between hacc
  have hmapseed := planOf_runMapSeed (i := i) (sm := []) (dm := []) (by rw [hi]; decide) hacc (by rw [hread]; simp)
    (by rw [if_pos hi, hread]; simp) hseed
  rw [runCommand, planOf_checkError_none (keyAndMacOk_crypt hi hkey) hlen]
  simp only [planOf_runWork_eq hlen hpos, hmapseed, unitsOf_empty hi h0]
  rfl

/-- What SEED loads, COMMIT writes back where no unit came between (R156, R191, R193). -/
theorem planOf_seed_commit {i : Instr} (hi : i.fields.op = 2) (hmode : i.fields.mode.toNat ∈ [0, 1, 3, 4, 5])
    {b : Bool} {e : Engine} {w : Work} (hseed : (planOf i).seed b e = .ok w) (h0 : e.reqLen = 0)
    (hiv : e.latch.iv = e.iv) (hxctr : e.latch.xctr = e.xctr) :
    ((planOf i).commit { e with work := w }).iv = e.iv ∧ ((planOf i).commit { e with work := w }).xctr = e.xctr := by
  cases i
  case cryptEcbEnc | cryptEcbDec => exact ⟨rfl, rfl⟩
  case cryptCbcEnc | cryptCbcDec | cryptCtrEnc | cryptCtrDec =>
    obtain rfl := Except.ok.inj hseed
    exact ⟨hiv, rfl⟩
  case cryptXctrEnc | cryptXctrDec =>
    obtain rfl := Except.ok.inj hseed
    exact ⟨rfl, hxctr⟩
  case cryptEssivEnc | cryptEssivDec =>
    change (commitEssiv { e with work := w }).iv = e.iv ∧ (commitEssiv { e with work := w }).xctr = e.xctr
    rw [commitEssiv_empty (e := { e with work := w }) h0]
    exact ⟨rfl, rfl⟩
  case cryptCtsEnc | cryptCtsDec => exact absurd hmode (show 2 ∉ [0, 1, 3, 4, 5] by decide)
  case cryptXtsEnc | cryptXtsDec => exact absurd hmode (show 6 ∉ [0, 1, 3, 4, 5] by decide)
  all_goals cases hi

/-- While busy IV and XCTR are the latched ones (10_state.md R43). -/
theorem Engine.latch_eq_of_latchWf {e : Engine} (h : e.latchWf = true) (hb : e.busy = true) :
    e.latch.iv = e.iv ∧ e.latch.xctr = e.xctr := by
  simp only [Engine.latchWf, hb, Bool.not_true, Bool.false_or, Bool.and_eq_true, beq_iff_eq] at h
  obtain ⟨⟨⟨⟨_, hiv⟩, hxctr⟩, _⟩, _⟩ := h
  exact ⟨hiv, hxctr⟩

/-- Settles O48: such a request has no unit, and COMMIT writes back what SEED took from the latched copies. -/
theorem emptyRequests : Obligations.EmptyRequests := by
  intro i s hi hmode hkey hacc hlatch h0
  obtain ⟨hphase, _⟩ := s.eng.accepted_iff.mp hacc
  have hbusy : s.eng.busy = true := Engine.busy_iff.mpr (by rw [hphase]; decide)
  obtain ⟨hiv, hxctr⟩ := Engine.latch_eq_of_latchWf hlatch hbusy
  obtain ⟨w, hseed⟩ := planOf_seed_ok (i := i) (by rw [hi]; decide) { s.eng with srcMap := [], dstMap := [] }
  obtain ⟨hivKept, hxctrKept⟩ := planOf_seed_commit hi hmode (hseed false) h0 hiv hxctr
  exact ⟨_, (exec_eq i s).trans (congrArg _ (runCommand_empty hi hacc hkey (lengthRule_empty hi hmode h0) h0 hseed)),
    planOf_commit_succeeds i _, rfl, hivKept, hxctrKept, planOf_commit_result hi _⟩

/-! ### Blocks and bytes -/

/-- Streams are the same block by block where they are byte by byte. -/
theorem streamBlock_congr {mem mem' : Memory} {m m' : List Segment} {n : Nat}
    (h : ∀ j, j < 16 * n → mem'.read (mapAddr m' j) = mem.read (mapAddr m j)) (k : Nat) (hk : k < n) :
    streamBlock mem' m' k = streamBlock mem m k := by
  refine congrArg blockOf (List.map_congr_left fun j hj => ?_)
  have := List.mem_range.mp hj
  exact h _ (by omega)

/-- A block of a stream gives its bytes. -/
theorem blockBytes_streamBlock (mem : Memory) (m : List Segment) (k : Nat) :
    blockBytes (streamBlock mem m k) = streamBytes mem m (16 * k) 16 :=
  blockBytes_blockOf (length_streamBytes _ _ _ _)

/-- Streams are the same byte by byte where they are block by block. -/
theorem read_of_streamBlock {mem mem' : Memory} {m m' : List Segment} {n : Nat}
    (h : ∀ k, k < n → streamBlock mem' m' k = streamBlock mem m k) (j : Nat) (hj : j < 16 * n) :
    mem'.read (mapAddr m' j) = mem.read (mapAddr m j) := by
  have hblock := congrArg blockBytes (h (j / 16) (by omega))
  simp only [blockBytes_streamBlock] at hblock
  have hbyte := List.map_inj_left.mp hblock (j % 16) (List.mem_range.mpr (by omega))
  rwa [Nat.div_add_mod] at hbyte

/-! ### The round trip -/

/-- CBC decryption undoes CBC encryption, from the same start of the chain (R152, R153). -/
theorem chain_roundTrip {K : Bytes} {iv : Block} {n : Nat} {x c c' y : Nat → Block} (hc : ∀ k, k < n → c' k = c k)
    (henc : ∀ k, k < n → c k = aesE K (x k ^^^ chainFrom iv c k))
    (hdec : ∀ k, k < n → y k = aesD K (c' k) ^^^ chainFrom iv c' k) (k : Nat) (hk : k < n) : y k = x k := by
  rw [hdec k hk, hc k hk, chainFrom_congr hc hk.le, henc k hk, aesD_aesE, BitVec.xor_assoc, BitVec.xor_self,
    BitVec.xor_zero]

/-- Settles O59: block by block the cipher and the chain are undone. -/
theorem blockModesRoundTrip : Obligations.BlockModesRoundTrip := by
  intro enc dec c sg sg' s s' t sm dm sm' dm' hmode hready hready' hmod hslot hiv hlen ht hread
  have hmod' : s'.eng.reqLen % 16 = 0 := hlen ▸ hmod
  have hn : 16 * (s.eng.reqLen / 16) = s.eng.reqLen := by omega
  rw [← hn] at hread ⊢
  have hcipher := streamBlock_congr hread
  suffices h : ∃ t', exec dec s' = .next t' ∧ s'.cryptDone t' dm' ∧
      ∀ k, k < s.eng.reqLen / 16 → streamBlock t'.mem dm' k = streamBlock s.mem sm k by
    obtain ⟨t', ht', ⟨hdone, _⟩, hblocks⟩ := h
    exact ⟨t', ht', hdone, read_of_streamBlock hblocks⟩
  simp only [List.mem_cons, List.not_mem_nil, or_false, Prod.mk.injEq] at hmode
  rcases hmode with ⟨rfl, rfl, rfl⟩ | ⟨rfl, rfl, rfl⟩ | ⟨rfl, rfl, rfl⟩
  · obtain ⟨⟨u, hu, _, _, henc⟩, _⟩ := ecbTransforms sg s sm dm hready hmod
    obtain ⟨_, t', ht', hdone, _, hdec⟩ := ecbTransforms sg' s' sm' dm' hready' hmod'
    obtain rfl := Host.Outcome.next.inj (ht.symm.trans hu)
    rw [hlen, hslot] at hdec
    exact ⟨t', ht', hdone, fun k hk => by rw [hdec k hk, hcipher k hk, henc k hk, aesD_aesE]⟩
  · obtain ⟨u, hu, _, henc, _⟩ := cbcEncrypts sg s sm dm hready hmod
    obtain ⟨t', ht', hdone, hdec, _⟩ := cbcDecrypts sg' s' sm' dm' hready' hmod'
    obtain rfl := Host.Outcome.next.inj (ht.symm.trans hu)
    rw [hlen, hslot, hiv] at hdec
    exact ⟨t', ht', hdone, chain_roundTrip hcipher henc hdec⟩
  · obtain ⟨u, hu, _, henc, _⟩ := essivEncrypts sg s sm dm hready hmod
    obtain ⟨t', ht', hdone, hdec, _⟩ := essivDecrypts sg' s' sm' dm' hready' hmod'
    obtain rfl := Host.Outcome.next.inj (ht.symm.trans hu)
    rw [hlen, hslot, hiv] at hdec
    exact ⟨t', ht', hdone, chain_roundTrip hcipher henc hdec⟩

end Sys2Proof.Machine
end

section
/-! PROOFS. The stealing tails of CTS and XTS: what is stolen from a block goes back where it was taken
(43_cts.md R173, R174; 45_xts.md R212, R215, R216; O58). -/

namespace Sys2Proof.Machine

/-! ### Parts of byte strings -/

theorem slice_zero (s : Bytes) (r : Nat) : slice s 0 r = s.take r := rfl

theorem slice_of_length {s : Bytes} {n : Nat} (h : s.length = n) (r : Nat) : slice s r n = s.drop r :=
  List.take_of_length_le (by rw [List.length_drop, h])

theorem slice_blockBytes (x : Block) (r : Nat) : slice (blockBytes x) r 16 = (blockBytes x).drop r :=
  slice_of_length (length_blockBytes x) r

@[simp] theorem length_zeros (n : Nat) : (zeros n).length = n := List.length_replicate

theorem xorBytes_append {s t s' t' : Bytes} (h : s.length = t.length) :
    xorBytes (s ++ s') (t ++ t') = xorBytes s t ++ xorBytes s' t' :=
  List.zipWith_append h

theorem xorBytes_zeros (s : Bytes) : xorBytes (zeros s.length) s = s := by
  induction s with
  | nil => rfl
  | cons x s ih => exact congrArg₂ List.cons (BitVec.zero_xor (x := x)) ih

theorem xorBytes_cancel {s t : Bytes} (h : s.length = t.length) : xorBytes (xorBytes s t) t = s := by
  induction s generalizing t with
  | nil => rfl
  | cons x s ih =>
    obtain _ | ⟨y, t⟩ := t
    · cases h
    · have hx : x ^^^ y ^^^ y = x := by rw [BitVec.xor_assoc, BitVec.xor_self, BitVec.xor_zero]
      exact congrArg₂ List.cons hx (ih (Nat.succ.inj h))

/-! ### A block in front of a rest -/

/-- Both tails put a full block in front of the shorter rest (R173, R215). -/
theorem blockOf_take_blockBytes (x : Block) (s : Bytes) : blockOf ((blockBytes x ++ s).take 16) = x := by
  rw [List.take_left' (length_blockBytes x), blockOf_blockBytes]

theorem drop_blockBytes (x : Block) (s : Bytes) : (blockBytes x ++ s).drop 16 = s :=
  List.drop_left' (length_blockBytes x)

/-- The first `r` bytes of a block and the others make the block again. -/
theorem blockOf_take_drop (x : Block) (r : Nat) : blockOf ((blockBytes x).take r ++ (blockBytes x).drop r) = x := by
  rw [List.take_append_drop, blockOf_blockBytes]

theorem length_take_blockBytes {r : Nat} (hr : r ≤ 16) (x : Block) : ((blockBytes x).take r).length = r := by
  rw [List.length_take, length_blockBytes, Nat.min_eq_left hr]

/-- Bytes padded with the end of a block, one byte string of 16. -/
theorem length_append_drop_block {b : Bytes} {r : Nat} (hr : r ≤ 16) (hb : b.length = r) (x : Block) :
    (b ++ (blockBytes x).drop r).length = 16 := by
  rw [List.length_append, List.length_drop, length_blockBytes, hb]
  omega

/-- What such a byte string has after its first `r` bytes. -/
theorem slice_append_drop_block {b : Bytes} {r : Nat} (hr : r ≤ 16) (hb : b.length = r) (x : Block) :
    slice (b ++ (blockBytes x).drop r) r 16 = (blockBytes x).drop r := by
  rw [slice_of_length (length_append_drop_block hr hb x), List.drop_left' hb]

/-! ### CTS -/

/-- What decryption finds under the full block: the last bytes masked with the stolen ones, and the end of the block
they were stolen from (R174). -/
theorem blockBytes_padded_xor {b : Bytes} {r : Nat} (hr : r ≤ 16) (hb : b.length = r) (c : Block) :
    blockBytes (blockOf (b ++ zeros (16 - r)) ^^^ c) =
      xorBytes b ((blockBytes c).take r) ++ (blockBytes c).drop r := by
  have hpad : (b ++ zeros (16 - r)).length = 16 := by
    rw [List.length_append, length_zeros]
    omega
  have htake : b.length = ((blockBytes c).take r).length := hb.trans (length_take_blockBytes hr c).symm
  have hdrop : 16 - r = ((blockBytes c).drop r).length := by
    rw [List.length_drop, length_blockBytes]
  rw [blockBytes_xor, blockBytes_blockOf hpad]
  conv_lhs => rw [← List.take_append_drop r (blockBytes c), xorBytes_append htake, hdrop, xorBytes_zeros]

/-- Decryption of the CTS tail undoes its encryption, with the same chain out (R174, R175). -/
theorem ctsDecTail_ctsEncTail (k : Bytes) (chain a : Block) {b : Bytes} {r : Nat} (hr : r ≤ 16) (hb : b.length = r) :
    ctsDecTail k chain (blockOf ((ctsEncTail k chain a b r).1.take 16)) ((ctsEncTail k chain a b r).1.drop 16) r =
      (blockBytes a ++ b, (ctsEncTail k chain a b r).2) := by
  set c := aesE k (a ^^^ chain) with hc
  have hlen : b.length = ((blockBytes c).take r).length := hb.trans (length_take_blockBytes hr c).symm
  have hmask : (xorBytes b ((blockBytes c).take r)).length = r := by
    rw [length_xorBytes, ← hlen, hb, Nat.min_self]
  simp only [ctsEncTail, ← hc, blockOf_take_blockBytes, drop_blockBytes, ctsDecTail, aesD_aesE, slice_zero,
    blockBytes_padded_xor hr hb, List.take_left' hmask, slice_append_drop_block hr hmask, blockOf_take_drop,
    xorBytes_cancel hlen]
  rw [hc, aesD_aesE, BitVec.xor_assoc, BitVec.xor_self, BitVec.xor_zero]

/-! ### XTS -/

/-- `XD` undoes `XE` under the same tweak (R212). -/
@[simp] theorem xtsD_xtsE (k : Bytes) (b T : Block) : xtsD k (xtsE k b T) T = b := by
  simp only [xtsD, xtsE, BitVec.xor_assoc, BitVec.xor_self, BitVec.xor_zero, aesD_aesE]

/-- Decryption of the XTS tail undoes its encryption, each block under its own tweak (R216). -/
theorem xtsDecTail_xtsEncTail (k : Bytes) (a T : Block) {b : Bytes} {r : Nat} (hr : r ≤ 16) (hb : b.length = r) :
    xtsDecTail k (blockOf ((xtsEncTail k a b r T).take 16)) ((xtsEncTail k a b r T).drop 16) r T =
      blockBytes a ++ b := by
  simp only [xtsEncTail, blockOf_take_blockBytes, drop_blockBytes, xtsDecTail, xtsD_xtsE, slice_blockBytes, slice_zero,
    blockBytes_blockOf (length_append_drop_block hr hb _), slice_append_drop_block hr hb, List.take_left' hb,
    blockOf_take_drop]

/-- Settles O58: the stolen bytes are put back on the block they were taken from, which is then decrypted. -/
theorem stealingTailsRoundTrip : Obligations.StealingTailsRoundTrip :=
  ⟨fun k chain a _ _ _ hr hb => ctsDecTail_ctsEncTail k chain a hr hb,
    fun k a T _ _ _ hr hb => xtsDecTail_xtsEncTail k a T (by omega) hb, xtsD_xtsE⟩

end Sys2Proof.Machine
end

section
/-! PROOFS. A CRYPT command of blocks in BULK and what remains in TAIL: how it completes and what it stores, for every
mode (40_control.md R116, R117, R120; 20_memory.md R68). -/

namespace Sys2Proof.Machine

/-- A CRYPT that has stored and come to its COMMIT is done. -/
theorem cryptDone_of_commit {i : Instr} (hi : i.fields.op = 2) {s : State} {e : Engine} {mem : Memory}
    {dm : List Segment} (herr : e.err = s.eng.err) (haddr : e.errAddr = s.eng.errAddr)
    (hmem : sameOutside s.mem mem dm s.eng.reqLen) :
    s.cryptDone { s with mem := mem, eng := ((planOf i).commit e).succeed } dm := by
  obtain ⟨hphase, hdone, hcode, herr', haddr', hsrc, hdst⟩ := planOf_commit_succeeds i e
  exact ⟨⟨hphase, hdone, hcode, herr'.trans herr, haddr'.trans haddr, hsrc, hdst⟩, planOf_commit_result hi e, hmem⟩

/-- A BULK unit's computation leaves the position. -/
theorem planOf_block_pos (i : Instr) (e : Engine) (b : Block) : ((planOf i).block e b).2.pos = e.work.pos := by
  rw [← planOf_keepsPos i e false (blockBytes b), Plan.compute, if_neg Bool.false_ne_true, blockOf_blockBytes]

/-- The TAIL unit's computation leaves the position. -/
theorem planOf_tail_pos (i : Instr) (e : Engine) (b : Bytes) : ((planOf i).tail e b).2.pos = e.work.pos :=
  planOf_keepsPos i e true b

/-- The TAIL unit of a CRYPT is what BULK leaves of the request, and makes as many bytes as it reads (R120). -/
theorem planOf_tail_length {i : Instr} (hi : i.fields.op = 2) {l : Latch} (hlen : lengthRule i l = none) {m u : Nat}
    (hbulk : bulkBytes i l.len.toNat = 16 * m) (hu : 0 < u) (hL : l.len.toNat = 16 * m + u) (e : Engine) {b : Bytes}
    (hb : b.length = u) : ((planOf i).tail e b).1.length = u := by
  have hunit : (16 * m, u) ∈ unitsOf i l := by
    rw [unitsOf, bytesRead_crypt hi, hbulk, if_pos (by omega), show l.len.toNat - 16 * m = u by omega]
    exact List.mem_append_right _ List.mem_cons_self
  have hlength := planOf_compute_length hi hlen hunit e hb
  rwa [decide_eq_true hbulk.le] at hlength

section
variable {i : Instr} (hi : i.fields.op = 2) {s : State} {sm dm : List Segment} {w : Work} {m : Nat}
  (hready : s.cryptReady (modeClass i.fields.mode) i.fields.sg sm dm) (hlen : lengthRule i s.eng.latch = none)
  (hseed : ∀ b, (planOf i).seed b { s.eng with srcMap := sm, dstMap := dm } = .ok w)
  (hbulk : bulkBytes i s.eng.reqLen = 16 * m)
include hi hready hlen hseed hbulk

/-- A CRYPT whose request is the `m` blocks of BULK. -/
theorem exec_bulk (hL : s.eng.reqLen = 16 * m) :
    ∃ t, exec i s = .next t ∧ s.cryptDone t dm ∧
      t.eng = ((planOf i).commit (s.eng.seeded sm dm
        ((planOf i).workAt (s.eng.seeded sm dm w) (streamBlock s.mem sm) m))).succeed ∧
      ∀ k, k < m → streamBlock t.mem dm k = (planOf i).outAt (s.eng.seeded sm dm w) (streamBlock s.mem sm) k := by
  obtain ⟨hacc, hkey, hstreams⟩ := hready
  obtain ⟨_, h0⟩ := Engine.accepted_between hacc
  obtain ⟨hpos, _⟩ := planOf_seed (hseed false)
  have hstores := (planOf_stores_iff i).mpr hi
  have hm : s.eng.reqLen / 16 = m := by omega
  obtain ⟨mem, hrun, hblocks, hother⟩ := runCommand_blocks (planOf_stores_moves i hstores) hstores
    (planOf_draws_crypt hi) (planOf_checkError_none (keyAndMacOk_crypt hi hkey) hlen)
    ((planOf_total i s.eng).trans (bytesRead_crypt hi _)) (((planOf_bulk i s.eng).trans hbulk).trans hL.symm) hseed
    (planOf_block_pos i) (hpos.trans h0) hacc (by rwa [planOf_sg]) (by omega)
  rw [hm] at hrun hblocks hother
  exact ⟨_, (exec_eq i s).trans (congrArg _ hrun), cryptDone_of_commit hi rfl rfl (by rwa [hL]), rfl, hblocks⟩

/-- A CRYPT with `m` blocks in BULK and the `u` bytes that remain in TAIL. -/
theorem exec_bulk_tail {u : Nat} (hu : 0 < u) (hL : s.eng.reqLen = 16 * m + u) {r : Bytes × Work}
    (hr : (planOf i).tail (s.eng.seeded sm dm
        ((planOf i).workAt (s.eng.seeded sm dm w) (streamBlock s.mem sm) m)) (streamBytes s.mem sm (16 * m) u) = r) :
    ∃ t, exec i s = .next t ∧ s.cryptDone t dm ∧
      t.eng = ((planOf i).commit (s.eng.seeded sm dm { r.2 with pos := s.eng.reqLen })).succeed ∧
      (∀ k, k < m → streamBlock t.mem dm k = (planOf i).outAt (s.eng.seeded sm dm w) (streamBlock s.mem sm) k) ∧
      streamBytes t.mem dm (16 * m) u = r.1 := by
  obtain ⟨hacc, hkey, hstreams⟩ := hready
  obtain ⟨_, h0⟩ := Engine.accepted_between hacc
  obtain ⟨hpos, _⟩ := planOf_seed (hseed false)
  have hstores := (planOf_stores_iff i).mpr hi
  have hm : 16 * m / 16 = m := by omega
  have hW : ((planOf i).workAt (s.eng.seeded sm dm w) (streamBlock s.mem sm) m).pos = 16 * m := by
    rw [Plan.workAt_pos (planOf_block_pos i), show (s.eng.seeded sm dm w).work.pos = 0 from hpos.trans h0, Nat.zero_add]
  subst hr
  obtain ⟨mem, hrun, hblocks, htail, hother⟩ := runCommand_tail (planOf_stores_moves i hstores) hstores
    (planOf_draws_crypt hi) (planOf_checkError_none (keyAndMacOk_crypt hi hkey) hlen)
    ((planOf_total i s.eng).trans (bytesRead_crypt hi _)) ((planOf_bulk i s.eng).trans hbulk) hseed
    (planOf_block_pos i) (hpos.trans h0) hacc (by rwa [planOf_sg]) (by omega) hu hL.symm (by rw [hm])
    (planOf_tail_length hi hlen hbulk hu hL _ (length_streamBytes ..)) ((planOf_tail_pos i _ _).trans hW)
  rw [hm] at hblocks
  exact ⟨_, (exec_eq i s).trans (congrArg _ hrun), cryptDone_of_commit hi rfl rfl hother, rfl, hblocks, htail⟩

end

end Sys2Proof.Machine
end

section
/-! PROOFS. CBC with ciphertext stealing: one block, or a chain of blocks and the stealing tail (43_cts.md R170 to R176;
O42, O43). -/

namespace Sys2Proof.Machine

/-! ### The partition -/

/-- Check 3 and the bulk end of CTS (R170). -/
theorem cts_rules {i : Instr} (hi : i.fields.op = 2) (hmode : i.fields.mode = 2) {l : Latch} (h : 16 ≤ l.len.toNat) :
    lengthRule i l = none ∧ bulkBytes i l.len.toNat = ctsBulkEnd l.len.toNat := by
  unfold lengthRule bulkBytes
  rw [hi, hmode]
  exact ⟨if_pos h, rfl⟩

theorem ctsBulkEnd_block : ctsBulkEnd 16 = 16 := rfl

/-- BULK leaves a block and a rest of at most a block to the tail (R170). -/
theorem ctsBulkEnd_tail {m r : Nat} (h1 : 1 ≤ r) (h16 : r ≤ 16) : ctsBulkEnd (16 * m + (16 + r)) = 16 * m := by
  rw [ctsBulkEnd, if_neg (by omega)]
  omega

/-! ### The tail unit -/

/-- A block of a stream and the bytes after it. -/
theorem streamBytes_block_append (mem : Memory) (m : List Segment) (k r : Nat) :
    streamBytes mem m (16 * k) (16 + r) =
      blockBytes (streamBlock mem m k) ++ streamBytes mem m (16 * (k + 1)) r := by
  rw [streamBytes_add, blockBytes_streamBlock, Nat.mul_succ]

/-- The tail unit on the bytes of a block and a rest, as a rearrangement `T` of them: R173 or R174. -/
def stealUnit (T : Bytes → Block → Block → Bytes → Nat → Bytes × Block) (e : Engine) (t : Bytes) : Bytes × Work :=
  let r := t.length - 16
  let y := T e.slot.data e.work.chain (blockOf (slice t 0 16)) (slice t 16 (16 + r)) r
  (y.1, { e.work with chain := y.2 })

theorem ctsEncUnit_eq : ctsEncUnit = stealUnit ctsEncTail := rfl

theorem ctsDecUnit_eq : ctsDecUnit = stealUnit ctsDecTail := rfl

theorem stealUnit_append {T : Bytes → Block → Block → Bytes → Nat → Bytes × Block} (e : Engine) (a : Block) {b : Bytes}
    {r : Nat} (hb : b.length = r) : stealUnit T e (blockBytes a ++ b) =
      ((T e.slot.data e.work.chain a b r).1, { e.work with chain := (T e.slot.data e.work.chain a b r).2 }) := by
  have hlength : (blockBytes a ++ b).length = 16 + r := by rw [List.length_append, length_blockBytes, hb]
  have hr : (blockBytes a ++ b).length - 16 = r := by omega
  simp only [stealUnit, hr, slice_zero, blockOf_take_blockBytes, slice_of_length hlength, drop_blockBytes]

/-- What R174 computes, with the block it rebuilds. -/
theorem ctsDecTail_eq (k : Bytes) (chain a : Block) (b : Bytes) (r : Nat) : ctsDecTail k chain a b r =
    (blockBytes (aesD k (blockOf (b ++ (blockBytes (aesD k a)).drop r)) ^^^ chain) ++
      xorBytes ((blockBytes (aesD k a)).take r) b, a) := by
  rw [ctsDecTail, slice_blockBytes]
  rfl

/-! ### The command -/

section
variable {i : Instr} (hi : i.fields.op = 2) (hmode : i.fields.mode = 2) {s : State} {sm dm : List Segment}
  (hready : s.cryptReady (modeClass i.fields.mode) i.fields.sg sm dm)
  (hseed : ∀ b, (planOf i).seed b { s.eng with srcMap := sm, dstMap := dm } = .ok (cbcSeed s.eng))
  (hcommit : (planOf i).commit = commitChain)
include hi hmode hready hseed hcommit

/-- A CTS command of one block. -/
theorem exec_ctsBlock (hL : s.eng.reqLen = 16) :
    ∃ t, exec i s = .next t ∧ s.cryptDone t dm ∧
      streamBlock t.mem dm 0 = (planOf i).outAt (s.eng.seeded sm dm (cbcSeed s.eng)) (streamBlock s.mem sm) 0 ∧
      t.eng.iv = ((planOf i).workAt (s.eng.seeded sm dm (cbcSeed s.eng)) (streamBlock s.mem sm) 1).chain := by
  obtain ⟨hlen, hbulk⟩ := cts_rules hi hmode (l := s.eng.latch) hL.ge
  obtain ⟨t, ht, hdone, heng, hblocks⟩ := exec_bulk (m := 1) hi hready hlen hseed
    (hbulk.trans ((congrArg ctsBulkEnd hL).trans ctsBulkEnd_block)) hL
  rw [hcommit] at heng
  exact ⟨t, ht, hdone, hblocks 0 one_pos, congrArg Engine.iv heng⟩

/-- A CTS command of more than one block: `m` blocks in BULK, and a tail whose rest has `r` bytes. -/
theorem exec_ctsTail {T : Bytes → Block → Block → Bytes → Nat → Bytes × Block} (htail : (planOf i).tail = stealUnit T)
    {m r : Nat} (hL : s.eng.reqLen = 16 * m + (16 + r)) (h1 : 1 ≤ r) (h16 : r ≤ 16) :
    ∃ t, exec i s = .next t ∧ s.cryptDone t dm ∧
      (∀ k, k < m → streamBlock t.mem dm k =
        (planOf i).outAt (s.eng.seeded sm dm (cbcSeed s.eng)) (streamBlock s.mem sm) k) ∧
      (streamBytes t.mem dm (16 * m) (16 + r), t.eng.iv) = T s.eng.slot.data
        ((planOf i).workAt (s.eng.seeded sm dm (cbcSeed s.eng)) (streamBlock s.mem sm) m).chain
        (streamBlock s.mem sm m) (streamBytes s.mem sm (16 * (m + 1)) r) r := by
  obtain ⟨hlen, hbulk⟩ := cts_rules hi hmode (l := s.eng.latch) (show 16 ≤ s.eng.reqLen by omega)
  obtain ⟨t, ht, hdone, heng, hblocks, hbytes⟩ := exec_bulk_tail hi hready hlen hseed
    (hbulk.trans ((congrArg ctsBulkEnd hL).trans (ctsBulkEnd_tail h1 h16))) (by omega) hL
    (by rw [htail, streamBytes_block_append, stealUnit_append _ _ (length_streamBytes ..)])
  rw [hcommit] at heng
  exact ⟨t, ht, hdone, hblocks, congrArg₂ Prod.mk hbytes (congrArg Engine.iv heng)⟩

end

/-! ### The obligations -/

/-- Settles O42: one unit of BULK for one block; else the chain of the ciphertext stored, which the tail goes on with. -/
theorem ctsEncrypts : Obligations.CtsEncrypts := by
  intro sg s sm dm hready h16 L K n r
  by_cases hL : L = 16
  case pos =>
    obtain ⟨t, ht, hdone, hblock, hiv⟩ := exec_ctsBlock (i := .cryptCtsEnc sg) rfl rfl hready (fun _ => rfl) rfl hL
    exact ⟨t, ht, hdone, fun _ => ⟨hblock, hiv.trans hblock.symm⟩, fun h => absurd hL h.ne'⟩
  case neg =>
    have hn : n - 2 + 1 = n - 1 := by omega
    obtain ⟨t, ht, hdone, hblocks, htail⟩ := exec_ctsTail (i := .cryptCtsEnc sg) (m := n - 2) (r := r) rfl rfl hready
      (fun _ => rfl) rfl ctsEncUnit_eq (by omega) (by omega) (by omega)
    rw [hn, Plan.workAt_chain_enc (p := planOf (.cryptCtsEnc sg)) _ _ _ rfl, ← chainFrom_congr hblocks le_rfl] at htail
    refine ⟨t, ht, hdone, fun h => absurd h hL, fun _ =>
      ⟨fun k hk => ?_, congrArg Prod.fst htail, congrArg Prod.snd htail⟩⟩
    rw [hblocks k hk, Plan.outAt_enc (p := planOf (.cryptCtsEnc sg)) _ _ _ rfl, ← chainFrom_congr hblocks hk.le]
    rfl

/-- Settles O43: one unit of BULK for one block; else the chain of the ciphertext read, which the tail goes on with. -/
theorem ctsDecrypts : Obligations.CtsDecrypts := by
  intro sg s sm dm hready h16 L K n r inp chain
  by_cases hL : L = 16
  case pos =>
    obtain ⟨t, ht, hdone, hblock, hiv⟩ := exec_ctsBlock (i := .cryptCtsDec sg) rfl rfl hready (fun _ => rfl) rfl hL
    exact ⟨t, ht, hdone, fun _ => ⟨hblock, hiv⟩, fun h => absurd hL h.ne'⟩
  case neg =>
    have hn : n - 2 + 1 = n - 1 := by omega
    obtain ⟨t, ht, hdone, hblocks, htail⟩ := exec_ctsTail (i := .cryptCtsDec sg) (m := n - 2) (r := r) rfl rfl hready
      (fun _ => rfl) rfl ctsDecUnit_eq (by omega) (by omega) (by omega)
    rw [hn, Plan.workAt_chain_dec (p := planOf (.cryptCtsDec sg)) _ _ _ rfl, ctsDecTail_eq] at htail
    exact ⟨t, ht, hdone, fun h => absurd h hL, fun _ => ⟨fun k hk => (hblocks k hk).trans (Plan.outAt_dec _ _ _ rfl),
      congrArg Prod.fst htail, congrArg Prod.snd htail⟩⟩

end Sys2Proof.Machine
end

section
/-! PROOFS. The stream modes CTR and XCTR: every unit is the bytes it reads under the keystream bytes of their offsets,
so the command is one exclusive or with a keystream, in either direction and its own inverse (44_ctr_xctr.md R190 to
R196; O44, O45, O60). -/

namespace Sys2Proof.Machine

/-! ### A stream under a keystream -/

/-- The keystream bytes at offsets `off … off + n − 1`. -/
def keystreamBytes (ks : Nat → Byte) (off n : Nat) : Bytes := (List.range n).map fun j => ks (off + j)

@[simp] theorem length_keystreamBytes (ks : Nat → Byte) (off n : Nat) : (keystreamBytes ks off n).length = n := by
  simp [keystreamBytes]

/-- Each of the first `n` bytes of the stream `dm` of `mem'` is the byte of `sm` in `mem` at that offset, under the
keystream byte. -/
def MaskedBy (ks : Nat → Byte) (mem mem' : Memory) (sm dm : List Segment) (n : Nat) : Prop :=
  ∀ j, j < n → mem'.read (mapAddr dm j) = mem.read (mapAddr sm j) ^^^ ks j

section
variable {ks : Nat → Byte} {mem mem' : Memory} {sm dm : List Segment}

/-- A range of a stream is masked as a byte string exactly where it is masked byte by byte. -/
theorem streamBytes_eq_xorBytes_iff {off n : Nat} :
    streamBytes mem' dm off n = xorBytes (streamBytes mem sm off n) (keystreamBytes ks off n) ↔
      ∀ j, j < n → mem'.read (mapAddr dm (off + j)) = mem.read (mapAddr sm (off + j)) ^^^ ks (off + j) := by
  simp only [streamBytes, keystreamBytes, xorBytes, List.zipWith_map, List.zipWith_self, List.map_inj_left,
    List.mem_range]

/-- Any range of a masked stream is masked. -/
theorem MaskedBy.streamBytes_eq {n off u : Nat} (h : MaskedBy ks mem mem' sm dm n) (hu : off + u ≤ n) :
    streamBytes mem' dm off u = xorBytes (streamBytes mem sm off u) (keystreamBytes ks off u) :=
  streamBytes_eq_xorBytes_iff.mpr fun j hj => h _ (by omega)

/-- A stream is masked where its blocks and the rest after them are. -/
theorem maskedBy_of_units {m u : Nat}
    (hblocks : ∀ k, k < m →
      streamBytes mem' dm (16 * k) 16 = xorBytes (streamBytes mem sm (16 * k) 16) (keystreamBytes ks (16 * k) 16))
    (hrest : streamBytes mem' dm (16 * m) u = xorBytes (streamBytes mem sm (16 * m) u) (keystreamBytes ks (16 * m) u)) :
    MaskedBy ks mem mem' sm dm (16 * m + u) := by
  intro j hj
  by_cases hm : j < 16 * m
  · have hbyte := streamBytes_eq_xorBytes_iff.mp (hblocks (j / 16) (by omega)) (j % 16) (by omega)
    rwa [Nat.div_add_mod] at hbyte
  · have hbyte := streamBytes_eq_xorBytes_iff.mp hrest (j - 16 * m) (by omega)
    rwa [Nat.add_sub_cancel' (by omega)] at hbyte

/-- The same keystream over a masked stream gives the stream back. -/
theorem MaskedBy.undo {mem₂ mem₂' : Memory} {sm₂ dm₂ : List Segment} {n : Nat} (h : MaskedBy ks mem mem' sm dm n)
    (hread : ∀ j, j < n → mem₂.read (mapAddr sm₂ j) = mem'.read (mapAddr dm j))
    (h₂ : MaskedBy ks mem₂ mem₂' sm₂ dm₂ n) (j : Nat) (hj : j < n) :
    mem₂'.read (mapAddr dm₂ j) = mem.read (mapAddr sm j) := by
  rw [h₂ j hj, hread j hj, h j hj, BitVec.xor_assoc, BitVec.xor_self, BitVec.xor_zero]

end

/-- A keystream that is cut into blocks, each from its first byte. -/
theorem keystreamBytes_blocks (B : Nat → Block) (k : Nat) {r : Nat} (hr : r ≤ 16) :
    keystreamBytes (fun p => (blockBytes (B (p / 16))).getD (p % 16) 0) (16 * k) r = (blockBytes (B k)).take r := by
  refine List.ext_getElem (by simp [hr]) fun j hj _ => ?_
  rw [length_keystreamBytes] at hj
  have hdiv : (16 * k + j) / 16 = k := by omega
  have hmod : (16 * k + j) % 16 = j := by omega
  have hlt : j < (blockBytes (B k)).length := by rw [length_blockBytes]; omega
  simp only [keystreamBytes, List.getElem_map, List.getElem_range, List.getElem_take, hdiv, hmod,
    List.getD_eq_getElem _ _ hlt]

/-! ### A command whose units mask -/

/-- The units of the plan mask the request of `e`. `At off` says what the working registers hold where the offset
`off` comes next, whatever the position register says. -/
structure Plan.Masks (p : Plan) (e : Engine) (ks : Nat → Byte) (At : Nat → Work → Prop) : Prop where
  /-- A unit that starts at block `k`: a block in BULK, at most a block in TAIL. -/
  unit : ∀ (k : Nat) (inTail : Bool) (w : Work) (b : Bytes), 0 < b.length → b.length ≤ 16 →
    (inTail = false → b.length = 16) → 16 * k + b.length ≤ e.reqLen → At (16 * k) w →
    (p.compute { e with work := w } inTail b).1 = xorBytes b (keystreamBytes ks (16 * k) b.length) ∧
      At (16 * k + b.length) (p.compute { e with work := w } inTail b).2
  /-- The position is of no account. -/
  pos : ∀ (off n : Nat) (w : Work), At off w → At off { w with pos := n }

section
variable {p : Plan} {e : Engine} {ks : Nat → Byte} {At : Nat → Work → Prop} (h : p.Masks e ks At) {b : Nat → Block}
include h

/-- A block of BULK. -/
theorem Plan.Masks.block {k : Nat} {w : Work} {x : Block} (hk : 16 * (k + 1) ≤ e.reqLen) (hw : At (16 * k) w) :
    blockBytes (p.block { e with work := w } x).1 = xorBytes (blockBytes x) (keystreamBytes ks (16 * k) 16) ∧
      At (16 * (k + 1)) (p.block { e with work := w } x).2 := by
  have hx := length_blockBytes x
  have hunit := h.unit k false w (blockBytes x) (by omega) hx.le (fun _ => hx) (by omega) hw
  rwa [hx, Plan.compute, if_neg Bool.false_ne_true, blockOf_blockBytes] at hunit

theorem Plan.Masks.workAt (h0 : At 0 e.work) {k : Nat} (hk : 16 * k ≤ e.reqLen) : At (16 * k) (p.workAt e b k) := by
  induction k with
  | zero => exact h0
  | succ k ih => exact h.pos _ _ _ (h.block hk (ih (by omega))).2

theorem Plan.Masks.outAt (h0 : At 0 e.work) {k : Nat} (hk : 16 * (k + 1) ≤ e.reqLen) :
    blockBytes (p.outAt e b k) = xorBytes (blockBytes (b k)) (keystreamBytes ks (16 * k) 16) :=
  (h.block hk (h.workAt h0 (by omega))).1

end

/-- A CRYPT whose units mask its request, with the full blocks in BULK and the rest in TAIL. -/
theorem exec_masks {i : Instr} (hi : i.fields.op = 2) {s : State} {sm dm : List Segment} {w : Work}
    {ks : Nat → Byte} {At : Nat → Work → Prop}
    (hready : s.cryptReady (modeClass i.fields.mode) i.fields.sg sm dm) (hlen : lengthRule i s.eng.latch = none)
    (hseed : ∀ b, (planOf i).seed b { s.eng with srcMap := sm, dstMap := dm } = .ok w)
    (hbulk : bulkBytes i s.eng.reqLen = 16 * (s.eng.reqLen / 16))
    (hmasks : (planOf i).Masks (s.eng.seeded sm dm w) ks At) (h0 : At 0 w) :
    ∃ t W, exec i s = .next t ∧ s.cryptDone t dm ∧
      t.eng = ((planOf i).commit (s.eng.seeded sm dm W)).succeed ∧
      At s.eng.reqLen W ∧ MaskedBy ks s.mem t.mem sm dm s.eng.reqLen := by
  have hL : s.eng.reqLen = 16 * (s.eng.reqLen / 16) + s.eng.reqLen % 16 := (Nat.div_add_mod _ 16).symm
  set m := s.eng.reqLen / 16
  set u := s.eng.reqLen % 16 with hu
  have hwork : At (16 * m) ((planOf i).workAt (s.eng.seeded sm dm w) (streamBlock s.mem sm) m) :=
    hmasks.workAt h0 (show 16 * m ≤ s.eng.reqLen by omega)
  have hblocks {t : State}
      (hout : ∀ k, k < m → streamBlock t.mem dm k =
        (planOf i).outAt (s.eng.seeded sm dm w) (streamBlock s.mem sm) k) (k : Nat) (hk : k < m) :
      streamBytes t.mem dm (16 * k) 16 =
        xorBytes (streamBytes s.mem sm (16 * k) 16) (keystreamBytes ks (16 * k) 16) := by
    rw [← blockBytes_streamBlock, ← blockBytes_streamBlock, hout k hk]
    exact hmasks.outAt h0 (show 16 * (k + 1) ≤ s.eng.reqLen by omega)
  by_cases hrest : u = 0
  case pos =>
    obtain ⟨t, ht, hdone, heng, hout⟩ := exec_bulk hi hready hlen hseed hbulk (by omega)
    rw [hrest] at hL
    exact ⟨t, _, ht, hdone, heng, by rw [hL]; exact hwork, by rw [hL]; exact maskedBy_of_units (hblocks hout) rfl⟩
  case neg =>
    obtain ⟨t, ht, hdone, heng, hout, htail⟩ := exec_bulk_tail hi hready hlen hseed hbulk (by omega) hL rfl
    have hlength := length_streamBytes s.mem sm (16 * m) u
    obtain ⟨hmask, hAt⟩ := hmasks.unit m true _ (streamBytes s.mem sm (16 * m) u) (by omega) (by omega) nofun
      (show _ ≤ s.eng.reqLen by omega) hwork
    rw [hlength] at hmask hAt
    rw [← hL] at hAt
    refine ⟨t, _, ht, hdone, heng, hmasks.pos _ _ _ hAt, ?_⟩
    rw [hL]
    exact maskedBy_of_units (hblocks hout) (htail.trans hmask)

/-! ### CTR -/

/-- The counter block `L_IV + n`, big-endian (R190). -/
def ctrAt (iv : Block) (n : Nat) : Block := blockOf (toBe ((be (blockBytes iv) + n) % 2 ^ 128) 16)

theorem ctrAt_zero (iv : Block) : ctrAt iv 0 = iv := by
  have hbytes : toBe (be (blockBytes iv)) 16 = blockBytes iv := toBe_be (blockBytes iv)
  rw [ctrAt, Nat.add_zero, Nat.mod_eq_of_lt (be_blockBytes_lt iv), hbytes, blockOf_blockBytes]

theorem be_ctrAt (iv : Block) (n : Nat) : be (blockBytes (ctrAt iv n)) = (be (blockBytes iv) + n) % 2 ^ 128 := by
  rw [ctrAt, blockBytes_blockOf (by simp [toBe])]
  exact be_toBe _ 16 ((Nat.mod_lt _ (Nat.two_pow_pos 128)).trans_eq (by norm_num))

theorem ctrInc_ctrAt (iv : Block) (n : Nat) : ctrInc (ctrAt iv n) = ctrAt iv (n + 1) := by
  rw [ctrInc, be_ctrAt, Nat.mod_add_mod, Nat.add_assoc, ctrAt]

/-- The CTR keystream: the encrypted counters, one block after the other (R191). -/
def ctrKeystream (k : Bytes) (iv : Block) (p : Nat) : Byte := (blockBytes (aesE k (ctrAt iv (p / 16)))).getD (p % 16) 0

theorem keystreamBytes_ctr (k : Bytes) (iv : Block) (n : Nat) {r : Nat} (hr : r ≤ 16) :
    keystreamBytes (ctrKeystream k iv) (16 * n) r = (blockBytes (aesE k (ctrAt iv n))).take r :=
  keystreamBytes_blocks (fun n => aesE k (ctrAt iv n)) n hr

/-- `W_CTR` has counted the units before the offset, the last one whole (R192). -/
def CtrAtOffset (iv : Block) (off : Nat) (w : Work) : Prop := w.ctr = ctrAt iv ((off + 15) / 16)

/-- A full block is masked as the rest is, with all 16 keystream bytes. -/
theorem ctrPlan_compute {sg : Bool} {e : Engine} {inTail : Bool} {b : Bytes} (hb : inTail = false → b.length = 16) :
    (ctrPlan sg).compute e inTail b = ctrTail e b := by
  cases inTail with
  | true => rfl
  | false =>
    have hmask : blockBytes (blockOf b ^^^ aesE e.slot.data e.work.ctr) = (ctrTail e b).1 := by
      rw [blockBytes_xor, blockBytes_blockOf (hb rfl), ctrTail, slice_zero,
        List.take_of_length_le (by rw [length_blockBytes, hb rfl])]
    exact congrArg (·, _) hmask

theorem ctrPlan_masks (sg : Bool) (e : Engine) (iv : Block) :
    (ctrPlan sg).Masks e (ctrKeystream e.slot.data iv) (CtrAtOffset iv) where
  unit k inTail w b h0 h16 hb _ hw := by
    have hctr : w.ctr = ctrAt iv k := hw.trans (congrArg (ctrAt iv) (by omega))
    have hnext : (16 * k + b.length + 15) / 16 = k + 1 := by omega
    rw [ctrPlan_compute hb, keystreamBytes_ctr _ _ _ h16, CtrAtOffset, hnext, ← ctrInc_ctrAt, ← hctr]
    exact ⟨rfl, rfl⟩
  pos _ _ _ hw := hw

/-- CRYPT.CTR masks the request, and IV gets the counter it has come to (R191, R192). -/
theorem exec_ctr {sg : Bool} {s : State} {sm dm : List Segment} (hready : s.cryptReady .plain sg sm dm) :
    ∃ t, exec (.cryptCtrEnc sg) s = .next t ∧ s.cryptDone t dm ∧
      MaskedBy (ctrKeystream s.eng.slot.data s.eng.latch.iv) s.mem t.mem sm dm s.eng.reqLen ∧
      t.eng.iv = ctrAt s.eng.latch.iv ((s.eng.reqLen + 15) / 16) := by
  obtain ⟨t, W, ht, hdone, heng, hW, hmasked⟩ := exec_masks (i := .cryptCtrEnc sg) (w := ctrSeed s.eng) rfl hready rfl
    (fun _ => rfl) rfl (ctrPlan_masks sg _ s.eng.latch.iv) (ctrAt_zero _).symm
  exact ⟨t, ht, hdone, hmasked, (congrArg Engine.iv heng).trans hW⟩

/-! ### XCTR -/

/-- `W_BC` has counted the bytes before the offset, mod 2^64 (R193). -/
def XctrAtOffset (start : BitVec 64) (off : Nat) (w : Work) : Prop := w.bc = start + BitVec.ofNat 64 off

/-- A full block is masked as the rest is. -/
theorem xctrPlan_compute {sg : Bool} {e : Engine} {inTail : Bool} {b : Bytes} (hb : inTail = false → b.length = 16) :
    (xctrPlan sg).compute e inTail b = xctrUnit e b := by
  cases inTail with
  | true => rfl
  | false =>
    change (blockBytes (blockOf (xctrUnit e (blockBytes (blockOf b))).1), (xctrUnit e (blockBytes (blockOf b))).2) = _
    rw [blockBytes_blockOf (hb rfl), blockBytes_blockOf ((length_xctrUnit e).trans (hb rfl))]

/-- Where the request ends within the 2^64 bytes of the keystream, no unit begins past them. -/
theorem xctrPlan_masks (sg : Bool) {e : Engine} (iv : Block) {start : BitVec 64} (hiv : e.latch.iv = iv)
    (hrange : start.toNat + e.reqLen ≤ 2 ^ 64) :
    (xctrPlan sg).Masks e (fun j => xctrKeystream e.slot.data iv (start.toNat + j)) (XctrAtOffset start) where
  unit k inTail w b h0 _ hb hk hw := by
    have hbc : w.bc.toNat = start.toNat + 16 * k := by
      rw [hw, BitVec.toNat_add, BitVec.toNat_ofNat, Nat.add_mod_mod, Nat.mod_eq_of_lt (by omega)]
    rw [xctrPlan_compute hb]
    constructor
    · simp only [xctrUnit, keystreamBytes, hiv, hbc, Nat.add_assoc]
    · rw [XctrAtOffset, BitVec.ofNat_add, ← BitVec.add_assoc, ← hw]
      rfl
  pos _ _ _ hw := hw

/-- CRYPT.XCTR masks the request, XCTR gets the byte it has come to, and IV stays (R193, R195). -/
theorem exec_xctr {sg : Bool} {s : State} {sm dm : List Segment} (hready : s.cryptReady .plain sg sm dm)
    (hrange : s.eng.latch.xctr.toNat + s.eng.reqLen ≤ 2 ^ 64) :
    ∃ t, exec (.cryptXctrEnc sg) s = .next t ∧ s.cryptDone t dm ∧
      MaskedBy (fun j => xctrKeystream s.eng.slot.data s.eng.latch.iv (s.eng.latch.xctr.toNat + j)) s.mem t.mem sm dm
        s.eng.reqLen ∧
      t.eng.xctr = s.eng.latch.xctr + BitVec.ofNat 64 s.eng.reqLen ∧ t.eng.iv = s.eng.iv := by
  obtain ⟨t, W, ht, hdone, heng, hW, hmasked⟩ := exec_masks (i := .cryptXctrEnc sg) (w := xctrSeed s.eng) rfl hready
    (if_pos hrange) (fun _ => rfl) rfl (xctrPlan_masks sg s.eng.latch.iv rfl hrange) (BitVec.add_zero _).symm
  exact ⟨t, ht, hdone, hmasked, (congrArg Engine.xctr heng).trans hW, (congrArg Engine.iv heng).trans rfl⟩

/-! ### Directions -/

/-- Both directions of CTR are one operation (R191). -/
theorem exec_eq_ctrEnc {i : Instr} {sg : Bool} (hi : i ∈ [Instr.cryptCtrEnc sg, .cryptCtrDec sg]) (s : State) :
    exec i s = exec (.cryptCtrEnc sg) s := by
  simp only [List.mem_cons, List.not_mem_nil, or_false] at hi
  obtain rfl | rfl := hi <;> rfl

/-- Both directions of XCTR are one operation (R193). -/
theorem exec_eq_xctrEnc {i : Instr} {sg : Bool} (hi : i ∈ [Instr.cryptXctrEnc sg, .cryptXctrDec sg]) (s : State) :
    exec i s = exec (.cryptXctrEnc sg) s := by
  simp only [List.mem_cons, List.not_mem_nil, or_false] at hi
  obtain rfl | rfl := hi <;> rfl

theorem mode_of_xctr {i : Instr} {sg : Bool} (hi : i ∈ [Instr.cryptXctrEnc sg, .cryptXctrDec sg]) :
    i.fields.mode = 5 := by
  simp only [List.mem_cons, List.not_mem_nil, or_false] at hi
  obtain rfl | rfl := hi <;> rfl

/-! ### The obligations -/

/-- Settles O44: the masked request, read block by block and in the rest. -/
theorem ctrTransforms : Obligations.CtrTransforms := by
  intro i sg s sm dm hi hready L q r ctr ks
  obtain ⟨t, ht, hdone, hmasked, hiv⟩ := exec_ctr hready
  refine ⟨t, (exec_eq_ctrEnc hi s).trans ht, hdone, fun k hk => ?block, ?rest, hiv⟩
  case block =>
    have hbytes := hmasked.streamBytes_eq (off := 16 * k) (u := 16) (show _ ≤ L by omega)
    rw [keystreamBytes_ctr _ _ _ le_rfl, List.take_of_length_le (length_blockBytes _).le, ← blockBytes_streamBlock,
      ← blockBytes_streamBlock, ← blockBytes_xor] at hbytes
    rw [← blockOf_blockBytes (streamBlock t.mem dm k), hbytes, blockOf_blockBytes]
    rfl
  case rest =>
    have hbytes := hmasked.streamBytes_eq (off := 16 * q) (u := r) (show _ ≤ L by omega)
    rwa [keystreamBytes_ctr _ _ _ (by omega)] at hbytes

/-- Settles O45: the masked request, byte by byte. -/
theorem xctrTransforms : Obligations.XctrTransforms := by
  intro i sg s sm dm hi hready hrange ks
  obtain ⟨t, ht, hdone, hmasked, hxctr, hiv⟩ := exec_xctr hready hrange
  refine ⟨t, (exec_eq_xctrEnc hi s).trans ht, hdone, hmasked, ?_, hiv⟩
  rw [hxctr, BitVec.toNat_add, BitVec.toNat_ofNat, Nat.add_mod_mod]

/-- Settles O60: both commands mask with one keystream, which the slot, the IV and XCTR determine. -/
theorem streamModesSelfInverse : Obligations.StreamModesSelfInverse := by
  refine ⟨fun sg s => ⟨rfl, rfl⟩, ?_⟩
  intro i j sg sg' s s' t sm dm sm' dm' hmode hready hready' hrange hslot hiv hxctr hlen ht hread
  suffices h : ∃ ks t', MaskedBy ks s.mem t.mem sm dm s.eng.reqLen ∧ exec j s' = .next t' ∧ s'.cryptDone t' dm' ∧
      MaskedBy ks s'.mem t'.mem sm' dm' s.eng.reqLen by
    obtain ⟨ks, t', hmasked, ht', ⟨hdone, _⟩, hmasked'⟩ := h
    exact ⟨t', ht', hdone, hmasked.undo hread hmasked'⟩
  have hmodes : (i ∈ [Instr.cryptCtrEnc sg, .cryptCtrDec sg] ∧ j ∈ [Instr.cryptCtrEnc sg', .cryptCtrDec sg']) ∨
      (i ∈ [Instr.cryptXctrEnc sg, .cryptXctrDec sg] ∧ j ∈ [Instr.cryptXctrEnc sg', .cryptXctrDec sg']) := by
    simp only [List.mem_cons, List.not_mem_nil, or_false, Prod.mk.injEq] at hmode ⊢
    tauto
  obtain ⟨hi, hj⟩ | ⟨hi, hj⟩ := hmodes
  case inl =>
    obtain ⟨u, hu, _, hmasked, _⟩ := exec_ctr hready
    obtain ⟨t', ht', hdone', hmasked', _⟩ := exec_ctr hready'
    obtain rfl := Host.Outcome.next.inj (ht.symm.trans ((exec_eq_ctrEnc hi s).trans hu))
    rw [hslot, hiv, hlen] at hmasked'
    exact ⟨_, t', hmasked, (exec_eq_ctrEnc hj s').trans ht', hdone', hmasked'⟩
  case inr =>
    have hfits := hrange (mode_of_xctr hi)
    obtain ⟨u, hu, _, hmasked, _⟩ := exec_xctr hready hfits
    obtain ⟨t', ht', hdone', hmasked', _⟩ := exec_xctr hready' (by rwa [hxctr, hlen])
    obtain rfl := Host.Outcome.next.inj (ht.symm.trans ((exec_eq_xctrEnc hi s).trans hu))
    rw [hslot, hiv, hxctr, hlen] at hmasked'
    exact ⟨_, t', hmasked, (exec_eq_xctrEnc hj s').trans ht', hdone', hmasked'⟩

end Sys2Proof.Machine
end

section
/-! PROOFS. XTS: blocks under successive tweaks, and the stealing tail under the next two (45_xts.md R211 to R217; O46,
O47). -/

namespace Sys2Proof.Machine

/-! ### The partition -/

/-- Check 3 of XTS (R114). -/
theorem xts_lengthRule {i : Instr} (hi : i.fields.op = 2) (hmode : i.fields.mode = 6) {l : Latch}
    (h : 16 ≤ l.len.toNat) : lengthRule i l = none := by
  unfold lengthRule
  rw [hi, hmode]
  exact if_pos h

/-- The bulk end of XTS, in blocks (R120). -/
theorem xts_bulkBytes {i : Instr} (hi : i.fields.op = 2) (hmode : i.fields.mode = 6) (n : Nat) :
    bulkBytes i n = 16 * if n % 16 = 0 then n / 16 else n / 16 - 1 := by
  unfold bulkBytes
  rw [hi, hmode]
  change (if n % 16 = 0 then n else 16 * (n / 16 - 1)) = _
  split <;> omega

/-! ### The tweaks -/

/-- The next tweak after the one before tweak `n`. -/
theorem mulxLe_iterate_pred {n : Nat} (h : 0 < n) (t : Block) : mulxLe (mulxLe^[n - 1] t) = mulxLe^[n] t := by
  rw [← Function.iterate_succ_apply' mulxLe, Nat.succ_eq_add_one, Nat.sub_add_cancel h]

section
variable {p : Plan} {f : Bytes → Block → Block → Block} (hp : p.block = xtsBlock f) (e : Engine) (b : Nat → Block)
  (k : Nat)
include hp

/-- Every block moves the tweak on by one (R213). -/
theorem Plan.workAt_tweak : (p.workAt e b k).tweak = mulxLe^[k] e.work.tweak := by
  induction k with
  | zero => rfl
  | succ k ih =>
    rw [Plan.workAt_succ, hp, Function.iterate_succ_apply', ← ih]
    rfl

/-- Block `k` goes under tweak `k` (R213, R214). -/
theorem Plan.outAt_xts : p.outAt e b k = f e.slot.data (b k) (mulxLe^[k] e.work.tweak) := by
  rw [← Plan.workAt_tweak hp e b k, Plan.outAt, hp]
  rfl

end

/-! ### The tail unit -/

/-- The tail unit on the bytes of a block and a rest, as a rearrangement `T` of them: R215 or R216. It takes two
tweaks. -/
def xtsUnit (T : Bytes → Block → Bytes → Nat → Block → Bytes) (e : Engine) (t : Bytes) : Bytes × Work :=
  let r := t.length - 16
  (T e.slot.data (blockOf (slice t 0 16)) (slice t 16 (16 + r)) r e.work.tweak,
    { e.work with tweak := mulxLe (mulxLe e.work.tweak) })

theorem xtsEncUnit_eq : xtsEncUnit = xtsUnit xtsEncTail := rfl

theorem xtsDecUnit_eq : xtsDecUnit = xtsUnit xtsDecTail := rfl

theorem xtsUnit_append {T : Bytes → Block → Bytes → Nat → Block → Bytes} (e : Engine) (a : Block) {b : Bytes} {r : Nat}
    (hb : b.length = r) : xtsUnit T e (blockBytes a ++ b) =
      (T e.slot.data a b r e.work.tweak, { e.work with tweak := mulxLe (mulxLe e.work.tweak) }) := by
  have hlength : (blockBytes a ++ b).length = 16 + r := by rw [List.length_append, length_blockBytes, hb]
  have hr : (blockBytes a ++ b).length - 16 = r := by omega
  simp only [xtsUnit, hr, slice_zero, blockOf_take_blockBytes, slice_of_length hlength, drop_blockBytes]

/-- What R215 computes, with the block it completes. -/
theorem xtsEncTail_eq (k : Bytes) (a : Block) (b : Bytes) (r : Nat) (t : Block) : xtsEncTail k a b r t =
    blockBytes (xtsE k (blockOf (b ++ (blockBytes (xtsE k a t)).drop r)) (mulxLe t)) ++
      (blockBytes (xtsE k a t)).take r := by
  rw [xtsEncTail, slice_blockBytes]
  rfl

/-- What R216 computes, with the block it rebuilds. -/
theorem xtsDecTail_eq (k : Bytes) (a : Block) (b : Bytes) (r : Nat) (t : Block) : xtsDecTail k a b r t =
    blockBytes (xtsD k (blockOf (b ++ (blockBytes (xtsD k a (mulxLe t))).drop r)) t) ++
      (blockBytes (xtsD k a (mulxLe t))).take r := by
  rw [xtsDecTail, slice_blockBytes]
  rfl

/-! ### The command -/

/-- An XTS command from the seeded tweak: the blocks of BULK under `f`, what remains rearranged by `T`, and the tweak
after the last one used as IV (R213, R214, R217). -/
theorem exec_xts {i : Instr} (hi : i.fields.op = 2) (hmode : i.fields.mode = 6) {s : State} {sm dm : List Segment}
    {w : Work} {f : Bytes → Block → Block → Block} {T : Bytes → Block → Bytes → Nat → Block → Bytes}
    (hready : s.cryptReady (modeClass i.fields.mode) i.fields.sg sm dm) (h16 : 16 ≤ s.eng.reqLen)
    (hseed : ∀ b, (planOf i).seed b { s.eng with srcMap := sm, dstMap := dm } = .ok w)
    (hblock : (planOf i).block = xtsBlock f) (htail : (planOf i).tail = xtsUnit T)
    (hcommit : (planOf i).commit = commitTweak) :
    let q := s.eng.reqLen / 16
    let r := s.eng.reqLen % 16
    ∃ t, exec i s = .next t ∧ s.cryptDone t dm ∧
      (∀ k, k < (if r = 0 then q else q - 1) →
        streamBlock t.mem dm k = f s.eng.slot.data (streamBlock s.mem sm k) (mulxLe^[k] w.tweak)) ∧
      (r ≠ 0 → streamBytes t.mem dm (16 * (q - 1)) (16 + r) = T s.eng.slot.data (streamBlock s.mem sm (q - 1))
        (streamBytes s.mem sm (16 * q) r) r (mulxLe^[q - 1] w.tweak)) ∧
      t.eng.iv = mulxLe^[if r = 0 then q else q + 1] w.tweak := by
  intro q r
  have hlen : lengthRule i s.eng.latch = none := xts_lengthRule hi hmode h16
  have hbulk : bulkBytes i s.eng.reqLen = 16 * if r = 0 then q else q - 1 := xts_bulkBytes hi hmode _
  by_cases hr : r = 0
  case pos =>
    simp only [if_pos hr] at hbulk ⊢
    obtain ⟨t, ht, hdone, heng, hblocks⟩ := exec_bulk hi hready hlen hseed hbulk (by omega)
    rw [hcommit] at heng
    exact ⟨t, ht, hdone, fun k hk => (hblocks k hk).trans (Plan.outAt_xts hblock _ _ k), fun h => absurd hr h,
      (congrArg Engine.iv heng).trans (Plan.workAt_tweak hblock _ _ q)⟩
  case neg =>
    simp only [if_neg hr] at hbulk ⊢
    have hq : q - 1 + 1 = q := by omega
    obtain ⟨t, ht, hdone, heng, hblocks, hbytes⟩ := exec_bulk_tail (u := 16 + r) hi hready hlen hseed hbulk (by omega)
      (by omega) (by rw [htail, streamBytes_block_append, xtsUnit_append _ _ (length_streamBytes ..), hq])
    have hlast : ((planOf i).workAt (s.eng.seeded sm dm w) (streamBlock s.mem sm) (q - 1)).tweak =
        mulxLe^[q - 1] w.tweak := Plan.workAt_tweak hblock _ _ _
    rw [hcommit] at heng
    refine ⟨t, ht, hdone, fun k hk => (hblocks k hk).trans (Plan.outAt_xts hblock _ _ k), fun _ =>
      hbytes.trans (congrArg (T _ _ _ _) hlast), ?_⟩
    rw [heng, Function.iterate_succ_apply', ← mulxLe_iterate_pred (show 0 < q by omega), ← hlast]
    rfl

/-! ### The obligations -/

/-- Settles O46: the tail completes its last block from the one before, under the tweak after it. -/
theorem xtsEncrypts : Obligations.XtsEncrypts := by
  intro first sg s sm dm hready h16 q r T XE
  obtain ⟨t, ht, hdone, hblocks, htail, hiv⟩ := exec_xts (i := .cryptXtsEnc first sg) (w := xtsSeed first s.eng) rfl rfl
    hready h16 (fun _ => rfl) rfl xtsEncUnit_eq rfl
  refine ⟨t, ht, hdone, hblocks, fun hr => (htail hr).trans ?_, hiv⟩
  rw [xtsEncTail_eq, mulxLe_iterate_pred (show 0 < q by omega)]
  rfl

/-- Settles O47: the tail decrypts its full block under the later tweak first, and rebuilds the other from it. -/
theorem xtsDecrypts : Obligations.XtsDecrypts := by
  intro first sg s sm dm hready h16 q r T XD
  obtain ⟨t, ht, hdone, hblocks, htail, hiv⟩ := exec_xts (i := .cryptXtsDec first sg) (w := xtsSeed first s.eng) rfl rfl
    hready h16 (fun _ => rfl) rfl xtsDecUnit_eq rfl
  refine ⟨t, ht, hdone, hblocks, fun hr => (htail hr).trans ?_, hiv⟩
  rw [xtsDecTail_eq, mulxLe_iterate_pred (show 0 < q by omega)]
  rfl

end Sys2Proof.Machine
end

section
/-! PROOFS. The MAC commands: MAC_INIT starts a computation, MAC_UPDATE chains full blocks into it, and MAC_FINUP adds
the last bytes and makes the tag readable (46_mac.md R231 to R236; O49, O50, O51, O52). -/

namespace Sys2Proof.Machine

/-! ### The plans -/

/-- MAC_INIT starts the computation of its mode (R231). -/
theorem planOf_macInit {i : Instr} (hi : i.fields.op = 3) :
    planOf i = macInitPlan (modeClass i.fields.mode) i.fields.mode := by
  cases i
  case macInitCbcmac | macInitCmac | macInitXcbc => rfl
  all_goals exact absurd hi (by simp [Instr.fields, Fields.fixed, Fields.withBits])

/-- MAC_UPDATE is one operation for every mode (R232). -/
theorem planOf_macUpdate {i : Instr} (hi : i.fields.op = 4) :
    planOf i = macUpdatePlan (modeClass i.fields.mode) i.fields.mode i.fields.sg := by
  cases i
  case macUpdateCbcmac | macUpdateCmac | macUpdateXcbc => rfl
  all_goals exact absurd hi (by simp [Instr.fields, Fields.fixed, Fields.withBits])

/-! ### A command that reads -/

/-- Check 2 of MAC_UPDATE and MAC_FINUP is the key and the active computation (R113). -/
theorem keyAndMacOk_mac {i : Instr} {e : Engine} (h : e.macFor i.fields.mode) : keyAndMacOk i e :=
  ⟨fun _ => h.1, fun _ => h.2⟩

/-- The engine of MAC_UPDATE and MAC_FINUP after SEED. -/
def Engine.macSeeded (e : Engine) (sm : List Segment) : Engine :=
  { e with srcMap := sm, work := { e.work with dg := e.dg } }

section
variable {i : Instr} (hi : i.fields.op.toNat ∈ [4, 5])
include hi

/-- SEED goes on from the digest (R232, R233). -/
theorem planOf_seed_mac (b : Bool) (e : Engine) : (planOf i).seed b e = .ok { e.work with dg := e.dg } := by
  cases i
  case macUpdateCbcmac | macUpdateCmac | macUpdateXcbc | macFinupCbcmac | macFinupCmac | macFinupXcbc => rfl
  all_goals simp [Instr.fields, Fields.fixed, Fields.withBits] at hi

/-- MAC_UPDATE and MAC_FINUP store nothing: COMMIT finds the working registers that the blocks of BULK left, or the
`u` bytes of TAIL where there are any (R120). -/
theorem exec_macReads {s : State} {sm : List Segment} {B u : Nat}
    (hready : s.macReady i.fields.mode i.fields.sg (bytesRead i s.eng.latch) sm)
    (hlen : lengthRule i s.eng.latch = none) (hbulk : bulkBytes i s.eng.reqLen = B)
    (hread : bytesRead i s.eng.latch = B + u) :
    let e := s.eng.macSeeded sm
    let w := (planOf i).workAt e (streamBlock s.mem sm) (B / 16)
    ∃ t, exec i s = .next t ∧ t.eng.succeededFrom s.eng ∧ t.mem = s.mem ∧
      t.eng = ((planOf i).commit { e with work := if u = 0 then w else
        { ((planOf i).tail { e with work := w } (streamBytes s.mem sm B u)).2 with pos := B + u } }).succeed := by
  intro e w
  obtain ⟨hacc, hmac, hstream⟩ := hready
  obtain ⟨_, h0⟩ := Engine.accepted_between hacc
  have hmod : bulkBytes i s.eng.reqLen % 16 = 0 := bulkBytes_mod hlen
  have hop : i.fields.op.toNat ∈ [2, 4, 5] := List.mem_cons_of_mem _ hi
  have hstores : (planOf i).stores = false := by
    rw [planOf_stores, decide_eq_false]
    intro h
    rw [h] at hi
    exact absurd hi (by decide)
  have hw : w.pos = B := by
    rw [Plan.workAt_pos (planOf_block_pos i), show e.work.pos = 0 from h0]
    omega
  have hrun := runCommand_reads (by rw [planOf_moves, decide_eq_true hop]) hstores (planOf_draws_data hop)
    (planOf_checkError_none (keyAndMacOk_mac hmac) hlen) ((planOf_total i s.eng).trans hread)
    ((planOf_bulk i s.eng).trans hbulk) (planOf_seed_mac hi · { s.eng with srcMap := sm }) (planOf_block_pos i) h0 hacc
    (by rwa [planOf_sg, ← hread]) (by omega) rfl ((planOf_tail_pos i { e with work := w } _).trans hw)
  exact ⟨_, (exec_eq i s).trans (congrArg _ hrun), planOf_commit_succeeds i _, rfl, rfl⟩

end

/-! ### MAC_UPDATE -/

/-- Every block is chained into the digest (R232). -/
theorem macUpdatePlan_workAt_dg (c : KeyClass) (m : BitVec 4) (sg : Bool) (e : Engine) (b : Nat → Block) (k : Nat) :
    ((macUpdatePlan c m sg).workAt e b k).dg =
      (List.range k).foldl (fun d j => aesE e.slot.mac (d ^^^ b j)) e.work.dg := by
  induction k with
  | zero => rfl
  | succ k ih =>
    rw [Plan.workAt_succ, List.range_succ, List.foldl_append, ← ih]
    rfl

/-! ### MAC_FINUP -/

/-- The digest that COMMIT leaves: a request of no bytes has had no TAIL (R233; 40_control.md R121). -/
theorem commitFinup_dg (final : KeySlot → Block → Bytes → Block) (e : Engine) :
    (commitFinup final e).dg = if e.reqLen = 0 then final e.slot e.work.dg [] else e.work.dg := by
  unfold commitFinup
  split <;> rfl

/-- A MAC_FINUP of at most one block: the tag is the mode's `final` of the digest and the bytes (R233). -/
theorem exec_macFinup {i : Instr} {final : KeySlot → Block → Bytes → Block} (hi : i.fields.op = 5)
    (hplan : planOf i = macFinupPlan (modeClass i.fields.mode) i.fields.mode final i.fields.sg)
    {s : State} {sm : List Segment} (hready : s.macReady i.fields.mode i.fields.sg s.eng.reqLen sm)
    (h16 : s.eng.reqLen ≤ 16) {tag : Block}
    (htag : final s.eng.slot s.eng.dg (streamBytes s.mem sm 0 s.eng.reqLen) = tag) :
    ∃ t, exec i s = .next t ∧ t.eng.succeededFrom s.eng ∧ t.eng.dg = tag ∧ t.eng.digestView = tag ∧
      t.eng.macActive = false ∧ t.eng.result = 0 ∧ t.mem = s.mem := by
  have hread : bytesRead i s.eng.latch = s.eng.reqLen := by rw [bytesRead, hi]; rfl
  obtain ⟨t, ht, hdone, hmem, heng⟩ := exec_macReads (B := 0) (by rw [hi]; decide) (hread.symm ▸ hready)
    (by rw [lengthRule, hi]; exact if_pos h16) (by rw [bulkBytes, hi]; rfl) (hread.trans (Nat.zero_add _).symm)
  rw [hplan] at heng
  have hdg : t.eng.dg = tag := by
    refine (congrArg Engine.dg heng).trans ((commitFinup_dg final _).trans (Eq.trans ?_ htag))
    by_cases h0 : s.eng.reqLen = 0
    case pos =>
      refine (if_pos h0).trans ?_
      rw [if_pos h0, h0]
      rfl
    case neg =>
      refine (if_neg h0).trans ?_
      rw [if_neg h0]
      rfl
  have hactive : t.eng.macActive = false := congrArg Engine.macActive heng
  refine ⟨t, ht, hdone, hdg, ?_, hactive, congrArg Engine.result heng, hmem⟩
  rw [Engine.digestView, hactive]
  exact hdg

/-- The padded or whole last block under CMAC and XCBC, with the subkey that goes with it (R235, R236). -/
theorem finalCmac_eq (k : Bytes) (sk1 sk2 dg : Block) (m : Bytes) : finalCmac k sk1 sk2 dg m = aesE k (dg ^^^
    (if m.length = 16 then blockOf m ^^^ sk1 else blockOf (m ++ 0x80#8 :: zeros (15 - m.length)) ^^^ sk2)) := by
  unfold finalCmac
  split
  · rw [BitVec.xor_assoc]
  · rw [BitVec.xor_assoc, List.append_assoc]
    rfl

/-! ### The obligations -/

/-- Settles O49: MAC_INIT has no data; its COMMIT starts the computation. -/
theorem macInitStarts : Obligations.MacInitStarts := by
  intro i s hi hkey
  have hcheck : (planOf i).checkError s.eng = none :=
    planOf_checkError_none ⟨fun _ => hkey, fun h => absurd h (by rw [hi]; decide)⟩ (by rw [lengthRule, hi]; rfl)
  rw [planOf_macInit hi] at hcheck
  refine ⟨_, exec_eq i s, ?_⟩
  rw [planOf_macInit hi, runCommand_noData rfl rfl hcheck (fun _ => rfl) rfl rfl]
  exact ⟨⟨rfl, rfl, rfl, rfl, rfl, rfl, rfl⟩, rfl, rfl, rfl, rfl, rfl, rfl, rfl⟩

/-- Settles O50: the blocks of BULK are all that MAC_UPDATE reads. -/
theorem macUpdateChains : Obligations.MacUpdateChains := by
  intro i s sm hi hready
  have hread : bytesRead i s.eng.latch = 16 * (s.eng.reqLen / 16) := by rw [bytesRead, hi]; rfl
  obtain ⟨t, ht, hdone, hmem, heng⟩ := exec_macReads (B := 16 * (s.eng.reqLen / 16)) (u := 0)
    (by rw [hi]; decide) (hread.symm ▸ hready) (by rw [lengthRule, hi]; rfl) (by rw [bulkBytes, hi]; rfl) hread
  rw [planOf_macUpdate hi, Nat.mul_div_cancel_left _ (by decide)] at heng
  obtain ⟨_, ⟨_, hactive, _⟩, _⟩ := hready
  refine ⟨t, ht, hdone, (congrArg Engine.dg heng).trans (macUpdatePlan_workAt_dg ..), ?_,
    (congrArg Engine.macActive heng).trans hactive, (congrArg Engine.macMode heng).trans rfl, hmem⟩
  rw [heng]
  exact (BitVec.toNat_ofNat ..).trans (Nat.mod_eq_of_lt (by omega))

/-- Settles O51: FINAL_CBCMAC on the bytes read. -/
theorem finupCbcmac : Obligations.FinupCbcmac := by
  intro sg s sm hready h16 m tag
  refine exec_macFinup (i := .macFinupCbcmac sg) rfl rfl hready h16 ?_
  rw [finalOfCbcmac, finalCbcmac, length_streamBytes]

/-- Settles O52: the two modes differ in their key elements only. -/
theorem finupCmacAndXcbc : Obligations.FinupCmacAndXcbc := by
  intro i sg s sm hi hready h16 m tag
  have htag : finalCmac s.eng.slot.mac (blockOf s.eng.slot.sk1) (blockOf s.eng.slot.sk2) s.eng.dg m = tag := by
    rw [finalCmac_eq, length_streamBytes]
  simp only [List.mem_cons, List.not_mem_nil, or_false] at hi
  rcases hi with rfl | rfl <;> exact exec_macFinup rfl rfl hready h16 htag

end Sys2Proof.Machine
end

section
/-! PROOFS. What the host sees of the engine's events: the interrupt output, what a command that completes with an error
leaves as it was, and an engine that waits (60_exceptions.md R262, R264, R268, R278; O16, O28, O20). -/

namespace Sys2Proof.Machine

/-! ### The interrupt output -/

/-- The commands by the three frame statements. -/
theorem op_cases (i : Instr) : i.fields.op.toNat ∈ [0, 1] ∨ i.fields.op = 2 ∨ i.fields.op.toNat ∈ [3, 4, 5] := by
  cases i <;> decide +revert

/-- No command changes an enable or an operand register (10_state.md R43; 40_control.md R116): the frames of CRYPT, of
the MAC commands, and of NOP and SETKEY. -/
theorem exec_sameOperands {i : Instr} {s t : State} (ht : exec i s = .next t) : t.eng.sameOperands s.eng := by
  obtain hi | hi | hi := op_cases i
  · obtain ⟨_, _, _, hoperands, _⟩ := setkeyAndNopFrame i s t hi ht
    exact hoperands
  · obtain ⟨hoperands, _⟩ := cryptFrame i s t hi ht
    exact hoperands
  · obtain ⟨_, _, _, _, hoperands, _⟩ := macFrame i s t hi ht
    exact hoperands

theorem Engine.irq_of_done {e : Engine} (h : e.done = true) : e.irq = e.irqEn := by
  rw [Engine.irq, h, Bool.true_or, Bool.and_true]

theorem Engine.irq_of_disabled {e : Engine} (h : e.irqEn = false) : e.irq = false := by
  rw [Engine.irq, h, Bool.false_and]

/-- A write of CTRL with SRST is a reset (R24; 70_reset_and_hazards.md R291). -/
theorem Engine.hostWrite_ctrl_reset {e : Engine} {v : Word} (h : v.getLsbD 0 = true) : e.hostWrite .ctrl v = .reset :=
  if_pos h

/-- A write of CTRL sets IRQ_EN, unless it is a reset, which clears it (R24). -/
theorem Engine.hostWrite_ctrl_irqEn (e : Engine) (v : Word) :
    (e.hostWrite .ctrl v).irqEn = (!v.getLsbD 0 && v.getLsbD 1) := by
  cases h : v.getLsbD 0 with
  | true => rw [Engine.hostWrite_ctrl_reset h]; rfl
  | false => rw [Engine.hostWrite_ctrl h]; rfl

/-- Settles O16: a completion sets DONE and keeps IRQ_EN, and a write of STATUS or CTRL acts on a factor of the level. -/
theorem interruptLevel : Obligations.InterruptLevel := by
  refine ⟨fun i s t ht => ?completed, fun e v => ⟨rfl, fun hdone herr => ?cleared, fun hen => ?disabled,
    fun hrst => ?reset, fun hrst hen => ?enabled⟩⟩
  case completed =>
    obtain ⟨hirqEn, _⟩ := exec_sameOperands ht
    obtain rfl := exec_next ht
    obtain ⟨_, hdone⟩ := runCommand_idle (planOf i) s
    rw [Engine.irq_of_done hdone, hirqEn]
  case cleared => simp [Engine.hostWrite, Engine.irq, hdone, herr]
  case disabled => exact Engine.irq_of_disabled (by rw [Engine.hostWrite_ctrl_irqEn, hen, Bool.and_false])
  case reset => exact Engine.irq_of_disabled (by rw [Engine.hostWrite_ctrl_irqEn, hrst]; rfl)
  case enabled =>
    rw [Engine.hostWrite_ctrl hrst, hen]
    rfl

/-! ### An error completion -/

/-- A command that ends with an error code ended by its error, not by its COMMIT (R262, R266). -/
theorem runCommand_failed {p : Plan} {s : State} (h : (runCommand p s).eng.errCode ≠ 0) :
    ∃ k a t, s.Ran t ∧ runCommand p s = t.setEng ((p.onError t.eng).fail k a) := by
  obtain ⟨k, _, he⟩ | ⟨k, a, t, _, _, hr, he⟩ | ⟨t, _, _, _, he⟩ := runCommand_cases p s
  · exact ⟨k, 0, s, .refl s, he⟩
  · exact ⟨k, a, t, hr, he⟩
  · rw [he] at h
    exact absurd rfl h

/-- Settles O28: the error completion writes the error report only, and beside it a SETKEY drops its key, a MAC command
ends its computation and any other command does nothing. -/
theorem errorsLeaveResults : Obligations.ErrorsLeaveResults := by
  intro i s t ht herr
  have hoperands := exec_sameOperands ht
  obtain ⟨k, a, u, ⟨_, _, _, _, _, _, _, rfl, _⟩, he⟩ := runCommand_failed (exec_next ht ▸ herr)
  rw [← exec_next ht, planOf_onError] at he
  split_ifs at he with hkey hmac <;> obtain rfl := he
  · have hop : i.fields.op = 1 := BitVec.eq_of_toNat_eq hkey
    rw [hop]
    exact ⟨⟨rfl, rfl, rfl, hoperands⟩, absurd rfl, (absurd · (by decide)), (absurd · (by decide))⟩
  · have hop (h : i.fields.op = 2) : 2 ∈ [3, 4, 5] := by rwa [h] at hmac
    exact ⟨⟨rfl, rfl, rfl, hoperands⟩, fun _ => rfl, fun _ => ⟨rfl, rfl, rfl⟩, fun h => absurd (hop h) (by decide)⟩
  · exact ⟨⟨rfl, rfl, rfl, hoperands⟩, fun _ => rfl, (absurd · hmac), fun _ => ⟨rfl, rfl, rfl⟩⟩

/-! ### Waiting -/

theorem State.firstBusy_eq_none {s : State} (h : ∀ e ∈ s.engines, e.busy = false) : s.firstBusy = none :=
  List.findIdx?_eq_none_iff.mpr h

/-- With no turn listed and no command in progress the machine waits. -/
theorem step_waits {s : State} (ht : s.turns = []) (h : ∀ e ∈ s.engines, e.busy = false) : step s = .next s := by
  have hidle : s.eng.busy = false := h s.eng (List.mem_append_right _ List.mem_cons_self)
  simp only [step, ht, unscheduled, hidle, State.firstBusy_eq_none h, Bool.false_eq_true, if_false]

/-- Settles O20: neither the machine nor an idle instance moves. -/
theorem idleEngineWaits : Obligations.IdleEngineWaits :=
  ⟨fun _ => step_waits, fun _ => microStep_idle⟩

end Sys2Proof.Machine
end
